-- ==== Sys2Proof/Word.lean ====
section
/-! DEFINITION. The octet and the small shapes in which the block's inputs arrive: who a request is addressed to,
which analog channel or pulse input a field event is on, stretches of a pulse line, reader characters and the lines
read at a start. -/

namespace Sys2Proof

/-- An octet of the serial line (spec 11, Frames). -/
abbrev Byte := BitVec 8

/-- The part's own address or the group address 31 (R199). -/
inductive Addressee where
  | own
  | group
  deriving DecidableEq, Repr

/-- The four analog channels, numbered 0..3 in this order (R3). -/
inductive Channel where
  | pressure
  | load
  | height
  | torque
  deriving DecidableEq, Repr

/-- The three pulse inputs (R9). -/
inductive PulseInput where
  | a
  | b
  | r
  deriving DecidableEq, Repr

/-- One stretch of a pulse line at one level, in microseconds (R9). -/
structure LineSpan where
  high : Bool
  micros : Nat
  deriving DecidableEq, Repr

/-- One character from the tag reader line, with its framing verdict (R10). -/
structure ReaderChar where
  octet : Byte
  framingError : Bool
  deriving DecidableEq, Repr

/-- The lines as they stand at a start: the strap number (R2) and the levels of the pulse inputs (R9). -/
structure StartLines where
  straps : Fin 32
  highA : Bool
  highB : Bool
  highR : Bool
  deriving DecidableEq, Repr

/-- The seven time categories, in the order of R130's table. -/
inductive Category where
  | standbyClient
  | nonBillable
  | lossControl
  | drilling
  | tripping
  | circulating
  | idleOnSite
  deriving DecidableEq, Repr

end Sys2Proof
end

