-- ==== Sys2Proof/Syntax.lean ====
section
/-! DEFINITION. The commands: one constructor for each row of spec/opcode_table.json, in the table's order. -/

namespace Sys2Proof

/-- A command of the block. Requests carry their addressee (R199) and then the payload fields of their owning rule, as
numbers that can hold every value the field's octets can. -/
inductive Instr where
  /-- R1: power is applied; the monitor reports retention intact or lost; `offSeconds` passed without supply. -/
  | powerApplied (intact : Bool) (offSeconds : Nat) (lines : StartLines)
  /-- R1: the reset input is asserted. -/
  | resetAsserted
  /-- R1: the reset input is released after `heldSeconds`. -/
  | resetReleased (heldSeconds : Nat) (lines : StartLines)
  /-- R205: the last octet of the reply to a RESTART has been sent. -/
  | restartWarmStart (lines : StartLines)
  /-- R3: one channel's sample, a current in microamperes. -/
  | analogSample (ch : Channel) (current : Nat)
  /-- R9: activity of one pulse input. -/
  | pulseAccepted (input : PulseInput) (spans : List LineSpan)
  /-- R31. -/
  | primeComplete
  /-- R42. -/
  | flowWhileStill
  /-- R10: characters from the tag reader. -/
  | tagRead (chars : List ReaderChar)
  /-- R10: more than 50 ms since the last character of the frame being assembled. -/
  | tagFrameTimeout
  /-- R12. -/
  | secondTick
  /-- R154: the billing unit of one category. -/
  | billingUnit (category : Category)
  /-- R13, R24. -/
  | binTick
  /-- R31. -/
  | primeTimeout
  /-- R36. -/
  | bleedConfirmed
  /-- R36. -/
  | stopTimeout
  /-- R100. -/
  | breakPermitTimeout
  /-- R188. -/
  | writeSucceeds
  /-- R189. -/
  | writeProgramFailure
  /-- R190: an ERASE completes, with success or failure. -/
  | eraseCompletion (success : Bool)
  /-- R198: octets arrive from the host without a gap of more than 20 ms or a framing error. -/
  | frameReceived (octets : List Byte)
  /-- R198: more than 20 ms between two octets of a frame. -/
  | rxFrameTimeout
  /-- R202: the last octet of the frame being sent has gone. -/
  | transmitComplete
  /-- R201: a received request whose kind is not in the kind table. -/
  | unknownKind (who : Addressee) (kind : Nat) (payload : List Byte)
  /-- R203. -/
  | readStatus (who : Addressee) (selector : Nat)
  /-- R204. -/
  | readRecords (who : Addressee) (collection sel1 sel2 start count direction : Nat)
  /-- R205. -/
  | restart (who : Addressee)
  /-- R7. -/
  | setChannel (who : Addressee) (channel fullScale : Nat)
  /-- R14. -/
  | setClock (who : Addressee) (time : Nat)
  /-- R17. -/
  | readFieldLines (who : Addressee)
  /-- R18. -/
  | setPump (who : Addressee) (pump displacement efficiency : Nat)
  /-- R19. -/
  | setReturnMeter (who : Addressee) (weight : Nat)
  /-- R27. -/
  | setFlowBalance (who : Addressee) (minVolume totalPercent partialThreshold hysteresis gainThreshold : Nat)
  /-- R40. -/
  | setCirculationLimits (who : Addressee) (primeVolume primeTime stopTime bleedLimit flowCheck : Nat)
  /-- R30. -/
  | startCirculation (who : Addressee) (mask : Nat)
  /-- R35. -/
  | stopCirculation (who : Addressee)
  /-- R37. -/
  | confirmStop (who : Addressee)
  /-- R38. -/
  | resetCirculation (who : Addressee)
  /-- R39. -/
  | pumpTest (who : Addressee) (pump : Nat)
  /-- R47. -/
  | setSection (who : Addressee) (entry top bottom capacity : Nat)
  /-- R48. -/
  | setLagGeometry (who : Addressee) (surface capacity spacing : Nat)
  /-- R67. -/
  | registerRod (who : Addressee) (id length status makeUps rotating : Nat)
  /-- R68. -/
  | delistRod (who : Addressee) (id : Nat)
  /-- R69. -/
  | placeRod (who : Addressee) (id destination : Nat)
  /-- R70. -/
  | setRodStatus (who : Addressee) (id status : Nat)
  /-- R71. -/
  | setRodLimits (who : Addressee) (rotating makeUps : Nat)
  /-- R76. -/
  | setDepthReference (who : Addressee) (bha offset : Nat)
  /-- R81. -/
  | setOverpullLimit (who : Addressee) (limit : Nat)
  /-- R89. -/
  | setJointLimits (who : Addressee) (target tolerance maximum detect timeout : Nat)
  /-- R99. -/
  | requestBreak (who : Addressee)
  /-- R101. -/
  | rackRod (who : Addressee) (destination : Nat)
  /-- R102. -/
  | cancelJoint (who : Addressee)
  /-- R104. -/
  | releaseJoint (who : Addressee)
  /-- R113. -/
  | formation (who : Addressee) (cls : Nat)
  /-- R122: depth and static level may be absent. -/
  | waterStrike (who : Addressee) (yield : Nat) (depth level : Option Nat)
  /-- R125. -/
  | amendNote (who : Addressee) (index note : Nat)
  /-- R133. -/
  | stageBands (who : Addressee) (count : Nat) (floors : List Nat)
  /-- R134: six rates. -/
  | stageFootageRow (who : Addressee) (cls : Nat) (rates : List Nat)
  /-- R135: seven rates. -/
  | stageTimeRates (who : Addressee) (rates : List Nat)
  /-- R136: unit code 0 is UNDEFINED. -/
  | stageMaterial (who : Addressee) (item unit price : Nat)
  /-- R137. -/
  | commitStage (who : Addressee) (trigger : Nat)
  /-- R142. -/
  | cancelStage (who : Addressee)
  /-- R158. -/
  | setCategory (who : Addressee) (override : Nat)
  /-- R159. -/
  | drawMaterial (who : Addressee) (item quantity : Nat)
  /-- R170. -/
  | clearIncident (who : Addressee) (slot : Nat)
  /-- R171. -/
  | clearOverflow (who : Addressee)
  /-- R177. -/
  | setNoticeMask (who : Addressee) (mask : Nat)
  /-- R181: the well identifier is twelve characters. -/
  | openJob (who : Addressee) (number client : Nat) (well : List Byte)
  /-- R183. -/
  | closeJob (who : Addressee) (force : Bool)
  /-- R191. -/
  | retryFiling (who : Addressee)
  /-- R190. -/
  | eraseTicket (who : Addressee) (slot : Nat)
  /-- R192. -/
  | discardTicket (who : Addressee)
  /-- R193. -/
  | releaseStore (who : Addressee)
  /-- R206: the supply is lost. -/
  | powerFails
  /-- R198: octets arrive, and after them one with a framing error. -/
  | rxFramingError (octets : List Byte)
  /-- R198: a length octet above 240 arrives. -/
  | rxLengthAbove240 (length : Byte)
  deriving DecidableEq, Repr

end Sys2Proof
end

