-- ==== Sys2Proof/WellFormed.lean ====
section
/-! DEFINITION. Which commands can exist at the block's connections: an analog current is one the converter can give,
a request's operands fit the octets their fields have under spec 11's encoding, lists have the lengths their fields give,
and the kind of an UNKNOWN_KIND request is one the kind table lacks. What a rule refuses with BAD_ARGUMENT is well formed:
it can be sent, and it is answered. -/

namespace Sys2Proof

/-- The value fits one octet. -/
def fits1 (n : Nat) : Bool := decide (n < 256)
/-- The value fits two octets. -/
def fits2 (n : Nat) : Bool := decide (n < 65536)
/-- The value fits four octets. -/
def fits4 (n : Nat) : Bool := decide (n < 4294967296)

/-- The kinds of the request kind table (spec 11, Frames). -/
def requestKinds : List Nat :=
  [0x01, 0x02, 0x03, 0x08, 0x09, 0x0A, 0x10, 0x11, 0x12, 0x13, 0x14, 0x15, 0x16, 0x17, 0x18, 0x20, 0x21,
   0x28, 0x29, 0x2A, 0x2B, 0x2C, 0x2D, 0x2E, 0x30, 0x31, 0x32, 0x33, 0x34, 0x38, 0x39, 0x3A,
   0x40, 0x41, 0x42, 0x43, 0x44, 0x45, 0x48, 0x49, 0x50, 0x51, 0x52, 0x58, 0x59, 0x5A, 0x5B, 0x5C, 0x5D]

/-- The command can arrive at the block's connections. -/
def Instr.wellFormed : Instr → Bool
  | .powerApplied _ _ _ => true
  | .resetAsserted => true
  | .resetReleased _ _ => true
  | .restartWarmStart _ => true
  | .analogSample _ current => decide (current ≤ 25000)
  | .pulseAccepted _ _ => true
  | .primeComplete => true
  | .flowWhileStill => true
  | .tagRead _ => true
  | .tagFrameTimeout => true
  | .secondTick => true
  | .billingUnit _ => true
  | .binTick => true
  | .primeTimeout => true
  | .bleedConfirmed => true
  | .stopTimeout => true
  | .breakPermitTimeout => true
  | .writeSucceeds => true
  | .writeProgramFailure => true
  | .eraseCompletion _ => true
  | .frameReceived _ => true
  | .rxFrameTimeout => true
  | .transmitComplete => true
  | .unknownKind _ kind payload => decide (kind < 128) && !requestKinds.contains kind && decide (payload.length ≤ 240)
  | .readStatus _ selector => fits1 selector
  | .readRecords _ collection sel1 sel2 start count direction =>
      fits1 collection && fits1 sel1 && fits1 sel2 && fits2 start && fits1 count && fits1 direction
  | .restart _ => true
  | .setChannel _ channel fullScale => fits1 channel && fits4 fullScale
  | .setClock _ time => fits4 time
  | .readFieldLines _ => true
  | .setPump _ pump displacement efficiency => fits1 pump && fits2 displacement && fits2 efficiency
  | .setReturnMeter _ weight => fits2 weight
  | .setFlowBalance _ minVolume totalPercent partialThreshold hysteresis gainThreshold =>
      fits2 minVolume && fits1 totalPercent && fits2 partialThreshold && fits2 hysteresis && fits2 gainThreshold
  | .setCirculationLimits _ primeVolume primeTime stopTime bleedLimit flowCheck =>
      fits2 primeVolume && fits2 primeTime && fits2 stopTime && fits2 bleedLimit && fits2 flowCheck
  | .startCirculation _ mask => fits1 mask
  | .stopCirculation _ => true
  | .confirmStop _ => true
  | .resetCirculation _ => true
  | .pumpTest _ pump => fits1 pump
  | .setSection _ entry top bottom capacity => fits1 entry && fits4 top && fits4 bottom && fits4 capacity
  | .setLagGeometry _ surface capacity spacing => fits2 surface && fits4 capacity && fits1 spacing
  | .registerRod _ id length status makeUps rotating =>
      fits2 id && fits2 length && fits1 status && fits2 makeUps && fits2 rotating
  | .delistRod _ id => fits2 id
  | .placeRod _ id destination => fits2 id && fits1 destination
  | .setRodStatus _ id status => fits2 id && fits1 status
  | .setRodLimits _ rotating makeUps => fits2 rotating && fits2 makeUps
  | .setDepthReference _ bha offset => fits2 bha && fits2 offset
  | .setOverpullLimit _ limit => fits4 limit
  | .setJointLimits _ target tolerance maximum detect timeout =>
      fits4 target && fits2 tolerance && fits4 maximum && fits2 detect && fits2 timeout
  | .requestBreak _ => true
  | .rackRod _ destination => fits1 destination
  | .cancelJoint _ => true
  | .releaseJoint _ => true
  | .formation _ cls => fits1 cls
  | .waterStrike _ yield depth level =>
      fits2 yield && fits4 (depth.getD 0) && fits4 (level.getD 0)
  | .amendNote _ index note => fits2 index && fits1 note
  | .stageBands _ count floors =>
      decide (count = floors.length) && decide (floors.length ≤ 59) && floors.all fits4
  | .stageFootageRow _ cls rates => fits1 cls && decide (rates.length = 6) && rates.all fits4
  | .stageTimeRates _ rates => decide (rates.length = 7) && rates.all fits4
  | .stageMaterial _ item unit price => fits1 item && fits1 unit && fits4 price
  | .commitStage _ trigger => fits1 trigger
  | .cancelStage _ => true
  | .setCategory _ override => fits1 override
  | .drawMaterial _ item quantity => fits1 item && fits4 quantity
  | .clearIncident _ slot => fits1 slot
  | .clearOverflow _ => true
  | .setNoticeMask _ mask => fits1 mask
  | .openJob _ number client well => fits4 number && fits2 client && decide (well.length = 12)
  | .closeJob _ _ => true
  | .retryFiling _ => true
  | .eraseTicket _ slot => fits1 slot
  | .discardTicket _ => true
  | .releaseStore _ => true
  | .powerFails => true
  | .rxFramingError _ => true
  | .rxLengthAbove240 length => decide (240 < length.toNat)

end Sys2Proof
end

