-- ==== Sys2Proof/Decode.lean ====
section
/-! DEFINITION. The command a word of spec/opcode_table.json's bits spells. No row of the table gives bits (its "fields"
are all empty), so no word spells a command; the octets of requests are decoded in Machine/Codec.lean, from spec 11. -/

namespace Sys2Proof

/-- No row of the table gives bits, so every word spells no command (log 28). -/
def decodeTableWord (_nbits _w : Nat) : Option Instr := none

end Sys2Proof
end

