-- ==== Sys2Proof/Config.lean ====
section
/-! DEFINITION. What the spec fixes for the part as a whole (limits and capacities of 00_scope.md and of the rules
named), and the two values it leaves free. -/

namespace Sys2Proof.Config

/-- The limit of every saturating counter of litres, seconds, centimetres and quantities (R20, R52, R74, R145, R153). -/
def counterMax : Nat := 4000000000
/-- The greatest clock reading (R12). -/
def clockMax : Nat := 4294967295
/-- Seconds of a day (spec 01, The seconds clock). -/
def daySeconds : Nat := 86400
/-- The greatest depth held (R77, R79). -/
def depthMax : Nat := 200000
/-- Residue units of one litre (R21, R22). -/
def litreUnits : Nat := 1000000
/-- An open bin's counts stop here (R24). -/
def binMax : Nat := 65535
/-- Closed bins of a full window (R24). -/
def windowBins : Nat := 12
/-- Places of the mark queue (R55). -/
def queuePlaces : Nat := 256
/-- The clamp of a lag volume (R49). -/
def lagVolumeMax : Nat := 999999
/-- Rod records of a full registry (R65). -/
def registryMax : Nat := 448
/-- Rods of a full string (R72, R90). -/
def stringMax : Nat := 400
/-- Magazine slots (R66). -/
def magazineSlots : Nat := 96
/-- Make-up counts, rotating metres, mark counts and penetration rates stop here (R65, R108). -/
def wordMax : Nat := 65535
/-- Interval records of a full log (R111). -/
def intervalMax : Nat := 320
/-- Records of a full strike list (R121). -/
def strikeMax : Nat := 32
/-- A charge line's greatest amount, in cents (R147). -/
def amountMax : Nat := 999999999
/-- The greatest rate or price, in cents (R130). -/
def rateMax : Nat := 9999999
/-- Seconds of one billing unit (R154). -/
def unitSeconds : Nat := 36
/-- What the drilling timer is set to (R156). -/
def drillTime : Nat := 60
/-- What the tripping timer is set to (R157). -/
def tripTime : Nat := 300
/-- The bleed hold count that confirms a bleed (R36). -/
def bleedTicks : Nat := 10
/-- Consecutive in-band samples that restore a channel (R5). -/
def goodMax : Nat := 5
/-- A pulse's accepted width, and the low time that ends a pulse, in microseconds (R9). -/
def pulseMicros : Nat := 2000
/-- Incident slots (R166). -/
def incidentSlots : Nat := 16
/-- Ticket store slots (R187). -/
def storeSlots : Nat := 16
/-- The greatest payload of a frame (R198). -/
def payloadMax : Nat := 240

/-- FREE VALUE (R190, R196; log 10): whether the ERASE in flight on a FILED slot has already removed the slot's
completion marker when a start comes. Nothing constrains it; it is applied to State.free. -/
opaque eraseMarkerGone : Nat → Bool

/-- FREE VALUE (R2, R205; log 13): the straps as they stand at a start that a RESTART begins and whose command carries no
lines. Nothing constrains it; it is applied to State.free. -/
opaque restartStraps : Nat → Fin 32

end Sys2Proof.Config
end

