-- ==== Sys2Proof/Machine/State.lean ====
section
/-! DEFINITION. The state of the RDC-418: one record for each of the eleven blocks of spec 00, each with its values at a
cold start, the whole State with its queue of waiting commands, State.reset, and the reasons a step can stop. -/

namespace Sys2Proof.Machine

/-! ## Field-line unit (spec 01) -/

/-- One analog channel (R3). -/
structure ChannelState where
  value : Nat
  fault : Bool
  good : Nat
  fullScale : Nat
  deriving DecidableEq, Repr

/-- One pulse input's line as the unit judges it (R9): the level, whether a pulse is in progress, the time from its
first rise to the end of its last high stretch, the low time since, whether it has been counted, and whether the input
was found high at a start and has not yet been low for 2 ms. -/
structure PulseLine where
  high : Bool
  inPulse : Bool
  width : Nat
  lowTime : Nat
  counted : Bool
  waitLow : Bool
  deriving DecidableEq, Repr

/-- The kind of a start (R1). -/
inductive StartKind where
  | cold
  | warm
  deriving DecidableEq, Repr

/-- The field-line unit, with the four output lines (R11) and the time base (R12, R16). -/
@[ext]
structure FieldLines where
  pressure : ChannelState
  load : ChannelState
  height : ChannelState
  torque : ChannelState
  pulseA : PulseLine
  pulseB : PulseLine
  pulseR : PulseLine
  reader : List ReaderChar
  pumpAEnable : Bool
  pumpBEnable : Bool
  makeUpPermit : Bool
  breakPermit : Bool
  straps : Fin 32
  backupIntact : Bool
  lastStart : StartKind
  clock : Nat
  clockUnset : Bool
  binPhase : Nat
  binTickTaken : Bool
  dayMark : Nat
  deriving DecidableEq, Repr

/-- A channel at a cold start (R8). -/
def ChannelState.cold (fullScale : Nat) : ChannelState :=
  { value := 0, fault := true, good := 0, fullScale := fullScale }

/-- A pulse line at a start: one found high waits for 2 ms of low (R9). -/
def PulseLine.atStart (high : Bool) : PulseLine :=
  { high := high, inPulse := false, width := 0, lowTime := 0, counted := false, waitLow := high }

/-- The field-line unit at a cold start (R2, R8, R10, R11, R13, R16). -/
def FieldLines.cold (lines : StartLines) : FieldLines :=
  { pressure := .cold 25000, load := .cold 40000, height := .cold 1500, torque := .cold 30000,
    pulseA := .atStart lines.highA, pulseB := .atStart lines.highB, pulseR := .atStart lines.highR, reader := [],
    pumpAEnable := false, pumpBEnable := false, makeUpPermit := false, breakPermit := false,
    straps := lines.straps, backupIntact := false, lastStart := .cold,
    clock := 0, clockUnset := true, binPhase := 0, binTickTaken := false, dayMark := 0 }

/-! ## Circulation monitor (spec 02) -/

/-- The circulation states, in the order of their codes (spec 11, code table). -/
inductive CircState where
  | still
  | priming
  | circulating
  | partialLoss
  | totalLoss
  | stopping
  | stopped
  | pumpTest
  deriving DecidableEq, Repr

/-- A set of pumps (R28; spec 11: bit 0 pump A, bit 1 pump B). -/
structure PumpMask where
  a : Bool
  b : Bool
  deriving DecidableEq, Repr

/-- A pump's configuration (R18); displacement 0 is not configured. -/
structure PumpConfig where
  displacement : Nat
  efficiency : Nat
  deriving DecidableEq, Repr

/-- One bin of the flow-balance window (R24). -/
structure Bin where
  pumped : Nat
  returned : Nat
  deriving DecidableEq, Repr

/-- The last evaluation as kept and reported (R26, R43). -/
structure Evaluation where
  lossRate : Int
  pumped : Nat
  returned : Nat
  verdict : Bool
  deriving DecidableEq, Repr

/-- The five flow-balance settings (R27). -/
structure FlowBalance where
  minVolume : Nat
  totalPercent : Nat
  partialThreshold : Nat
  hysteresis : Nat
  gainThreshold : Nat
  deriving DecidableEq, Repr

/-- The five circulation limits (R40). -/
structure CircLimits where
  primeVolume : Nat
  primeTimeout : Nat
  stopTimeout : Nat
  bleedLimit : Nat
  flowCheck : Nat
  deriving DecidableEq, Repr

/-- The circulation monitor. -/
@[ext]
structure Circulation where
  state : CircState
  mask : PumpMask
  pumpA : PumpConfig
  pumpB : PumpConfig
  meterWeight : Nat
  vp : Nat
  vr : Nat
  vl : Nat
  pumpedResidue : Nat
  returnResidue : Nat
  jobLoss : Nat
  window : List Bin
  openBin : Bin
  totalRun : Nat
  partialRun : Nat
  recoveryRun : Nat
  clearRun : Nat
  gainEpisode : Bool
  primeCount : Nat
  primeTimer : Nat
  stopTimer : Nat
  bleedHolding : Bool
  bleedCount : Nat
  staticCount : Nat
  staticFlag : Bool
  lastEval : Option Evaluation
  balance : FlowBalance
  limits : CircLimits
  deriving DecidableEq, Repr

/-- The empty running mask. -/
def PumpMask.empty : PumpMask := { a := false, b := false }

/-- The circulation monitor at a cold start (R45, with the defaults of R18, R19, R27 and R40). -/
def Circulation.cold : Circulation :=
  { state := .still, mask := .empty,
    pumpA := { displacement := 0, efficiency := 950 }, pumpB := { displacement := 0, efficiency := 950 },
    meterWeight := 1000, vp := 0, vr := 0, vl := 0, pumpedResidue := 0, returnResidue := 0, jobLoss := 0,
    window := [], openBin := { pumped := 0, returned := 0 },
    totalRun := 0, partialRun := 0, recoveryRun := 0, clearRun := 0, gainEpisode := false,
    primeCount := 0, primeTimer := 0, stopTimer := 0, bleedHolding := false, bleedCount := 0,
    staticCount := 0, staticFlag := false, lastEval := none,
    balance := { minVolume := 60, totalPercent := 10, partialThreshold := 40, hysteresis := 10, gainThreshold := 40 },
    limits := { primeVolume := 50, primeTimeout := 600, stopTimeout := 120, bleedLimit := 300, flowCheck := 20 } }

/-! ## Lag tracker (spec 03) -/

/-- An entry of the hole section table; disabled when its bottom is less than its top (R47). -/
structure Section where
  top : Nat
  bottom : Nat
  capacity : Nat
  deriving DecidableEq, Repr

/-- A mark record (R51). -/
structure Mark where
  top : Nat
  bottom : Nat
  laid : Nat
  arrival : Nat
  generation : Nat
  band : Nat
  blind : Bool
  seconds : Nat
  loss : Nat
  forced : Bool
  deriving DecidableEq, Repr

/-- Why a mark retires (R57). -/
inductive RetireCause where
  | arrived
  | overrun
  | close
  deriving DecidableEq, Repr

/-- The lag tracker. The queue is oldest first; `head` is the place of the oldest mark (R55). -/
@[ext]
structure Lag where
  sections : List Section
  surface : Nat
  capacity : Nat
  spacing : Nat
  queue : List Mark
  head : Nat
  spanTop : Nat
  spanSeconds : Nat
  spanLoss : Nat
  spanBlind : Bool
  frontier : Nat
  deriving DecidableEq, Repr

/-- The lag tracker at a cold start (R47, R48, R61). -/
def Lag.cold : Lag :=
  { sections := List.replicate 8 { top := 1, bottom := 0, capacity := 0 },
    surface := 150, capacity := 20000, spacing := 50, queue := [], head := 0,
    spanTop := 0, spanSeconds := 0, spanLoss := 0, spanBlind := false, frontier := 0 }

/-! ## Rod registry and depth (spec 04) -/

/-- A rod's status, in the order of its codes (R65, R172). -/
inductive RodStatus where
  | serviceable
  | inspect
  | retired
  deriving DecidableEq, Repr

/-- Where a rod is (R65). -/
inductive RodLocation where
  | yard
  | magazine (slot : Nat)
  | arm
  | string (index : Nat)
  deriving DecidableEq, Repr

/-- A rod record (R65). -/
structure Rod where
  id : Nat
  length : Nat
  status : RodStatus
  makeUps : Nat
  rotating : Nat
  location : RodLocation
  entryFootage : Option Nat
  makeUpPeak : Option Nat
  breakPeak : Option Nat
  deriving DecidableEq, Repr

/-- The rod registry and depth block. The registry is kept in ascending order of rod id; the string is bottom first. -/
@[ext]
structure Rods where
  registry : List Rod
  magazine : List (Option Nat)
  string : List Nat
  stringLength : Nat
  footage : Nat
  rotatingLimit : Nat
  makeUpLimit : Nat
  bhaLength : Nat
  headOffset : Nat
  bitDepth : Nat
  holeDepth : Nat
  depthClamp : Bool
  unclamped : Int
  overpullLimit : Nat
  overpull : Bool
  deriving DecidableEq, Repr

/-- The rod registry and depth block at a cold start (R76, R81, R84). -/
def Rods.cold : Rods :=
  { registry := [], magazine := List.replicate Config.magazineSlots none, string := [], stringLength := 0, footage := 0,
    rotatingLimit := 0, makeUpLimit := 0, bhaLength := 0, headOffset := 0, bitDepth := 0, holeDepth := 0,
    depthClamp := false, unclamped := 0, overpullLimit := 0, overpull := false }

/-! ## Joint controller (spec 05) -/

/-- The joint states, in the order of their codes (spec 11). -/
inductive JointState where
  | ready
  | loaded
  | breakPermit
  | unloaded
  | held
  deriving DecidableEq, Repr

/-- The source kept in the arm record (spec 05, introduction). -/
inductive ArmSource where
  | slot (k : Nat)
  | yard
  | string
  deriving DecidableEq, Repr

/-- The arm record. -/
structure Arm where
  rod : Nat
  source : ArmSource
  deriving DecidableEq, Repr

/-- A torque episode in progress (R92). -/
structure Episode where
  peak : Nat
  permitLow : Bool
  deriving DecidableEq, Repr

/-- How an episode ended (R92), in the order of that rule. -/
inductive EpisodeOutcome where
  | made
  | overtorque
  | short
  | bypass
  | stray
  | broken
  | ignored
  deriving DecidableEq, Repr

/-- The peak and outcome of the last ended episode (R92). -/
structure LastEpisode where
  peak : Nat
  outcome : EpisodeOutcome
  deriving DecidableEq, Repr

/-- The five joint limits (R89). -/
structure JointLimits where
  target : Nat
  tolerance : Nat
  maximum : Nat
  detect : Nat
  timeout : Nat
  deriving DecidableEq, Repr

/-- The joint controller. -/
@[ext]
structure Joint where
  state : JointState
  arm : Option Arm
  episode : Option Episode
  last : Option LastEpisode
  timer : Nat
  heldRef : Option Nat
  limits : JointLimits
  deriving DecidableEq, Repr

/-- The joint controller at a cold start (R89, R106). -/
def Joint.cold : Joint :=
  { state := .ready, arm := none, episode := none, last := none, timer := 0, heldRef := none,
    limits := { target := 12000, tolerance := 1500, maximum := 16000, detect := 2000, timeout := 120 } }

/-! ## Strata log (spec 06) -/

/-- An interval's origin, in the order of its codes (spec 11, interval record). -/
inductive Origin where
  | observed
  | resumed
  | blind
  | unobserved
  deriving DecidableEq, Repr

/-- An interval record (R108); its index is its position. The bottom is absent while it is open. -/
structure Interval where
  top : Nat
  bottom : Option Nat
  cls : Nat
  origin : Origin
  opened : Nat
  seconds : Nat
  loss : Nat
  marks : Nat
  rate : Option Nat
  waterBearing : Bool
  forced : Bool
  note : Nat
  deriving DecidableEq, Repr

/-- A water-strike record (R121). -/
structure Strike where
  depth : Nat
  yield : Nat
  level : Option Nat
  time : Nat
  auto : Bool
  deriving DecidableEq, Repr

/-- The strata log. -/
@[ext]
structure Strata where
  intervals : List Interval
  strikes : List Strike
  resumeClass : Nat
  drain : Bool
  fullSeen : Bool
  deriving DecidableEq, Repr

/-- The strata log at a cold start (R129). -/
def Strata.cold : Strata :=
  { intervals := [], strikes := [], resumeClass := 15, drain := false, fullSeen := false }

/-! ## Pricing unit (spec 07) -/

/-- The units of a material item, in the order of their codes 1..5 (spec 11). -/
inductive MaterialUnit where
  | kg
  | litre
  | bag
  | piece
  | metre
  deriving DecidableEq, Repr

/-- A defined material item (R130). -/
structure Material where
  unit : MaterialUnit
  price : Nat
  deriving DecidableEq, Repr

/-- A rate set in force (R130): the band floors (band 0 first), sixteen rows of six rates, seven time rates and
thirty-two material items. -/
structure RateSet where
  generation : Nat
  floors : List Nat
  rows : List (List Nat)
  times : List Nat
  materials : List (Option Material)
  deriving DecidableEq, Repr

/-- The staging set, any part of which may be absent (R130, R132). -/
structure Staging where
  floors : Option (List Nat)
  rows : List (Option (List Nat))
  times : Option (List Nat)
  materials : List (Option Material)
  deriving DecidableEq, Repr

/-- The commit trigger, in the order of R137. -/
inductive Trigger where
  | immediate
  | nextConnection
  | nextDay
  deriving DecidableEq, Repr

/-- The staging state with its trigger (spec 07, Commit, trigger and swap). -/
inductive StageState where
  | editing
  | armed (t : Trigger)
  | due (t : Trigger)
  deriving DecidableEq, Repr

/-- The kinds of charge line, in the order of their codes (R145). -/
inductive LineKind where
  | footage
  | time
  | material
  deriving DecidableEq, Repr

/-- The key of a keyed line: its generation, and key A and key B of spec 11's charge-line record (class and band,
category and 0, or item and 0). -/
structure LineKey where
  generation : Nat
  a : Nat
  b : Nat
  deriving DecidableEq, Repr

/-- A charge line (R145); a consolidated line has no key. -/
structure ChargeLine where
  kind : LineKind
  key : Option LineKey
  amount : Nat
  residue : Nat
  quantity : Nat
  saturated : Bool
  deriving DecidableEq, Repr

/-- The pricing unit. -/
@[ext]
structure Pricing where
  active : Option RateSet
  previous : Option RateSet
  staging : Staging
  stage : StageState
  lines : List ChargeLine
  saturationSeen : Bool
  deriving DecidableEq, Repr

/-- A line with nothing priced into it (R143, R148). -/
def ChargeLine.fresh (kind : LineKind) (key : Option LineKey) : ChargeLine :=
  { kind := kind, key := key, amount := 0, residue := 0, quantity := 0, saturated := false }

/-- The three consolidated lines at indices 0, 1 and 2 (R145). -/
def consolidatedLines : List ChargeLine :=
  [.fresh .footage none, .fresh .time none, .fresh .material none]

/-- The empty staging set (R132). -/
def Staging.empty : Staging :=
  { floors := none, rows := List.replicate 16 none, times := none, materials := List.replicate 32 none }

/-- The pricing unit at a cold start (R151). -/
def Pricing.cold : Pricing :=
  { active := none, previous := none, staging := .empty, stage := .editing, lines := consolidatedLines,
    saturationSeen := false }

/-! ## Billing clock (spec 08) -/

/-- The category override, in the order of R158. -/
inductive Override where
  | off
  | standbyClient
  | nonBillable
  deriving DecidableEq, Repr

/-- The billing clock; totals and residues hold one entry for each category, in category order. -/
@[ext]
structure Billing where
  override : Override
  drillTimer : Nat
  tripTimer : Nat
  totals : List Nat
  residues : List Nat
  running : Nat
  last : Option Category
  deriving DecidableEq, Repr

/-- The billing clock at a cold start (R164). -/
def Billing.cold : Billing :=
  { override := .off, drillTimer := 0, tripTimer := 0, totals := List.replicate 7 0, residues := List.replicate 7 0,
    running := 0, last := none }

/-! ## Incident table and notice unit (spec 09) -/

/-- The incident kinds, in the order of their codes 1..29 (R172). -/
inductive IncidentKind where
  | channelFault
  | counterSaturated
  | strokeWithoutEnable
  | primeNoReturns
  | lossPartial
  | lossTotal
  | bleedUnconfirmed
  | resetUnderPressure
  | flowGain
  | flowWhileStill
  | powerRestoredPumping
  | lagClamped
  | lagQueueOverrun
  | overpull
  | unknownRod
  | rodMismatch
  | rodNotServiceable
  | stringFull
  | overtorque
  | shortTorque
  | interlockBypass
  | strayTorque
  | rodOrphaned
  | strataLogFull
  | strikeListFull
  | chargeSaturated
  | chargeLinesFull
  | storeFault
  | tornTicket
  deriving DecidableEq, Repr

/-- An incident record (R166). -/
structure Incident where
  kind : IncidentKind
  first : Nat
  last : Nat
  hole : Nat
  detail1 : Nat
  detail2 : Nat
  repeats : Nat
  pending : Bool
  deriving DecidableEq, Repr

/-- The notice classes, in the order of their codes 0..5 (spec 11, status selector). -/
inductive NoticeClass where
  | circulation
  | joint
  | strata
  | billing
  | incident
  | store
  deriving DecidableEq, Repr

/-- One flag for each notice class (R174). -/
structure ClassFlags where
  circulation : Bool
  joint : Bool
  strata : Bool
  billing : Bool
  incident : Bool
  store : Bool
  deriving DecidableEq, Repr

/-- The incident table and notice unit. -/
@[ext]
structure Incidents where
  slots : List (Option Incident)
  order : List Nat
  lastWritten : Nat
  overflow : Bool
  flags : ClassFlags
  masks : ClassFlags
  deriving DecidableEq, Repr

/-- All six flags at one value. -/
def ClassFlags.all (v : Bool) : ClassFlags :=
  { circulation := v, joint := v, strata := v, billing := v, incident := v, store := v }

/-- The incident table and notice unit at a cold start (R178). -/
def Incidents.cold : Incidents :=
  { slots := List.replicate Config.incidentSlots none, order := [], lastWritten := 15, overflow := false,
    flags := .all false, masks := .all true }

/-! ## Job controller and ticket store (spec 10) -/

/-- The job states, in the order of their codes (spec 11): NONE, OPEN, CLOSING, UNFILED. -/
inductive JobState where
  | noJob
  | opened
  | closing
  | unfiled
  deriving DecidableEq, Repr

/-- The filing outcomes, in the order of R180. -/
inductive FilingOutcome where
  | filed
  | programFailed
  | interrupted
  | storeFull
  | storeProtected
  deriving DecidableEq, Repr

/-- The job context (R180). -/
structure JobContext where
  number : Nat
  client : Nat
  well : List Byte
  openTime : Nat
  startDepth : Nat
  closeTime : Option Nat
  overrunSeen : Bool
  filing : Option FilingOutcome
  deriving DecidableEq, Repr

/-- A ticket's header (R185). -/
structure TicketHeader where
  number : Nat
  client : Nat
  well : List Byte
  openTime : Nat
  closeTime : Nat
  startDepth : Nat
  finalDepth : Nat
  generation : Nat
  jobLoss : Nat
  vp : Nat
  vr : Nat
  deriving DecidableEq, Repr

/-- The closing status record (R186). -/
structure ClosingStatus where
  forced : Bool
  saturationSeen : Bool
  logFullSeen : Bool
  overrunSeen : Bool
  deriving DecidableEq, Repr

/-- A ticket in its six parts (R185). -/
structure Ticket where
  header : TicketHeader
  intervals : List Interval
  strikes : List Strike
  lines : List ChargeLine
  totals : List Nat
  residues : List Nat
  running : Nat
  status : ClosingStatus
  deriving DecidableEq, Repr

/-- A ticket store slot (R187). Only a FILED slot's content can be read (R195), so only it is held. -/
inductive StoreSlot where
  | erased
  | writing
  | filed (t : Ticket)
  | defective
  | torn
  deriving DecidableEq, Repr

/-- The store operation in flight with its target slot (R187). -/
inductive StoreOp where
  | write (slot : Nat)
  | erase (slot : Nat)
  deriving DecidableEq, Repr

/-- The job controller and ticket store. -/
@[ext]
structure Jobs where
  state : JobState
  context : Option JobContext
  buffer : Option Ticket
  slots : List StoreSlot
  isProtected : Bool
  op : Option StoreOp
  deriving DecidableEq, Repr

/-- The job controller at a cold start, over the slots the store keeps (R196). -/
def Jobs.cold (slots : List StoreSlot) : Jobs :=
  { state := .noJob, context := none, buffer := none, slots := slots, isProtected := false, op := none }

/-! ## Link controller (spec 11) -/

/-- A received request's form as R201's steps 1 and 2 judge it: a kind the kind table lacks, a wrong length, a flag or
presence octet that is neither 0 nor 1 (log 16), or a request for its owner. -/
inductive RequestForm where
  | unknownKind
  | badLength
  | badOctet
  | request (i : Instr)
  deriving DecidableEq, Repr

/-- A received request (R198). Its form depends on its octets alone, so it is held as judged (log 4). -/
structure Received where
  who : Addressee
  kind : Nat
  form : RequestForm
  deriving DecidableEq, Repr

/-- A frame the part sends; its octets are given in Machine/Operands.lean. -/
structure Frame where
  address : Nat
  kind : Nat
  payload : List Byte
  deriving DecidableEq, Repr

/-- The link controller. The holding place is oldest first: in progress, then held (R200). -/
@[ext]
structure Link where
  rx : List Byte
  holding : List Received
  reply : Option Frame
  notices : List NoticeClass
  sending : Option Frame
  rxOverrun : Bool
  deriving DecidableEq, Repr

/-- The link controller at every start (R206). -/
def Link.atStart : Link :=
  { rx := [], holding := [], reply := none, notices := [], sending := none, rxOverrun := false }

/-! ## The whole part -/

/-- The two lines that decide whether the part runs: its supply, and the level of the reset input, asserted or not, which
stands whether or not there is a supply (R1, R206). -/
structure Power where
  supply : Bool
  resetLine : Bool
  deriving DecidableEq, Repr

/-- The part runs: it has its supply, and the reset input is not asserted (R1). -/
def Power.running : Power := { supply := true, resetLine := false }

/-- The state of the part, the queue of commands waiting, and the counter the free values are applied to. -/
@[ext]
structure State where
  power : Power
  flu : FieldLines
  circ : Circulation
  lag : Lag
  rods : Rods
  joint : Joint
  strata : Strata
  price : Pricing
  bill : Billing
  inc : Incidents
  jobs : Jobs
  link : Link
  free : Nat
  pending : List Instr
  deriving DecidableEq, Repr

/-- Every block's cold values, over the slots the store keeps (R1). -/
def State.cold (power : Power) (lines : StartLines) (slots : List StoreSlot) (free : Nat) (pending : List Instr) :
    State :=
  { power := power, flu := .cold lines, circ := .cold, lag := .cold, rods := .cold, joint := .cold,
    strata := .cold, price := .cold, bill := .cold, inc := .cold, jobs := .cold slots, link := .atStart,
    free := free, pending := pending }

/-- The lines at State.reset: the strap number of spec 11's worked example, pulse inputs low (log 1). -/
def resetLines : StartLines := { straps := 7, highA := false, highB := false, highR := false }

/-- The part right after a cold start, with an empty store and no command waiting (log 1, 2, 3). -/
def State.reset : State :=
  State.cold .running resetLines (List.replicate Config.storeSlots .erased) 0 []

/-- The reasons a step faults. There is none: the spec stops the part on nothing (INVENTORY.md, Faults), so no
constructor is declared and no step answers a fault. -/
inductive Fault where
  deriving DecidableEq, Repr

/-- The reasons a step is refused. -/
inductive Refusal where
  /-- Raised by exec's arm of a command that has no meaning yet, and by nothing else; safe. No arm raises it now. -/
  | notModelled (mnemonic : String)
  deriving DecidableEq, Repr

end Sys2Proof.Machine
end

