-- ==== Sys2Proof/Machine/Flags.lean ====
section
/-! DEFINITION. Flags: the groups of circulation states, the output lines, the notice classes' pending and mask flags
and the notices they hand on, and the codes by which states and flags are reported. -/

namespace Sys2Proof.Machine

/-! ## Groups of circulation states (R28) -/

/-- PRIMING, CIRCULATING, PARTIAL_LOSS, TOTAL_LOSS, PUMP_TEST (R28). -/
def CircState.pumping : CircState → Bool
  | .priming | .circulating | .partialLoss | .totalLoss | .pumpTest => true
  | .still | .stopping | .stopped => false

/-- The pumping states other than TOTAL_LOSS (R28). -/
def CircState.lagCarrying : CircState → Bool
  | .priming | .circulating | .partialLoss | .pumpTest => true
  | .still | .totalLoss | .stopping | .stopped => false

/-- CIRCULATING, PARTIAL_LOSS, TOTAL_LOSS (R28). -/
def CircState.evaluating : CircState → Bool
  | .circulating | .partialLoss | .totalLoss => true
  | .still | .priming | .stopping | .stopped | .pumpTest => false

/-- Bins run in the pumping states (R24). -/
def CircState.binsRun : CircState → Bool := CircState.pumping

/-- The states whose entry clears the flow-balance window (R24). -/
def CircState.clearsWindow : CircState → Bool
  | .priming | .circulating | .totalLoss | .still | .stopping | .stopped => true
  | .partialLoss | .pumpTest => false

/-- STILL or STOPPED: the states of the static-flow check, the make-up permit and REQUEST BREAK (R42, R87, R99). -/
def CircState.resting : CircState → Bool
  | .still | .stopped => true
  | .priming | .circulating | .partialLoss | .totalLoss | .stopping | .pumpTest => false

/-! ## Codes (spec 11, code table) -/

/-- 1 for a set flag, 0 for a clear one (spec 11, Payload fields). -/
def flagCode (b : Bool) : Nat := if b then 1 else 0

def CircState.code : CircState → Nat
  | .still => 0 | .priming => 1 | .circulating => 2 | .partialLoss => 3
  | .totalLoss => 4 | .stopping => 5 | .stopped => 6 | .pumpTest => 7

def JointState.code : JointState → Nat
  | .ready => 0 | .loaded => 1 | .breakPermit => 2 | .unloaded => 3 | .held => 4

def JobState.code : JobState → Nat
  | .noJob => 0 | .opened => 1 | .closing => 2 | .unfiled => 3

/-- Bit 0 pump A, bit 1 pump B. -/
def PumpMask.code (m : PumpMask) : Nat := flagCode m.a + 2 * flagCode m.b

def RodStatus.code : RodStatus → Nat
  | .serviceable => 0 | .inspect => 1 | .retired => 2

def EpisodeOutcome.code : EpisodeOutcome → Nat
  | .made => 0 | .overtorque => 1 | .short => 2 | .bypass => 3 | .stray => 4 | .broken => 5 | .ignored => 6

def Origin.code : Origin → Nat
  | .observed => 0 | .resumed => 1 | .blind => 2 | .unobserved => 3

def MaterialUnit.code : MaterialUnit → Nat
  | .kg => 1 | .litre => 2 | .bag => 3 | .piece => 4 | .metre => 5

def Trigger.code : Trigger → Nat
  | .immediate => 0 | .nextConnection => 1 | .nextDay => 2

def StageState.code : StageState → Nat
  | .editing => 0 | .armed _ => 1 | .due _ => 2

/-- The trigger, present in ARMED and DUE (R150). -/
def StageState.trigger : StageState → Option Trigger
  | .editing => none | .armed t => some t | .due t => some t

def LineKind.code : LineKind → Nat
  | .footage => 0 | .time => 1 | .material => 2

/-- The number of a time category (R130). -/
def categoryCode : Category → Nat
  | .standbyClient => 0 | .nonBillable => 1 | .lossControl => 2 | .drilling => 3
  | .tripping => 4 | .circulating => 5 | .idleOnSite => 6

def Override.code : Override → Nat
  | .off => 0 | .standbyClient => 1 | .nonBillable => 2

def FilingOutcome.code : FilingOutcome → Nat
  | .filed => 0 | .programFailed => 1 | .interrupted => 2 | .storeFull => 3 | .storeProtected => 4

def StoreSlot.code : StoreSlot → Nat
  | .erased => 0 | .writing => 1 | .filed _ => 2 | .defective => 3 | .torn => 4

def StartKind.code : StartKind → Nat
  | .cold => 0 | .warm => 1

/-- The code of an incident kind (R172). -/
def IncidentKind.code : IncidentKind → Nat
  | .channelFault => 1 | .counterSaturated => 2 | .strokeWithoutEnable => 3 | .primeNoReturns => 4
  | .lossPartial => 5 | .lossTotal => 6 | .bleedUnconfirmed => 7 | .resetUnderPressure => 8
  | .flowGain => 9 | .flowWhileStill => 10 | .powerRestoredPumping => 11 | .lagClamped => 12
  | .lagQueueOverrun => 13 | .overpull => 14 | .unknownRod => 15 | .rodMismatch => 16
  | .rodNotServiceable => 17 | .stringFull => 18 | .overtorque => 19 | .shortTorque => 20
  | .interlockBypass => 21 | .strayTorque => 22 | .rodOrphaned => 23 | .strataLogFull => 24
  | .strikeListFull => 25 | .chargeSaturated => 26 | .chargeLinesFull => 27 | .storeFault => 28
  | .tornTicket => 29

def NoticeClass.code : NoticeClass → Nat
  | .circulation => 0 | .joint => 1 | .strata => 2 | .billing => 3 | .incident => 4 | .store => 5

/-! ## The output lines -/

/-- The monitor commands both pump enables: high in a pumping state for a pump of the running mask (R28). -/
def commandEnables (s : State) : State :=
  { s with flu.pumpAEnable := s.circ.state.pumping && s.circ.mask.a,
           flu.pumpBEnable := s.circ.state.pumping && s.circ.mask.b }

/-- The level of the make-up permit: LOADED with circulation STILL or STOPPED (R87). -/
def makeUpLevel (s : State) : Bool := decide (s.joint.state = .loaded) && s.circ.state.resting

/-- The joint controller commands both permits (R86, R87, R88). While an episode is in progress a command of the
make-up permit to low sets its permit-low flag (R92). -/
def commandPermits (s : State) : State :=
  { s with flu.makeUpPermit := makeUpLevel s,
           flu.breakPermit := decide (s.joint.state = .breakPermit),
           joint.episode := s.joint.episode.map fun e => { e with permitLow := e.permitLow || !makeUpLevel s } }

/-- All four lines low (R1, R11). -/
def dropOutputs (s : State) : State :=
  { s with flu.pumpAEnable := false, flu.pumpBEnable := false, flu.makeUpPermit := false, flu.breakPermit := false }

/-! ## Notice classes -/

def ClassFlags.get (f : ClassFlags) : NoticeClass → Bool
  | .circulation => f.circulation
  | .joint => f.joint
  | .strata => f.strata
  | .billing => f.billing
  | .incident => f.incident
  | .store => f.store

def ClassFlags.set (f : ClassFlags) (c : NoticeClass) (v : Bool) : ClassFlags :=
  match c with
  | .circulation => { f with circulation := v }
  | .joint => { f with joint := v }
  | .strata => { f with strata := v }
  | .billing => { f with billing := v }
  | .incident => { f with incident := v }
  | .store => { f with store := v }

/-- The six flags as bits 0..5 of one octet (R177, spec 11 summary). -/
def ClassFlags.bits (f : ClassFlags) : Nat :=
  flagCode f.circulation + 2 * flagCode f.joint + 4 * flagCode f.strata + 8 * flagCode f.billing +
    16 * flagCode f.incident + 32 * flagCode f.store

/-- The six flags that bits 0..5 of a number spell (R177). -/
def ClassFlags.ofBits (n : Nat) : ClassFlags :=
  { circulation := n.testBit 0, joint := n.testBit 1, strata := n.testBit 2, billing := n.testBit 3,
    incident := n.testBit 4, store := n.testBit 5 }

/-- The part's own address: straps 1..30; 0 and 31 give none (R2). -/
def ownAddress (s : State) : Option Nat :=
  if 1 ≤ s.flu.straps.val ∧ s.flu.straps.val ≤ 30 then some s.flu.straps.val else none

/-- The line rate the straps select, in bit/s (R2). -/
def lineRate (s : State) : Nat :=
  if s.flu.straps.val ≤ 10 then 19200 else if s.flu.straps.val ≤ 20 then 57600 else 115200

/-- A notice of a class is handed to the link controller: it takes its class's place, or is dropped where one waits
(R175, R202) or the part sends no frame (R199). -/
def handNotice (c : NoticeClass) (s : State) : State :=
  if (ownAddress s).isNone || s.link.notices.contains c then s
  else { s with link.notices := s.link.notices ++ [c] }

/-- An event of a class sets its pending flag; a change from clear to set while unmasked hands on a notice (R174, R175). -/
def notify (c : NoticeClass) (s : State) : State :=
  if s.inc.flags.get c then s
  else
    let s1 := { s with inc.flags := s.inc.flags.set c true }
    if s.inc.masks.get c then s1 else handNotice c s1

/-- READ STATUS of a class clears its pending flag (R176). -/
def clearPending (c : NoticeClass) (s : State) : State :=
  { s with inc.flags := s.inc.flags.set c false }

/-- The four-octet summary's octets as numbers (R201). -/
def summaryCodes (s : State) : List Nat :=
  [s.circ.state.code, s.joint.state.code, s.jobs.state.code,
   s.inc.flags.bits + 64 * flagCode s.link.rxOverrun + 128 * flagCode s.flu.clockUnset]

end Sys2Proof.Machine
end

