-- ==== Sys2Proof/Machine/Ops.lean ====
section
/-! DEFINITION. Operations every block shares: saturating sums, list updates, and recording an incident (R166, R167,
R168), which is what this block has in place of taking an exception. -/

namespace Sys2Proof.Machine

/-- A sum that stops at a limit. -/
def satAdd (limit a b : Nat) : Nat := min (a + b) limit

/-- The entry of a list at an index is replaced by a function of it. -/
def setAt {α : Type} (l : List α) (i : Nat) (f : α → α) : List α := l.modify i f

/-- The last entry of a list is replaced by a function of it. -/
def updateLast {α : Type} (f : α → α) : List α → List α
  | [] => []
  | [x] => [f x]
  | x :: y :: rest => x :: updateLast f (y :: rest)

/-- The number of a day (spec 01, The seconds clock). -/
def dayNumber (clock : Nat) : Nat := clock / Config.daySeconds

/-- The value lies in a range, both ends included. -/
def inRange (lo hi n : Nat) : Bool := decide (lo ≤ n) && decide (n ≤ hi)

/-! ## The incident table -/

/-- A slot holds a pending record of the kind (R167). -/
def pendingOfKind (kind : IncidentKind) (slot : Option Incident) : Bool :=
  slot.any fun r => r.pending && decide (r.kind = kind)

/-- A slot is free: empty, or its record is not pending (R166). -/
def slotFree (slot : Option Incident) : Bool := !(slot.any fun r => r.pending)

/-- The slot numbers in circular order from the one after the last written to the last written itself (R168). -/
def searchOrder (lastWritten : Nat) : List Nat :=
  (List.range Config.incidentSlots).map fun j => (lastWritten + 1 + j) % Config.incidentSlots

/-- The slot is pending (R166). -/
def slotPending (s : State) (n : Nat) : Bool := ((s.inc.slots[n]?).getD none).any fun r => r.pending

/-- A recording is merged into slot `n` (R167). -/
def mergeIncident (n : Nat) (s : State) : State :=
  { s with inc.slots := setAt s.inc.slots n fun slot =>
      slot.map fun r => { r with repeats := min (r.repeats + 1) 255, last := s.flu.clock } }

/-- A recording is written into slot `n` (R168). -/
def writeIncident (kind : IncidentKind) (d1 d2 n : Nat) (s : State) : State :=
  notify .incident
    { s with
      inc.slots := setAt s.inc.slots n fun _ =>
        some { kind := kind, first := s.flu.clock, last := s.flu.clock, hole := s.rods.holeDepth,
               detail1 := d1, detail2 := d2, repeats := 1, pending := true },
      inc.order := s.inc.order ++ [n],
      inc.lastWritten := n }

/-- The slot a recording is written to, if any is free (R168). -/
def freeSlot? (s : State) : Option Nat :=
  (searchOrder s.inc.lastWritten).find? fun n => slotFree ((s.inc.slots[n]?).getD none)

/-- A block records an incident; the slot number is what the recording returns (R167, R168). -/
def recordIncident (kind : IncidentKind) (d1 d2 : Nat) (s : State) : State × Option Nat :=
  match s.inc.slots.findIdx? (pendingOfKind kind) with
  | some n => (mergeIncident n s, some n)
  | none =>
    if s.inc.overflow then (s, none)
    else
      match freeSlot? s with
      | some n => (writeIncident kind d1 d2 n s, some n)
      | none => (notify .incident { s with inc.overflow := true }, none)

/-- A recording whose returned slot the block does not use (R169). -/
def record (kind : IncidentKind) (d1 d2 : Nat) (s : State) : State := (recordIncident kind d1 d2 s).1

/-- Records COUNTER_SATURATED for a counter that has just reached its limit (R20, R74). -/
def recordSaturation (counter before after : Nat) (s : State) : State :=
  if before < Config.counterMax ∧ after = Config.counterMax then record .counterSaturated counter 0 s else s

/-- What a request's owner answers: the result code's number and the data octets (R201). -/
structure Reply where
  result : Nat
  data : List Byte
  deriving DecidableEq, Repr

/-! ## Result codes (spec 11, code table) -/

def Reply.ok (data : List Byte := []) : Reply := { result := 0, data := data }
def Reply.unknownKind : Reply := { result := 1, data := [] }
def Reply.badLength : Reply := { result := 2, data := [] }
def Reply.badArgument : Reply := { result := 3, data := [] }
def Reply.wrongState : Reply := { result := 4, data := [] }
def Reply.busy : Reply := { result := 5, data := [] }
def Reply.interlock : Reply := { result := 6, data := [] }
def Reply.notFound : Reply := { result := 7, data := [] }
def Reply.full : Reply := { result := 8, data := [] }
def Reply.overlap : Reply := { result := 9, data := [] }
def Reply.noJob : Reply := { result := 10, data := [] }
def Reply.jobOpen : Reply := { result := 11, data := [] }
def Reply.noRates : Reply := { result := 12, data := [] }
def Reply.clockUnset : Reply := { result := 13, data := [] }
def Reply.returnsPending (data : List Byte) : Reply := { result := 14, data := data }
def Reply.stringInHole : Reply := { result := 15, data := [] }
def Reply.unfiledTicket : Reply := { result := 16, data := [] }
def Reply.storeProtected : Reply := { result := 17, data := [] }
def Reply.storeFull : Reply := { result := 18, data := [] }

end Sys2Proof.Machine
end

