-- ==== Sys2Proof/Machine/Operands.lean ====
section
/-! DEFINITION. Operand forms: the octet encoding of fields (spec 11, Payload fields), the CRC and the octets of a frame
(spec 11, Frames). -/

namespace Sys2Proof.Machine

/-- A number in `w` octets, high octet first. -/
def octets : Nat → Nat → List Byte
  | 0, _ => []
  | w + 1, n => BitVec.ofNat 8 (n / 256 ^ w) :: octets w n

/-- The number some octets spell, high octet first. -/
def number (bs : List Byte) : Nat := bs.foldl (fun acc b => acc * 256 + b.toNat) 0

def oct1 (n : Nat) : List Byte := octets 1 n
def oct2 (n : Nat) : List Byte := octets 2 n
def oct4 (n : Nat) : List Byte := octets 4 n

/-- A flag: 0 for clear, 1 for set. -/
def octFlag (b : Bool) : List Byte := oct1 (flagCode b)

/-- A possibly negative number in `w` octets, two's complement. -/
def octInt (w : Nat) (i : Int) : List Byte := octets w (i % (256 ^ w : Nat)).toNat

/-- A field of `w` octets that may be absent: a presence octet, then the field, 0 when absent. -/
def octOpt (w : Nat) (o : Option Nat) : List Byte :=
  match o with
  | none => oct1 0 ++ octets w 0
  | some n => oct1 1 ++ octets w n

/-- As octOpt, for a field that may be negative. -/
def octOptInt (w : Nat) (o : Option Int) : List Byte :=
  match o with
  | none => oct1 0 ++ octets w 0
  | some i => oct1 1 ++ octInt w i

/-- A composite of several fields that is absent as a whole: a presence octet, then its octets or as many zeros. -/
def octBlock (width : Nat) (o : Option (List Byte)) : List Byte :=
  match o with
  | none => oct1 0 ++ List.replicate width 0
  | some bs => oct1 1 ++ bs

/-- A rod location: one octet of code, two of slot number or string index (spec 11, code table). -/
def octLocation : RodLocation → List Byte
  | .yard => oct1 0 ++ oct2 0
  | .magazine k => oct1 1 ++ oct2 k
  | .arm => oct1 2 ++ oct2 0
  | .string i => oct1 3 ++ oct2 i

/-- The arm record's source, in the form of a rod location; a popped rod's source STRING carries no index (log 18). -/
def octSource : ArmSource → List Byte
  | .slot k => oct1 1 ++ oct2 k
  | .yard => oct1 0 ++ oct2 0
  | .string => oct1 3 ++ oct2 0

/-- A material item: unit octet and price; 0 and 0 when undefined (spec 11, code table). -/
def octMaterial : Option Material → List Byte
  | none => oct1 0 ++ oct4 0
  | some m => oct1 m.unit.code ++ oct4 m.price

/-- Cuts octets into fields of the given widths; none unless the length is exactly theirs (R201). -/
def splitFields : List Nat → List Byte → Option (List Nat)
  | [], [] => some []
  | [], _ :: _ => none
  | w :: ws, bs =>
    if bs.length < w then none
    else (splitFields ws (bs.drop w)).map (number (bs.take w) :: ·)

/-- One bit of the CRC: polynomial 0x1021, most significant bit first. -/
def crcBit (r : BitVec 16) : BitVec 16 := if r.msb then (r <<< 1) ^^^ 0x1021#16 else r <<< 1

/-- One octet of the CRC. -/
def crcOctet (r : BitVec 16) (b : Byte) : BitVec 16 :=
  (List.range 8).foldl (fun acc _ => crcBit acc) (r ^^^ (b.zeroExtend 16 <<< 8))

/-- The CRC of some octets, initial value 0xFFFF (spec 11, Frames). -/
def crc (bs : List Byte) : BitVec 16 := bs.foldl crcOctet 0xFFFF#16

/-- The octets the CRC covers: address, kind, length and payload. -/
def Frame.body (f : Frame) : List Byte :=
  oct1 f.address ++ oct1 f.kind ++ oct1 f.payload.length ++ f.payload

/-- The octets of a frame on the line (spec 11, Frames). -/
def Frame.line (f : Frame) : List Byte :=
  [0xC3#8] ++ f.body ++ oct2 (crc f.body).toNat

end Sys2Proof.Machine
end

