-- ==== Sys2Proof/Machine/Pricing.lean ====
section
/-! DEFINITION. The pricing unit's charge lines and rate sets (spec 07): pricing a value into a line, footage, time and
material pricing, and the requests that edit the staging set. Commit, trigger and swap are in Machine/Staging.lean. -/

namespace Sys2Proof.Machine

/-! ## Charge lines (R145 to R148) -/

/-- The keyed lines of a kind. -/
def keyedCount (kind : LineKind) (s : State) : Nat :=
  s.price.lines.countP fun l => decide (l.kind = kind) && l.key.isSome

/-- How many keyed lines of a kind there may be (R145). -/
def keyedLimit : LineKind → Nat
  | .footage => 160 | .time => 32 | .material => 64

/-- The whole cents a pricing carries into a line (R146). -/
def ChargeLine.carry (value : Nat) (l : ChargeLine) : Nat := (l.residue + value) / 100

/-- A pricing would carry the line's amount past its limit (R147). -/
def ChargeLine.overflows (value : Nat) (l : ChargeLine) : Bool :=
  !l.saturated && decide (Config.amountMax < l.amount + l.carry value)

/-- A line after a value and its quantity are priced into it (R146, R147). -/
def ChargeLine.priced (value quantity : Nat) (l : ChargeLine) : ChargeLine :=
  if l.saturated then { l with quantity := satAdd Config.counterMax l.quantity quantity }
  else if l.overflows value then
    { l with quantity := satAdd Config.counterMax l.quantity quantity, amount := Config.amountMax, saturated := true }
  else
    { l with quantity := satAdd Config.counterMax l.quantity quantity,
             amount := l.amount + l.carry value, residue := (l.residue + value) % 100 }

/-- A value is priced into the line at an index; a line that saturates is recorded (R146, R147). -/
def priceInto (index value quantity : Nat) (s : State) : State :=
  let hit := (s.price.lines[index]?).any (ChargeLine.overflows value)
  let kind := ((s.price.lines[index]?).map (·.kind.code)).getD 0
  let s1 := { s with price.lines := setAt s.price.lines index (ChargeLine.priced value quantity) }
  if hit then
    let s2 := record .chargeSaturated index kind s1
    { s2 with price.saturationSeen := true }
  else s1

/-- The index of the keyed line of a kind and key, if there is one (R148). -/
def lineIndex? (kind : LineKind) (key : LineKey) (s : State) : Option Nat :=
  s.price.lines.findIdx? fun l => decide (l.kind = kind) && decide (l.key = some key)

/-- The line a value under a key goes to: its own, a new one at the next index, or the consolidated one (R148). -/
def lineFor (kind : LineKind) (key : LineKey) (s : State) : Nat :=
  match lineIndex? kind key s with
  | some i => i
  | none => if keyedCount kind s < keyedLimit kind then s.price.lines.length else kind.code

/-- A value is priced under a key (R148). CHARGE_LINES_FULL is recorded after the pricing (log 43). -/
def priceUnder (kind : LineKind) (key : LineKey) (value quantity : Nat) (s : State) : State :=
  match lineIndex? kind key s with
  | some i => priceInto i value quantity s
  | none =>
    if keyedCount kind s < keyedLimit kind then
      priceInto s.price.lines.length value quantity
        { s with price.lines := s.price.lines ++ [.fresh kind (some key)] }
    else record .chargeLinesFull kind.code key.generation (priceInto kind.code value quantity s)

/-! ## What is priced -/

/-- The generation of the active set; 0 where there is none. -/
def activeGeneration (s : State) : Nat := (s.price.active.map (·.generation)).getD 0

/-- The set a mark of a generation is priced at (R149). -/
def setOfGeneration (g : Nat) (s : State) : Option RateSet :=
  if s.price.active.any (fun a => decide (a.generation = g)) then s.price.active else s.price.previous

/-- The footage rate of a class and band in a set (R149). -/
def RateSet.footageRate (r : RateSet) (cls band : Nat) : Nat := ((r.rows[cls]?).getD [])[band]?.getD 0

/-- Phase 3 of a retirement: the mark's length is priced at its generation, class and band (R149). -/
def priceMark (m : Mark) (cls : Nat) (s : State) : State :=
  match setOfGeneration m.generation s with
  | some r =>
    priceUnder .footage { generation := m.generation, a := cls, b := m.band }
      ((m.bottom - m.top) * r.footageRate cls m.band) (m.bottom - m.top) s
  | none => s

/-- A billing unit of a category is priced (R154). -/
def priceUnit (c : Category) (s : State) : State :=
  match s.price.active with
  | some r =>
    priceUnder .time { generation := r.generation, a := categoryCode c, b := 0 }
      (r.times[categoryCode c]?.getD 0) 1 s
  | none => s

/-- The material item of the active set, where it is defined (R159). -/
def activeMaterial (item : Nat) (s : State) : Option Material :=
  s.price.active.bind fun r => (r.materials[item]?).getD none

/-- A material draw of `q` tenths at a price is priced (R160). -/
def priceDraw (item quantity price : Nat) (s : State) : State :=
  priceUnder .material { generation := activeGeneration s, a := item, b := 0 } (quantity * price * 10) quantity s

/-! ## The staging set (R132 to R136) -/

/-- The staging set is valid: band table, all sixteen rows and time rates present (R132). -/
def Staging.valid (t : Staging) : Bool := t.floors.isSome && t.rows.all (·.isSome) && t.times.isSome

/-- The staging set as a rate set of a generation (R140, R143). -/
def Staging.toSet (g : Nat) (t : Staging) : RateSet :=
  { generation := g, floors := t.floors.getD [], rows := t.rows.map (·.getD []), times := t.times.getD [],
    materials := t.materials }

/-- A rate set as a staging set (R140, R143). -/
def Staging.ofSet (r : RateSet) : Staging :=
  { floors := some r.floors, rows := r.rows.map some, times := some r.times, materials := r.materials }

/-- Floors strictly ascending. -/
def strictlyAscending : List Nat → Bool
  | [] => true
  | [_] => true
  | a :: b :: rest => decide (a < b) && strictlyAscending (b :: rest)

/-- A band table R133 takes. -/
def bandsGood (count : Nat) (floors : List Nat) : Bool :=
  inRange 1 6 count && decide (floors.length = count) && decide (floors.head? = some 0) &&
    strictlyAscending floors && floors.all fun f => decide (f ≤ 200000)

/-- STAGE BANDS, taken or refused (R132, R133). -/
def takeStageBands (count : Nat) (floors : List Nat) (s : State) : State × Reply :=
  if !bandsGood count floors then (s, .badArgument)
  else if s.price.stage ≠ .editing then (s, .wrongState)
  else ({ s with price.staging.floors := some floors }, .ok)

/-- STAGE FOOTAGE ROW, taken or refused (R134). -/
def takeStageFootageRow (cls : Nat) (rates : List Nat) (s : State) : State × Reply :=
  if 15 < cls || rates.length ≠ 6 || rates.any (fun r => decide (Config.rateMax < r)) then (s, .badArgument)
  else if s.price.stage ≠ .editing then (s, .wrongState)
  else ({ s with price.staging.rows := setAt s.price.staging.rows cls fun _ => some rates }, .ok)

/-- STAGE TIME RATES, taken or refused (R135). -/
def takeStageTimeRates (rates : List Nat) (s : State) : State × Reply :=
  if rates.length ≠ 7 || rates.any (fun r => decide (Config.rateMax < r)) then (s, .badArgument)
  else if s.price.stage ≠ .editing then (s, .wrongState)
  else ({ s with price.staging.times := some rates }, .ok)

/-- The unit of a material item's code 1..5 (spec 11, code table). -/
def unitOfCode : Nat → Option MaterialUnit
  | 1 => some .kg
  | 2 => some .litre
  | 3 => some .bag
  | 4 => some .piece
  | 5 => some .metre
  | _ => none

/-- The item a unit code and a price spell: UNDEFINED (none), a defined item, or nothing (R136). -/
def materialOf (unit price : Nat) : Option (Option Material) :=
  if unit = 0 then some none
  else
    match unitOfCode unit with
    | some u => if price ≤ Config.rateMax then some (some { unit := u, price := price }) else none
    | none => none

/-- STAGE MATERIAL, taken or refused (R136). -/
def takeStageMaterial (item unit price : Nat) (s : State) : State × Reply :=
  if 31 < item then (s, .badArgument)
  else
    match materialOf unit price with
    | none => (s, .badArgument)
    | some m =>
      if s.price.stage ≠ .editing then (s, .wrongState)
      else ({ s with price.staging.materials := setAt s.price.staging.materials item fun _ => m }, .ok)

/-! ## Jobs -/

/-- OPEN JOB's part here (R143). -/
def openPricing (s : State) : State :=
  let r := s.price.staging.toSet 1
  { s with price := { active := some r, previous := none, staging := .ofSet r, stage := .editing,
                      lines := consolidatedLines, saturationSeen := false } }

/-- The end of the job's OPEN state: ARMED or DUE drops to EDITING (R144). -/
def endPricing (s : State) : State := { s with price.stage := .editing }

end Sys2Proof.Machine
end

