-- ==== Sys2Proof/Machine/Strata.lean ====
section
/-! DEFINITION. The strata log (spec 06): opening, closing and relabelling intervals, placing retired marks, water
strikes, and what FORMATION, WATER STRIKE and AMEND NOTE do when their requests are taken. -/

namespace Sys2Proof.Machine

/-- The open interval: the last of the list while its bottom is absent (R108). -/
def openInterval (s : State) : Option Interval :=
  match s.strata.intervals.getLast? with
  | some v => if v.bottom.isNone then some v else none
  | none => none

/-- The index of the open interval (R126). -/
def openIndex (s : State) : Option Nat :=
  if (openInterval s).isSome then some (s.strata.intervals.length - 1) else none

/-- The last interval of the list is changed. -/
def onLastInterval (f : Interval → Interval) (s : State) : State :=
  { s with strata.intervals := updateLast f s.strata.intervals }

/-- The penetration rate of a length and its drilled seconds (R112). -/
def penetrationRate (length seconds : Nat) : Option Nat :=
  if seconds = 0 then none else some (min (length * 3600 / seconds) Config.wordMax)

/-- A strike's depth lies in an interval's range; the bottom counts at the final closure only (R110). -/
def strikeWithin (final : Bool) (top bottom : Nat) (k : Strike) : Bool :=
  decide (top ≤ k.depth) && (decide (k.depth < bottom) || (final && decide (k.depth = bottom)))

/-- An interval closed at a depth (R110). -/
def Interval.closedAt (depth : Nat) (final : Bool) (strikes : List Strike) (v : Interval) : Interval :=
  { v with bottom := some depth,
           rate := penetrationRate (depth - v.top) v.seconds,
           waterBearing := v.waterBearing || strikes.any (strikeWithin final v.top depth) }

/-- The open interval is closed at a depth (R110). -/
def closeInterval (depth : Nat) (final : Bool) (s : State) : State :=
  onLastInterval (Interval.closedAt depth final s.strata.strikes) s

/-- A record is added at the end of the list (R111, R109). -/
def appendInterval (depth cls : Nat) (origin : Origin) (s : State) : State :=
  notify .strata
    { s with strata.intervals := s.strata.intervals ++
        [{ top := depth, bottom := none, cls := cls, origin := origin, opened := s.flu.clock, seconds := 0, loss := 0,
           marks := 0, rate := none, waterBearing := false, forced := false, note := 0 }] }

/-- The list holds its 320 records (R111). -/
def logFull (s : State) : Bool := decide (Config.intervalMax ≤ s.strata.intervals.length)

/-- The open interval is closed at a depth and a new one opened there; on a full list neither, and STRATA_LOG_FULL is
recorded (R111). -/
def nextInterval (depth cls : Nat) (origin : Origin) (s : State) : State :=
  if logFull s then
    let s1 := record .strataLogFull depth cls s
    { s1 with strata.fullSeen := true }
  else appendInterval depth cls origin (closeInterval depth false s)

/-- The open interval, of zero extent, is relabelled (R113, R116, R119). -/
def relabel (cls : Nat) (origin : Origin) (s : State) : State :=
  notify .strata (onLastInterval (fun v => { v with cls := cls, origin := origin }) s)

/-- A new class at a depth: a new interval where the open one has extent, else a relabelling (R113, R116, R119). -/
def classAt (depth cls : Nat) (origin : Origin) (s : State) : State :=
  match openInterval s with
  | some v => if v.top < depth then nextInterval depth cls origin s else relabel cls origin s
  | none => s

/-- The open interval is BLIND. -/
def openIsBlind (s : State) : Bool := (openInterval s).any fun v => decide (v.origin = .blind)

/-- First step of placing: a blind mark begins a blind run (R116). -/
def blindRunBegin (m : Mark) (s : State) : State :=
  if m.blind && !openIsBlind s then classAt m.top 14 .blind s else s

/-- Second step of placing: a sighted mark ends a blind run (R117). -/
def blindRunEnd (m : Mark) (s : State) : State :=
  if !m.blind && openIsBlind s then nextInterval m.top s.strata.resumeClass .resumed s else s

/-- A mark's seconds, litres, count and forced flag join an interval (R118). -/
def Interval.plusMark (m : Mark) (v : Interval) : Interval :=
  { v with seconds := satAdd Config.counterMax v.seconds m.seconds,
           loss := satAdd Config.counterMax v.loss m.loss,
           marks := satAdd Config.wordMax v.marks 1,
           forced := v.forced || m.forced }

/-- Third step of placing: the mark is added to the open interval (R118). -/
def addMark (m : Mark) (s : State) : State := onLastInterval (Interval.plusMark m) s

/-- The first forced mark of a close opens or relabels the UNOBSERVED interval and sets the drain flag (R119). -/
def drainBegin (m : Mark) (s : State) : State :=
  if s.strata.drain then s else classAt m.top 15 .unobserved { s with strata.drain := true }

/-- The class at which the open interval stands (R118). -/
def openClass (s : State) : Nat := ((s.strata.intervals.getLast?).map (·.cls)).getD 15

/-- A retired mark is placed (R116 to R119). -/
def placeMark (cause : RetireCause) (m : Mark) (s : State) : State :=
  match cause with
  | .close => addMark m (drainBegin m s)
  | .arrived | .overrun =>
    if s.strata.drain then addMark m s else addMark m (blindRunEnd m (blindRunBegin m s))

/-- Seconds and litres left on a span of zero length join the open interval without a mark (R120). -/
def addResidual (seconds loss : Nat) (s : State) : State :=
  onLastInterval (fun v => { v with seconds := satAdd Config.counterMax v.seconds seconds,
                                    loss := satAdd Config.counterMax v.loss loss }) s

/-- The final closure at F (R120). -/
def finalClosure (s : State) : State := notify .strata (closeInterval s.lag.frontier true s)

/-! ## Water strikes -/

/-- A closed interval holds a depth (R124). -/
def Interval.holds (depth : Nat) (v : Interval) : Bool :=
  match v.bottom with
  | some b => decide (v.top ≤ depth) && decide (depth < b)
  | none => false

/-- A strike joins the list and sets the flag of the closed interval that holds its depth (R121, R124). -/
def recordStrike (k : Strike) (s : State) : State :=
  notify .strata
    { s with strata.strikes := s.strata.strikes ++ [k],
             strata.intervals := s.strata.intervals.map fun v =>
               if v.holds k.depth then { v with waterBearing := true } else v }

/-- An automatic strike, dropped when the list is full (R123). -/
def autoStrike (gain : Nat) (s : State) : State :=
  if Config.strikeMax ≤ s.strata.strikes.length then
    record .strikeListFull s.rods.holeDepth (min gain 5000) s
  else
    recordStrike
      { depth := s.rods.holeDepth, yield := min gain 5000, level := none, time := s.flu.clock, auto := true } s

/-! ## Jobs -/

/-- OPEN JOB's part here (R109). -/
def openStrata (startDepth : Nat) (s : State) : State :=
  appendInterval startDepth 15 .unobserved
    { s with strata := { intervals := [], strikes := [], resumeClass := 15, drain := false, fullSeen := false } }

/-! ## Requests -/

/-- What FORMATION finds at F (R113), in the order of its codes. -/
inductive FormationOutcome where
  | resumeOnly
  | newInterval
  | logFull
  | relabelled
  deriving DecidableEq, Repr

def FormationOutcome.code : FormationOutcome → Nat
  | .resumeOnly => 0 | .newInterval => 1 | .logFull => 2 | .relabelled => 3

/-- The case of R113 the open interval decides. -/
def formationOutcome (s : State) : FormationOutcome :=
  match openInterval s with
  | some v =>
    if v.origin = .blind then .resumeOnly
    else if v.top < s.lag.frontier then (if logFull s then .logFull else .newInterval)
    else .relabelled
  | none => .resumeOnly

/-- What FORMATION does to the intervals (R113). -/
def applyFormation (cls : Nat) (s : State) : State :=
  let s1 := match formationOutcome s with
    | .resumeOnly => s
    | .newInterval | .logFull => nextInterval s.lag.frontier cls .observed s
    | .relabelled => relabel cls .observed s
  { s1 with strata.resumeClass := cls }

/-- FORMATION, taken or refused (R113). -/
def takeFormation (cls : Nat) (s : State) : State × Reply :=
  if 13 < cls then (s, .badArgument)
  else if s.jobs.state ≠ .opened then (s, .noJob)
  else
    let s1 := applyFormation cls s
    (s1, .ok (oct1 (formationOutcome s).code ++ oct2 ((openIndex s1).getD 0) ++ oct4 s1.lag.frontier))

/-- WATER STRIKE, taken or refused (R122). -/
def takeWaterStrike (yield : Nat) (depth level : Option Nat) (s : State) : State × Reply :=
  if 5000 < yield || level.any (fun l => decide (200000 < l)) then (s, .badArgument)
  else if s.jobs.state ≠ .opened then (s, .noJob)
  else
    let start := (s.jobs.context.map (·.startDepth)).getD 0
    if depth.any (fun d => decide (d < start) || decide (s.rods.holeDepth < d)) then (s, .badArgument)
    else if Config.strikeMax ≤ s.strata.strikes.length then (s, .full)
    else
      let d := depth.getD s.rods.holeDepth
      (recordStrike { depth := d, yield := yield, level := level, time := s.flu.clock, auto := false } s,
       .ok (oct1 s.strata.strikes.length ++ octOpt 2 (s.strata.intervals.findIdx? (Interval.holds d))))

/-- AMEND NOTE, taken or refused (R125). Outside an OPEN job an index beyond the list is refused with NO_JOB (log 46). -/
def takeAmendNote (index note : Nat) (s : State) : State × Reply :=
  if s.jobs.state ≠ .opened then (s, .noJob)
  else if s.strata.intervals.length ≤ index then (s, .notFound)
  else ({ s with strata.intervals := setAt s.strata.intervals index fun v => { v with note := note } }, .ok)

end Sys2Proof.Machine
end

