-- ==== Sys2Proof/Machine/Lag.lean ====
section
/-! DEFINITION. The lag tracker (spec 03) and the rate swap that it and the pricing unit make together (R139, R140):
lag volume, laying marks, the phases of a retirement, closing the open span, hole-depth and lag-clock advances. -/

namespace Sys2Proof.Machine

/-! ## Lag volume (R47, R49) -/

/-- An entry is enabled unless its bottom is less than its top (R47). -/
def Section.enabled (e : Section) : Bool := decide (e.top ≤ e.bottom)

/-- The length of 0..d that lies in an entry (R49 step 1). -/
def Section.covered (d : Nat) (e : Section) : Nat := if e.enabled then min e.bottom d - e.top else 0

/-- S of R49, in hundredths of a millilitre. -/
def annularSum (d : Nat) (lag : Lag) : Nat :=
  (lag.sections.map fun e => e.capacity * e.covered d).sum +
    lag.capacity * (d - (lag.sections.map (Section.covered d)).sum)

/-- L(d) before the clamp (R49 step 4). -/
def lagVolumeRaw (d : Nat) (lag : Lag) : Nat := lag.surface + (annularSum d lag + 50000) / 100000

/-- L(d) (R49). -/
def lagVolume (d : Nat) (lag : Lag) : Nat := min (lagVolumeRaw d lag) Config.lagVolumeMax

/-- LAG_CLAMPED is recorded when L(d) is clamped, before the mark it is for joins the queue (R49; the order log 43). -/
def recordLagClamp (d : Nat) (s : State) : State :=
  if Config.lagVolumeMax < lagVolumeRaw d s.lag then record .lagClamped d (lagVolumeRaw d s.lag) s else s

/-- Two entries overlap (R47). -/
def Section.overlaps (e f : Section) : Bool := decide (e.top < f.bottom) && decide (f.top < e.bottom)

/-! ## Bands and boundaries (R50, R131) -/

/-- The floors of the active set; none where there is no active set. -/
def activeFloors (s : State) : List Nat := (s.price.active.map (·.floors)).getD []

/-- The highest band whose floor is at or below a depth (R51, R131). -/
def bandOf (floors : List Nat) (d : Nat) : Nat := (floors.filter fun f => decide (f ≤ d)).length - 1

/-- The next positive multiple of the spacing above a depth (R50). -/
def nextSpacing (spacing d : Nat) : Nat := (d / spacing + 1) * spacing

/-- The next floor of a band above band 0 above a depth (R50). -/
def nextFloor (floors : List Nat) (d : Nat) : Option Nat := (floors.drop 1).find? fun f => decide (d < f)

/-- The next boundary above a depth (R50). -/
def nextBoundary (spacing : Nat) (floors : List Nat) (d : Nat) : Nat :=
  match nextFloor floors d with
  | some f => min f (nextSpacing spacing d)
  | none => nextSpacing spacing d

/-! ## Retirement, phases 1 to 3 (R57) -/

/-- Phase 1: the mark leaves the head of the queue and F becomes its bottom (R55, R57). -/
def removeOldest (m : Mark) (rest : List Mark) (s : State) : State :=
  { s with lag.queue := rest, lag.head := (s.lag.head + 1) % Config.queuePlaces, lag.frontier := m.bottom }

/-- Phases 1, 2 and 3 of retiring the oldest mark: removal, placement, pricing (R57). -/
def retireUnchecked (cause : RetireCause) (m : Mark) (rest : List Mark) (s : State) : State :=
  let s1 := placeMark cause m (removeOldest m rest s)
  priceMark m (openClass s1) s1

/-- The job context's overrun-seen flag is set while the job is OPEN (R180). -/
def markOverrunSeen (s : State) : State :=
  if s.jobs.state = .opened then
    { s with jobs.context := s.jobs.context.map fun c => { c with overrunSeen := true } }
  else s

/-- A forced retirement of the oldest mark, for a laying that meets a full queue, without its swap check (R53).
LAG_QUEUE_OVERRUN is recorded after its phases 1 to 3 (log 43). -/
def forceOldest (s : State) : State :=
  match s.lag.queue with
  | [] => s
  | m :: rest =>
    markOverrunSeen
      (record .lagQueueOverrun m.top m.bottom (retireUnchecked .overrun { m with forced := true } rest s))

/-! ## Laying (R51, R53, R54) -/

/-- The queue holds 256 marks (R53). -/
def queueFull (s : State) : Bool := decide (Config.queuePlaces ≤ s.lag.queue.length)

/-- The mark the open span becomes at a bottom (R51). -/
def spanMark (bottom : Nat) (s : State) : Mark :=
  { top := s.lag.spanTop, bottom := bottom, laid := s.circ.vl, arrival := s.circ.vl + lagVolume bottom s.lag,
    generation := activeGeneration s, band := bandOf (activeFloors s) s.lag.spanTop, blind := s.lag.spanBlind,
    seconds := s.lag.spanSeconds, loss := s.lag.spanLoss, forced := false }

/-- The mark joins the tail and the span reopens at its bottom (R51). -/
def appendMark (bottom : Nat) (s : State) : State :=
  let s1 := recordLagClamp bottom s
  { s1 with lag.queue := s1.lag.queue ++ [spanMark bottom s1], lag.spanTop := bottom, lag.spanSeconds := 0,
            lag.spanLoss := 0, lag.spanBlind := decide (s1.circ.state = .totalLoss) }

/-- The open span has length down to a bottom (R51). -/
def spanHasLength (bottom : Nat) (s : State) : Bool := decide (s.lag.spanTop < bottom)

/-- Laying the span down to a bottom makes a forced retirement (R53). -/
def layForces (bottom : Nat) (s : State) : Bool := spanHasLength bottom s && queueFull s

/-- The open span is laid as a mark down to a bottom; a span of zero length never is (R51, R53). -/
def layMark (bottom : Nat) (s : State) : State :=
  if spanHasLength bottom s then appendMark bottom (if queueFull s then forceOldest s else s) else s

/-! ## The swap (R139, R140) -/

/-- The generation after a generation (R140). -/
def nextGeneration (g : Nat) : Nat := if 65535 ≤ g then 1 else g + 1

/-- Steps 2 to 5 of a swap (R140). -/
def rotateSets (s : State) : State :=
  let r := s.price.staging.toSet (nextGeneration (activeGeneration s))
  notify .billing
    { s with price.previous := s.price.active, price.active := some r, price.stage := .editing,
             price.staging := .ofSet r }

/-- The swap: the span is closed at the hole depth, then the sets change (R140). -/
def swap (s : State) : State := rotateSets (layMark s.rods.holeDepth s)

/-- The queued marks that carry the previous generation (R139, R150). -/
def previousMarks (s : State) : Nat :=
  match s.price.previous with
  | some p => s.lag.queue.countP fun m => decide (m.generation = p.generation)
  | none => 0

/-- The staging state is DUE (R138). -/
def StageState.isDue : StageState → Bool
  | .due _ => true
  | .editing | .armed _ => false

/-- The swap check (R139). -/
def swapCheck (s : State) : State :=
  if s.price.stage.isDue && decide (previousMarks s = 0) then swap s else s

/-- The retirement of the oldest mark through its four phases (R57). -/
def retire (cause : RetireCause) (m : Mark) (rest : List Mark) (s : State) : State :=
  swapCheck (retireUnchecked cause m rest s)

/-! ## Closing the open span (R54) -/

/-- The open span is closed at the hole depth; a forced retirement's deferred swap check follows (R53, R54). -/
def closeSpan (s : State) : State :=
  if layForces s.rods.holeDepth s then swapCheck (layMark s.rods.holeDepth s) else layMark s.rods.holeDepth s

/-- Entry into or exit from TOTAL_LOSS, handed on with the state already changed (R29, R54). -/
def totalLossChange (s : State) : State :=
  if s.jobs.state = .opened then
    if spanHasLength s.rods.holeDepth s then closeSpan s
    else { s with lag.spanBlind := decide (s.circ.state = .totalLoss) }
  else s

/-! ## Advances (R50, R56) -/

/-- The marks one hole-depth advance lays, at each boundary it reaches in turn; the flag says whether one was laid by
a forced retirement (R50, R53). The fuel is the advance's length. -/
def layBoundaries : Nat → Nat → State → State × Bool
  | 0, _, s => (s, false)
  | fuel + 1, depth, s =>
    let b := nextBoundary s.lag.spacing (activeFloors s) s.lag.spanTop
    if s.lag.spanTop < b ∧ b ≤ depth then
      let next := layBoundaries fuel depth (layMark b s)
      (next.1, layForces b s || next.2)
    else (s, false)

/-- A hole-depth advance with its new hole depth (R50, R53). -/
def lagAdvance (depth : Nat) (s : State) : State :=
  let r := layBoundaries (depth - s.lag.spanTop) depth s
  if r.2 then swapCheck r.1 else r.1

/-- The oldest marks whose arrival volume is reached retire in turn (R56). The fuel covers every queued mark and the one
a swap may lay meanwhile. -/
def retireArrived : Nat → State → State
  | 0, s => s
  | fuel + 1, s =>
    match s.lag.queue with
    | [] => s
    | m :: rest => if m.arrival ≤ s.circ.vl then retireArrived fuel (retire .arrived m rest s) else s

/-- One advance of the lag clock, already in Vl (R56). -/
def lagClockAdvance (s : State) : State := retireArrived (s.lag.queue.length + 1) s

/-- Every queued mark retires forced with cause CLOSE (R59). -/
def drainQueue : Nat → State → State
  | 0, s => s
  | fuel + 1, s =>
    match s.lag.queue with
    | [] => s
    | m :: rest => drainQueue fuel (retire .close { m with forced := true } rest s)

/-- A drilled second joins the open span while the job is OPEN (R52). -/
def drilledSecond (s : State) : State :=
  if s.jobs.state = .opened then
    { s with lag.spanSeconds := satAdd Config.counterMax s.lag.spanSeconds 1 } else s

/-- Loss litres join the open span while the job is OPEN (R25, R52). -/
def spanLossLitres (n : Nat) (s : State) : State :=
  if s.jobs.state = .opened then
    { s with lag.spanLoss := satAdd Config.counterMax s.lag.spanLoss n } else s

/-- What is left on a span of zero length goes to the open interval (R59, R120). -/
def handResidual (s : State) : State :=
  let s1 := addResidual s.lag.spanSeconds s.lag.spanLoss s
  { s1 with lag.spanSeconds := 0, lag.spanLoss := 0 }

/-- OPEN JOB's part here (R58). -/
def openLag (startDepth : Nat) (s : State) : State :=
  { s with lag.queue := [], lag.head := 0, lag.frontier := startDepth, lag.spanTop := startDepth, lag.spanSeconds := 0,
           lag.spanLoss := 0, lag.spanBlind := decide (s.circ.state = .totalLoss) }

/-! ## Requests -/

/-- SET SECTION, taken or refused (R47). A request with a value out of range whose entry also overlaps another is refused with
BAD_ARGUMENT (log 45). -/
def takeSetSection (entry top bottom capacity : Nat) (s : State) : State × Reply :=
  if 7 < entry || 200000 < top || 200000 < bottom || 200000 < capacity then (s, .badArgument)
  else
    let e : Section := { top := top, bottom := bottom, capacity := capacity }
    let others := s.lag.sections.eraseIdx entry
    if e.enabled && others.any (fun f => f.enabled && e.overlaps f) then (s, .overlap)
    else ({ s with lag.sections := setAt s.lag.sections entry fun _ => e }, .ok)

/-- SET LAG GEOMETRY, taken or refused (R48). -/
def takeSetLagGeometry (surface capacity spacing : Nat) (s : State) : State × Reply :=
  if inRange 0 20000 surface && inRange 0 200000 capacity && inRange 10 100 spacing then
    ({ s with lag.surface := surface, lag.capacity := capacity, lag.spacing := spacing }, .ok)
  else (s, .badArgument)

end Sys2Proof.Machine
end

