-- ==== Sys2Proof/Machine/Staging.lean ====
section
/-! DEFINITION. Commit, trigger and cancel of the staging set (R137, R138, R142). -/

namespace Sys2Proof.Machine

/-- The trigger a code names (R137). -/
def triggerOf : Nat → Option Trigger
  | 0 => some .immediate
  | 1 => some .nextConnection
  | 2 => some .nextDay
  | _ => none

/-- A trigger taken while ARMED with it makes the state DUE and makes the swap check (R138). -/
def takeTrigger (t : Trigger) (s : State) : State :=
  if s.price.stage = .armed t then swapCheck { s with price.stage := .due t } else s

/-- Arming with a trigger; IMMEDIATE becomes DUE at once and makes the swap check (R137). -/
def commit (t : Trigger) (s : State) : State :=
  if t = .immediate then swapCheck { s with price.stage := .due t } else { s with price.stage := .armed t }

/-- COMMIT STAGE, taken or refused (R137). -/
def takeCommitStage (code : Nat) (s : State) : State × Reply :=
  match triggerOf code with
  | none => (s, .badArgument)
  | some t =>
    if s.price.stage ≠ .editing then (s, .wrongState)
    else if s.jobs.state ≠ .opened then (s, .noJob)
    else if !s.price.staging.valid then (s, .badArgument)
    else
      let s1 := commit t s
      (s1, .ok (oct1 s1.price.stage.code ++ oct2 (activeGeneration s1)))

/-- CANCEL STAGE, taken or refused; the refusal carries the active generation (R142; its form log 18). -/
def takeCancelStage (s : State) : State × Reply :=
  if s.price.stage = .editing then
    (s, { Reply.wrongState with data := octOpt 2 (s.price.active.map (·.generation)) })
  else ({ s with price.stage := .editing }, .ok)

end Sys2Proof.Machine
end

