-- ==== Sys2Proof/Machine/Billing.lean ====
section
/-! DEFINITION. The billing clock (spec 08): the category of a second, counting it, billing units, the activity timers,
the override and material draws. -/

namespace Sys2Proof.Machine

/-- The category an override stands for (R152 test 1). -/
def Override.category : Override → Option Category
  | .off => none
  | .standbyClient => some .standbyClient
  | .nonBillable => some .nonBillable

/-- The category of a second (R152). -/
def chooseCategory (s : State) : Category :=
  match s.bill.override.category with
  | some c => c
  | none =>
    if s.circ.state = .totalLoss then .lossControl
    else if 0 < s.bill.drillTimer then .drilling
    else if s.joint.state ≠ .ready ∨ 0 < s.bill.tripTimer then .tripping
    else if s.circ.state.lagCarrying then .circulating
    else .idleOnSite

/-- The residue of a category. -/
def residueOf (c : Category) (s : State) : Nat := s.bill.residues[categoryCode c]?.getD 0

/-- A residue that has reached 36 gives one billing unit, priced at the active set (R154). -/
def billUnit (c : Category) (s : State) : State :=
  if Config.unitSeconds ≤ residueOf c s then
    priceUnit c
      { s with bill.residues := setAt s.bill.residues (categoryCode c) fun r => r - Config.unitSeconds }
  else s

/-- The second's count joins the totals and the residue (R153 steps 1 and 2). -/
def countCategory (c : Category) (s : State) : State :=
  { s with bill.totals := setAt s.bill.totals (categoryCode c) fun t => satAdd Config.counterMax t 1,
           bill.running := satAdd Config.counterMax s.bill.running 1,
           bill.residues := setAt s.bill.residues (categoryCode c) fun r => r + 1 }

/-- A second counted under a category (R153). -/
def countSecond (c : Category) (s : State) : State :=
  let s1 := billUnit c (countCategory c s)
  let s2 := if c = .drilling then drilledSecond s1 else s1
  { s2 with bill.last := some c }

/-- The billing clock's part of a second tick (R152, R156, R157). -/
def billingTick (s : State) : State :=
  let s1 := if s.jobs.state = .opened then countSecond (chooseCategory s) s else s
  { s1 with bill.drillTimer := s1.bill.drillTimer - 1, bill.tripTimer := s1.bill.tripTimer - 1 }

/-- Drilling activity (R156). -/
def drillingActivity (s : State) : State := { s with bill.drillTimer := Config.drillTime }

/-- Joint activity (R157). -/
def jointActivity (s : State) : State := { s with bill.tripTimer := Config.tripTime }

/-- One day boundary: the NEXT_DAY trigger at the pricing unit, then the BILLING class (R138, R161; the order log 32). -/
def dayBoundary (s : State) : State := notify .billing (takeTrigger .nextDay s)

/-- OPEN JOB's part here (R162). -/
def openBilling (s : State) : State :=
  { s with bill.totals := List.replicate 7 0, bill.residues := List.replicate 7 0, bill.running := 0,
           bill.drillTimer := 0, bill.tripTimer := 0, bill.last := none }

/-! ## Requests -/

/-- The override a code names (R158). -/
def overrideOf : Nat → Option Override
  | 0 => some .off
  | 1 => some .standbyClient
  | 2 => some .nonBillable
  | _ => none

/-- SET CATEGORY, taken or refused (R158). -/
def takeSetCategory (code : Nat) (s : State) : State × Reply :=
  match overrideOf code with
  | some o => ({ s with bill.override := o }, .ok)
  | none => (s, .badArgument)

/-- The line a draw's value goes to, as the reply names it (R160). -/
def drawLine (item : Nat) (s : State) : Nat :=
  lineFor .material { generation := activeGeneration s, a := item, b := 0 } s

/-- The reply to a draw taken: the line, its amount and residue, and the active generation (R160). -/
def drawReply (line : Nat) (s : State) : Reply :=
  .ok (oct2 line ++ oct4 (((s.price.lines[line]?).map (·.amount)).getD 0) ++
    oct1 (((s.price.lines[line]?).map (·.residue)).getD 0) ++ oct2 (activeGeneration s))

/-- DRAW MATERIAL, taken or refused (R159, R160). -/
def takeDrawMaterial (item quantity : Nat) (s : State) : State × Reply :=
  if !(inRange 0 31 item && inRange 1 99999 quantity) then (s, .badArgument)
  else if s.jobs.state ≠ .opened then (s, .noJob)
  else
    match activeMaterial item s with
    | none => (s, .notFound)
    | some m =>
      let s1 := priceDraw item quantity m.price s
      (s1, drawReply (drawLine item s) s1)

end Sys2Proof.Machine
end

