-- ==== Sys2Proof/Machine/Rods.lean ====
section
/-! DEFINITION. The rod registry, the magazine, the string, and depth (spec 04): location changes, push and pop, bit depth
and hole depth, overpull, and the rod and depth requests. -/

namespace Sys2Proof.Machine

/-! ## Registry, magazine and string (R65, R66) -/

/-- The record of a rod id. -/
def findRod (id : Nat) (s : State) : Option Rod := s.rods.registry.find? fun r => decide (r.id = id)

/-- A rod's record is changed. -/
def updateRod (id : Nat) (f : Rod → Rod) (s : State) : State :=
  { s with rods.registry := s.rods.registry.map fun r => if r.id = id then f r else r }

/-- A record joins a registry kept in ascending order of rod id. -/
def insertRod (r : Rod) : List Rod → List Rod
  | [] => [r]
  | q :: rest => if r.id < q.id then r :: q :: rest else q :: insertRod r rest

/-- The slot reserved to the rod in the arm (R66). -/
def reservedSlot (s : State) : Option Nat :=
  match s.joint.arm with
  | some { rod := _, source := .slot k } => some k
  | some { rod := _, source := .yard } | some { rod := _, source := .string } | none => none

/-- What a magazine slot holds. -/
def slotRod (k : Nat) (s : State) : Option Nat := (s.rods.magazine[k]?).getD none

/-- A slot is neither occupied nor reserved (R66). -/
def slotOpen (k : Nat) (s : State) : Bool := (slotRod k s).isNone && decide (reservedSlot s ≠ some k)

/-- The slot of the magazine a rod leaves is emptied. -/
def leaveSlot (loc : RodLocation) (s : State) : State :=
  match loc with
  | .magazine k => { s with rods.magazine := setAt s.rods.magazine k fun _ => none }
  | .yard | .arm | .string _ => s

/-- The slot of the magazine a rod takes holds it. -/
def takeSlot (id : Nat) (loc : RodLocation) (s : State) : State :=
  match loc with
  | .magazine k => { s with rods.magazine := setAt s.rods.magazine k fun _ => some id }
  | .yard | .arm | .string _ => s

/-- A rod moves among yard, magazine and arm: it leaves its place and takes the new one (R69, R75). -/
def moveRod (id : Nat) (loc : RodLocation) (s : State) : State :=
  match findRod id s with
  | some r => takeSlot id loc (leaveSlot r.location (updateRod id (fun q => { q with location := loc }) s))
  | none => s

/-- The place a loaded rod returns to (R75). -/
def ArmSource.location : ArmSource → RodLocation
  | .slot k => .magazine k
  | .yard => .yard
  | .string => .yard

/-- The rod in the arm goes onto the string (R72). -/
def pushRod (id peak : Nat) (s : State) : State :=
  let len := ((findRod id s).map (·.length)).getD 0
  let index := s.rods.string.length
  let s1 := updateRod id (fun r =>
    { r with location := .string index, makeUps := satAdd Config.wordMax r.makeUps 1,
             entryFootage := some s.rods.footage, makeUpPeak := some peak }) s
  { s1 with rods.string := s.rods.string ++ [id], rods.stringLength := s.rods.stringLength + len }

/-- The retirement check (R73 step 7). -/
def meetsLimit (rotatingLimit makeUpLimit : Nat) (r : Rod) : Bool :=
  (decide (rotatingLimit ≠ 0) && decide (rotatingLimit ≤ r.rotating)) ||
    (decide (makeUpLimit ≠ 0) && decide (makeUpLimit ≤ r.makeUps))

/-- A rod's record after its pop (R73 steps 3 to 7). -/
def Rod.popped (peak footage rotatingLimit makeUpLimit : Nat) (r : Rod) : Rod :=
  let credited : Rod :=
    { r with location := .arm, breakPeak := some peak,
             rotating := satAdd Config.wordMax r.rotating ((footage - r.entryFootage.getD footage) / 100),
             entryFootage := none }
  if meetsLimit rotatingLimit makeUpLimit credited then { credited with status := .retired } else credited

/-- The top rod leaves the string for the arm (R73). -/
def popRod (id peak : Nat) (s : State) : State :=
  let len := ((findRod id s).map (·.length)).getD 0
  let s1 := updateRod id (Rod.popped peak s.rods.footage s.rods.rotatingLimit s.rods.makeUpLimit) s
  { s1 with rods.string := s.rods.string.dropLast, rods.stringLength := s.rods.stringLength - len }

/-! ## Depth (R77 to R79) -/

/-- The signed sum of R77 for a head height. -/
def depthSum (head : Nat) (s : State) : Int :=
  (s.rods.bhaLength : Int) + s.rods.stringLength - head - s.rods.headOffset

/-- The clamp of R77. -/
def clampDepth (d : Int) : Nat := min d.toNat Config.depthMax

/-- The string footage counter takes an advance (R74). -/
def addFootage (n : Nat) (s : State) : State :=
  let after := satAdd Config.counterMax s.rods.footage n
  recordSaturation 4 s.rods.footage after { s with rods.footage := after }

/-- An advance, with the hole depth already moved, goes to the lag tracker and the billing clock while the job is OPEN
(R79). -/
def handAdvance (s : State) : State :=
  if s.jobs.state = .opened then drillingActivity (lagAdvance s.rods.holeDepth s) else s

/-- A bit depth beyond the hole depth raises it and hands the advance on: to the footage counter, the lag tracker and the
billing clock, in this order (R79; the order log 43). -/
def holeAdvance (s : State) : State :=
  if s.rods.holeDepth < s.rods.bitDepth then
    handAdvance
      (addFootage (s.rods.bitDepth - s.rods.holeDepth) { s with rods.holeDepth := s.rods.bitDepth })
  else s

/-- The bit depth is recomputed with a head height (R77, R78, R79). -/
def recompute (head : Nat) (s : State) : State :=
  let sum := depthSum head s
  holeAdvance
    { s with rods.unclamped := sum, rods.bitDepth := clampDepth sum,
             rods.depthClamp := decide (sum < 0) || decide ((Config.depthMax : Int) < sum) }

/-- A head-height sample (R78). -/
def heightSample (good : Option Nat) (s : State) : State :=
  match good with
  | some v => if s.joint.state = .ready then recompute v s else s
  | none => s

/-- A hook-load sample (R81). -/
def loadSample (good : Option Nat) (s : State) : State :=
  match good with
  | none => s
  | some v =>
    if s.joint.state = .ready ∧ s.rods.overpullLimit ≠ 0 then
      if s.rods.overpullLimit < v then
        if s.rods.overpull then s
        else record .overpull v s.rods.overpullLimit { s with rods.overpull := true }
      else { s with rods.overpull := false }
    else { s with rods.overpull := false }

/-- OPEN JOB sets the hole depth to the bit depth (R80). -/
def openDepth (s : State) : State := { s with rods.holeDepth := s.rods.bitDepth }

/-! ## Requests -/

/-- The status a code names (R67). -/
def statusOf : Nat → Option RodStatus
  | 0 => some .serviceable
  | 1 => some .inspect
  | 2 => some .retired
  | _ => none

/-- The destination a code names: 0..95 a slot, 255 YARD (spec 11, code table). -/
def destinationOf (code : Nat) : Option RodLocation :=
  if code < Config.magazineSlots then some (.magazine code) else if code = 255 then some .yard else none

/-- REGISTER ROD, taken or refused (R67). -/
def takeRegisterRod (id length status makeUps rotating : Nat) (s : State) : State × Reply :=
  match statusOf status with
  | none => (s, .badArgument)
  | some st =>
    if !(inRange 1 65535 id && inRange 100 1000 length && inRange 0 65535 makeUps && inRange 0 65535 rotating) then
      (s, .badArgument)
    else if (findRod id s).isSome then (s, .wrongState)
    else if Config.registryMax ≤ s.rods.registry.length then (s, .full)
    else
      let r : Rod :=
        { id := id, length := length, status := st, makeUps := makeUps, rotating := rotating, location := .yard,
          entryFootage := none, makeUpPeak := none, breakPeak := none }
      ({ s with rods.registry := insertRod r s.rods.registry }, .ok)

/-- DELIST ROD, taken or refused (R68). -/
def takeDelistRod (id : Nat) (s : State) : State × Reply :=
  match findRod id s with
  | none => (s, .notFound)
  | some r =>
    if r.location ≠ .yard then (s, .wrongState)
    else ({ s with rods.registry := s.rods.registry.filter fun q => decide (q.id ≠ id) }, .ok)

/-- The location is STRING or ARM (R69 check 3). -/
def RodLocation.handled : RodLocation → Bool
  | .arm | .string _ => true
  | .yard | .magazine _ => false

/-- The destination is a slot that holds another rod or is reserved (R69 check 5, R101 check 4). -/
def slotBlocked (id : Nat) (loc : RodLocation) (s : State) : Bool :=
  match loc with
  | .magazine k => decide (slotRod k s ≠ some id) && !slotOpen k s
  | .yard | .arm | .string _ => false

/-- PLACE ROD, taken or refused (R69). -/
def takePlaceRod (id destination : Nat) (s : State) : State × Reply :=
  match destinationOf destination with
  | none => (s, .badArgument)
  | some loc =>
    match findRod id s with
    | none => (s, .notFound)
    | some r =>
      if r.location.handled then (s, .wrongState)
      else if loc ≠ .yard ∧ loc ≠ r.location ∧ r.status = .retired then (s, .badArgument)
      else if slotBlocked id loc s then (s, .full)
      else (moveRod id loc s, .ok)

/-- SET ROD STATUS, taken or refused (R70). A request with both a bad status and an unregistered id is refused with
BAD_ARGUMENT (log 41). -/
def takeSetRodStatus (id status : Nat) (s : State) : State × Reply :=
  match statusOf status with
  | none => (s, .badArgument)
  | some st =>
    if (findRod id s).isNone then (s, .notFound)
    else (updateRod id (fun r => { r with status := st }) s, .ok)

/-- SET ROD LIMITS, taken or refused (R71). -/
def takeSetRodLimits (rotating makeUps : Nat) (s : State) : State × Reply :=
  if inRange 0 65535 rotating && inRange 0 65535 makeUps then
    ({ s with rods.rotatingLimit := rotating, rods.makeUpLimit := makeUps }, .ok)
  else (s, .badArgument)

/-- SET DEPTH REFERENCE, taken or refused (R76). -/
def takeSetDepthReference (bha offset : Nat) (s : State) : State × Reply :=
  if !(inRange 0 5000 bha && inRange 0 1000 offset) then (s, .badArgument)
  else if s.rods.string ≠ [] then (s, .stringInHole)
  else ({ s with rods.bhaLength := bha, rods.headOffset := offset }, .ok)

/-- SET OVERPULL LIMIT, taken or refused (R81). -/
def takeSetOverpullLimit (limit : Nat) (s : State) : State × Reply :=
  if limit ≤ 100000 then ({ s with rods.overpullLimit := limit }, .ok) else (s, .badArgument)

end Sys2Proof.Machine
end

