-- ==== Sys2Proof/Machine/Joint.lean ====
section
/-! DEFINITION. The joint controller (spec 05): changes of joint state, tag reads, torque episodes and their outcomes, the
break permit, HELD, and the joint requests. -/

namespace Sys2Proof.Machine

/-! ## Changes of joint state (R86) -/

/-- The bit depth is recomputed on a change into READY, with the head-height channel's value, where it is unfaulted
(R78). -/
def recomputeAtReady (s : State) : State :=
  if s.flu.height.fault then s else recompute s.flu.height.value s

/-- The joint state changes: both permits are commanded and then the JOINT class set pending (R86; the order log 40). The HELD
reference is kept only in HELD (R103). -/
def enterJoint (j : JointState) (s : State) : State :=
  notify .joint
    (commandPermits
      { s with joint.state := j, joint.heldRef := if j = .held then s.joint.heldRef else none })

/-- A change into READY, with its recomputation after JOINT is set pending (R78, R86; the order log 40). -/
def enterReady (s : State) : State := recomputeAtReady (enterJoint .ready s)

/-- The joint state becomes READY with the arm empty, in one step (R86). -/
def clearArmToReady (s : State) : State := enterReady { s with joint.arm := none }

/-- The joint state becomes HELD with the arm empty, on an incident slot or none (R103). -/
def clearArmToHeld (ref : Option Nat) (s : State) : State :=
  enterJoint .held { s with joint.arm := none, joint.heldRef := ref }

/-- The break permit ends without a break (R100, R102). -/
def endBreakPermit (s : State) : State := enterReady { s with joint.timer := 0 }

/-- The pressure is bled: the channel unfaulted and its value at or below the bleed limit (R40). -/
def bled (s : State) : Bool :=
  !s.flu.pressure.fault && decide (s.flu.pressure.value ≤ s.circ.limits.bleedLimit)

/-! ## Tag reads (R90, R91) -/

/-- A rod is loaded into the arm from its place (R75, R90). -/
def loadRod (r : Rod) (s : State) : State :=
  let source := match r.location with
    | .magazine k => ArmSource.slot k
    | .yard | .arm | .string _ => ArmSource.yard
  let s1 := moveRod r.id .arm s
  enterJoint .loaded { s1 with joint.arm := some { rod := r.id, source := source } }

/-- A tag read taken in READY (R90). -/
def readTagReady (id : Nat) (s : State) : State :=
  match findRod id s with
  | none => record .unknownRod id 0 s
  | some r =>
    match r.location with
    | .string i => record .rodMismatch id i s
    | .yard | .magazine _ | .arm =>
      if r.status ≠ .serviceable then record .rodNotServiceable id r.status.code s
      else if Config.stringMax ≤ s.rods.string.length then record .stringFull id s.rods.string.length s
      else loadRod r s

/-- A tag read handed to the joint controller (R90, R91). -/
def readTag (id : Nat) (s : State) : State :=
  match s.joint.state with
  | .ready => readTagReady id s
  | .unloaded =>
    match s.joint.arm with
    | some a => if a.rod = id then s else record .rodMismatch id a.rod s
    | none => s
  | .loaded | .breakPermit | .held => s

/-! ## Torque episodes (R92 to R98) -/

/-- The episode threshold (R89). -/
def JointLimits.threshold (l : JointLimits) : Nat := l.target / 10

/-- The bottom of the accepted band (R89). -/
def JointLimits.bandBottom (l : JointLimits) : Nat := l.target - l.tolerance

/-- How an episode that ends now is judged (R93 to R98). -/
def judgeEpisode (e : Episode) (s : State) : EpisodeOutcome :=
  match s.joint.state with
  | .loaded =>
    if e.permitLow then .bypass
    else if s.joint.limits.maximum < e.peak then .overtorque
    else if e.peak < s.joint.limits.bandBottom then .short
    else .made
  | .ready => .stray
  | .breakPermit => if s.joint.limits.detect ≤ e.peak then .broken else .ignored
  | .unloaded | .held => .ignored

/-- The rod in the arm is pushed, with the episode's peak (R72, R93). -/
def pushArm (peak : Nat) (s : State) : State :=
  match s.joint.arm with
  | some a => pushRod a.rod peak s
  | none => s

/-- The rod in the arm is set to INSPECT (R94, R96). -/
def inspectArm (s : State) : State :=
  match s.joint.arm with
  | some a => updateRod a.rod (fun r => { r with status := .inspect }) s
  | none => s

/-- A joint accounted as made is handed to the pricing unit and to the billing clock (R93 steps 3 and 4). -/
def handJointMade (s : State) : State := jointActivity (takeTrigger .nextConnection s)

/-- MADE (R93). -/
def jointMade (peak : Nat) (s : State) : State := handJointMade (clearArmToReady (pushArm peak s))

/-- OVERTORQUE (R94). The rod is set to INSPECT while the arm record still names it. -/
def jointOvertorque (peak : Nat) (s : State) : State :=
  let r := recordIncident .overtorque peak s.joint.limits.maximum (inspectArm (pushArm peak s))
  handJointMade (clearArmToHeld r.2 r.1)

/-- INTERLOCK_BYPASS (R96). -/
def jointBypass (peak : Nat) (s : State) : State :=
  let s1 := pushArm peak s
  let s2 := if s.joint.limits.maximum < peak then
      record .overtorque peak s.joint.limits.maximum (inspectArm s1) else s1
  let r := recordIncident .interlockBypass peak s.circ.state.code s2
  handJointMade (clearArmToHeld r.2 r.1)

/-- BREAK: the top rod is popped into the arm (R98). -/
def jointBroken (peak : Nat) (s : State) : State :=
  match s.rods.string.getLast? with
  | some id =>
    let s1 := popRod id peak s
    jointActivity
      (enterJoint .unloaded { s1 with joint.arm := some { rod := id, source := .string }, joint.timer := 0 })
  | none => s

/-- What an outcome does (R93 to R98). -/
def applyOutcome (o : EpisodeOutcome) (peak : Nat) (s : State) : State :=
  match o with
  | .made => jointMade peak s
  | .overtorque => jointOvertorque peak s
  | .short => record .shortTorque peak s.joint.limits.bandBottom s
  | .bypass => jointBypass peak s
  | .stray => record .strayTorque peak s.rods.string.length s
  | .broken => jointBroken peak s
  | .ignored => s

/-- An episode ends: it becomes the last episode, the episode record is cleared, and the outcome is applied (R92). -/
def endEpisode (e : Episode) (s : State) : State :=
  let o := judgeEpisode e s
  applyOutcome o e.peak { s with joint.episode := none, joint.last := some { peak := e.peak, outcome := o } }

/-- A torque sample (R92). -/
def torqueSample (good : Option Nat) (s : State) : State :=
  match good with
  | none => s
  | some v =>
    match s.joint.episode with
    | none =>
      if s.joint.limits.threshold < v then
        { s with joint.episode := some { peak := v, permitLow := !s.flu.makeUpPermit } }
      else s
    | some e =>
      if s.joint.limits.threshold < v then
        { s with joint.episode := some { e with peak := max e.peak v } }
      else if v < s.joint.limits.threshold then endEpisode e s
      else s

/-! ## The break permit (R99, R100) -/

/-- A pressure sample at the joint controller (R100). -/
def jointPressure (good : Option Nat) (s : State) : State :=
  if s.joint.state = .breakPermit then
    match good with
    | some v => if s.circ.limits.bleedLimit < v then endBreakPermit s else s
    | none => endBreakPermit s
  else s

/-- BREAK_PERMIT ends where the timer stands at or above the timeout (R100). -/
def expireBreakPermit (s : State) : State :=
  if s.joint.state = .breakPermit ∧ s.joint.limits.timeout ≤ s.joint.timer then endBreakPermit s else s

/-- The joint controller's part of a second tick (R100). -/
def jointTick (s : State) : State :=
  if s.joint.state = .breakPermit then expireBreakPermit { s with joint.timer := s.joint.timer + 1 } else s

/-- A slot cleared in the incident table frees the HELD it is the reference of (R104). -/
def heldSlotCleared (n : Nat) (s : State) : State :=
  if s.joint.state = .held ∧ s.joint.heldRef = some n then enterReady s else s

/-- The slot the HELD reference names is still pending (R104, R107). -/
def heldPending (s : State) : Bool := s.joint.heldRef.any (slotPending s)

/-! ## Requests -/

/-- SET JOINT LIMITS, taken or refused (R89). -/
def takeSetJointLimits (target tolerance maximum detect timeout : Nat) (s : State) : State × Reply :=
  if inRange 500 90000 target && inRange 0 20000 tolerance && decide (tolerance < target) &&
      inRange target 100000 maximum && inRange 500 50000 detect && inRange 10 600 timeout then
    ({ s with joint.limits := { target := target, tolerance := tolerance, maximum := maximum, detect := detect,
                                timeout := timeout } }, .ok)
  else (s, .badArgument)

/-- REQUEST BREAK, taken or refused (R99). -/
def takeRequestBreak (s : State) : State × Reply :=
  if s.joint.state ≠ .ready then (s, .wrongState)
  else if s.rods.string = [] then (s, .notFound)
  else if !(s.circ.state.resting && bled s) then (s, .interlock)
  else (enterJoint .breakPermit { s with joint.timer := 0 }, .ok)

/-- RACK ROD, taken or refused (R101). -/
def takeRackRod (destination : Nat) (s : State) : State × Reply :=
  if s.joint.state ≠ .unloaded then (s, .wrongState)
  else
    match destinationOf destination with
    | none => (s, .badArgument)
    | some loc =>
      match s.joint.arm with
      | none => (s, .wrongState)
      | some a =>
        if loc ≠ .yard ∧ (findRod a.rod s).any (fun r => decide (r.status = .retired)) then (s, .badArgument)
        else if slotBlocked a.rod loc s then (s, .full)
        else (clearArmToReady (moveRod a.rod loc s), .ok)

/-- The loaded rod returns to its source (R75). -/
def returnRod (s : State) : State :=
  match s.joint.arm with
  | some a => moveRod a.rod a.source.location s
  | none => s

/-- CANCEL JOINT, taken or refused (R102). -/
def takeCancelJoint (s : State) : State × Reply :=
  match s.joint.state with
  | .loaded => (clearArmToReady (returnRod s), .ok)
  | .breakPermit => (endBreakPermit s, .ok)
  | .ready | .unloaded | .held => (s, .wrongState)

/-- RELEASE JOINT, taken or refused (R104). -/
def takeReleaseJoint (s : State) : State × Reply :=
  if s.joint.state ≠ .held then (s, .wrongState)
  else if heldPending s then (s, .interlock)
  else (enterReady s, .ok)

end Sys2Proof.Machine
end

