-- ==== Sys2Proof/Machine/Circulation.lean ====
section
/-! DEFINITION. The circulation monitor (spec 02): changes of circulation state, strokes and return pulses, the
flow-balance window and its evaluation, stopping, the static-flow check, and the circulation requests. -/

namespace Sys2Proof.Machine

/-! ## Changes of circulation state (R28, R29) -/

/-- The empty bin. -/
def Bin.zero : Bin := { pumped := 0, returned := 0 }

/-- The monitor's own fields at a change of state: the runs at 0, the window cleared where R24 says, the gain flag
cleared on leaving the evaluating states, a new stay begun on entering STILL or STOPPED (R24, R29, R42). -/
def Circulation.entered (new : CircState) (mask : PumpMask) (c : Circulation) : Circulation :=
  { c with state := new, mask := mask, totalRun := 0, partialRun := 0, recoveryRun := 0, clearRun := 0,
           window := if new.clearsWindow then [] else c.window,
           openBin := if new.clearsWindow then Bin.zero else c.openBin,
           gainEpisode := c.gainEpisode && !(c.state.evaluating && !new.evaluating),
           staticCount := if new.resting then 0 else c.staticCount,
           staticFlag := c.staticFlag && !new.resting }

/-- The change enters or leaves TOTAL_LOSS (R29). -/
def crossesTotalLoss (old new : CircState) : Bool := decide (old = .totalLoss) != decide (new = .totalLoss)

/-- A change of circulation state: the enables are commanded, CIRCULATION is set pending, a change into or out of TOTAL_LOSS
is handed to the lag tracker, and the permits are commanded, in this order (R28, R29, R87; the order log 40). -/
def enterCirc (new : CircState) (mask : PumpMask) (s : State) : State :=
  let s1 := notify .circulation (commandEnables { s with circ := s.circ.entered new mask })
  let s2 := if crossesTotalLoss s.circ.state new then totalLossChange s1 else s1
  commandPermits s2

/-- A change that keeps the running mask (R28). -/
def enterCircKept (new : CircState) (s : State) : State := enterCirc new s.circ.mask s

/-! ## Strokes and return pulses (R20 to R23, R31, R42) -/

/-- A litre joins a saturating counter. -/
def litre (n : Nat) : Nat := satAdd Config.counterMax n 1

/-- The retained litre joins the lag clock, and the advance goes to the lag tracker, also where the clock stands at its limit
(R21 step 3, log 22). -/
def lagLitre (s : State) : State :=
  lagClockAdvance (recordSaturation 2 s.circ.vl (litre s.circ.vl) { s with circ.vl := litre s.circ.vl })

/-- One carried litre of pumped mud (R21). A counter that reaches its limit is recorded before the litre's next step
(R20, log 43). -/
def pumpedLitre (s : State) : State :=
  let s1 := recordSaturation 0 s.circ.vp (litre s.circ.vp) { s with circ.vp := litre s.circ.vp }
  let s2 := if s1.circ.state.binsRun then
      { s1 with circ.openBin.pumped := satAdd Config.binMax s1.circ.openBin.pumped 1 } else s1
  if s2.circ.state.lagCarrying then lagLitre s2 else s2

/-- PRIMING becomes CIRCULATING where the prime returned count has reached the prime volume (R31). -/
def completePrime (s : State) : State :=
  if s.circ.state = .priming ∧ s.circ.limits.primeVolume ≤ s.circ.primeCount then enterCircKept .circulating s else s

/-- The static-flow counter first reaching the flow-check limit in a stay (R42). -/
def checkStaticFlow (s : State) : State :=
  if s.circ.state.resting ∧ s.circ.limits.flowCheck ≤ s.circ.staticCount ∧ s.circ.staticFlag = false then
    let s1 := record .flowWhileStill s.circ.staticCount s.circ.state.code s
    { s1 with circ.staticFlag := true }
  else s

/-- Steps 3 and 4 of a returned litre (R22). -/
def returnedEffects (s : State) : State :=
  if s.circ.state = .priming then completePrime { s with circ.primeCount := s.circ.primeCount + 1 }
  else if s.circ.state.resting then checkStaticFlow { s with circ.staticCount := litre s.circ.staticCount }
  else s

/-- One carried litre of returned mud (R22; the recording of R20 comes before its next step, log 43). -/
def returnedLitre (s : State) : State :=
  let s1 := recordSaturation 1 s.circ.vr (litre s.circ.vr) { s with circ.vr := litre s.circ.vr }
  let s2 := if s1.circ.state.binsRun then
      { s1 with circ.openBin.returned := satAdd Config.binMax s1.circ.openBin.returned 1 } else s1
  returnedEffects s2

/-- An operation done a number of times. -/
def repeatTimes (f : State → State) : Nat → State → State
  | 0, s => s
  | n + 1, s => repeatTimes f n (f s)

/-- Pump A, or pump B. -/
inductive Pump where
  | a
  | b
  deriving DecidableEq, Repr

def Pump.code : Pump → Nat
  | .a => 0 | .b => 1

/-- A pump's configuration. -/
def pumpConfig (p : Pump) (s : State) : PumpConfig :=
  match p with
  | .a => s.circ.pumpA
  | .b => s.circ.pumpB

/-- A pump's enable output. -/
def pumpEnable (p : Pump) (s : State) : Bool :=
  match p with
  | .a => s.flu.pumpAEnable
  | .b => s.flu.pumpBEnable

/-- The stroke volume product P (R18). -/
def PumpConfig.product (c : PumpConfig) : Nat := c.displacement * c.efficiency

/-- A stroke on a pump whose enable is low is recorded (R23). -/
def checkEnable (p : Pump) (s : State) : State :=
  if pumpEnable p s then s else record .strokeWithoutEnable p.code s.circ.state.code s

/-- An accepted stroke of a pump (R21, R23); a low enable is recorded before the stroke is counted (log 21). -/
def stroke (p : Pump) (s : State) : State :=
  let s1 := checkEnable p s
  let r := s1.circ.pumpedResidue + (pumpConfig p s1).product
  repeatTimes pumpedLitre (r / Config.litreUnits) { s1 with circ.pumpedResidue := r % Config.litreUnits }

/-- An accepted return-meter pulse (R22). -/
def returnPulse (s : State) : State :=
  let r := s.circ.returnResidue + s.circ.meterWeight * 1000
  repeatTimes returnedLitre (r / Config.litreUnits) { s with circ.returnResidue := r % Config.litreUnits }

/-! ## The flow-balance window (R24 to R26) -/

/-- The sum of pumped litres over the window. -/
def sumPumped (w : List Bin) : Nat := (w.map (·.pumped)).sum

/-- The sum of returned litres over the window. -/
def sumReturned (w : List Bin) : Nat := (w.map (·.returned)).sum

/-- The newest bin joins, and beyond twelve the oldest drops (R24). -/
def pushBin (w : List Bin) (b : Bin) : List Bin :=
  if Config.windowBins ≤ w.length then (w ++ [b]).drop 1 else w ++ [b]

/-- The open bin joins the window and a new one starts (R24). -/
def closeBin (s : State) : State :=
  { s with circ.window := pushBin s.circ.window s.circ.openBin, circ.openBin := Bin.zero }

/-- The positive part of a closed bin goes to the job loss volume and to the open span (R25). -/
def handLoss (b : Bin) (s : State) : State :=
  if s.circ.state.evaluating ∧ s.jobs.state = .opened then
    let after := satAdd Config.counterMax s.circ.jobLoss (b.pumped - b.returned)
    spanLossLitres (b.pumped - b.returned)
      (recordSaturation 3 s.circ.jobLoss after { s with circ.jobLoss := after })
  else s

/-- The loss rate of two window sums, clamped (R26). -/
def lossRate (p r : Nat) : Int := max (-9999) (min 9999 ((p : Int) - r))

/-- A run after a test (R26). -/
def runAfter (holds : Bool) (run : Nat) : Nat := if holds then min (run + 1) 3 else 0

/-- The total condition (R26). -/
def totalCondition (b : FlowBalance) (p r : Nat) : Bool := decide (r * 100 < p * b.totalPercent)

/-- The partial condition (R26). -/
def partialCondition (b : FlowBalance) (p r : Nat) : Bool := decide ((b.partialThreshold : Int) ≤ lossRate p r)

/-- The recovery run's test (R26). -/
def recoveryCondition (b : FlowBalance) (p r : Nat) : Bool :=
  decide (lossRate p r < (b.partialThreshold : Int) - b.hysteresis)

/-- The gain condition (R26). -/
def gainCondition (b : FlowBalance) (p r : Nat) : Bool := decide ((b.gainThreshold : Int) ≤ (r : Int) - p)

/-- The gain episode ends (R41). -/
def gainEnds (b : FlowBalance) (p r : Nat) : Bool := decide ((r : Int) - p < (b.gainThreshold : Int) - b.hysteresis)

/-- The four runs after an evaluation with a verdict (R26). -/
def updateRuns (p r : Nat) (s : State) : State :=
  let b := s.circ.balance
  { s with circ.totalRun := runAfter (totalCondition b p r) s.circ.totalRun,
           circ.partialRun := runAfter (partialCondition b p r) s.circ.partialRun,
           circ.recoveryRun := runAfter (recoveryCondition b p r) s.circ.recoveryRun,
           circ.clearRun := runAfter (!totalCondition b p r) s.circ.clearRun }

/-- The gain condition taken with the gain episode flag; FLOW_GAIN is recorded, then CIRCULATION set pending, then the
strike handed on (R41; the order log 43). -/
def checkGain (p r : Nat) (s : State) : State :=
  if gainCondition s.circ.balance p r then
    if s.circ.gainEpisode then s
    else
      let s1 := notify .circulation (record .flowGain (r - p) p { s with circ.gainEpisode := true })
      if s1.jobs.state = .opened then autoStrike (r - p) s1 else s1
  else if gainEnds s.circ.balance p r then { s with circ.gainEpisode := false }
  else s

/-- LOSS_TOTAL: TOTAL_LOSS is entered and then recorded (R32, R33; the order log 39). -/
def enterTotalLoss (p r : Nat) (s : State) : State := record .lossTotal r p (enterCircKept .totalLoss s)

/-- The tests that follow an evaluation with a verdict, by state (R32, R33, R34); LOSS_PARTIAL is recorded after its change
(log 39). -/
def testRuns (p r : Nat) (s : State) : State :=
  match s.circ.state with
  | .circulating =>
    if 2 ≤ s.circ.totalRun then enterTotalLoss p r s
    else if 2 ≤ s.circ.partialRun then record .lossPartial (lossRate p r).toNat p (enterCircKept .partialLoss s)
    else s
  | .partialLoss =>
    if 2 ≤ s.circ.totalRun then enterTotalLoss p r s
    else if 3 ≤ s.circ.recoveryRun then enterCircKept .circulating s
    else s
  | .totalLoss =>
    if 2 ≤ s.circ.clearRun then
      if recoveryCondition s.circ.balance p r then enterCircKept .circulating s else enterCircKept .partialLoss s
    else s
  | .still | .priming | .stopping | .stopped | .pumpTest => s

/-- The evaluation of a full window (R26, R41): with too little pumped it gives no verdict and zeroes the runs. The gain check
comes before the tests on the runs (log 20). -/
def evaluate (s : State) : State :=
  let p := sumPumped s.circ.window
  let r := sumReturned s.circ.window
  let verdict := decide (s.circ.balance.minVolume ≤ p)
  let e : Evaluation := { lossRate := lossRate p r, pumped := p, returned := r, verdict := verdict }
  let s1 := { s with circ.lastEval := some e }
  if verdict then testRuns p r (checkGain p r (updateRuns p r s1))
  else { s1 with circ.totalRun := 0, circ.partialRun := 0, circ.recoveryRun := 0, circ.clearRun := 0 }

/-- An evaluation is due at this bin close (R26). -/
def evaluationDue (s : State) : Bool :=
  s.circ.state.evaluating && decide (s.circ.window.length = Config.windowBins)

/-- A bin tick at the circulation monitor (R24, R25, R26). -/
def takeBinTick (s : State) : State :=
  if s.circ.state.binsRun then
    let s1 := handLoss s.circ.openBin (closeBin s)
    if evaluationDue s1 then evaluate s1 else s1
  else s

/-! ## Stopping (R35, R36) -/

/-- A pressure sample acts on the bleed hold in STOPPING (R36). -/
def bleedSample (good : Option Nat) (s : State) : State :=
  if s.circ.state = .stopping then
    match good with
    | some v =>
      if v ≤ s.circ.limits.bleedLimit then
        if s.circ.bleedHolding then s else { s with circ.bleedHolding := true, circ.bleedCount := 0 }
      else { s with circ.bleedHolding := false, circ.bleedCount := 0 }
    | none => { s with circ.bleedHolding := false, circ.bleedCount := 0 }
  else s

/-- STOPPING ends confirmed where the hold count has reached 10 (R36 test 1). -/
def confirmBleed (s : State) : State :=
  if s.circ.state = .stopping ∧ Config.bleedTicks ≤ s.circ.bleedCount then enterCirc .stopped .empty s else s

/-- STOPPING ends unconfirmed where the stop timer has reached the stop timeout; recorded after the change (R36 test 2,
log 39). -/
def expireStop (s : State) : State :=
  if s.circ.state = .stopping ∧ s.circ.limits.stopTimeout ≤ s.circ.stopTimer then
    record .bleedUnconfirmed s.flu.pressure.value (flagCode s.flu.pressure.fault) (enterCirc .stopped .empty s)
  else s

/-- The tick's tests in STOPPING, in order: a confirmed bleed leaves STOPPING, so the second test then does nothing
(R36). -/
def stoppingTick (s : State) : State :=
  expireStop (confirmBleed
    { s with circ.stopTimer := s.circ.stopTimer + 1,
             circ.bleedCount :=
               if s.circ.bleedHolding then min (s.circ.bleedCount + 1) Config.bleedTicks else s.circ.bleedCount })

/-- PRIMING ends in TOTAL_LOSS where the prime timer has reached the prime timeout; recorded after the change (R31, log 39). -/
def expirePrime (s : State) : State :=
  if s.circ.state = .priming ∧ s.circ.limits.primeTimeout ≤ s.circ.primeTimer then
    record .primeNoReturns s.circ.primeCount s.circ.limits.primeTimeout (enterCircKept .totalLoss s)
  else s

/-- The circulation monitor's part of a second tick (R31, R36). -/
def circulationTick (s : State) : State :=
  match s.circ.state with
  | .priming => expirePrime { s with circ.primeTimer := s.circ.primeTimer + 1 }
  | .stopping => stoppingTick s
  | .still | .circulating | .partialLoss | .totalLoss | .stopped | .pumpTest => s

/-! ## Jobs -/

/-- OPEN JOB's part here (R44). -/
def openCirculation (s : State) : State :=
  { s with circ.vp := 0, circ.vr := 0, circ.vl := 0, circ.pumpedResidue := 0, circ.returnResidue := 0,
           circ.jobLoss := 0, circ.lastEval := none }

/-! ## Requests -/

/-- The pump a code names (spec 11). -/
def pumpOf : Nat → Option Pump
  | 0 => some .a
  | 1 => some .b
  | _ => none

/-- SET PUMP, taken or refused (R18). -/
def takeSetPump (pump displacement efficiency : Nat) (s : State) : State × Reply :=
  match pumpOf pump with
  | none => (s, .badArgument)
  | some p =>
    if !((decide (displacement = 0) || inRange 500 30000 displacement) && inRange 500 1000 efficiency) then
      (s, .badArgument)
    else if pumpEnable p s then (s, .wrongState)
    else
      let c : PumpConfig := { displacement := displacement, efficiency := efficiency }
      match p with
      | .a => ({ s with circ.pumpA := c }, .ok)
      | .b => ({ s with circ.pumpB := c }, .ok)

/-- SET RETURN METER, taken or refused (R19). -/
def takeSetReturnMeter (weight : Nat) (s : State) : State × Reply :=
  if inRange 10 10000 weight then ({ s with circ.meterWeight := weight }, .ok) else (s, .badArgument)

/-- SET FLOW BALANCE, taken or refused (R27). -/
def takeSetFlowBalance (minVolume totalPercent partialThreshold hysteresis gainThreshold : Nat) (s : State) :
    State × Reply :=
  if inRange 10 10000 minVolume && inRange 1 50 totalPercent && inRange 5 2000 partialThreshold &&
      inRange 0 1000 hysteresis && inRange 5 2000 gainThreshold && decide (hysteresis < partialThreshold) &&
      decide (hysteresis < gainThreshold) then
    ({ s with circ.balance :=
        { minVolume := minVolume, totalPercent := totalPercent, partialThreshold := partialThreshold,
          hysteresis := hysteresis, gainThreshold := gainThreshold } }, .ok)
  else (s, .badArgument)

/-- A new bleed limit below the pressure value ends a BREAK_PERMIT state (R100). -/
def checkBleedLimit (s : State) : State :=
  if s.joint.state = .breakPermit ∧ s.circ.limits.bleedLimit < s.flu.pressure.value then endBreakPermit s else s

/-- SET CIRCULATION LIMITS, taken or refused (R40, R100). -/
def takeSetCirculationLimits (primeVolume primeTime stopTime bleedLimit flowCheck : Nat) (s : State) :
    State × Reply :=
  if inRange 10 5000 primeVolume && inRange 30 1800 primeTime && inRange 30 600 stopTime &&
      inRange 50 5000 bleedLimit && inRange 5 5000 flowCheck then
    (checkBleedLimit
      { s with circ.limits :=
          { primeVolume := primeVolume, primeTimeout := primeTime, stopTimeout := stopTime, bleedLimit := bleedLimit,
            flowCheck := flowCheck } }, .ok)
  else (s, .badArgument)

/-- The pump is configured (R18). -/
def configured (p : Pump) (s : State) : Bool := decide ((pumpConfig p s).displacement ≠ 0)

/-- The mask names at least one pump, no bit but the two, and each pump named is configured (R30 check 1). -/
def maskGood (mask : Nat) (s : State) : Bool :=
  inRange 1 3 mask && (!mask.testBit 0 || configured .a s) && (!mask.testBit 1 || configured .b s)

/-- The mask a code spells (spec 11). -/
def maskOf (mask : Nat) : PumpMask := { a := mask.testBit 0, b := mask.testBit 1 }

/-- START CIRCULATION, taken or refused (R30). -/
def takeStartCirculation (mask : Nat) (s : State) : State × Reply :=
  if !maskGood mask s then (s, .badArgument)
  else if s.circ.state ≠ .still then (s, .wrongState)
  else if s.joint.state ≠ .ready then (s, .interlock)
  else (enterCirc .priming (maskOf mask) { s with circ.primeCount := 0, circ.primeTimer := 0 }, .ok)

/-- STOP CIRCULATION, taken or refused (R35). -/
def takeStopCirculation (s : State) : State × Reply :=
  if s.circ.state.pumping then
    (enterCirc .stopping .empty
      { s with circ.stopTimer := 0, circ.bleedHolding := false, circ.bleedCount := 0 }, .ok)
  else (s, .wrongState)

/-- CONFIRM STOP, taken or refused (R37). -/
def takeConfirmStop (s : State) : State × Reply :=
  if s.circ.state = .stopped then (enterCirc .still .empty s, .ok) else (s, .wrongState)

/-- RESET CIRCULATION, taken in every state; RESET_UNDER_PRESSURE is recorded after the change to STILL (R38; the order
log 39). -/
def takeResetCirculation (s : State) : State × Reply :=
  let s1 := enterCirc .still .empty
    { s with circ.primeCount := 0, circ.primeTimer := 0, circ.stopTimer := 0, circ.bleedHolding := false,
             circ.bleedCount := 0 }
  (if bled s then s1 else record .resetUnderPressure s.flu.pressure.value s.circ.state.code s1, .ok)

/-- The mask of one pump alone (R39). -/
def Pump.mask : Pump → PumpMask
  | .a => { a := true, b := false }
  | .b => { a := false, b := true }

/-- PUMP TEST, taken or refused; of the bleed hold it clears the holding flag only (R39, log 24). -/
def takePumpTest (pump : Nat) (s : State) : State × Reply :=
  match pumpOf pump with
  | none => (s, .badArgument)
  | some p =>
    if !configured p s then (s, .badArgument)
    else if s.circ.state = .pumpTest then (s, .wrongState)
    else if s.joint.state ≠ .ready then (s, .interlock)
    else (enterCirc .pumpTest p.mask { s with circ.bleedHolding := false }, .ok)

end Sys2Proof.Machine
end

