-- ==== Sys2Proof/Machine/FieldLines.lean ====
section
/-! DEFINITION. The field-line unit (spec 01): analog samples, pulse lines, the tag reader line, the second tick with the
clock and the bin phase, SET CHANNEL and SET CLOCK. -/

namespace Sys2Proof.Machine

/-! ## Analog channels (R3 to R8) -/

/-- A sample is in band (R3). -/
def inBand (current : Nat) : Bool := inRange 3600 21000 current

/-- The scaled value of an in-band current, clamped at both ends of the loop (R4). -/
def scaledValue (fullScale current : Nat) : Nat :=
  if current < 4000 then 0
  else if 20000 < current then fullScale
  else (current - 4000) * fullScale / 16000

/-- A channel after a sample (R5, R6). -/
def ChannelState.sampled (current : Nat) (c : ChannelState) : ChannelState :=
  if inBand current then
    let good := min (c.good + 1) Config.goodMax
    if c.fault && decide (good < Config.goodMax) then { c with good := good }
    else { c with good := good, fault := false, value := scaledValue c.fullScale current }
  else { c with good := 0, fault := true }

/-- What a sampled channel hands on: a good sample's value, or none for a faulted sample (R3). -/
def ChannelState.handedOn (c : ChannelState) : Option Nat := if c.fault then none else some c.value

def channelState (ch : Channel) (s : State) : ChannelState :=
  match ch with
  | .pressure => s.flu.pressure
  | .load => s.flu.load
  | .height => s.flu.height
  | .torque => s.flu.torque

def setChannelState (ch : Channel) (c : ChannelState) (s : State) : State :=
  match ch with
  | .pressure => { s with flu.pressure := c }
  | .load => { s with flu.load := c }
  | .height => { s with flu.height := c }
  | .torque => { s with flu.torque := c }

/-- The number of a channel (R3). -/
def channelCode : Channel → Nat
  | .pressure => 0 | .load => 1 | .height => 2 | .torque => 3

/-- A sample goes to its channel's consumers, in the order of R3's table (log 33). -/
def deliverSample (ch : Channel) (good : Option Nat) (s : State) : State :=
  match ch with
  | .pressure => jointPressure good (bleedSample good s)
  | .load => loadSample good s
  | .height => heightSample good s
  | .torque => torqueSample good s

/-- An out-of-band sample of an unfaulted channel records CHANNEL_FAULT (R6). -/
def recordFault (ch : Channel) (current : Nat) (was : ChannelState) (s : State) : State :=
  if !inBand current && !was.fault then record .channelFault (channelCode ch) current s else s

/-- One channel's sample (R3 to R6). CHANNEL_FAULT is recorded before the sample is handed on (log 43). -/
def sample (ch : Channel) (current : Nat) (s : State) : State :=
  let was := channelState ch s
  let now := was.sampled current
  deliverSample ch now.handedOn (recordFault ch current was (setChannelState ch now s))

/-! ## Pulse inputs (R9) -/

/-- A pulse line after one stretch at one level, and whether a pulse is accepted in it (R9). -/
def PulseLine.span (sp : LineSpan) (l : PulseLine) : PulseLine × Bool :=
  if sp.high then
    if l.waitLow then ({ l with high := true, lowTime := 0 }, false)
    else
      let width := (if l.inPulse then l.width + l.lowTime else 0) + sp.micros
      let counted := l.inPulse && l.counted
      let accepted := !counted && decide (Config.pulseMicros ≤ width)
      ({ high := true, inPulse := true, width := width, lowTime := 0, counted := counted || accepted,
         waitLow := false }, accepted)
  else
    let low := l.lowTime + sp.micros
    if Config.pulseMicros ≤ low then
      ({ high := false, inPulse := false, width := 0, lowTime := low, counted := false, waitLow := false }, false)
    else ({ l with high := false, lowTime := low }, false)

/-- A pulse line after some stretches, and how many pulses were accepted in them (R9). -/
def PulseLine.spans : List LineSpan → PulseLine → PulseLine × Nat
  | [], l => (l, 0)
  | sp :: rest, l =>
    let next := PulseLine.spans rest (l.span sp).1
    (next.1, next.2 + (if (l.span sp).2 then 1 else 0))

def pulseLine (i : PulseInput) (s : State) : PulseLine :=
  match i with
  | .a => s.flu.pulseA
  | .b => s.flu.pulseB
  | .r => s.flu.pulseR

def setPulseLine (i : PulseInput) (l : PulseLine) (s : State) : State :=
  match i with
  | .a => { s with flu.pulseA := l }
  | .b => { s with flu.pulseB := l }
  | .r => { s with flu.pulseR := l }

/-- One accepted pulse at the circulation monitor (R9, R21, R22). -/
def acceptPulse (i : PulseInput) (s : State) : State :=
  match i with
  | .a => stroke .a s
  | .b => stroke .b s
  | .r => returnPulse s

/-- Activity of a pulse input: each accepted pulse is one event of the circulation monitor (R9). -/
def pulseActivity (i : PulseInput) (spans : List LineSpan) (s : State) : State :=
  let r := (pulseLine i s).spans spans
  repeatTimes (acceptPulse i) r.2 (setPulseLine i r.1 s)

/-! ## Tag reader line (R10) -/

/-- The rod id of a sound reader frame of five characters (R10). -/
def soundFrame : List ReaderChar → Option Nat
  | [stx, hi, lo, check, etx] =>
    if stx.octet = 0x02#8 ∧ check.octet = hi.octet ^^^ lo.octet ∧ etx.octet = 0x03#8 ∧
        ([stx, hi, lo, check, etx].all fun c => !c.framingError) ∧ number [hi.octet, lo.octet] ≠ 0 then
      some (number [hi.octet, lo.octet])
    else none
  | _ => none

/-- One character from the reader line: hunted, joined to the frame, or completing it; a sound frame is a tag read, any
other is discarded (R10). -/
def readerChar (c : ReaderChar) (s : State) : State :=
  match s.flu.reader with
  | [] => if c.octet = 0x02#8 then { s with flu.reader := [c] } else s
  | p =>
    if p.length < 4 then { s with flu.reader := p ++ [c] }
    else
      let s1 := { s with flu.reader := [] }
      match soundFrame (p ++ [c]) with
      | some id => readTag id s1
      | none => s1

/-- Characters from the reader line, in order (R10). -/
def readerChars : List ReaderChar → State → State
  | [], s => s
  | c :: rest, s => readerChars rest (readerChar c s)

/-- A gap of more than 50 ms discards the characters received so far (R10). -/
def readerTimeout (s : State) : State := { s with flu.reader := [] }

/-! ## The seconds clock (R12 to R15) -/

/-- The clock gains a second and the day mark follows; a new day while the clock is set delivers a day boundary (R12,
R15). -/
def clockTick (s : State) : State :=
  let clock := min (s.flu.clock + 1) Config.clockMax
  let s1 := { s with flu.clock := clock }
  if s.flu.dayMark < dayNumber clock then
    let s2 := { s1 with flu.dayMark := dayNumber clock }
    if s.flu.clockUnset then s2 else dayBoundary s2
  else s1

/-- The bin phase counts the tick; at 4 it returns to 0 and the bin tick is delivered, unless it has already been taken
(R13, log 6). -/
def phaseTick (s : State) : State :=
  if s.flu.binPhase = 4 then
    let s1 := { s with flu.binPhase := 0, flu.binTickTaken := false }
    if s.flu.binTickTaken then s1 else takeBinTick s1
  else { s with flu.binPhase := s.flu.binPhase + 1 }

/-- A second tick: the clock, then the circulation monitor, the joint controller and the billing clock in R12's order,
then the bin tick (R12, R13, log 7). -/
def secondTick (s : State) : State := phaseTick (billingTick (jointTick (circulationTick (clockTick s))))

/-- The bin tick of the coming fifth second tick, taken before that tick (R13, log 6). -/
def earlyBinTick (s : State) : State :=
  if s.flu.binPhase = 4 ∧ s.flu.binTickTaken = false then takeBinTick { s with flu.binTickTaken := true } else s

/-! ## Requests -/

/-- The channel a number names (R3). -/
def channelOf : Nat → Option Channel
  | 0 => some .pressure
  | 1 => some .load
  | 2 => some .height
  | 3 => some .torque
  | _ => none

/-- The full scale is in the channel's range (R3, R7). -/
def fullScaleGood (ch : Channel) (fs : Nat) : Bool :=
  match ch with
  | .pressure => inRange 1000 60000 fs
  | .load => inRange 1000 100000 fs
  | .height => inRange 200 3000 fs
  | .torque => inRange 1000 100000 fs

/-- SET CHANNEL, taken or refused (R7). -/
def takeSetChannel (channel fullScale : Nat) (s : State) : State × Reply :=
  match channelOf channel with
  | none => (s, .badArgument)
  | some ch =>
    if fullScaleGood ch fullScale then
      (setChannelState ch { channelState ch s with fullScale := fullScale } s, .ok)
    else (s, .badArgument)

/-- What SET CLOCK does, in order (R14). -/
def applySetClock (time : Nat) (s : State) : State :=
  let s1 := if s.flu.clockUnset = false ∧ s.flu.dayMark < dayNumber time then dayBoundary s else s
  { s1 with flu.clock := time, flu.dayMark := dayNumber time, flu.clockUnset := false }

/-- SET CLOCK, taken in every state (R14). -/
def takeSetClock (time : Nat) (s : State) : State × Reply :=
  if time ≤ Config.clockMax then (applySetClock time s, .ok) else (s, .badArgument)

end Sys2Proof.Machine
end

