-- ==== Sys2Proof/Machine/Incidents.lean ====
section
/-! DEFINITION. The requests of the incident table and notice unit (spec 09). Recording itself is in Machine/Ops.lean, the
notice classes in Machine/Flags.lean. -/

namespace Sys2Proof.Machine

/-- A pending slot is cleared: it leaves the pending list, and the joint controller is told (R170, R104). -/
def clearSlot (n : Nat) (s : State) : State :=
  heldSlotCleared n
    { s with inc.slots := setAt s.inc.slots n fun slot => slot.map fun r => { r with pending := false },
             inc.order := s.inc.order.filter fun m => decide (m ≠ n) }

/-- CLEAR INCIDENT, taken or refused (R170). -/
def takeClearIncident (n : Nat) (s : State) : State × Reply :=
  if 15 < n then (s, .badArgument)
  else (if slotPending s n then clearSlot n s else s, .ok (octFlag (slotPending s n)))

/-- CLEAR OVERFLOW, taken in every state (R171). -/
def takeClearOverflow (s : State) : State × Reply :=
  ({ s with inc.overflow := false }, .ok (octFlag s.inc.overflow))

/-- The six classes in the order of their codes. -/
def noticeClasses : List NoticeClass := [.circulation, .joint, .strata, .billing, .incident, .store]

/-- A class the request unmasked while it was pending hands on a notice (R177). -/
def handUnmasked (old : ClassFlags) (s : State) (c : NoticeClass) : State :=
  if old.get c && !s.inc.masks.get c && s.inc.flags.get c then handNotice c s else s

/-- SET NOTICE MASK, taken or refused (R177). Several unmasked classes are handed on in the order of their codes (log 36). -/
def takeSetNoticeMask (mask : Nat) (s : State) : State × Reply :=
  if 63 < mask then (s, .badArgument)
  else (noticeClasses.foldl (handUnmasked s.inc.masks) { s with inc.masks := .ofBits mask }, .ok)

end Sys2Proof.Machine
end

