-- ==== Sys2Proof/Machine/Jobs.lean ====
section
/-! DEFINITION. The job controller and the ticket store (spec 10): opening and closing a job, the ticket, filing, the
store's operations and their completions. -/

namespace Sys2Proof.Machine

/-! ## The job and the store: their changes -/

/-- The job state changes (R180). -/
def enterJob (j : JobState) (s : State) : State := notify .store { s with jobs.state := j }

/-- The filing outcome of the job context (R180). -/
def setFiling (o : FilingOutcome) (s : State) : State :=
  { s with jobs.context := s.jobs.context.map fun c => { c with filing := some o } }

/-- A slot takes a state and the operation in flight becomes none (R188, R189, R190). -/
def endOperation (n : Nat) (slot : StoreSlot) (s : State) : State :=
  notify .store { s with jobs.slots := setAt s.jobs.slots n fun _ => slot, jobs.op := none }

/-- The lowest-numbered ERASED slot (R188). -/
def lowestErased (s : State) : Option Nat := s.jobs.slots.findIdx? fun k => decide (k = .erased)

/-- How many slots are ERASED (R194). -/
def erasedCount (s : State) : Nat := s.jobs.slots.countP fun k => decide (k = .erased)

/-- A WRITE of the closing buffer starts on a slot (R188). -/
def startWrite (n : Nat) (s : State) : State :=
  enterJob .closing
    { s with jobs.slots := setAt s.jobs.slots n fun _ => .writing, jobs.op := some (.write n) }

/-- The ticket stays unfiled, with an outcome (R184 step 6, R189). -/
def leaveUnfiled (o : FilingOutcome) (s : State) : State := enterJob .unfiled (setFiling o s)

/-! ## Opening a job (R181, R182) -/

/-- The numbers and characters R181's first check asks for. -/
def jobGood (number client : Nat) (well : List Byte) : Bool :=
  inRange 1 999999 number && inRange 1 65535 client && decide (well.length = 12) &&
    well.all fun c => inRange 0x20 0x7E c.toNat

/-- The context of a job just opened (R182 step 7). -/
def newContext (number client : Nat) (well : List Byte) (clock startDepth : Nat) : JobContext :=
  { number := number, client := client, well := well, openTime := clock, startDepth := startDepth, closeTime := none,
    overrunSeen := false, filing := none }

/-- What OPEN JOB does, in order (R182). -/
def applyOpenJob (number client : Nat) (well : List Byte) (s : State) : State :=
  let s1 := openDepth s
  let depth := s1.rods.holeDepth
  let s2 := openBilling (openPricing (openStrata depth (openLag depth (openCirculation s1))))
  enterJob .opened { s2 with jobs.context := some (newContext number client well s2.flu.clock depth) }

/-- OPEN JOB, taken or refused (R181, R182). -/
def takeOpenJob (number client : Nat) (well : List Byte) (s : State) : State × Reply :=
  if !jobGood number client well then (s, .badArgument)
  else if s.jobs.state = .unfiled then (s, .unfiledTicket)
  else if s.jobs.state ≠ .noJob then (s, .jobOpen)
  else if s.flu.clockUnset then (s, .clockUnset)
  else if s.rods.string ≠ [] then (s, .stringInHole)
  else if !s.price.staging.valid then (s, .noRates)
  else
    let s1 := applyOpenJob number client well s
    (s1, .ok (oct4 s1.rods.holeDepth ++ oct2 (activeGeneration s1)))

/-! ## The ticket (R185, R186) -/

/-- The header (R185). -/
def ticketHeader (c : JobContext) (s : State) : TicketHeader :=
  { number := c.number, client := c.client, well := c.well, openTime := c.openTime,
    closeTime := c.closeTime.getD 0, startDepth := c.startDepth, finalDepth := s.lag.frontier,
    generation := activeGeneration s, jobLoss := s.circ.jobLoss, vp := s.circ.vp, vr := s.circ.vr }

/-- The six parts (R185, R186). -/
def assembleTicket (forced : Bool) (c : JobContext) (s : State) : Ticket :=
  { header := ticketHeader c s, intervals := s.strata.intervals, strikes := s.strata.strikes, lines := s.price.lines,
    totals := s.bill.totals, residues := s.bill.residues, running := s.bill.running,
    status := { forced := forced, saturationSeen := s.price.saturationSeen, logFullSeen := s.strata.fullSeen,
                overrunSeen := c.overrunSeen } }

/-! ## Closing a job (R183, R184) -/

/-- The oldest mark's litres still to pump (R62, R183). -/
def litresToPump (m : Mark) (s : State) : Nat := m.arrival - s.circ.vl

/-- Step 6 of R184: filing begins, or the ticket stays unfiled. -/
def beginFiling (s : State) : State :=
  if s.jobs.isProtected then leaveUnfiled .storeProtected s
  else
    match lowestErased s with
    | none => leaveUnfiled .storeFull s
    | some n => startWrite n s

/-- Steps 1 to 4 of R184, with the span already closed: the drain, the final closure, the end of pricing, the close
time. -/
def endJob (s : State) : State :=
  let s1 := endPricing (finalClosure (handResidual (drainQueue s.lag.queue.length s)))
  enterJob .closing
    { s1 with jobs.context := s1.jobs.context.map fun c => { c with closeTime := some s1.flu.clock } }

/-- Steps 1 to 6 of R184. -/
def applyCloseJob (s : State) : State :=
  let s1 := endJob s
  beginFiling
    { s1 with jobs.buffer := s1.jobs.context.map fun c => assembleTicket (decide (0 < s.lag.queue.length)) c s1 }

/-- The slot the WRITE targets, or the filing outcome, as the reply to CLOSE JOB carries it (R184, log 19). -/
def filingOctet (s : State) : Nat :=
  match s.jobs.op with
  | some (.write n) => n
  | some (.erase _) | none => ((s.jobs.context.bind (·.filing)).map (·.code)).getD 0

/-- The reply's data of a CLOSE JOB refused with RETURNS_PENDING (R183). -/
def returnsPendingData (s : State) : List Byte :=
  oct2 s.lag.queue.length ++ oct4 ((s.lag.queue.head?.map (litresToPump · s)).getD 0)

/-- CLOSE JOB, taken or refused (R183, R184). -/
def takeCloseJob (force : Bool) (s : State) : State × Reply :=
  if s.jobs.state = .noJob then (s, .noJob)
  else if s.jobs.state ≠ .opened then (s, .wrongState)
  else if s.jobs.op ≠ none then (s, .busy)
  else
    let s1 := closeSpan s
    if s1.lag.queue ≠ [] ∧ force = false then (s1, .returnsPending (returnsPendingData s1))
    else
      let s2 := applyCloseJob s1
      (s2, .ok (oct2 s1.lag.queue.length ++ oct1 s2.jobs.state.code ++ oct1 (filingOctet s2)))

/-! ## The ticket store's requests (R190 to R193) -/

/-- RETRY FILING, taken or refused (R191). -/
def takeRetryFiling (s : State) : State × Reply :=
  if s.jobs.state ≠ .unfiled then (s, .wrongState)
  else if s.jobs.op ≠ none then (s, .busy)
  else if s.jobs.isProtected then (s, .storeProtected)
  else
    match lowestErased s with
    | none => (s, .storeFull)
    | some n => (startWrite n s, .ok (oct1 n))

/-- FILED, DEFECTIVE or TORN: a slot an ERASE may target (R190). -/
def StoreSlot.erasable : StoreSlot → Bool
  | .filed _ | .defective | .torn => true
  | .erased | .writing => false

/-- ERASE TICKET, taken or refused (R190). -/
def takeEraseTicket (n : Nat) (s : State) : State × Reply :=
  if 15 < n then (s, .badArgument)
  else if s.jobs.op ≠ none then (s, .busy)
  else if s.jobs.isProtected then (s, .storeProtected)
  else if !(s.jobs.slots[n]?).any StoreSlot.erasable then (s, .wrongState)
  else (notify .store { s with jobs.op := some (.erase n) }, .ok)

/-- DISCARD TICKET, taken or refused (R192). -/
def takeDiscardTicket (s : State) : State × Reply :=
  if s.jobs.state = .unfiled then (enterJob .noJob { s with jobs.buffer := none }, .ok) else (s, .wrongState)

/-- RELEASE STORE, taken in every job state (R193). -/
def takeReleaseStore (s : State) : State × Reply :=
  (if s.jobs.isProtected then notify .store { s with jobs.isProtected := false } else s,
   .ok (octFlag s.jobs.isProtected))

/-! ## Completions (R188, R189, R190): each acts on its own operation in flight and on nothing else -/

/-- A WRITE completes successfully (R188). -/
def writeSucceeds (s : State) : State :=
  match s.jobs.op, s.jobs.buffer with
  | some (.write n), some t =>
    let s1 := setFiling .filed (endOperation n (.filed t) s)
    enterJob .noJob { s1 with jobs.buffer := none }
  | _, _ => s

/-- An operation on a slot failed: DEFECTIVE and PROTECTED (R189, R190). -/
def failOperation (n : Nat) (s : State) : State :=
  endOperation n .defective { s with jobs.isProtected := true }

/-- A WRITE completes with a program failure (R189). The changes, which set STORE pending, come before the recording
(log 39). -/
def writeFailure (s : State) : State :=
  match s.jobs.op with
  | some (.write n) => record .storeFault n 0 (leaveUnfiled .programFailed (failOperation n s))
  | some (.erase _) | none => s

/-- An ERASE completes, with success or failure (R190). The changes, which set STORE pending, come before the recording
(log 39). -/
def eraseCompletion (success : Bool) (s : State) : State :=
  match s.jobs.op with
  | some (.erase n) =>
    if success then endOperation n .erased s else record .storeFault n 1 (failOperation n s)
  | some (.write _) | none => s

end Sys2Proof.Machine
end

