-- ==== Sys2Proof/Machine/Reports.lean ====
section
/-! DEFINITION. What the part reports: the statuses of the eight selectors (R203), the snapshots of the six notice classes,
the field lines (R17), and the records of the eleven collections (R204). Widths follow spec 11's ranges (log 17). -/

namespace Sys2Proof.Machine

/-! ## Statuses -/

def octPump (c : PumpConfig) : List Byte := oct2 c.displacement ++ oct2 c.efficiency

def octBalance (b : FlowBalance) : List Byte :=
  oct2 b.minVolume ++ oct1 b.totalPercent ++ oct2 b.partialThreshold ++ oct2 b.hysteresis ++ oct2 b.gainThreshold

def octCircLimits (l : CircLimits) : List Byte :=
  oct2 l.primeVolume ++ oct2 l.primeTimeout ++ oct2 l.stopTimeout ++ oct2 l.bleedLimit ++ oct2 l.flowCheck

/-- The last evaluation, each item absent before the first (R43). -/
def octEvaluation (e : Option Evaluation) : List Byte :=
  octOptInt 2 (e.map (·.lossRate)) ++ octOpt 4 (e.map (·.pumped)) ++ octOpt 4 (e.map (·.returned)) ++
    octOpt 1 (e.map fun v => flagCode v.verdict)

/-- The circulation status (R43). -/
def circulationStatus (s : State) : List Byte :=
  let c := s.circ
  oct1 c.state.code ++ oct1 c.mask.code ++ octPump c.pumpA ++ octPump c.pumpB ++ oct2 c.meterWeight ++
    oct4 c.vp ++ oct4 c.vr ++ oct4 c.vl ++ oct4 c.pumpedResidue ++ oct4 c.returnResidue ++ oct4 c.jobLoss ++
    oct1 c.window.length ++ oct2 c.openBin.pumped ++ oct2 c.openBin.returned ++
    oct4 (sumPumped c.window) ++ oct4 (sumReturned c.window) ++ octEvaluation c.lastEval ++
    oct1 c.totalRun ++ oct1 c.partialRun ++ oct1 c.recoveryRun ++ oct1 c.clearRun ++ octFlag c.gainEpisode ++
    oct2 c.primeCount ++ oct2 c.primeTimer ++ oct2 c.stopTimer ++ octFlag c.bleedHolding ++ oct1 c.bleedCount ++
    oct4 c.staticCount ++ octFlag c.staticFlag ++ octCircLimits c.limits ++ octBalance c.balance

def octEpisode (e : Option Episode) : List Byte :=
  octFlag e.isSome ++ octOpt 4 (e.map (·.peak)) ++ octOpt 1 (e.map fun v => flagCode v.permitLow)

def octJointLimits (l : JointLimits) : List Byte :=
  oct4 l.target ++ oct2 l.tolerance ++ oct4 l.maximum ++ oct2 l.detect ++ oct2 l.timeout ++ oct2 l.threshold

/-- The joint status (R105). -/
def jointStatus (s : State) : List Byte :=
  let j := s.joint
  oct1 j.state.code ++ octOpt 2 (j.arm.map (·.rod)) ++ octBlock 3 (j.arm.map fun a => octSource a.source) ++
    octEpisode j.episode ++ octOpt 4 (j.last.map (·.peak)) ++ octOpt 1 (j.last.map (·.outcome.code)) ++
    oct2 j.timer ++ octOpt 1 j.heldRef ++ octFlag s.flu.makeUpPermit ++ octFlag s.flu.breakPermit ++
    octJointLimits j.limits

/-- The strata status (R126). -/
def strataStatus (s : State) : List Byte :=
  let v := openInterval s
  oct2 s.strata.intervals.length ++ octOpt 2 (openIndex s) ++ octOpt 4 (v.map (·.top)) ++ octOpt 1 (v.map (·.cls)) ++
    octOpt 1 (v.map (·.origin.code)) ++ oct4 s.lag.frontier ++ oct1 s.strata.resumeClass ++ octFlag s.strata.drain ++
    octFlag s.strata.fullSeen ++ oct1 s.strata.strikes.length

/-- The amount of the line at an index. -/
def lineAmount (i : Nat) (s : State) : Nat := ((s.price.lines[i]?).map (·.amount)).getD 0

/-- The pricing unit's part of the billing status (R150). -/
def pricingStatus (s : State) : List Byte :=
  octOpt 2 (s.price.active.map (·.generation)) ++ octOpt 2 (s.price.previous.map (·.generation)) ++
    oct1 s.price.stage.code ++ octOpt 1 (s.price.stage.trigger.map (·.code)) ++ octFlag s.price.staging.valid ++
    octOpt 2 (if s.price.stage.isDue then some (previousMarks s) else none) ++
    oct1 (keyedCount .footage s) ++ oct1 (keyedCount .time s) ++ oct1 (keyedCount .material s) ++
    oct4 (lineAmount 0 s) ++ oct4 (lineAmount 1 s) ++ oct4 (lineAmount 2 s) ++ octFlag s.price.saturationSeen

/-- The seconds totals with their residues, in category order. -/
def octTotals (totals residues : List Nat) : List Byte :=
  (List.zipWith (fun t r => oct4 t ++ oct1 r) totals residues).flatten

/-- The billing status (R150, R163). -/
def billingStatus (s : State) : List Byte :=
  pricingStatus s ++ oct1 s.bill.override.code ++ octOpt 1 (s.bill.last.map categoryCode) ++ oct1 s.bill.drillTimer ++
    oct2 s.bill.tripTimer ++ octTotals s.bill.totals s.bill.residues ++ oct4 s.bill.running

/-- The record of the oldest pending slot (R173). -/
def oldestPending (s : State) : Option Incident :=
  s.inc.order.head?.bind fun n => (s.inc.slots[n]?).getD none

/-- The incident status (R173). The twelve flags stand class by class in code order, pending then mask (log 37). -/
def incidentStatus (s : State) : List Byte :=
  octFlag s.inc.overflow ++ oct1 s.inc.lastWritten ++ oct1 s.inc.order.length ++ octOpt 1 s.inc.order.head? ++
    octOpt 1 ((oldestPending s).map (·.kind.code)) ++ octOpt 4 ((oldestPending s).map (·.first)) ++
    s.inc.order.flatMap oct1 ++
    noticeClasses.flatMap fun c => octFlag (s.inc.flags.get c) ++ octFlag (s.inc.masks.get c)

/-- The operation in flight: its kind, 0 WRITE or 1 ERASE, and its slot (R194, R172). -/
def octStoreOp (o : Option StoreOp) : List Byte :=
  octBlock 2 (o.map fun
    | .write n => oct1 0 ++ oct1 n
    | .erase n => oct1 1 ++ oct1 n)

/-- The job context (R180, R194). -/
def octContext (c : JobContext) : List Byte :=
  oct4 c.number ++ oct2 c.client ++ c.well ++ oct4 c.openTime ++ oct4 c.startDepth ++ octOpt 4 c.closeTime ++
    octFlag c.overrunSeen ++ octOpt 1 (c.filing.map (·.code))

/-- The ticket of a FILED slot. -/
def StoreSlot.ticket : StoreSlot → Option Ticket
  | .filed t => some t
  | .erased | .writing | .defective | .torn => none

/-- A slot in the store status (R187, R194). -/
def octSlot (k : StoreSlot) : List Byte :=
  oct1 k.code ++ octOpt 4 (k.ticket.map (·.header.number)) ++ octOpt 4 (k.ticket.map (·.header.closeTime))

/-- The store status (R194). -/
def storeStatus (s : State) : List Byte :=
  oct1 s.jobs.state.code ++ octBlock 34 (s.jobs.context.map octContext) ++ octFlag s.jobs.buffer.isSome ++
    octFlag s.jobs.isProtected ++ octStoreOp s.jobs.op ++ s.jobs.slots.flatMap octSlot ++ oct1 (erasedCount s)

/-- A boundary below the depth limit, while a rate set is active (R62). -/
def reportedBoundary (d : Option Nat) (s : State) : Option Nat :=
  if s.price.active.isSome then d.filter fun v => decide (v ≤ Config.depthMax) else none

/-- The lag status (R62). -/
def lagStatus (s : State) : List Byte :=
  let l := s.lag
  oct2 l.queue.length ++ oct1 l.head ++ oct1 ((l.head + l.queue.length) % Config.queuePlaces) ++ oct4 l.frontier ++
    oct4 l.spanTop ++ oct4 (s.rods.holeDepth - l.spanTop) ++ oct4 l.spanSeconds ++ oct4 l.spanLoss ++
    octFlag l.spanBlind ++ octOpt 4 (reportedBoundary (some (nextSpacing l.spacing l.spanTop)) s) ++
    octOpt 4 (reportedBoundary (nextFloor (activeFloors s) l.spanTop) s) ++
    octOpt 4 (l.queue.head?.map (·.arrival)) ++ octOpt 4 (l.queue.head?.map (litresToPump · s)) ++
    oct4 (lagVolume s.rods.holeDepth l) ++ oct2 l.surface ++ oct4 l.capacity ++ oct1 l.spacing

/-- The bit depth is live (R82). -/
def depthLive (s : State) : Bool := decide (s.joint.state = .ready) && !s.flu.height.fault

/-- The rod status (R82). -/
def rodStatus (s : State) : List Byte :=
  let r := s.rods
  oct2 r.registry.length ++ oct1 (r.magazine.countP (·.isSome)) ++ octOpt 1 (reservedSlot s) ++
    oct2 r.string.length ++ oct4 r.stringLength ++ octOpt 2 r.string.getLast? ++ oct4 r.footage ++
    oct2 r.rotatingLimit ++ oct2 r.makeUpLimit ++ oct2 r.bhaLength ++ oct2 r.headOffset ++ oct4 r.bitDepth ++
    octFlag (!depthLive s) ++ octFlag r.depthClamp ++ octInt 4 r.unclamped ++ oct4 r.holeDepth ++
    oct4 r.overpullLimit ++ octFlag r.overpull

/-! ## READ STATUS (R203) -/

/-- The notice class of a status selector 0..5 (spec 11, code table). -/
def classOf : Nat → Option NoticeClass
  | 0 => some .circulation
  | 1 => some .joint
  | 2 => some .strata
  | 3 => some .billing
  | 4 => some .incident
  | 5 => some .store
  | _ => none

/-- The status of a notice class. -/
def classStatus : NoticeClass → State → List Byte
  | .circulation => circulationStatus
  | .joint => jointStatus
  | .strata => strataStatus
  | .billing => billingStatus
  | .incident => incidentStatus
  | .store => storeStatus

/-- READ STATUS, taken or refused (R176, R203; R62 for LAG). -/
def takeReadStatus (selector : Nat) (s : State) : State × Reply :=
  match classOf selector with
  | some c => (clearPending c s, .ok (classStatus c (clearPending c s)))
  | none =>
    if selector = 6 then
      (recordLagClamp s.rods.holeDepth s, .ok (lagStatus (recordLagClamp s.rods.holeDepth s)))
    else if selector = 7 then (s, .ok (rodStatus s))
    else (s, .badArgument)

/-! ## Notice snapshots -/

/-- A CIRCULATION notice (R43). -/
def circulationSnapshot (s : State) : List Byte :=
  oct1 s.circ.state.code ++ oct1 s.circ.mask.code ++ octOptInt 2 (s.circ.lastEval.map (·.lossRate))

/-- A JOINT notice (R105). -/
def jointSnapshot (s : State) : List Byte :=
  oct1 s.joint.state.code ++ octOpt 2 (s.joint.arm.map (·.rod)) ++ oct2 s.rods.string.length

/-- A STRATA notice (R126). -/
def strataSnapshot (s : State) : List Byte :=
  let v := openInterval s
  octOpt 2 (openIndex s) ++ octOpt 1 (v.map (·.cls)) ++ octOpt 1 (v.map (·.origin.code)) ++ oct4 s.lag.frontier ++
    oct1 s.strata.strikes.length

/-- A BILLING notice (R150, R163). -/
def billingSnapshot (s : State) : List Byte :=
  octOpt 2 (s.price.active.map (·.generation)) ++ oct1 s.price.stage.code ++
    octOpt 1 (s.bill.last.map categoryCode) ++ oct4 s.bill.running

/-- An INCIDENT notice; the slot and kind are absent while the last-written slot is empty (R173). -/
def incidentSnapshot (s : State) : List Byte :=
  let r := (s.inc.slots[s.inc.lastWritten]?).getD none
  octOpt 1 (r.map fun _ => s.inc.lastWritten) ++ octOpt 1 (r.map (·.kind.code)) ++ oct1 s.inc.order.length ++
    octFlag s.inc.overflow

/-- A STORE notice (R194). -/
def storeSnapshot (s : State) : List Byte :=
  oct1 s.jobs.state.code ++ octStoreOp s.jobs.op ++
    octOpt 1 ((s.jobs.context.bind (·.filing)).map (·.code)) ++ oct1 (erasedCount s)

/-- The snapshot of a class (R202). -/
def classSnapshot : NoticeClass → State → List Byte
  | .circulation => circulationSnapshot
  | .joint => jointSnapshot
  | .strata => strataSnapshot
  | .billing => billingSnapshot
  | .incident => incidentSnapshot
  | .store => storeSnapshot

/-! ## READ FIELD LINES (R17) -/

/-- A channel's value, FAULT flag, good count and full scale. Value and full scale take `width` octets, the width of the
channel's own range (spec 11, Payload fields): two for pressure and head height, four for load and torque (log 17). -/
def octChannel (width : Nat) (c : ChannelState) : List Byte :=
  octets width c.value ++ octFlag c.fault ++ oct1 c.good ++ octets width c.fullScale

/-- The field lines (R17). -/
def fieldLinesData (s : State) : List Byte :=
  let f := s.flu
  octChannel 2 f.pressure ++ octChannel 4 f.load ++ octChannel 2 f.height ++ octChannel 4 f.torque ++
    octFlag f.pumpAEnable ++ octFlag f.pumpBEnable ++ octFlag f.makeUpPermit ++ octFlag f.breakPermit ++
    oct1 f.straps.val ++ oct1 ((ownAddress s).getD 0) ++ oct4 (lineRate s) ++ octFlag (!f.backupIntact) ++
    oct1 f.lastStart.code ++ oct4 f.clock ++ octFlag f.clockUnset

/-- READ FIELD LINES, taken in every state (R17). -/
def takeReadFieldLines (s : State) : State × Reply := (s, .ok (fieldLinesData s))

/-! ## Records -/

/-- A rod record (R65, R83). -/
def octRod (r : Rod) : List Byte :=
  oct2 r.id ++ oct2 r.length ++ oct1 r.status.code ++ oct2 r.makeUps ++ oct2 r.rotating ++ octLocation r.location ++
    octOpt 4 r.entryFootage ++ octOpt 4 r.makeUpPeak ++ octOpt 4 r.breakPeak

/-- A magazine slot (R83). -/
def octMagazine (s : State) (k : Nat) (held : Option Nat) : List Byte :=
  oct1 k ++ octOpt 2 held ++ octFlag (decide (reservedSlot s = some k))

/-- A position of the string (R83). Its string-entry footage, which R65 has present on every rod in the string, is four octets
without a presence octet (log 42). -/
def octString (s : State) (i id : Nat) : List Byte :=
  oct2 i ++ oct2 id ++ oct2 (((findRod id s).map (·.length)).getD 0) ++
    oct4 (((findRod id s).bind (·.entryFootage)).getD 0)

/-- A mark record (spec 11), at the place it occupies (R63). -/
def octMark (head i : Nat) (m : Mark) : List Byte :=
  oct1 ((head + i) % Config.queuePlaces) ++ oct4 m.top ++ oct4 m.bottom ++ oct4 m.laid ++ oct4 m.arrival ++
    oct2 m.generation ++ oct1 m.band ++ oct1 (flagCode m.blind + 2 * flagCode m.forced) ++ oct4 m.seconds ++ oct4 m.loss

/-- A section entry (R63, log 19). -/
def octSection (e : Section) : List Byte :=
  oct4 e.top ++ oct4 e.bottom ++ oct4 e.capacity ++ octFlag (!e.enabled)

/-- An interval record (spec 11). -/
def octInterval (i : Nat) (v : Interval) : List Byte :=
  oct2 i ++ oct4 v.top ++ oct4 (v.bottom.getD 0) ++ oct1 v.cls ++ oct1 v.origin.code ++ oct4 v.opened ++
    oct4 v.seconds ++ oct4 v.loss ++ oct2 v.marks ++ oct2 (v.rate.getD 0) ++
    oct1 (flagCode v.bottom.isSome + 2 * flagCode v.rate.isSome + 4 * flagCode v.waterBearing + 8 * flagCode v.forced) ++
    oct1 v.note

/-- A strike record (R121). -/
def octStrike (k : Strike) : List Byte :=
  oct4 k.depth ++ oct2 k.yield ++ octOpt 4 k.level ++ oct4 k.time ++ octFlag k.auto

/-- A charge-line record (spec 11). -/
def octLine (i : Nat) (l : ChargeLine) : List Byte :=
  oct2 i ++ oct1 l.kind.code ++ oct1 (flagCode l.key.isNone + 2 * flagCode l.saturated) ++
    oct2 ((l.key.map (·.generation)).getD 0) ++ oct1 ((l.key.map (·.a)).getD 0) ++ oct1 ((l.key.map (·.b)).getD 0) ++
    oct4 l.amount ++ oct1 l.residue ++ oct4 l.quantity

/-- An incident record (spec 11); for an empty slot every field after the kind is 0. -/
def octIncident (n : Nat) (slot : Option Incident) : List Byte :=
  match slot with
  | none => oct1 n ++ List.replicate 23 0
  | some r =>
    oct1 n ++ oct1 r.kind.code ++ oct4 r.first ++ oct4 r.last ++ oct4 r.hole ++ oct4 r.detail1 ++ oct4 r.detail2 ++
      oct1 r.repeats ++ oct1 (flagCode r.pending)

/-- Part 0 of a rate set: its generation, its band count and floors (R150, log 19). -/
def octBands (generation : Option Nat) (floors : Option (List Nat)) : List Byte :=
  octOpt 2 generation ++
    match floors with
    | none => oct1 0 ++ oct1 0
    | some f => oct1 1 ++ oct1 f.length ++ f.flatMap oct4

/-- A row of rates, absent where not staged (R150, log 18). -/
def octRates (width : Nat) (rates : Option (List Nat)) : List Byte :=
  octBlock width (rates.map fun r => r.flatMap oct4)

/-- A set's fifty parts (R150). -/
def rateParts (generation : Option Nat) (t : Staging) : List (List Byte) :=
  octBands generation t.floors :: (t.rows.map (octRates 24) ++ [octRates 28 t.times] ++ t.materials.map octMaterial)

/-- The parts of the set a selector names; an absent set has no record (R150, R204). -/
def rateRecords (s : State) : Nat → List (List Byte)
  | 0 => (s.price.active.map fun r => rateParts (some r.generation) (.ofSet r)).getD []
  | 1 => (s.price.previous.map fun r => rateParts (some r.generation) (.ofSet r)).getD []
  | _ => rateParts none s.price.staging

/-- The header of a ticket with its three counts (R185, R195). -/
def octHeader (t : Ticket) : List Byte :=
  let h := t.header
  oct4 h.number ++ oct2 h.client ++ h.well ++ oct4 h.openTime ++ oct4 h.closeTime ++ oct4 h.startDepth ++
    oct4 h.finalDepth ++ oct2 h.generation ++ oct4 h.jobLoss ++ oct4 h.vp ++ oct4 h.vr ++
    oct2 t.intervals.length ++ oct1 t.strikes.length ++ oct2 t.lines.length

/-- The closing status (R186). -/
def octClosing (c : ClosingStatus) : List Byte :=
  octFlag c.forced ++ octFlag c.saturationSeen ++ octFlag c.logFullSeen ++ octFlag c.overrunSeen

/-- The records of a part of a ticket (R195). -/
def ticketRecords (t : Ticket) : Nat → List (List Byte)
  | 0 => [octHeader t]
  | 1 => t.intervals.mapIdx octInterval
  | 2 => t.strikes.map octStrike
  | 3 => t.lines.mapIdx octLine
  | 4 => List.zipWith (fun a r => oct4 a ++ oct1 r) t.totals t.residues ++ [oct4 t.running]
  | _ => [octClosing t.status]

/-- The ticket a source names: a FILED slot with no ERASE of it in flight, or the closing buffer (R195). -/
def ticketSource (source : Nat) (s : State) : Option Ticket :=
  if source = 16 then s.jobs.buffer
  else if s.jobs.op = some (.erase source) then none
  else (s.jobs.slots[source]?).bind StoreSlot.ticket

/-- The records of a collection (R204); none where the collection code or the selector octets are not valid. -/
def collection (code sel1 sel2 : Nat) (s : State) : Option (List (List Byte)) :=
  if code = 9 then if sel1 ≤ 2 ∧ sel2 = 0 then some (rateRecords s sel1) else none
  else if code = 10 then
    if sel1 ≤ 16 ∧ sel2 ≤ 5 then some (((ticketSource sel1 s).map (ticketRecords · sel2)).getD []) else none
  else if sel1 ≠ 0 ∨ sel2 ≠ 0 then none
  else
    match code with
    | 0 => some (s.rods.registry.map octRod)
    | 1 => some (s.rods.magazine.mapIdx (octMagazine s))
    | 2 => some (s.rods.string.mapIdx (octString s))
    | 3 => some (s.lag.queue.mapIdx (octMark s.lag.head))
    | 4 => some (s.lag.sections.map octSection)
    | 5 => some (s.strata.intervals.mapIdx octInterval)
    | 6 => some (s.strata.strikes.map octStrike)
    | 7 => some (s.price.lines.mapIdx octLine)
    | 8 => some (s.inc.slots.mapIdx octIncident)
    | _ => none

/-- Records upward from a start, with the next index (R204). -/
def readUp (start count : Nat) (records : List (List Byte)) : List (List Byte) × Option Nat :=
  let got := (records.drop start).take count
  (got, if start + got.length < records.length then some (start + got.length) else none)

/-- Records downward from a start, with the next index (R204). -/
def readDown (start count : Nat) (records : List (List Byte)) : List (List Byte) × Option Nat :=
  let got := (records.take (start + 1)).reverse.take count
  (got, if got.length ≤ start then some (start - got.length) else none)

/-- The data of a READ RECORDS reply (R204). -/
def recordsData (r : List (List Byte) × Option Nat) : List Byte :=
  oct1 r.1.length ++ octOpt 2 r.2 ++ r.1.flatten

/-- READ RECORDS, taken or refused (R204). -/
def takeReadRecords (code sel1 sel2 start count direction : Nat) (s : State) : State × Reply :=
  match collection code sel1 sel2 s with
  | none => (s, .badArgument)
  | some records =>
    if !(inRange 1 6 count && inRange 0 1 direction) then (s, .badArgument)
    else if records.length ≤ start then (s, .notFound)
    else
      (s, .ok (recordsData (if direction = 0 then readUp start count records else readDown start count records)))

end Sys2Proof.Machine
end

