-- ==== Sys2Proof/Machine/Starts.lean ====
section
/-! DEFINITION. The starts (R1): the cold start, the warm start as each block settles it, and the loss of the supply. -/

namespace Sys2Proof.Machine

/-! ## The store at a start (R196) -/

/-- A slot was the target of an operation cut short: WRITING, or FILED under an ERASE that had already removed its
completion marker, which is a free value (R196, log 10). -/
def cutShort (s : State) (n : Nat) : StoreSlot → Bool
  | .writing => true
  | .filed _ => decide (s.jobs.op = some (.erase n)) && Config.eraseMarkerGone s.free
  | .erased | .defective | .torn => false

/-- The slots cut short, by number. -/
def cutSlots (s : State) : List Nat :=
  (List.range s.jobs.slots.length).filter fun n => (s.jobs.slots[n]?).any (cutShort s n)

/-- The slots as the start leaves them (R196). -/
def scannedSlots (s : State) : List StoreSlot :=
  s.jobs.slots.mapIdx fun n k => if cutShort s n k then .torn else k

/-- A change in the store sets STORE pending (R187), and then TORN_TICKET is recorded for each slot found (R196; the order
log 39, of several slots log 10). -/
def reportTorn (cut : List Nat) (changed : Bool) (s : State) : State :=
  cut.foldl (fun t n => record .tornTicket n 0 t) (if changed then notify .store s else s)

/-- The store's part of a warm start: the torn slots, and no operation in flight (R196). -/
def scanStore (s : State) : State :=
  reportTorn (cutSlots s) (decide (cutSlots s ≠ []) || s.jobs.op.isSome)
    { s with jobs.slots := scannedSlots s, jobs.op := none, free := s.free + 1 }

/-! ## Cold start -/

/-- Every block takes its cold values; the store is kept and scanned (R1, R178, R196). STORE is set pending for a slot made
TORN only (log 38). -/
def coldStart (lines : StartLines) (s : State) : State :=
  reportTorn (cutSlots s) (decide (cutSlots s ≠ [])) (.cold s.power lines (scannedSlots s) (s.free + 1) s.pending)

/-! ## Warm start -/

/-- A channel after a warm start (R8). -/
def ChannelState.warmed (c : ChannelState) : ChannelState := { c with fault := true, good := 0 }

/-- The field-line unit after a warm start; the clock has counted the seconds on the backup supply (R2, R8, R9, R10, R11,
R12, R16). -/
def FieldLines.warmed (lines : StartLines) (seconds : Nat) (f : FieldLines) : FieldLines :=
  { f with pressure := f.pressure.warmed, load := f.load.warmed, height := f.height.warmed, torque := f.torque.warmed,
           pulseA := .atStart lines.highA, pulseB := .atStart lines.highB, pulseR := .atStart lines.highR, reader := [],
           pumpAEnable := false, pumpBEnable := false, makeUpPermit := false, breakPermit := false,
           straps := lines.straps, lastStart := .warm,
           clock := min (f.clock + seconds) Config.clockMax, binPhase := 0, binTickTaken := false }

/-- What R46 clears. -/
def Circulation.settled (c : Circulation) : Circulation :=
  { c with window := [], openBin := Bin.zero, totalRun := 0, partialRun := 0, recoveryRun := 0, clearRun := 0,
           gainEpisode := false, primeCount := 0, primeTimer := 0, stopTimer := 0, bleedHolding := false,
           bleedCount := 0, staticCount := 0, staticFlag := false }

/-- The circulation monitor settles in STILL (R46, log 23); a state left is recorded after the change (log 39). -/
def settleCirculation (s : State) : State :=
  if s.circ.state = .still then { s with circ := { s.circ.settled with mask := .empty } }
  else
    let s1 := enterCirc .still .empty s
    record .powerRestoredPumping s.circ.state.code s.circ.mask.code { s1 with circ := s1.circ.settled }

/-- A popped rod in the arm goes to the yard and is recorded, the incident after the change to READY (R75, R107, log 35). -/
def orphanRod (a : Arm) (s : State) : State :=
  record .rodOrphaned a.rod (((findRod a.rod s).map (·.status.code)).getD 0) (clearArmToReady (moveRod a.rod .yard s))

/-- The joint controller settles the connection it was in (R107). -/
def settleJoint (s : State) : State :=
  let s0 := { s with joint.episode := none, joint.timer := 0 }
  match s.joint.state with
  | .ready => s0
  | .loaded => clearArmToReady (returnRod s0)
  | .breakPermit => enterReady s0
  | .unloaded =>
    match s.joint.arm with
    | some a => orphanRod a s0
    | none => enterReady s0
  | .held => if heldPending s0 then s0 else enterReady s0

/-- A job found CLOSING becomes UNFILED with outcome INTERRUPTED (R197). -/
def settleJob (s : State) : State :=
  if s.jobs.state = .closing then leaveUnfiled .interrupted s else s

/-- One day boundary where midnights passed during the outage while the clock was set (R15). -/
def startDayBoundary (s : State) : State :=
  if s.flu.clockUnset = false ∧ s.flu.dayMark < dayNumber s.flu.clock then
    dayBoundary { s with flu.dayMark := dayNumber s.flu.clock }
  else s

/-- A warm start after `seconds` without ticks: the link first (R206), then the store (R196), then each block, then the
day boundary (R15; the order is log 9). -/
def warmStart (lines : StartLines) (seconds : Nat) (s : State) : State :=
  let s1 := scanStore { s with link := .atStart, flu := s.flu.warmed lines seconds }
  let s2 := settleCirculation s1
  let s3 := settleJoint { s2 with rods.overpull := false }
  startDayBoundary (settleJob { s3 with bill.drillTimer := 0, bill.tripTimer := 0 })

/-! ## Power and reset (R1, R206) -/

/-- Power is applied: the monitor's report settles the kind of start. The reset input keeps its level, so a part powered up
under an asserted reset makes its start and then takes nothing (R1, log 12). -/
def applyPower (intact : Bool) (seconds : Nat) (lines : StartLines) (s : State) : State :=
  let s1 := { s with power.supply := true }
  if intact then warmStart lines seconds { s1 with flu.backupIntact := true } else coldStart lines s1

/-- The frame being sent is cut short and the four outputs fall (R1, R206). -/
def silence (p : Power) (s : State) : State := { dropOutputs s with power := p, link.sending := none }

/-- The reset input is asserted (R1). -/
def assertReset (s : State) : State := silence { s.power with resetLine := true } s

/-- The reset input is released: a warm start where the part has its supply (R1, log 12). -/
def releaseReset (seconds : Nat) (lines : StartLines) (s : State) : State :=
  if s.power.supply then warmStart lines seconds { s with power := .running }
  else { s with power.resetLine := false }

/-- The supply is lost; the reset input keeps its level (R206, log 30). -/
def losePower (s : State) : State := silence { s.power with supply := false } s

end Sys2Proof.Machine
end

