-- ==== Sys2Proof/Machine/Codec.lean ====
section
/-! DEFINITION. Requests as octets (spec 11, Frames and Payload fields): the kind and payload of each request, and the
judging of a received kind and payload (R201 steps 1 and 2). -/

namespace Sys2Proof.Machine

/-! ## From a request to its kind and payload -/

/-- A request on the wire: its addressee, kind and payload. -/
structure Wire where
  who : Addressee
  kind : Nat
  payload : List Byte
  deriving DecidableEq, Repr

/-- A field of a request that may be absent: a presence octet, then its octets, 0 when absent. -/
def octMaybe (o : Option Nat) : List Byte := octOpt 4 o

/-- A request's kind and payload (spec 11, kind table and Payload fields); none for a command that is no request. The full
scale of SET CHANNEL takes four octets for every channel (log 44). -/
def requestWire : Instr → Option Wire
  | .powerApplied _ _ _ | .resetAsserted | .resetReleased _ _ | .restartWarmStart _ | .analogSample _ _
  | .pulseAccepted _ _ | .primeComplete | .flowWhileStill | .tagRead _ | .tagFrameTimeout | .secondTick
  | .billingUnit _ | .binTick | .primeTimeout | .bleedConfirmed | .stopTimeout | .breakPermitTimeout
  | .writeSucceeds | .writeProgramFailure | .eraseCompletion _ | .frameReceived _ | .rxFrameTimeout
  | .transmitComplete | .unknownKind _ _ _ | .powerFails | .rxFramingError _ | .rxLengthAbove240 _ => none
  | .readStatus w selector => some ⟨w, 0x01, oct1 selector⟩
  | .readRecords w collection sel1 sel2 start count direction =>
      some ⟨w, 0x02, oct1 collection ++ oct1 sel1 ++ oct1 sel2 ++ oct2 start ++ oct1 count ++ oct1 direction⟩
  | .restart w => some ⟨w, 0x03, []⟩
  | .setChannel w channel fullScale => some ⟨w, 0x08, oct1 channel ++ oct4 fullScale⟩
  | .setClock w time => some ⟨w, 0x09, oct4 time⟩
  | .readFieldLines w => some ⟨w, 0x0A, []⟩
  | .setPump w pump displacement efficiency => some ⟨w, 0x10, oct1 pump ++ oct2 displacement ++ oct2 efficiency⟩
  | .setReturnMeter w weight => some ⟨w, 0x11, oct2 weight⟩
  | .setFlowBalance w minVolume totalPercent partialThreshold hysteresis gainThreshold =>
      some ⟨w, 0x12, oct2 minVolume ++ oct1 totalPercent ++ oct2 partialThreshold ++ oct2 hysteresis ++
        oct2 gainThreshold⟩
  | .setCirculationLimits w primeVolume primeTime stopTime bleedLimit flowCheck =>
      some ⟨w, 0x13, oct2 primeVolume ++ oct2 primeTime ++ oct2 stopTime ++ oct2 bleedLimit ++ oct2 flowCheck⟩
  | .startCirculation w mask => some ⟨w, 0x14, oct1 mask⟩
  | .stopCirculation w => some ⟨w, 0x15, []⟩
  | .confirmStop w => some ⟨w, 0x16, []⟩
  | .resetCirculation w => some ⟨w, 0x17, []⟩
  | .pumpTest w pump => some ⟨w, 0x18, oct1 pump⟩
  | .setSection w entry top bottom capacity => some ⟨w, 0x20, oct1 entry ++ oct4 top ++ oct4 bottom ++ oct4 capacity⟩
  | .setLagGeometry w surface capacity spacing => some ⟨w, 0x21, oct2 surface ++ oct4 capacity ++ oct1 spacing⟩
  | .registerRod w id length status makeUps rotating =>
      some ⟨w, 0x28, oct2 id ++ oct2 length ++ oct1 status ++ oct2 makeUps ++ oct2 rotating⟩
  | .delistRod w id => some ⟨w, 0x29, oct2 id⟩
  | .placeRod w id destination => some ⟨w, 0x2A, oct2 id ++ oct1 destination⟩
  | .setRodStatus w id status => some ⟨w, 0x2B, oct2 id ++ oct1 status⟩
  | .setRodLimits w rotating makeUps => some ⟨w, 0x2C, oct2 rotating ++ oct2 makeUps⟩
  | .setDepthReference w bha offset => some ⟨w, 0x2D, oct2 bha ++ oct2 offset⟩
  | .setOverpullLimit w limit => some ⟨w, 0x2E, oct4 limit⟩
  | .setJointLimits w target tolerance maximum detect timeout =>
      some ⟨w, 0x30, oct4 target ++ oct2 tolerance ++ oct4 maximum ++ oct2 detect ++ oct2 timeout⟩
  | .requestBreak w => some ⟨w, 0x31, []⟩
  | .rackRod w destination => some ⟨w, 0x32, oct1 destination⟩
  | .cancelJoint w => some ⟨w, 0x33, []⟩
  | .releaseJoint w => some ⟨w, 0x34, []⟩
  | .formation w cls => some ⟨w, 0x38, oct1 cls⟩
  | .waterStrike w yield depth level => some ⟨w, 0x39, oct2 yield ++ octMaybe depth ++ octMaybe level⟩
  | .amendNote w index note => some ⟨w, 0x3A, oct2 index ++ oct1 note⟩
  | .stageBands w count floors => some ⟨w, 0x40, oct1 count ++ floors.flatMap oct4⟩
  | .stageFootageRow w cls rates => some ⟨w, 0x41, oct1 cls ++ rates.flatMap oct4⟩
  | .stageTimeRates w rates => some ⟨w, 0x42, rates.flatMap oct4⟩
  | .stageMaterial w item unit price => some ⟨w, 0x43, oct1 item ++ oct1 unit ++ oct4 price⟩
  | .commitStage w trigger => some ⟨w, 0x44, oct1 trigger⟩
  | .cancelStage w => some ⟨w, 0x45, []⟩
  | .setCategory w override => some ⟨w, 0x48, oct1 override⟩
  | .drawMaterial w item quantity => some ⟨w, 0x49, oct1 item ++ oct4 quantity⟩
  | .clearIncident w slot => some ⟨w, 0x50, oct1 slot⟩
  | .clearOverflow w => some ⟨w, 0x51, []⟩
  | .setNoticeMask w mask => some ⟨w, 0x52, oct1 mask⟩
  | .openJob w number client well => some ⟨w, 0x58, oct4 number ++ oct2 client ++ well⟩
  | .closeJob w force => some ⟨w, 0x59, octFlag force⟩
  | .retryFiling w => some ⟨w, 0x5A, []⟩
  | .eraseTicket w slot => some ⟨w, 0x5B, oct1 slot⟩
  | .discardTicket w => some ⟨w, 0x5C, []⟩
  | .releaseStore w => some ⟨w, 0x5D, []⟩

/-- A request as the receiver hands it to the holding place. -/
def receivedRequest (i : Instr) : Option Received :=
  (requestWire i).map fun w => { who := w.who, kind := w.kind, form := .request i }

/-! ## From a kind and payload to a request -/

/-- A payload of fixed fields: LENGTH unless its length is exactly theirs (R201 step 2). -/
def judgeFields (widths : List Nat) (payload : List Byte) (build : List Nat → RequestForm) : RequestForm :=
  match splitFields widths payload with
  | none => .badLength
  | some fields => build fields

/-- A request without payload. -/
def judgeEmpty (i : Instr) (payload : List Byte) : RequestForm :=
  judgeFields [] payload fun _ => .request i

/-- A request of one field. -/
def judgeOne (w : Nat) (f : Nat → Instr) (payload : List Byte) : RequestForm :=
  judgeFields [w] payload fun
    | [a] => .request (f a)
    | _ => .badLength

/-- A request of two fields. -/
def judgeTwo (w1 w2 : Nat) (f : Nat → Nat → Instr) (payload : List Byte) : RequestForm :=
  judgeFields [w1, w2] payload fun
    | [a, b] => .request (f a b)
    | _ => .badLength

/-- A request of three fields. -/
def judgeThree (w1 w2 w3 : Nat) (f : Nat → Nat → Nat → Instr) (payload : List Byte) : RequestForm :=
  judgeFields [w1, w2, w3] payload fun
    | [a, b, c] => .request (f a b c)
    | _ => .badLength

/-- A request of four fields. -/
def judgeFour (w1 w2 w3 w4 : Nat) (f : Nat → Nat → Nat → Nat → Instr) (payload : List Byte) : RequestForm :=
  judgeFields [w1, w2, w3, w4] payload fun
    | [a, b, c, d] => .request (f a b c d)
    | _ => .badLength

/-- A request of five fields. -/
def judgeFive (w1 w2 w3 w4 w5 : Nat) (f : Nat → Nat → Nat → Nat → Nat → Instr) (payload : List Byte) : RequestForm :=
  judgeFields [w1, w2, w3, w4, w5] payload fun
    | [a, b, c, d, e] => .request (f a b c d e)
    | _ => .badLength

/-- READ RECORDS: seven octets in six fields (R204). -/
def judgeReadRecords (w : Addressee) (payload : List Byte) : RequestForm :=
  judgeFields [1, 1, 1, 2, 1, 1] payload fun
    | [collection, sel1, sel2, start, count, direction] =>
        .request (.readRecords w collection sel1 sel2 start count direction)
    | _ => .badLength

/-- The value a presence octet and a field give. -/
def present (presence value : Nat) : Option Nat := if presence = 0 then none else some value

/-- WATER STRIKE: two fields that may be absent (R122, log 16). -/
def judgeWaterStrike (w : Addressee) (payload : List Byte) : RequestForm :=
  judgeFields [2, 1, 4, 1, 4] payload fun
    | [yield, hasDepth, depth, hasLevel, level] =>
        if 1 < hasDepth ∨ 1 < hasLevel then .badOctet
        else .request (.waterStrike w yield (present hasDepth depth) (present hasLevel level))
    | _ => .badLength

/-- STAGE BANDS: a count, then as many floors; too short for the count gives LENGTH (R133, R201). -/
def judgeStageBands (w : Addressee) (payload : List Byte) : RequestForm :=
  match payload with
  | [] => .badLength
  | c :: _ =>
    judgeFields (1 :: List.replicate c.toNat 4) payload fun
      | count :: floors => .request (.stageBands w count floors)
      | [] => .badLength

/-- STAGE FOOTAGE ROW: a class and six rates (R134). -/
def judgeFootageRow (w : Addressee) (payload : List Byte) : RequestForm :=
  judgeFields (1 :: List.replicate 6 4) payload fun
    | cls :: rates => .request (.stageFootageRow w cls rates)
    | [] => .badLength

/-- STAGE TIME RATES: seven rates (R135). -/
def judgeTimeRates (w : Addressee) (payload : List Byte) : RequestForm :=
  judgeFields (List.replicate 7 4) payload fun rates => .request (.stageTimeRates w rates)

/-- OPEN JOB: a number, a client code and twelve characters (R181). -/
def judgeOpenJob (w : Addressee) (payload : List Byte) : RequestForm :=
  judgeFields (4 :: 2 :: List.replicate 12 1) payload fun
    | number :: client :: well => .request (.openJob w number client (well.map (BitVec.ofNat 8)))
    | _ => .badLength

/-- CLOSE JOB: the force flag, 1 for present, 0 for absent (R183, log 16). -/
def judgeCloseJob (w : Addressee) (payload : List Byte) : RequestForm :=
  judgeFields [1] payload fun
    | [force] => if 1 < force then .badOctet else .request (.closeJob w (decide (force = 1)))
    | _ => .badLength

/-- A received kind and payload as R201's steps 1 and 2 judge them. The full scale of SET CHANNEL takes four octets for every
channel, so that its length does not depend on the channel it names (R7, log 44). -/
def judgeForm (w : Addressee) (kind : Nat) (payload : List Byte) : RequestForm :=
  match kind with
  | 0x01 => judgeOne 1 (.readStatus w) payload
  | 0x02 => judgeReadRecords w payload
  | 0x03 => judgeEmpty (.restart w) payload
  | 0x08 => judgeTwo 1 4 (.setChannel w) payload
  | 0x09 => judgeOne 4 (.setClock w) payload
  | 0x0A => judgeEmpty (.readFieldLines w) payload
  | 0x10 => judgeThree 1 2 2 (.setPump w) payload
  | 0x11 => judgeOne 2 (.setReturnMeter w) payload
  | 0x12 => judgeFive 2 1 2 2 2 (.setFlowBalance w) payload
  | 0x13 => judgeFive 2 2 2 2 2 (.setCirculationLimits w) payload
  | 0x14 => judgeOne 1 (.startCirculation w) payload
  | 0x15 => judgeEmpty (.stopCirculation w) payload
  | 0x16 => judgeEmpty (.confirmStop w) payload
  | 0x17 => judgeEmpty (.resetCirculation w) payload
  | 0x18 => judgeOne 1 (.pumpTest w) payload
  | 0x20 => judgeFour 1 4 4 4 (.setSection w) payload
  | 0x21 => judgeThree 2 4 1 (.setLagGeometry w) payload
  | 0x28 => judgeFive 2 2 1 2 2 (.registerRod w) payload
  | 0x29 => judgeOne 2 (.delistRod w) payload
  | 0x2A => judgeTwo 2 1 (.placeRod w) payload
  | 0x2B => judgeTwo 2 1 (.setRodStatus w) payload
  | 0x2C => judgeTwo 2 2 (.setRodLimits w) payload
  | 0x2D => judgeTwo 2 2 (.setDepthReference w) payload
  | 0x2E => judgeOne 4 (.setOverpullLimit w) payload
  | 0x30 => judgeFive 4 2 4 2 2 (.setJointLimits w) payload
  | 0x31 => judgeEmpty (.requestBreak w) payload
  | 0x32 => judgeOne 1 (.rackRod w) payload
  | 0x33 => judgeEmpty (.cancelJoint w) payload
  | 0x34 => judgeEmpty (.releaseJoint w) payload
  | 0x38 => judgeOne 1 (.formation w) payload
  | 0x39 => judgeWaterStrike w payload
  | 0x3A => judgeTwo 2 1 (.amendNote w) payload
  | 0x40 => judgeStageBands w payload
  | 0x41 => judgeFootageRow w payload
  | 0x42 => judgeTimeRates w payload
  | 0x43 => judgeThree 1 1 4 (.stageMaterial w) payload
  | 0x44 => judgeOne 1 (.commitStage w) payload
  | 0x45 => judgeEmpty (.cancelStage w) payload
  | 0x48 => judgeOne 1 (.setCategory w) payload
  | 0x49 => judgeTwo 1 4 (.drawMaterial w) payload
  | 0x50 => judgeOne 1 (.clearIncident w) payload
  | 0x51 => judgeEmpty (.clearOverflow w) payload
  | 0x52 => judgeOne 1 (.setNoticeMask w) payload
  | 0x58 => judgeOpenJob w payload
  | 0x59 => judgeCloseJob w payload
  | 0x5A => judgeEmpty (.retryFiling w) payload
  | 0x5B => judgeOne 1 (.eraseTicket w) payload
  | 0x5C => judgeEmpty (.discardTicket w) payload
  | 0x5D => judgeEmpty (.releaseStore w) payload
  | _ => .unknownKind

/-- A received kind and payload, judged. -/
def receivedFrame (w : Addressee) (kind : Nat) (payload : List Byte) : Received :=
  { who := w, kind := kind, form := judgeForm w kind payload }

end Sys2Proof.Machine
end

