-- ==== Sys2Proof/Machine/Requests.lean ====
section
/-! DEFINITION. A request at its owner (R201 step 3): the operation of each request, and what the owner answers. -/

namespace Sys2Proof.Machine

/-- RESTART, taken in every state; the warm start comes when its reply has been sent, or at once for the group (R205). -/
def takeRestart (s : State) : State × Reply := (s, .ok)

/-- A request's owner takes or refuses it. A command that is no request has no owner and is an unknown kind. -/
def takeRequest (i : Instr) (s : State) : State × Reply :=
  match i with
  | .powerApplied _ _ _ | .resetAsserted | .resetReleased _ _ | .restartWarmStart _ | .analogSample _ _
  | .pulseAccepted _ _ | .primeComplete | .flowWhileStill | .tagRead _ | .tagFrameTimeout | .secondTick
  | .billingUnit _ | .binTick | .primeTimeout | .bleedConfirmed | .stopTimeout | .breakPermitTimeout
  | .writeSucceeds | .writeProgramFailure | .eraseCompletion _ | .frameReceived _ | .rxFrameTimeout
  | .transmitComplete | .unknownKind _ _ _ | .powerFails | .rxFramingError _ | .rxLengthAbove240 _ => (s, .unknownKind)
  | .readStatus _ selector => takeReadStatus selector s
  | .readRecords _ collection sel1 sel2 start count direction =>
      takeReadRecords collection sel1 sel2 start count direction s
  | .restart _ => takeRestart s
  | .setChannel _ channel fullScale => takeSetChannel channel fullScale s
  | .setClock _ time => takeSetClock time s
  | .readFieldLines _ => takeReadFieldLines s
  | .setPump _ pump displacement efficiency => takeSetPump pump displacement efficiency s
  | .setReturnMeter _ weight => takeSetReturnMeter weight s
  | .setFlowBalance _ minVolume totalPercent partialThreshold hysteresis gainThreshold =>
      takeSetFlowBalance minVolume totalPercent partialThreshold hysteresis gainThreshold s
  | .setCirculationLimits _ primeVolume primeTime stopTime bleedLimit flowCheck =>
      takeSetCirculationLimits primeVolume primeTime stopTime bleedLimit flowCheck s
  | .startCirculation _ mask => takeStartCirculation mask s
  | .stopCirculation _ => takeStopCirculation s
  | .confirmStop _ => takeConfirmStop s
  | .resetCirculation _ => takeResetCirculation s
  | .pumpTest _ pump => takePumpTest pump s
  | .setSection _ entry top bottom capacity => takeSetSection entry top bottom capacity s
  | .setLagGeometry _ surface capacity spacing => takeSetLagGeometry surface capacity spacing s
  | .registerRod _ id length status makeUps rotating => takeRegisterRod id length status makeUps rotating s
  | .delistRod _ id => takeDelistRod id s
  | .placeRod _ id destination => takePlaceRod id destination s
  | .setRodStatus _ id status => takeSetRodStatus id status s
  | .setRodLimits _ rotating makeUps => takeSetRodLimits rotating makeUps s
  | .setDepthReference _ bha offset => takeSetDepthReference bha offset s
  | .setOverpullLimit _ limit => takeSetOverpullLimit limit s
  | .setJointLimits _ target tolerance maximum detect timeout =>
      takeSetJointLimits target tolerance maximum detect timeout s
  | .requestBreak _ => takeRequestBreak s
  | .rackRod _ destination => takeRackRod destination s
  | .cancelJoint _ => takeCancelJoint s
  | .releaseJoint _ => takeReleaseJoint s
  | .formation _ cls => takeFormation cls s
  | .waterStrike _ yield depth level => takeWaterStrike yield depth level s
  | .amendNote _ index note => takeAmendNote index note s
  | .stageBands _ count floors => takeStageBands count floors s
  | .stageFootageRow _ cls rates => takeStageFootageRow cls rates s
  | .stageTimeRates _ rates => takeStageTimeRates rates s
  | .stageMaterial _ item unit price => takeStageMaterial item unit price s
  | .commitStage _ trigger => takeCommitStage trigger s
  | .cancelStage _ => takeCancelStage s
  | .setCategory _ override => takeSetCategory override s
  | .drawMaterial _ item quantity => takeDrawMaterial item quantity s
  | .clearIncident _ slot => takeClearIncident slot s
  | .clearOverflow _ => takeClearOverflow s
  | .setNoticeMask _ mask => takeSetNoticeMask mask s
  | .openJob _ number client well => takeOpenJob number client well s
  | .closeJob _ force => takeCloseJob force s
  | .retryFiling _ => takeRetryFiling s
  | .eraseTicket _ slot => takeEraseTicket slot s
  | .discardTicket _ => takeDiscardTicket s
  | .releaseStore _ => takeReleaseStore s

/-- A request from the holding place, by its form (R201). -/
def takeForm (f : RequestForm) (s : State) : State × Reply :=
  match f with
  | .unknownKind => (s, .unknownKind)
  | .badLength => (s, .badLength)
  | .badOctet => (s, .badArgument)
  | .request i => takeRequest i s

end Sys2Proof.Machine
end

