-- ==== Sys2Proof/Machine/Link.lean ====
section
/-! DEFINITION. The link controller (spec 11): the receiver, the holding place, replies, and the transmit queue. -/

namespace Sys2Proof.Machine

/-! ## Replies (R201) -/

/-- The reply's payload: the summary, the result code, the data (R201). -/
def replyPayload (r : Reply) (s : State) : List Byte :=
  (summaryCodes s).flatMap oct1 ++ oct1 r.result ++ r.data

/-- The reply is formed and waits in the transmit queue; RX_OVERRUN has been reported (R199, R201, R202). -/
def formReply (kind : Nat) (r : Reply) (s : State) : State :=
  { s with link.reply := some { address := (ownAddress s).getD 0, kind := kind + 0x80, payload := replyPayload r s },
           link.rxOverrun := false }

/-! ## The holding place (R199, R200) -/

/-- The request is a RESTART. -/
def RequestForm.isRestart : RequestForm → Bool
  | .request (.restart _) => true
  | .unknownKind | .badLength | .badOctet | .request _ => false

/-- The lines as they stand at a start that a RESTART begins: the straps are read afresh (R2), whatever they have become
since the last start, so their value is free; the pulse inputs stand as their activity has left them (log 13). -/
def presentLines (s : State) : StartLines :=
  { straps := Config.restartStraps s.free, highA := s.flu.pulseA.high, highB := s.flu.pulseB.high, highR := s.flu.pulseR.high }

/-- The request in progress leaves the holding place (R200). -/
def dropFront (s : State) : State := { s with link.holding := s.link.holding.drop 1 }

/-- What follows a request's taking: its reply waits, or a group request ends, a group RESTART in a warm start (R199,
R200, R201, R205). -/
def conclude (r : Received) (taken : State × Reply) : State :=
  match r.who with
  | .own => formReply r.kind taken.2 taken.1
  | .group =>
    if r.form.isRestart then warmStart (presentLines taken.1) 0 taken.1 else dropFront taken.1

/-- The request in progress is handed to its owner (R200). -/
def takeInProgress (r : Received) (s : State) : State := conclude r (takeForm r.form s)

/-- The part answers the addressee: the group always, its own address where the straps give one (R198 test 2). -/
def answers (who : Addressee) (s : State) : Bool :=
  match who with
  | .own => (ownAddress s).isSome
  | .group => true

/-- A received request at the holding place (R200). -/
def holdRequest (r : Received) (s : State) : State :=
  match s.link.holding with
  | [] => takeInProgress r { s with link.holding := [r] }
  | [first] => { s with link.holding := [first, r] }
  | _ :: _ :: _ => { s with link.rxOverrun := true }

/-- A received request arrives; one for an address the part does not answer is discarded (R198, R200). -/
def arrive (r : Received) (s : State) : State := if answers r.who s then holdRequest r s else s

/-- The request in progress ends and the held one, if any, is handed on (R200). -/
def endInProgress (s : State) : State :=
  let s1 := dropFront s
  match s1.link.holding with
  | [] => s1
  | r :: _ => takeInProgress r s1

/-! ## The transmit queue (R202) -/

/-- A notice frame with its snapshot (R202). -/
def noticeFrame (c : NoticeClass) (s : State) : Frame :=
  { address := (ownAddress s).getD 0, kind := 0x7F, payload := oct1 c.code ++ classSnapshot c s }

/-- A frame is a reply: its kind is a request's plus 0x80 (spec 11, Frames). -/
def Frame.isReply (f : Frame) : Bool := decide (0x80 ≤ f.kind)

/-- The free line begins the next frame: the reply, else the notice that has waited longest (R202). -/
def transmit (s : State) : State :=
  match s.link.sending with
  | some _ => s
  | none =>
    match s.link.reply with
    | some f => { s with link.sending := some f, link.reply := none }
    | none =>
      match s.link.notices with
      | c :: rest => { s with link.sending := some (noticeFrame c s), link.notices := rest }
      | [] => s

/-- The request in progress is a RESTART (R205). -/
def restartInProgress (s : State) : Bool := s.link.holding.head?.any fun r => r.form.isRestart

/-- The reply to a RESTART is being sent (R205). -/
def sendingRestart (s : State) : Bool := s.link.sending.any Frame.isReply && restartInProgress s

/-- The last octet of the frame being sent has gone: a reply ends its request, and a RESTART's reply begins the warm start
(R200, R205). -/
def transmitComplete (s : State) : State :=
  match s.link.sending with
  | none => s
  | some f =>
    let s1 := { s with link.sending := none }
    if f.isReply then
      if restartInProgress s then warmStart (presentLines s) 0 s1 else endInProgress s1
    else s1

/-! ## The receiver (R198) -/

/-- The addressee an address octet names, where the part answers it (R198 test 2). -/
def addresseeOf (address : Nat) (s : State) : Option Addressee :=
  if address = 31 then some .group else if ownAddress s = some address then some .own else none

/-- The length octet of a frame of at least four octets. -/
def lengthOctet (octs : List Byte) : Nat := ((octs[3]?).map (·.toNat)).getD 0

/-- A complete frame's CRC agrees (R198 test 1). -/
def crcGood (octs : List Byte) : Bool :=
  let n := 3 + lengthOctet octs
  decide (number (octs.drop (1 + n)) = (crc ((octs.drop 1).take n)).toNat)

/-- A complete frame as a received request, or discarded (R198). -/
def judgeFrame (octs : List Byte) (s : State) : Option Received :=
  let kind := number ((octs.drop 2).take 1)
  if crcGood octs then
    match addresseeOf (number ((octs.drop 1).take 1)) s with
    | some w =>
      if kind < 0x80 then some (receivedFrame w kind ((octs.drop 4).take (lengthOctet octs))) else none
    | none => none
  else none

/-- The octets so far are a complete frame. -/
def frameComplete (octs : List Byte) : Bool :=
  decide (4 ≤ octs.length) && decide (octs.length = 6 + lengthOctet octs)

/-- The fourth octet of a frame gives a length above 240. -/
def lengthTooLarge (octs : List Byte) : Bool :=
  decide (octs.length = 4) && decide (Config.payloadMax < lengthOctet octs)

/-- One octet at the receiver (R198); a received request is taken at once and the free line then begins a frame. -/
def receiveOctet (b : Byte) (s : State) : State :=
  if s.link.rx = [] ∧ b ≠ 0xC3#8 then s
  else
    let octs := s.link.rx ++ [b]
    if lengthTooLarge octs then { s with link.rx := [] }
    else if frameComplete octs then
      let s1 := { s with link.rx := [] }
      match judgeFrame octs s with
      | some r => transmit (arrive r s1)
      | none => s1
    else { s with link.rx := octs }

/-- Octets at the receiver, in order (R198). -/
def receiveOctets : List Byte → State → State
  | [], s => s
  | b :: rest, s => receiveOctets rest (receiveOctet b s)

/-- The partial frame is discarded and the receiver hunts (R198). -/
def receiverHunts (s : State) : State := { s with link.rx := [] }

/-- A request row: that request arrives at the receiver as a good frame (R198, log 4). -/
def arriveRequest (i : Instr) (s : State) : State :=
  match receivedRequest i with
  | some r => arrive r s
  | none => s

/-- A request of any kind arrives, with its octets judged as R201 says; a kind of 0x80 or above is no request (R198 test
3). -/
def arriveKind (w : Addressee) (kind : Nat) (payload : List Byte) (s : State) : State :=
  if kind < 0x80 then arrive (receivedFrame w kind payload) s else s

end Sys2Proof.Machine
end

