-- ==== Sys2Proof/Machine/Events.lean ====
section
/-! DEFINITION. The meanings of the commands that are no requests: starts, field events, the time base, the store's
completions, and the line. What reaches a part that is off or held in reset is lost (R1, log 11). -/

namespace Sys2Proof.Machine

/-- A step's answer. -/
abbrev Answer : Type := Host.Outcome State Fault Refusal

/-- A command at a running part; the free line then begins the next frame. One at a part that is off or in reset is lost
(R1, R202, log 8, log 11). -/
def whileRunning (f : State → State) (s : State) : Answer :=
  .next (if s.power = .running then transmit (f s) else s)

/-- The free line of a running part begins the next frame; a part without supply or in reset sends nothing (R1, R202). -/
def transmitRunning (s : State) : State := if s.power = .running then transmit s else s

/-! ## Starts -/

/-- POWER_APPLIED (R1). -/
def execPowerApplied (intact : Bool) (seconds : Nat) (lines : StartLines) (s : State) : Answer :=
  .next (transmitRunning (applyPower intact seconds lines s))

/-- RESET_ASSERTED (R1). -/
def execResetAsserted (s : State) : Answer := .next (assertReset s)

/-- RESET_RELEASED (R1). -/
def execResetReleased (seconds : Nat) (lines : StartLines) (s : State) : Answer :=
  .next (transmitRunning (releaseReset seconds lines s))

/-- RESTART_WARM_START: the reply to a RESTART has been sent (R205); without such a reply on the line, nothing (log 13). -/
def execRestartWarmStart (lines : StartLines) (s : State) : Answer :=
  whileRunning (fun t => if sendingRestart t then warmStart lines 0 t else t) s

/-- POWER_FAILS (R206). -/
def execPowerFails (s : State) : Answer := .next (losePower s)

/-! ## Field events -/

/-- ANALOG_SAMPLE (R3). -/
def execAnalogSample (ch : Channel) (current : Nat) (s : State) : Answer := whileRunning (sample ch current) s

/-- PULSE_ACCEPTED (R9). -/
def execPulseAccepted (input : PulseInput) (spans : List LineSpan) (s : State) : Answer :=
  whileRunning (pulseActivity input spans) s

/-- TAG_READ (R10). -/
def execTagRead (chars : List ReaderChar) (s : State) : Answer := whileRunning (readerChars chars) s

/-- TAG_FRAME_TIMEOUT (R10). -/
def execTagFrameTimeout (s : State) : Answer := whileRunning readerTimeout s

/-! ## The time base and the steps that follow from counts (log 5, log 6) -/

/-- SECOND_TICK (R12). -/
def execSecondTick (s : State) : Answer := whileRunning secondTick s

/-- BIN_TICK (R13, R24). -/
def execBinTick (s : State) : Answer := whileRunning earlyBinTick s

/-- PRIME_COMPLETE (R31). -/
def execPrimeComplete (s : State) : Answer := whileRunning completePrime s

/-- FLOW_WHILE_STILL (R42). -/
def execFlowWhileStill (s : State) : Answer := whileRunning checkStaticFlow s

/-- BILLING_UNIT (R154). -/
def execBillingUnit (c : Category) (s : State) : Answer := whileRunning (billUnit c) s

/-- PRIME_TIMEOUT (R31). -/
def execPrimeTimeout (s : State) : Answer := whileRunning expirePrime s

/-- BLEED_CONFIRMED (R36). -/
def execBleedConfirmed (s : State) : Answer := whileRunning confirmBleed s

/-- STOP_TIMEOUT (R36). -/
def execStopTimeout (s : State) : Answer := whileRunning expireStop s

/-- BREAK_PERMIT_TIMEOUT (R100). -/
def execBreakPermitTimeout (s : State) : Answer := whileRunning expireBreakPermit s

/-! ## The store's completions -/

/-- WRITE_SUCCEEDS (R188). -/
def execWriteSucceeds (s : State) : Answer := whileRunning writeSucceeds s

/-- WRITE_PROGRAM_FAILURE (R189). -/
def execWriteProgramFailure (s : State) : Answer := whileRunning writeFailure s

/-- ERASE_COMPLETION (R190). -/
def execEraseCompletion (success : Bool) (s : State) : Answer := whileRunning (eraseCompletion success) s

/-! ## The line -/

/-- FRAME_RECEIVED (R198). -/
def execFrameReceived (octs : List Byte) (s : State) : Answer := whileRunning (receiveOctets octs) s

/-- RX_FRAME_TIMEOUT (R198). -/
def execRxFrameTimeout (s : State) : Answer := whileRunning receiverHunts s

/-- RX_FRAMING_ERROR: octets arrive, and then one with a framing error (R198). -/
def execRxFramingError (octs : List Byte) (s : State) : Answer :=
  whileRunning (fun t => receiverHunts (receiveOctets octs t)) s

/-- RX_LENGTH_ABOVE_240: the octet arrives (R198). -/
def execRxLengthAbove240 (length : Byte) (s : State) : Answer := whileRunning (receiveOctet length) s

/-- TRANSMIT_COMPLETE (R200, R202, R205). -/
def execTransmitComplete (s : State) : Answer := whileRunning transmitComplete s

/-- UNKNOWN_KIND (R201). -/
def execUnknownKind (who : Addressee) (kind : Nat) (payload : List Byte) (s : State) : Answer :=
  whileRunning (arriveKind who kind payload) s

end Sys2Proof.Machine
end

