-- ==== Sys2Proof/Machine/RequestCommands.lean ====
section
/-! DEFINITION. The meanings of the forty-nine requests: each is that request arriving at the receiver of a running part
(R198, R200, log 4); what its owner then does is in the block's file, reached through Machine/Requests.lean. -/

namespace Sys2Proof.Machine

/-! ## Field lines (spec 01) -/

/-- SET_CHANNEL (R7). -/
def execSetChannel (who : Addressee) (channel fullScale : Nat) (s : State) : Answer :=
  whileRunning (arriveRequest (.setChannel who channel fullScale)) s

/-- SET_CLOCK (R14). -/
def execSetClock (who : Addressee) (time : Nat) (s : State) : Answer :=
  whileRunning (arriveRequest (.setClock who time)) s

/-- READ_FIELD_LINES (R17). -/
def execReadFieldLines (who : Addressee) (s : State) : Answer :=
  whileRunning (arriveRequest (.readFieldLines who)) s

/-! ## Circulation (spec 02) -/

/-- SET_PUMP (R18). -/
def execSetPump (who : Addressee) (pump displacement efficiency : Nat) (s : State) : Answer :=
  whileRunning (arriveRequest (.setPump who pump displacement efficiency)) s

/-- SET_RETURN_METER (R19). -/
def execSetReturnMeter (who : Addressee) (weight : Nat) (s : State) : Answer :=
  whileRunning (arriveRequest (.setReturnMeter who weight)) s

/-- SET_FLOW_BALANCE (R27). -/
def execSetFlowBalance (who : Addressee) (minVolume totalPercent partialThreshold hysteresis gainThreshold : Nat)
    (s : State) : Answer :=
  whileRunning (arriveRequest (.setFlowBalance who minVolume totalPercent partialThreshold hysteresis gainThreshold)) s

/-- SET_CIRCULATION_LIMITS (R40). -/
def execSetCirculationLimits (who : Addressee) (primeVolume primeTime stopTime bleedLimit flowCheck : Nat)
    (s : State) : Answer :=
  whileRunning (arriveRequest (.setCirculationLimits who primeVolume primeTime stopTime bleedLimit flowCheck)) s

/-- START_CIRCULATION (R30). -/
def execStartCirculation (who : Addressee) (mask : Nat) (s : State) : Answer :=
  whileRunning (arriveRequest (.startCirculation who mask)) s

/-- STOP_CIRCULATION (R35). -/
def execStopCirculation (who : Addressee) (s : State) : Answer :=
  whileRunning (arriveRequest (.stopCirculation who)) s

/-- CONFIRM_STOP (R37). -/
def execConfirmStop (who : Addressee) (s : State) : Answer :=
  whileRunning (arriveRequest (.confirmStop who)) s

/-- RESET_CIRCULATION (R38). -/
def execResetCirculation (who : Addressee) (s : State) : Answer :=
  whileRunning (arriveRequest (.resetCirculation who)) s

/-- PUMP_TEST (R39). -/
def execPumpTest (who : Addressee) (pump : Nat) (s : State) : Answer :=
  whileRunning (arriveRequest (.pumpTest who pump)) s

/-! ## Lag (spec 03) -/

/-- SET_SECTION (R47). -/
def execSetSection (who : Addressee) (entry top bottom capacity : Nat) (s : State) : Answer :=
  whileRunning (arriveRequest (.setSection who entry top bottom capacity)) s

/-- SET_LAG_GEOMETRY (R48). -/
def execSetLagGeometry (who : Addressee) (surface capacity spacing : Nat) (s : State) : Answer :=
  whileRunning (arriveRequest (.setLagGeometry who surface capacity spacing)) s

/-! ## Rods (spec 04) -/

/-- REGISTER_ROD (R67). -/
def execRegisterRod (who : Addressee) (id length status makeUps rotating : Nat) (s : State) : Answer :=
  whileRunning (arriveRequest (.registerRod who id length status makeUps rotating)) s

/-- DELIST_ROD (R68). -/
def execDelistRod (who : Addressee) (id : Nat) (s : State) : Answer :=
  whileRunning (arriveRequest (.delistRod who id)) s

/-- PLACE_ROD (R69). -/
def execPlaceRod (who : Addressee) (id destination : Nat) (s : State) : Answer :=
  whileRunning (arriveRequest (.placeRod who id destination)) s

/-- SET_ROD_STATUS (R70). -/
def execSetRodStatus (who : Addressee) (id status : Nat) (s : State) : Answer :=
  whileRunning (arriveRequest (.setRodStatus who id status)) s

/-- SET_ROD_LIMITS (R71). -/
def execSetRodLimits (who : Addressee) (rotating makeUps : Nat) (s : State) : Answer :=
  whileRunning (arriveRequest (.setRodLimits who rotating makeUps)) s

/-- SET_DEPTH_REFERENCE (R76). -/
def execSetDepthReference (who : Addressee) (bha offset : Nat) (s : State) : Answer :=
  whileRunning (arriveRequest (.setDepthReference who bha offset)) s

/-- SET_OVERPULL_LIMIT (R81). -/
def execSetOverpullLimit (who : Addressee) (limit : Nat) (s : State) : Answer :=
  whileRunning (arriveRequest (.setOverpullLimit who limit)) s

/-! ## Joint (spec 05) -/

/-- SET_JOINT_LIMITS (R89). -/
def execSetJointLimits (who : Addressee) (target tolerance maximum detect timeout : Nat) (s : State) : Answer :=
  whileRunning (arriveRequest (.setJointLimits who target tolerance maximum detect timeout)) s

/-- REQUEST_BREAK (R99). -/
def execRequestBreak (who : Addressee) (s : State) : Answer :=
  whileRunning (arriveRequest (.requestBreak who)) s

/-- RACK_ROD (R101). -/
def execRackRod (who : Addressee) (destination : Nat) (s : State) : Answer :=
  whileRunning (arriveRequest (.rackRod who destination)) s

/-- CANCEL_JOINT (R102). -/
def execCancelJoint (who : Addressee) (s : State) : Answer :=
  whileRunning (arriveRequest (.cancelJoint who)) s

/-- RELEASE_JOINT (R104). -/
def execReleaseJoint (who : Addressee) (s : State) : Answer :=
  whileRunning (arriveRequest (.releaseJoint who)) s

/-! ## Strata (spec 06) -/

/-- FORMATION (R113). -/
def execFormation (who : Addressee) (cls : Nat) (s : State) : Answer :=
  whileRunning (arriveRequest (.formation who cls)) s

/-- WATER_STRIKE (R122). -/
def execWaterStrike (who : Addressee) (yield : Nat) (depth level : Option Nat) (s : State) : Answer :=
  whileRunning (arriveRequest (.waterStrike who yield depth level)) s

/-- AMEND_NOTE (R125). -/
def execAmendNote (who : Addressee) (index note : Nat) (s : State) : Answer :=
  whileRunning (arriveRequest (.amendNote who index note)) s

/-! ## Rate sets (spec 07) -/

/-- STAGE_BANDS (R133). -/
def execStageBands (who : Addressee) (count : Nat) (floors : List Nat) (s : State) : Answer :=
  whileRunning (arriveRequest (.stageBands who count floors)) s

/-- STAGE_FOOTAGE_ROW (R134). -/
def execStageFootageRow (who : Addressee) (cls : Nat) (rates : List Nat) (s : State) : Answer :=
  whileRunning (arriveRequest (.stageFootageRow who cls rates)) s

/-- STAGE_TIME_RATES (R135). -/
def execStageTimeRates (who : Addressee) (rates : List Nat) (s : State) : Answer :=
  whileRunning (arriveRequest (.stageTimeRates who rates)) s

/-- STAGE_MATERIAL (R136). -/
def execStageMaterial (who : Addressee) (item unit price : Nat) (s : State) : Answer :=
  whileRunning (arriveRequest (.stageMaterial who item unit price)) s

/-- COMMIT_STAGE (R137). -/
def execCommitStage (who : Addressee) (trigger : Nat) (s : State) : Answer :=
  whileRunning (arriveRequest (.commitStage who trigger)) s

/-- CANCEL_STAGE (R142). -/
def execCancelStage (who : Addressee) (s : State) : Answer :=
  whileRunning (arriveRequest (.cancelStage who)) s

/-! ## Billing (spec 08) -/

/-- SET_CATEGORY (R158). -/
def execSetCategory (who : Addressee) (override : Nat) (s : State) : Answer :=
  whileRunning (arriveRequest (.setCategory who override)) s

/-- DRAW_MATERIAL (R159). -/
def execDrawMaterial (who : Addressee) (item quantity : Nat) (s : State) : Answer :=
  whileRunning (arriveRequest (.drawMaterial who item quantity)) s

/-! ## Incidents and notices (spec 09) -/

/-- CLEAR_INCIDENT (R170). -/
def execClearIncident (who : Addressee) (slot : Nat) (s : State) : Answer :=
  whileRunning (arriveRequest (.clearIncident who slot)) s

/-- CLEAR_OVERFLOW (R171). -/
def execClearOverflow (who : Addressee) (s : State) : Answer :=
  whileRunning (arriveRequest (.clearOverflow who)) s

/-- SET_NOTICE_MASK (R177). -/
def execSetNoticeMask (who : Addressee) (mask : Nat) (s : State) : Answer :=
  whileRunning (arriveRequest (.setNoticeMask who mask)) s

/-! ## Jobs and the store (spec 10) -/

/-- OPEN_JOB (R181). -/
def execOpenJob (who : Addressee) (number client : Nat) (well : List Byte) (s : State) : Answer :=
  whileRunning (arriveRequest (.openJob who number client well)) s

/-- CLOSE_JOB (R183). -/
def execCloseJob (who : Addressee) (force : Bool) (s : State) : Answer :=
  whileRunning (arriveRequest (.closeJob who force)) s

/-- RETRY_FILING (R191). -/
def execRetryFiling (who : Addressee) (s : State) : Answer :=
  whileRunning (arriveRequest (.retryFiling who)) s

/-- ERASE_TICKET (R190). -/
def execEraseTicket (who : Addressee) (slot : Nat) (s : State) : Answer :=
  whileRunning (arriveRequest (.eraseTicket who slot)) s

/-- DISCARD_TICKET (R192). -/
def execDiscardTicket (who : Addressee) (s : State) : Answer :=
  whileRunning (arriveRequest (.discardTicket who)) s

/-- RELEASE_STORE (R193). -/
def execReleaseStore (who : Addressee) (s : State) : Answer :=
  whileRunning (arriveRequest (.releaseStore who)) s

/-! ## The link (spec 11) -/

/-- READ_STATUS (R203). -/
def execReadStatus (who : Addressee) (selector : Nat) (s : State) : Answer :=
  whileRunning (arriveRequest (.readStatus who selector)) s

/-- READ_RECORDS (R204). -/
def execReadRecords (who : Addressee) (collection sel1 sel2 start count direction : Nat) (s : State) : Answer :=
  whileRunning (arriveRequest (.readRecords who collection sel1 sel2 start count direction)) s

/-- RESTART (R205). -/
def execRestart (who : Addressee) (s : State) : Answer :=
  whileRunning (arriveRequest (.restart who)) s

end Sys2Proof.Machine
end

