-- ==== Sys2Proof/Machine/Dispatch.lean ====
section
/-! DEFINITION. The meaning of every command: one arm per constructor. -/

namespace Sys2Proof.Machine

/-- The effect of a command on everything but the queue. -/
def exec (i : Instr) (s : State) : Host.Outcome State Fault Refusal :=
  match i with
  | .powerApplied intact offSeconds lines => Sys2Proof.Machine.execPowerApplied intact offSeconds lines s
  | .resetAsserted => Sys2Proof.Machine.execResetAsserted s
  | .resetReleased heldSeconds lines => Sys2Proof.Machine.execResetReleased heldSeconds lines s
  | .restartWarmStart lines => Sys2Proof.Machine.execRestartWarmStart lines s
  | .analogSample ch current => Sys2Proof.Machine.execAnalogSample ch current s
  | .pulseAccepted input spans => Sys2Proof.Machine.execPulseAccepted input spans s
  | .primeComplete => Sys2Proof.Machine.execPrimeComplete s
  | .flowWhileStill => Sys2Proof.Machine.execFlowWhileStill s
  | .tagRead chars => Sys2Proof.Machine.execTagRead chars s
  | .tagFrameTimeout => Sys2Proof.Machine.execTagFrameTimeout s
  | .secondTick => Sys2Proof.Machine.execSecondTick s
  | .billingUnit category => Sys2Proof.Machine.execBillingUnit category s
  | .binTick => Sys2Proof.Machine.execBinTick s
  | .primeTimeout => Sys2Proof.Machine.execPrimeTimeout s
  | .bleedConfirmed => Sys2Proof.Machine.execBleedConfirmed s
  | .stopTimeout => Sys2Proof.Machine.execStopTimeout s
  | .breakPermitTimeout => Sys2Proof.Machine.execBreakPermitTimeout s
  | .writeSucceeds => Sys2Proof.Machine.execWriteSucceeds s
  | .writeProgramFailure => Sys2Proof.Machine.execWriteProgramFailure s
  | .eraseCompletion success => Sys2Proof.Machine.execEraseCompletion success s
  | .frameReceived octets => Sys2Proof.Machine.execFrameReceived octets s
  | .rxFrameTimeout => Sys2Proof.Machine.execRxFrameTimeout s
  | .transmitComplete => Sys2Proof.Machine.execTransmitComplete s
  | .unknownKind who kind payload => Sys2Proof.Machine.execUnknownKind who kind payload s
  | .readStatus who selector => Sys2Proof.Machine.execReadStatus who selector s
  | .readRecords who collection sel1 sel2 start count direction => Sys2Proof.Machine.execReadRecords who collection sel1 sel2 start count direction s
  | .restart who => Sys2Proof.Machine.execRestart who s
  | .setChannel who channel fullScale => Sys2Proof.Machine.execSetChannel who channel fullScale s
  | .setClock who time => Sys2Proof.Machine.execSetClock who time s
  | .readFieldLines who => Sys2Proof.Machine.execReadFieldLines who s
  | .setPump who pump displacement efficiency => Sys2Proof.Machine.execSetPump who pump displacement efficiency s
  | .setReturnMeter who weight => Sys2Proof.Machine.execSetReturnMeter who weight s
  | .setFlowBalance who minVolume totalPercent partialThreshold hysteresis gainThreshold => Sys2Proof.Machine.execSetFlowBalance who minVolume totalPercent partialThreshold hysteresis gainThreshold s
  | .setCirculationLimits who primeVolume primeTime stopTime bleedLimit flowCheck => Sys2Proof.Machine.execSetCirculationLimits who primeVolume primeTime stopTime bleedLimit flowCheck s
  | .startCirculation who mask => Sys2Proof.Machine.execStartCirculation who mask s
  | .stopCirculation who => Sys2Proof.Machine.execStopCirculation who s
  | .confirmStop who => Sys2Proof.Machine.execConfirmStop who s
  | .resetCirculation who => Sys2Proof.Machine.execResetCirculation who s
  | .pumpTest who pump => Sys2Proof.Machine.execPumpTest who pump s
  | .setSection who entry top bottom capacity => Sys2Proof.Machine.execSetSection who entry top bottom capacity s
  | .setLagGeometry who surface capacity spacing => Sys2Proof.Machine.execSetLagGeometry who surface capacity spacing s
  | .registerRod who id length status makeUps rotating => Sys2Proof.Machine.execRegisterRod who id length status makeUps rotating s
  | .delistRod who id => Sys2Proof.Machine.execDelistRod who id s
  | .placeRod who id destination => Sys2Proof.Machine.execPlaceRod who id destination s
  | .setRodStatus who id status => Sys2Proof.Machine.execSetRodStatus who id status s
  | .setRodLimits who rotating makeUps => Sys2Proof.Machine.execSetRodLimits who rotating makeUps s
  | .setDepthReference who bha offset => Sys2Proof.Machine.execSetDepthReference who bha offset s
  | .setOverpullLimit who limit => Sys2Proof.Machine.execSetOverpullLimit who limit s
  | .setJointLimits who target tolerance maximum detect timeout => Sys2Proof.Machine.execSetJointLimits who target tolerance maximum detect timeout s
  | .requestBreak who => Sys2Proof.Machine.execRequestBreak who s
  | .rackRod who destination => Sys2Proof.Machine.execRackRod who destination s
  | .cancelJoint who => Sys2Proof.Machine.execCancelJoint who s
  | .releaseJoint who => Sys2Proof.Machine.execReleaseJoint who s
  | .formation who cls => Sys2Proof.Machine.execFormation who cls s
  | .waterStrike who yield depth level => Sys2Proof.Machine.execWaterStrike who yield depth level s
  | .amendNote who index note => Sys2Proof.Machine.execAmendNote who index note s
  | .stageBands who count floors => Sys2Proof.Machine.execStageBands who count floors s
  | .stageFootageRow who cls rates => Sys2Proof.Machine.execStageFootageRow who cls rates s
  | .stageTimeRates who rates => Sys2Proof.Machine.execStageTimeRates who rates s
  | .stageMaterial who item unit price => Sys2Proof.Machine.execStageMaterial who item unit price s
  | .commitStage who trigger => Sys2Proof.Machine.execCommitStage who trigger s
  | .cancelStage who => Sys2Proof.Machine.execCancelStage who s
  | .setCategory who override => Sys2Proof.Machine.execSetCategory who override s
  | .drawMaterial who item quantity => Sys2Proof.Machine.execDrawMaterial who item quantity s
  | .clearIncident who slot => Sys2Proof.Machine.execClearIncident who slot s
  | .clearOverflow who => Sys2Proof.Machine.execClearOverflow who s
  | .setNoticeMask who mask => Sys2Proof.Machine.execSetNoticeMask who mask s
  | .openJob who number client well => Sys2Proof.Machine.execOpenJob who number client well s
  | .closeJob who force => Sys2Proof.Machine.execCloseJob who force s
  | .retryFiling who => Sys2Proof.Machine.execRetryFiling who s
  | .eraseTicket who slot => Sys2Proof.Machine.execEraseTicket who slot s
  | .discardTicket who => Sys2Proof.Machine.execDiscardTicket who s
  | .releaseStore who => Sys2Proof.Machine.execReleaseStore who s
  | .powerFails => Sys2Proof.Machine.execPowerFails s
  | .rxFramingError octets => Sys2Proof.Machine.execRxFramingError octets s
  | .rxLengthAbove240 length => Sys2Proof.Machine.execRxLengthAbove240 length s

end Sys2Proof.Machine
end

