-- ==== Sys2Proof/Safety.lean ====
section
/-! DEFINITION. What counts as lawful: the laws that every step keeps, each read from a rule of the spec, and the terms in
which statements about requests are written. -/

namespace Sys2Proof.Machine

/-! ## Requests -/

/-- A request to the addressee is taken as it arrives: the part runs, answers the addressee, and holds no other request
(R198, R200). -/
abbrev ready (who : Addressee) (s : State) : Prop :=
  s.power = .running ∧ s.link.holding = [] ∧ answers who s = true

/-- The request is in progress and nothing else is held (R200). -/
def taking (i : Instr) (s : State) : State := { s with link.holding := (receivedRequest i).toList }

/-- The request has been answered: the reply `rep` is formed on `u`, or nothing for the group; the free line then begins
a frame (R199, R201, R202). -/
def answered (i : Instr) (rep : Reply) (u : State) : Answer :=
  match receivedRequest i with
  | some r => .next (transmit (conclude r (u, rep)))
  | none => .next u

/-- The request is answered with `rep`, and its whole effect on the state as it is taken is `f` (R200, R201). -/
abbrev isAnswered (i : Instr) (s : State) (rep : Reply) (f : State → State) : Prop :=
  exec i s = answered i rep (f (taking i s))

/-- The request is refused with `rep` and has no other effect (R201). -/
abbrev isRefused (i : Instr) (s : State) (rep : Reply) : Prop := isAnswered i s rep fun u => u

/-- The command is taken by a running part, and `u` is the state before the free line begins its next frame (R202). -/
abbrev comesTo (c : Instr) (s u : State) : Prop := exec c s = .next (transmit u)

/-- The octets of a request's frame to this part (spec 11, Frames). -/
def requestLine (w : Wire) (s : State) : List Byte :=
  Frame.line { address := match w.who with
                 | .own => (ownAddress s).getD 0
                 | .group => 31,
               kind := w.kind, payload := w.payload }

/-- The job controller's fields become `j`, which sets STORE pending, and nothing else changes (R180, R187). -/
abbrev storeChange (j : Jobs) (s u : State) : Prop :=
  u = { s with jobs := j, inc := u.inc, link := u.link } ∧ u.inc = { s.inc with flags.store := true }

/-! ## The output lines (R1, R28, R87, R88) -/

/-- In a running part each line stands as its owner's state commands; otherwise all four are low (R1, R11, R28, R87,
R88). -/
abbrev outputsLawful (s : State) : Prop :=
  if s.power = .running then
    s.flu.pumpAEnable = (s.circ.state.pumping && s.circ.mask.a) ∧
      s.flu.pumpBEnable = (s.circ.state.pumping && s.circ.mask.b) ∧
      s.flu.makeUpPermit = (decide (s.joint.state = .loaded) && s.circ.state.resting) ∧
      s.flu.breakPermit = decide (s.joint.state = .breakPermit)
  else
    s.flu.pumpAEnable = false ∧ s.flu.pumpBEnable = false ∧ s.flu.makeUpPermit = false ∧ s.flu.breakPermit = false

/-- In BREAK_PERMIT circulation is STILL or STOPPED and the pressure bled (R88). -/
abbrev breakLawful (s : State) : Prop :=
  s.joint.state = .breakPermit →
    s.circ.state.resting = true ∧ s.flu.pressure.fault = false ∧ s.flu.pressure.value ≤ s.circ.limits.bleedLimit

/-- The interlock (R28, R87, R88). -/
abbrev interlockLawful (s : State) : Prop := outputsLawful s ∧ breakLawful s

/-! ## Depth (R79) -/

/-- Bit depth never exceeds hole depth, and hole depth never exceeds 200,000 cm (R79). -/
abbrev depthLawful (s : State) : Prop := s.rods.bitDepth ≤ s.rods.holeDepth ∧ s.rods.holeDepth ≤ 200000

/-! ## Rods in their places (R65, R66) -/

/-- The place a rod's record names holds the rod (R65, R66). -/
def inPlace (s : State) (r : Rod) : Bool :=
  match r.location with
  | .yard => true
  | .magazine k => decide (s.rods.magazine[k]? = some (some r.id))
  | .arm => decide (s.joint.arm.map (·.rod) = some r.id)
  | .string i => decide (s.rods.string[i]? = some r.id)

/-- Each registered rod is in exactly one place and each place holds registered rods only: the registry ascends in rod id, its
records agree with the magazine, the string and the arm in both directions, the reserved slot is empty, and the string has
room for a rod in LOADED (R65, R66, R90). -/
abbrev rodsLawful (s : State) : Prop :=
  (s.rods.registry.map (·.id)).Pairwise (· < ·) ∧ s.rods.registry.length ≤ 448 ∧ s.rods.magazine.length = 96 ∧
    s.rods.string.length ≤ 400 ∧ (∀ r ∈ s.rods.registry, inPlace s r = true) ∧
    (∀ k id, s.rods.magazine[k]? = some (some id) →
      ∃ r ∈ s.rods.registry, r.id = id ∧ r.location = .magazine k) ∧
    (∀ i id, s.rods.string[i]? = some id → ∃ r ∈ s.rods.registry, r.id = id ∧ r.location = .string i) ∧
    (∀ a, s.joint.arm = some a → ∃ r ∈ s.rods.registry, r.id = a.rod ∧ r.location = .arm) ∧
    (∀ k, reservedSlot s = some k → s.rods.magazine[k]? = some none) ∧
    (s.joint.state = .loaded → s.rods.string.length < 400)

/-! ## The mark queue and the frontier (R55, R60, R142) -/

/-- Marks run from one depth down to another, contiguous and ascending, none of zero length (R51, R55). -/
def chained (top : Nat) : List Mark → Nat → Bool
  | [], bottom => decide (top = bottom)
  | m :: rest, bottom => decide (m.top = top) && decide (m.top < m.bottom) && chained m.bottom rest bottom

/-- The queued marks run from F to the span's top and the span from there to the hole depth while a job is OPEN; outside
a job no mark is queued and the staging state is EDITING (R55, R60, R142). -/
abbrev frontierLawful (s : State) : Prop :=
  if s.jobs.state = .opened then
    chained s.lag.frontier s.lag.queue s.lag.spanTop = true ∧ s.lag.spanTop ≤ s.rods.holeDepth ∧
      s.lag.queue.length ≤ 256
  else s.lag.queue = [] ∧ s.price.stage = .editing

/-! ## The strata log (R108, R121) -/

/-- Intervals run from a depth without gap: each but the last is closed where the next begins, the last has the given
bottom, and none begins below the floor (R108). -/
def intervalsRun (top : Nat) (bottom : Option Nat) (floor : Nat) : List Interval → Bool
  | [] => false
  | [v] => decide (v.top = top) && decide (v.bottom = bottom) && decide (top ≤ floor)
  | v :: w :: rest =>
    decide (v.top = top) && decide (top ≤ w.top) && decide (v.bottom = some w.top) &&
      intervalsRun w.top bottom floor (w :: rest)

/-- The depth the job's log begins at (R109, R180). -/
def logStart (s : State) : Nat := (s.jobs.context.map (·.startDepth)).getD 0

/-- The intervals of a job cover its start depth down to the returns frontier without gap, the last open while the job is OPEN
and closed at the frontier after; there are at most 320, and at most 32 strikes (R108, R120, R121). -/
abbrev strataLawful (s : State) : Prop :=
  s.strata.intervals.length ≤ 320 ∧ s.strata.strikes.length ≤ 32 ∧
    (s.jobs.state = .opened →
      intervalsRun (logStart s) none s.lag.frontier s.strata.intervals = true) ∧
    (s.jobs.state = .closing ∨ s.jobs.state = .unfiled →
      intervalsRun (logStart s) (some s.lag.frontier) s.lag.frontier s.strata.intervals = true)

/-! ## The incident table (R166, R167) -/

/-- A pending slot's kind. -/
def pendingKind (s : State) (n : Nat) : Option IncidentKind :=
  (((s.inc.slots[n]?).getD none).filter fun r => r.pending).map (·.kind)

/-- The pending list holds each pending slot once and nothing else, and no two pending slots are of one kind (R166,
R167). -/
abbrev incidentsLawful (s : State) : Prop :=
  s.inc.slots.length = 16 ∧ s.inc.lastWritten < 16 ∧ s.inc.order.Nodup ∧ (∀ n ∈ s.inc.order, n < 16) ∧
    (∀ n < 16, n ∈ s.inc.order ↔ slotPending s n = true) ∧
    ∀ m < 16, ∀ n < 16, pendingKind s m = pendingKind s n → (pendingKind s m).isSome = true → m = n

/-! ## The ticket store (R180, R187) -/

/-- The operation is a WRITE. -/
def StoreOp.isWrite : StoreOp → Bool
  | .write _ => true
  | .erase _ => false

/-- An operation's target slot. -/
def StoreOp.slot : StoreOp → Nat
  | .write n => n
  | .erase n => n

/-- The closing buffer holds a ticket in CLOSING and UNFILED (spec 10, job states). -/
def JobState.buffers : JobState → Bool
  | .closing | .unfiled => true
  | .noJob | .opened => false

/-- Only the target of the WRITE in flight is WRITING; a WRITE is in flight in CLOSING and in no other job state; the
buffer and the context are held as the job state says; nothing is in flight while PROTECTED is set (R187). -/
abbrev storeLawful (s : State) : Prop :=
  s.jobs.slots.length = 16 ∧ (∀ o ∈ s.jobs.op, o.slot < 16) ∧
    (∀ n < 16, s.jobs.slots[n]? = some .writing ↔ s.jobs.op = some (.write n)) ∧
    (s.jobs.op.any StoreOp.isWrite = decide (s.jobs.state = .closing)) ∧
    s.jobs.buffer.isSome = s.jobs.state.buffers ∧ (s.jobs.state ≠ .noJob → s.jobs.context.isSome = true) ∧
    (s.jobs.isProtected = true → s.jobs.op = none)

/-- Slots a start finds cut short, lowest first: every WRITING one, and beside them only a FILED one under an ERASE (R196;
which of these is free, log 10). -/
abbrev isCut (s : State) (cut : List Nat) : Prop :=
  cut.Pairwise (· < ·) ∧ (∀ n, s.jobs.slots[n]? = some .writing → n ∈ cut) ∧
    ∀ n ∈ cut, s.jobs.slots[n]? = some .writing ∨
      ((∃ t, s.jobs.slots[n]? = some (.filed t)) ∧ s.jobs.op = some (.erase n))

/-! ## The link (R199, R200, R202) -/

/-- The reply of the request in progress waits or is being sent. -/
def replyOut (s : State) : Bool := s.link.reply.isSome || s.link.sending.any Frame.isReply

/-- At most two requests are held; the first has exactly one reply waiting or being sent; each class has one notice at
most; a part without an address sends nothing (R199, R200, R202). -/
abbrev linkLawful (s : State) : Prop :=
  s.power = .running →
    s.link.holding.length ≤ 2 ∧ replyOut s = !s.link.holding.isEmpty ∧
      (s.link.reply.isSome = true → s.link.sending.any Frame.isReply = false) ∧ s.link.notices.Nodup ∧
      (ownAddress s = none → s.link.holding = [] ∧ s.link.notices = [] ∧ s.link.sending = none)

/-! ## Bounded counts (R24, R26, R36, R13) -/

/-- The window, the four runs, the bleed hold count and the bin phase stay in their ranges (R13, R24, R26, R36). -/
abbrev countsLawful (s : State) : Prop :=
  s.circ.window.length ≤ 12 ∧ s.circ.totalRun ≤ 3 ∧ s.circ.partialRun ≤ 3 ∧ s.circ.recoveryRun ≤ 3 ∧
    s.circ.clearRun ≤ 3 ∧ s.circ.bleedCount ≤ 10 ∧ s.flu.binPhase ≤ 4

/-! ## The joint controller (R86, R100, R103) -/

/-- The arm record is present in LOADED and UNLOADED only, the HELD reference in HELD only, and the break-permit timer is 0
outside BREAK_PERMIT (R86, R100, R103). -/
abbrev jointLawful (s : State) : Prop :=
  s.joint.arm.isSome = (decide (s.joint.state = .loaded) || decide (s.joint.state = .unloaded)) ∧
    (s.joint.state ≠ .held → s.joint.heldRef = none) ∧ (s.joint.state ≠ .breakPermit → s.joint.timer = 0)

/-! ## Rate generations (R139) -/

/-- While a job is OPEN there is an active set and every queued mark carries its generation or the previous one (R139,
R154). -/
abbrev generationsLawful (s : State) : Prop :=
  s.jobs.state = .opened →
    s.price.active.isSome = true ∧
      ∀ m ∈ s.lag.queue,
        m.generation = activeGeneration s ∨ s.price.previous.any (fun p => decide (p.generation = m.generation)) = true

/-! ## The billing clock (R153, R154) -/

/-- One total and one residue for each category; a residue never rests at 36; the totals sum to the job running seconds
until these saturate (R153, R154). -/
abbrev secondsLawful (s : State) : Prop :=
  s.bill.totals.length = 7 ∧ s.bill.residues.length = 7 ∧ (∀ r ∈ s.bill.residues, r < 36) ∧
    (s.bill.running < Config.counterMax → s.bill.totals.sum = s.bill.running)

/-! ## Which commands start the part, and which carry octets -/

/-- A command that acts whether or not the part runs (R1, R206). -/
def isPower : Instr → Bool
  | .powerApplied _ _ _ | .resetAsserted | .resetReleased _ _ | .powerFails => true
  | _ => false

/-- A command that may bring several requests in one step. -/
def carriesOctets : Instr → Bool
  | .frameReceived _ | .rxFramingError _ => true
  | _ => false

/-- The two lines after a start: power applied leaves the reset input at its level, every other start is that of a running part
(R1, log 12). -/
def startPower (c : Instr) (s : State) : Power :=
  match c with
  | .powerApplied _ _ _ => { s.power with supply := true }
  | _ => .running

/-- The three commands that make a warm start (R1, R205), with their lines and the seconds without ticks. -/
def warmStarts (c : Instr) (lines : StartLines) (seconds : Nat) (s : State) : Prop :=
  c = .powerApplied true seconds lines ∨ (c = .resetReleased seconds lines ∧ s.power.supply = true) ∨
    (c = .restartWarmStart lines ∧ seconds = 0 ∧ s.power = .running ∧ sendingRestart s = true)

end Sys2Proof.Machine
end

