-- ==== Sys2Proof/Certificates/Slice0/Obligations.lean ====
section
/-! DEFINITION. The statements for the provers: the queue and the line, the starts, each family of commands, and the laws
every step keeps. -/

open Sys2Proof Sys2Proof.Machine

/-! ## The queue, the holding place and the line (spec 11) -/

/-- The command at the front of the queue runs on the state with the queue's rest; an empty queue idles (the model's own
queue, logs 4 and 25). -/
def Obligations.StepRunsTheFrontCommandOnTheRestOfTheQueue : Prop :=
  (∀ (c : Instr) (rest : List Instr) (s : State),
    step { s with pending := c :: rest } = exec c { s with pending := rest }) ∧
  ∀ s : State, s.pending = [] → step s = .next s

/-- No command faults or is refused, and none touches the queue. -/
def Obligations.EveryCommandAnswersANextStateAndKeepsTheQueue : Prop :=
  ∀ (c : Instr) (s : State), ∃ t, exec c s = .next t ∧ t.pending = s.pending

/-- A request that meets an empty holding place is taken by its owner at once; a second is held, a third is discarded with
RX_OVERRUN, and one for another address is discarded (R198, R200). -/
def Obligations.TheHoldingPlaceTakesHoldsOrDiscards : Prop :=
  ∀ (i : Instr) (r : Received) (s : State), receivedRequest i = some r → s.power = .running →
    (answers r.who s = true →
      (s.link.holding = [] →
        exec i s = answered i (takeRequest i (taking i s)).2 (takeRequest i (taking i s)).1) ∧
      (∀ first, s.link.holding = [first] → comesTo i s { s with link.holding := [first, r] }) ∧
      ∀ first second rest, s.link.holding = first :: second :: rest → comesTo i s { s with link.rxOverrun := true }) ∧
    (answers r.who s = false → comesTo i s s)

/-- A request to the part's own address forms a reply of its kind plus 0x80: the summary, the result, the data; RX_OVERRUN
is reported and cleared. A group request ends at once and forms none (R199, R200, R201). The summary's state codes, its pending
bits and the nineteen result codes are those of spec 11's code table. -/
def Obligations.AReplyCarriesTheSummaryTheResultAndTheData : Prop :=
  ∀ (i : Instr) (r : Received) (rep : Reply) (u : State), receivedRequest i = some r →
    (r.who = .own →
      answered i rep u = .next (transmit
        { u with
          link.reply := some
            { address := (ownAddress u).getD 0, kind := r.kind + 0x80,
              payload := oct1 u.circ.state.code ++ oct1 u.joint.state.code ++ oct1 u.jobs.state.code ++
                oct1 (u.inc.flags.bits + 64 * flagCode u.link.rxOverrun + 128 * flagCode u.flu.clockUnset) ++
                oct1 rep.result ++ rep.data },
          link.rxOverrun := false })) ∧
    (r.who = .group → i ≠ .restart .group →
      answered i rep u = .next (transmit { u with link.holding := u.link.holding.drop 1 })) ∧
    ([CircState.still, .priming, .circulating, .partialLoss, .totalLoss, .stopping, .stopped, .pumpTest].map
        CircState.code = List.range 8 ∧
      [JointState.ready, .loaded, .breakPermit, .unloaded, .held].map JointState.code = List.range 5 ∧
      [JobState.noJob, .opened, .closing, .unfiled].map JobState.code = List.range 4 ∧
      (∀ c j t b n e : Bool,
        ({ circulation := c, joint := j, strata := t, billing := b, incident := n, store := e } : ClassFlags).bits =
          (if c then 1 else 0) + (if j then 2 else 0) + (if t then 4 else 0) + (if b then 8 else 0) +
            (if n then 16 else 0) + (if e then 32 else 0)) ∧
      ∀ data : List Byte,
        [Reply.ok data, .unknownKind, .badLength, .badArgument, .wrongState, .busy, .interlock, .notFound, .full, .overlap,
          .noJob, .jobOpen, .noRates, .clockUnset, .returnsPending data, .stringInHole, .unfiledTicket, .storeProtected,
          .storeFull].map (fun r => (r.result, r.data)) =
          (List.range 19).map fun k => (k, if k = 0 ∨ k = 14 then data else []))

/-- A free line begins the reply if one waits, else the notice that has waited longest, with its snapshot taken then; a
line that sends keeps to its frame (R202). The snapshot of each class carries the state's own fields: CIRCULATION the state,
the mask and the last loss rate (R43), JOINT the state, the rod in the arm and the string count (R105), STRATA the open
interval, F and the strike count (R126), BILLING the generation, the staging state, the last category and the running seconds
(R150, R163), INCIDENT the slot last written with its kind, the pending count and the overflow flag (R173), STORE the job state,
the operation in flight, the filing outcome and the ERASED count (R194). The widths and the absent items are log 17 and 18. -/
def Obligations.TheFreeLineBeginsTheReplyBeforeTheOldestNotice : Prop :=
  ∀ s : State,
    (∀ f, s.link.sending = some f → transmit s = s) ∧
    (s.link.sending = none →
      (∀ f, s.link.reply = some f → transmit s = { s with link.sending := some f, link.reply := none }) ∧
      (s.link.reply = none → s.link.notices = [] → transmit s = s) ∧
      ∀ c rest, s.link.reply = none → s.link.notices = c :: rest →
        transmit s =
          { s with
            link.sending := some
              { address := (ownAddress s).getD 0, kind := 0x7F, payload := oct1 c.code ++ classSnapshot c s },
            link.notices := rest }) ∧
    (let v := s.strata.intervals.getLast?.filter fun v => v.bottom.isNone
     let erased := oct1 (s.jobs.slots.countP fun k => decide (k = .erased))
     classSnapshot .circulation s =
        oct1 s.circ.state.code ++ oct1 s.circ.mask.code ++ octOptInt 2 (s.circ.lastEval.map (·.lossRate)) ∧
      classSnapshot .joint s =
        oct1 s.joint.state.code ++ octOpt 2 (s.joint.arm.map (·.rod)) ++ oct2 s.rods.string.length ∧
      classSnapshot .strata s =
        octOpt 2 (v.map fun _ => s.strata.intervals.length - 1) ++ octOpt 1 (v.map (·.cls)) ++
          octOpt 1 (v.map (·.origin.code)) ++ oct4 s.lag.frontier ++ oct1 s.strata.strikes.length ∧
      classSnapshot .billing s =
        octOpt 2 (s.price.active.map (·.generation)) ++ oct1 s.price.stage.code ++
          octOpt 1 (s.bill.last.map categoryCode) ++ oct4 s.bill.running ∧
      (∀ r, s.inc.slots[s.inc.lastWritten]? = some (some r) →
        classSnapshot .incident s =
          oct1 1 ++ oct1 s.inc.lastWritten ++ oct1 1 ++ oct1 r.kind.code ++ oct1 s.inc.order.length ++
            octFlag s.inc.overflow) ∧
      ((∀ r, s.inc.slots[s.inc.lastWritten]? ≠ some (some r)) →
        classSnapshot .incident s = [0, 0, 0, 0] ++ oct1 s.inc.order.length ++ octFlag s.inc.overflow) ∧
      classSnapshot .store s =
        oct1 s.jobs.state.code ++
          octBlock 2 (s.jobs.op.map fun o =>
            match o with
            | .write n => [0] ++ oct1 n
            | .erase n => [1] ++ oct1 n) ++
          octOpt 1 ((s.jobs.context.bind (·.filing)).map (·.code)) ++ erased)

/-- The last octet of a notice frees the line; the last octet of a reply also ends its request and hands on the held one;
that of RESTART's reply begins the warm start (R200, R202, R205; its lines log 13). -/
def Obligations.TransmitCompleteEndsTheFrameBeingSent : Prop :=
  ∀ (f : Frame) (s : State), s.power = .running → s.link.sending = some f →
    (f.kind = 0x7F → comesTo .transmitComplete s { s with link.sending := none }) ∧
    (0x80 ≤ f.kind →
      (∀ r, s.link.holding = [r] → r.form.isRestart = false →
        comesTo .transmitComplete s { s with link.sending := none, link.holding := [] }) ∧
      (∀ r held, s.link.holding = [r, held] → r.form.isRestart = false →
        comesTo .transmitComplete s
          (conclude held (takeForm held.form { s with link.sending := none, link.holding := [held] }))) ∧
      ∀ r rest, s.link.holding = r :: rest → r.form.isRestart = true →
        comesTo .transmitComplete s (warmStart (presentLines s) 0 { s with link.sending := none }))

/-- The octets of a well-formed request's frame, received while the receiver hunts, do what the request does (R198; the width
of SET CHANNEL's full scale, log 44). -/
def Obligations.AGoodFrameIsTheRequestItSpells : Prop :=
  ∀ (i : Instr) (w : Wire) (s : State), i.wellFormed = true → requestWire i = some w → s.power = .running →
    s.link.rx = [] → answers w.who s = true →
    exec (.frameReceived (requestLine w s)) s = exec i s ∧
      (s.link.holding = [] →
        exec (.frameReceived (requestLine w s)) s =
          answered i (takeRequest i (taking i s)).2 (takeRequest i (taking i s)).1)

/-- Every well-formed request is read back from its own kind and payload, every field at every value its octets hold (spec
11, Payload fields; the width of SET CHANNEL's full scale, log 44). -/
def Obligations.EveryRequestIsReadBackFromItsOctets : Prop :=
  ∀ (i : Instr) (w : Wire), i.wellFormed = true → requestWire i = some w →
    judgeForm w.who w.kind w.payload = .request i

/-- A kind outside the kind table is answered UNKNOWN_KIND, a payload of another length than its fields give LENGTH, and
neither has any other effect (R201 steps 1 and 2; the width of SET CHANNEL's full scale, log 44). -/
def Obligations.AWrongFormIsAnsweredAndChangesNothingElse : Prop :=
  (∀ (who : Addressee) (kind : Nat) (payload : List Byte) (s : State), kind < 0x80 → ready who s →
    (requestKinds.contains kind = false →
      comesTo (.unknownKind who kind payload) s
        (let r : Received := { who := who, kind := kind, form := .unknownKind }
         conclude r ({ s with link.holding := [r] }, .unknownKind))) ∧
    (judgeForm who kind payload = .badLength →
      comesTo (.unknownKind who kind payload) s
        (let r : Received := { who := who, kind := kind, form := .badLength }
         conclude r ({ s with link.holding := [r] }, .badLength)))) ∧
  ∀ (i : Instr) (w : Wire) (payload : List Byte), i.wellFormed = true → requestWire i = some w → w.kind ≠ 0x40 →
    payload.length ≠ w.payload.length → judgeForm w.who w.kind payload = .badLength

/-- A gap of more than 20 ms, a framing error, a length octet above 240 and a CRC that does not agree each discard the
frame, and while the receiver hunts an octet other than 0xC3 is discarded; nothing else changes (R198). -/
def Obligations.TheReceiverDiscardsABrokenFrame : Prop :=
  ∀ s : State, s.power = .running →
    comesTo .rxFrameTimeout s { s with link.rx := [] } ∧
    comesTo (.rxFramingError []) s { s with link.rx := [] } ∧
    (∀ octs, ∃ t, exec (.rxFramingError octs) s = .next t ∧ t.link.rx = []) ∧
    (∀ (a b c length : Byte), s.link.rx = [a, b, c] → 240 < length.toNat →
      comesTo (.rxLengthAbove240 length) s { s with link.rx := [] }) ∧
    (s.link.rx = [] →
      (∀ b : Byte, b ≠ 0xC3#8 → comesTo (.frameReceived [b]) s s) ∧
      ∀ (a k n : Byte) (rest : List Byte), n.toNat ≤ 240 → rest.length = n.toNat + 2 →
        number (rest.drop n.toNat) ≠ (crc ([a, k, n] ++ rest.take n.toNat)).toNat →
        comesTo (.frameReceived ([0xC3#8, a, k, n] ++ rest)) s s)

/-! ## The starts (spec 01 R1, spec 11 R205 and R206) -/

/-- Power with retention intact, a released reset and a RESTART whose reply has gone make a warm start, power with
retention lost a cold start; reset and the loss of the supply drop the four outputs and cut the frame being sent, and each
line keeps its level through the other's events (R1, R11, R205, R206; power applied to and reset released in a part that
already runs, and power applied under an asserted reset, log 12; the outputs at a loss of supply log 30; a group RESTART's
lines log 13). A part without its supply or in reset takes nothing else and sends nothing (R1; the store's completions are
lost too, log 11). -/
def Obligations.SupplyResetAndRestartDecideTheStart : Prop :=
  (∀ (c : Instr) (s : State), s.power ≠ .running → isPower c = false → exec c s = .next s) ∧
  ∀ (seconds : Nat) (lines : StartLines) (s : State),
    let warm := warmStart lines seconds { s with power.supply := true, flu.backupIntact := true }
    let cold := coldStart lines { s with power.supply := true }
    (s.power.resetLine = false →
      comesTo (.powerApplied true seconds lines) s warm ∧ comesTo (.powerApplied false seconds lines) s cold) ∧
    (s.power.resetLine = true →
      exec (.powerApplied true seconds lines) s = .next warm ∧
        exec (.powerApplied false seconds lines) s = .next cold) ∧
    (s.power.supply = true →
      comesTo (.resetReleased seconds lines) s
        (warmStart lines seconds { s with power := { supply := true, resetLine := false } })) ∧
    (s.power.supply = false →
      exec (.resetReleased seconds lines) s = .next { s with power.resetLine := false }) ∧
    exec .resetAsserted s =
      .next { s with power.resetLine := true, link.sending := none, flu.pumpAEnable := false,
                     flu.pumpBEnable := false, flu.makeUpPermit := false, flu.breakPermit := false } ∧
    exec .powerFails s =
      .next { s with power.supply := false, link.sending := none, flu.pumpAEnable := false,
                     flu.pumpBEnable := false, flu.makeUpPermit := false, flu.breakPermit := false } ∧
    (ready .own s → isAnswered (.restart .own) s .ok fun u => u) ∧
    (ready .group s →
      comesTo (.restart .group) s (warmStart (presentLines s) 0 (taking (.restart .group) s))) ∧
    (s.power = .running → sendingRestart s = true → comesTo (.restartWarmStart lines) s (warmStart lines 0 s))

/-- A cold start gives every block its cold values and keeps the store's slots but those an operation was cut short on, which
become TORN and are recorded in one merged TORN_TICKET on the cold table (R1, R167, R178, R196, R206 and each block's
cold-start rule; whether an ERASE had removed a marker is free, and that the lowest slot is recorded first, log 10; that STORE is set pending for a TORN slot only is log
38). -/
def Obligations.AColdStartClearsWorkingMemory : Prop :=
  ∀ (seconds : Nat) (lines : StartLines) (s : State),
    ∃ t cut, exec (.powerApplied false seconds lines) s = .next t ∧ isCut s cut ∧
      t.power = { supply := true, resetLine := s.power.resetLine } ∧ t.flu = .cold lines ∧
      t.circ = .cold ∧ t.lag = .cold ∧ t.rods = .cold ∧ t.joint = .cold ∧ t.strata = .cold ∧ t.price = .cold ∧
      t.bill = .cold ∧ t.link = .atStart ∧ t.jobs = .cold t.jobs.slots ∧
      (cut = [] → t.inc = .cold) ∧
      (∀ first rest, cut = first :: rest →
        t.inc =
          { slots :=
              some
                { kind := .tornTicket, first := 0, last := 0, hole := 0, detail1 := first, detail2 := 0,
                  repeats := min cut.length 255, pending := true } :: List.replicate 15 none,
            order := [0], lastWritten := 0, overflow := false,
            flags :=
              { circulation := false, joint := false, strata := false, billing := false, incident := true,
                store := true },
            masks := .all true }) ∧
      t.jobs.slots.length = s.jobs.slots.length ∧
      ∀ n k, s.jobs.slots[n]? = some k → t.jobs.slots[n]? = some (if n ∈ cut then .torn else k)

/-- The values the spec gives for a cold start stand at reset (R8, R16, R18, R19, R27, R40, R45, R47, R48, R61, R84, R89,
R106, R129, R132, R151, R164, R178, R196, R206). -/
def Obligations.ResetHoldsTheColdValues : Prop :=
  let s := State.reset
  (s.flu.pressure = { value := 0, fault := true, good := 0, fullScale := 25000 } ∧
    s.flu.load = { value := 0, fault := true, good := 0, fullScale := 40000 } ∧
    s.flu.height = { value := 0, fault := true, good := 0, fullScale := 1500 } ∧
    s.flu.torque = { value := 0, fault := true, good := 0, fullScale := 30000 } ∧
    s.flu.clock = 0 ∧ s.flu.clockUnset = true ∧ s.flu.dayMark = 0 ∧ s.flu.binPhase = 0 ∧
    (s.flu.pumpAEnable || s.flu.pumpBEnable || s.flu.makeUpPermit || s.flu.breakPermit) = false) ∧
  (s.circ.state = .still ∧ s.circ.mask = { a := false, b := false } ∧
    s.circ.pumpA = { displacement := 0, efficiency := 950 } ∧ s.circ.pumpB = { displacement := 0, efficiency := 950 } ∧
    s.circ.meterWeight = 1000 ∧
    s.circ.balance =
      { minVolume := 60, totalPercent := 10, partialThreshold := 40, hysteresis := 10, gainThreshold := 40 } ∧
    s.circ.limits =
      { primeVolume := 50, primeTimeout := 600, stopTimeout := 120, bleedLimit := 300, flowCheck := 20 } ∧
    s.circ.vp = 0 ∧ s.circ.vr = 0 ∧ s.circ.vl = 0 ∧ s.circ.jobLoss = 0 ∧ s.circ.window = [] ∧ s.circ.lastEval = none) ∧
  (s.lag.queue = [] ∧ s.lag.head = 0 ∧ s.lag.frontier = 0 ∧ s.lag.spanTop = 0 ∧ s.lag.spanBlind = false ∧
    s.lag.sections = List.replicate 8 { top := 1, bottom := 0, capacity := 0 } ∧
    s.lag.surface = 150 ∧ s.lag.capacity = 20000 ∧ s.lag.spacing = 50) ∧
  (s.rods.registry = [] ∧ s.rods.magazine = List.replicate 96 none ∧ s.rods.string = [] ∧ s.rods.footage = 0 ∧
    s.rods.bitDepth = 0 ∧ s.rods.holeDepth = 0 ∧ s.rods.overpullLimit = 0 ∧ s.rods.overpull = false) ∧
  (s.joint.state = .ready ∧ s.joint.arm = none ∧ s.joint.episode = none ∧ s.joint.last = none ∧ s.joint.timer = 0 ∧
    s.joint.heldRef = none ∧
    s.joint.limits = { target := 12000, tolerance := 1500, maximum := 16000, detect := 2000, timeout := 120 }) ∧
  (s.strata.intervals = [] ∧ s.strata.strikes = [] ∧ s.strata.resumeClass = 15 ∧ s.strata.drain = false ∧
    s.strata.fullSeen = false) ∧
  (s.price.active = none ∧ s.price.previous = none ∧ s.price.stage = .editing ∧ s.price.staging.valid = false ∧
    s.price.lines.length = 3 ∧ s.price.saturationSeen = false) ∧
  (s.bill.override = .off ∧ s.bill.totals = List.replicate 7 0 ∧ s.bill.residues = List.replicate 7 0 ∧
    s.bill.running = 0 ∧ s.bill.last = none) ∧
  (s.inc.slots = List.replicate 16 none ∧ s.inc.order = [] ∧ s.inc.lastWritten = 15 ∧ s.inc.overflow = false ∧
    s.inc.flags.bits = 0 ∧ s.inc.masks.bits = 63) ∧
  (s.jobs.state = .noJob ∧ s.jobs.context = none ∧ s.jobs.buffer = none ∧ s.jobs.isProtected = false ∧
    s.jobs.op = none) ∧
  s.link.rx = [] ∧ s.link.holding = [] ∧ s.link.reply = none ∧ s.link.notices = [] ∧ s.link.rxOverrun = false

/-- A warm start leaves circulation STILL with an empty mask, cleared as R46 lists and kept as R46 lists; a state other than
STILL is left through the duties of a change and recorded as POWER_RESTORED_PUMPING with that state and its mask (R29,
R46; no change from STILL, log 23; the incident after the change, log 39). -/
def Obligations.AWarmStartSettlesCirculation : Prop :=
  (∀ (c : Instr) (lines : StartLines) (seconds : Nat) (s : State), warmStarts c lines seconds s →
    ∃ t, exec c s = .next t ∧
      t.circ =
        { s.circ with
          state := .still, mask := { a := false, b := false }, window := [], openBin := { pumped := 0, returned := 0 },
          totalRun := 0, partialRun := 0, recoveryRun := 0, clearRun := 0, gainEpisode := false, primeCount := 0,
          primeTimer := 0, stopTimer := 0, bleedHolding := false, bleedCount := 0, staticCount := 0,
          staticFlag := false }) ∧
  ∀ s : State,
    let c : Circulation :=
      { s.circ with
        state := .still, mask := { a := false, b := false }, window := [], openBin := { pumped := 0, returned := 0 },
        totalRun := 0, partialRun := 0, recoveryRun := 0, clearRun := 0, gainEpisode := false, primeCount := 0,
        primeTimer := 0, stopTimer := 0, bleedHolding := false, bleedCount := 0, staticCount := 0,
        staticFlag := false }
    (s.circ.state = .still → settleCirculation s = { s with circ := c }) ∧
    (s.circ.state ≠ .still →
      settleCirculation s =
        record .powerRestoredPumping s.circ.state.code
          ((if s.circ.mask.a = true then 1 else 0) + 2 * (if s.circ.mask.b = true then 1 else 0))
          { enterCirc .still { a := false, b := false } s with circ := c })

/-- A warm start brings the joint controller to READY with the arm empty, the rod of LOADED back at its source and the rod
of UNLOADED in the yard, and keeps HELD while its slot is pending; no other rod and no other slot changes (R75, R107). The rod
of UNLOADED is recorded as ROD_ORPHANED with its status, after the change to READY (R107; the order log 35). -/
def Obligations.AWarmStartSettlesTheJoint : Prop :=
  (∀ (c : Instr) (lines : StartLines) (seconds : Nat) (s : State), warmStarts c lines seconds s → jointLawful s →
    ∃ t, exec c s = .next t ∧ t.joint.arm = none ∧ t.joint.episode = none ∧ t.joint.timer = 0 ∧
      t.joint.last = s.joint.last ∧ t.joint.limits = s.joint.limits ∧
      t.rods.string = s.rods.string ∧ t.rods.footage = s.rods.footage ∧ t.rods.bitDepth = s.rods.bitDepth ∧
      t.rods.holeDepth = s.rods.holeDepth ∧ t.rods.overpull = false ∧
      (s.joint.state = .held → heldPending s = true →
        t.joint.state = .held ∧ t.joint.heldRef = s.joint.heldRef) ∧
      (s.joint.state ≠ .held ∨ s.joint.heldRef = none → t.joint.state = .ready ∧ t.joint.heldRef = none) ∧
      (s.joint.arm = none → t.rods.registry = s.rods.registry ∧ t.rods.magazine = s.rods.magazine) ∧
      ∀ a r, s.joint.arm = some a → findRod a.rod s = some r →
        (s.joint.state = .loaded → findRod a.rod t = some { r with location := a.source.location }) ∧
        (s.joint.state = .unloaded → findRod a.rod t = some { r with location := .yard }) ∧
        (r.location = .arm →
          (s.joint.state = .loaded →
            t.rods.registry =
              s.rods.registry.map (fun q => if q.id = a.rod then { q with location := a.source.location } else q) ∧
            (∀ k, a.source = .slot k → t.rods.magazine = s.rods.magazine.modify k fun _ => some a.rod) ∧
            (a.source = .yard → t.rods.magazine = s.rods.magazine)) ∧
          (s.joint.state = .unloaded →
            t.rods.registry =
              s.rods.registry.map (fun q => if q.id = a.rod then { q with location := .yard } else q) ∧
            t.rods.magazine = s.rods.magazine))) ∧
  ∀ (a : Arm) (r : Rod) (s : State), s.joint.state = .unloaded → s.joint.arm = some a → findRod a.rod s = some r →
    settleJoint s =
      record .rodOrphaned a.rod r.status.code
        (clearArmToReady (moveRod a.rod .yard { s with joint.episode := none, joint.timer := 0 }))

/-- A warm start makes the slot of a WRITE cut short TORN and the job UNFILED with outcome INTERRUPTED, ends the operation,
and keeps the closing buffer, PROTECTED and every other slot; each slot made TORN is recorded as TORN_TICKET, and a
change in the store sets STORE pending (R187, R196, R197; whether an ERASE had removed a marker is free, and that the lowest
slot is recorded first, log 10; that STORE is set pending before the recordings, log 39). -/
def Obligations.AWarmStartSettlesTheStore : Prop :=
  (∀ (c : Instr) (lines : StartLines) (seconds : Nat) (s : State), warmStarts c lines seconds s →
    ∃ t cut, exec c s = .next t ∧ isCut s cut ∧ t.jobs.op = none ∧ t.jobs.buffer = s.jobs.buffer ∧
      t.jobs.isProtected = s.jobs.isProtected ∧
      (s.jobs.state = .closing →
        t.jobs.state = .unfiled ∧ t.jobs.context.map (·.filing) = s.jobs.context.map fun _ => some .interrupted) ∧
      (s.jobs.state ≠ .closing →
        t.jobs.state = s.jobs.state ∧ t.jobs.context.map (·.filing) = s.jobs.context.map (·.filing)) ∧
      (cut ≠ [] ∨ s.jobs.op ≠ none ∨ s.jobs.state = .closing → t.inc.flags.store = true) ∧
      ∀ n k, s.jobs.slots[n]? = some k → t.jobs.slots[n]? = some (if n ∈ cut then .torn else k)) ∧
  ∀ s : State, ∃ cut u, isCut s cut ∧
    u = { s with jobs.slots := u.jobs.slots, jobs.op := none, free := s.free + 1 } ∧
    u.jobs.slots.length = s.jobs.slots.length ∧
    (∀ n k, s.jobs.slots[n]? = some k → u.jobs.slots[n]? = some (if n ∈ cut then .torn else k)) ∧
    scanStore s =
      cut.foldl (fun t n => record .tornTicket n 0 t)
        (if cut ≠ [] ∨ s.jobs.op.isSome = true then notify .store u else u)

/-- A warm start reads the straps, sets each FAULT, keeps values, full scales and the clock with the seconds that passed,
returns the bin phase to 0, empties the receiver and the holding place and drops the outputs; midnights that passed while the
clock was set move the day mark and set BILLING pending (R2, R8, R10, R12, R15, R16, R165, R206). It keeps the section table
and the geometry, every reading of the rods, the masks, the set flags and a set overflow flag; where no span is closed and no
swap follows, the lag tracker, the strata log and the pricing unit whole; and where nothing is recorded, the incident slots
(R61, R85, R129, R151, R179). Its parts come in the order of log 9. -/
def Obligations.AWarmStartKeepsTheFieldLineMemory : Prop :=
  (∀ (c : Instr) (lines : StartLines) (seconds : Nat) (s : State), warmStarts c lines seconds s →
    ∃ t, exec c s = .next t ∧ t.power = startPower c s ∧ t.flu.lastStart = .warm ∧ t.flu.straps = lines.straps ∧
      t.flu.pressure = { s.flu.pressure with fault := true, good := 0 } ∧
      t.flu.load = { s.flu.load with fault := true, good := 0 } ∧
      t.flu.height = { s.flu.height with fault := true, good := 0 } ∧
      t.flu.torque = { s.flu.torque with fault := true, good := 0 } ∧
      t.flu.clock = min (s.flu.clock + seconds) 4294967295 ∧ t.flu.clockUnset = s.flu.clockUnset ∧
      t.flu.binPhase = 0 ∧ t.flu.reader = [] ∧ t.link.rx = [] ∧ t.link.holding = [] ∧ t.link.rxOverrun = false ∧
      t.bill = { s.bill with drillTimer := 0, tripTimer := 0 } ∧
      (t.flu.pumpAEnable = false ∧ t.flu.pumpBEnable = false ∧ t.flu.makeUpPermit = false ∧
        t.flu.breakPermit = false) ∧
      (if s.flu.clockUnset = false ∧ s.flu.dayMark < min (s.flu.clock + seconds) 4294967295 / 86400 then
        t.flu.dayMark = min (s.flu.clock + seconds) 4294967295 / 86400 ∧ t.inc.flags.billing = true
      else t.flu.dayMark = s.flu.dayMark) ∧
      (t.lag.sections = s.lag.sections ∧ t.lag.surface = s.lag.surface ∧ t.lag.capacity = s.lag.capacity ∧
        t.lag.spacing = s.lag.spacing) ∧
      t.rods = { s.rods with registry := t.rods.registry, magazine := t.rods.magazine, overpull := false } ∧
      (t.inc.masks = s.inc.masks ∧ (s.inc.overflow = true → t.inc.overflow = true) ∧
        ∀ n : NoticeClass, s.inc.flags.get n = true → t.inc.flags.get n = true) ∧
      (s.price.stage ≠ .armed .nextDay → s.circ.state ≠ .totalLoss ∨ s.jobs.state ≠ .opened →
        t.lag = s.lag ∧ t.strata = s.strata ∧ t.price = s.price) ∧
      (s.price.stage ≠ .armed .nextDay → s.circ.state = .still → s.joint.state ≠ .unloaded →
        (∀ n k, s.jobs.slots[n]? = some k → k ≠ .writing ∧ s.jobs.op ≠ some (.erase n)) →
        t.inc.slots = s.inc.slots ∧ t.inc.order = s.inc.order ∧ t.inc.lastWritten = s.inc.lastWritten ∧
          t.inc.overflow = s.inc.overflow)) ∧
  ∀ (lines : StartLines) (seconds : Nat) (s : State),
    let u := settleCirculation (scanStore { s with link := .atStart, flu := s.flu.warmed lines seconds })
    let v := settleJoint { u with rods.overpull := false }
    warmStart lines seconds s =
      startDayBoundary (settleJob { v with bill.drillTimer := 0, bill.tripTimer := 0 })

/-! ## Field lines (spec 01) -/

/-- SET CHANNEL (R7): a channel number outside 0..3 or a full scale outside the channel's range is refused; otherwise the
full scale alone changes. -/
def Obligations.SetChannelChangesTheFullScaleAlone : Prop :=
  ∀ (who : Addressee) (channel fs : Nat) (s : State), ready who s →
    (3 < channel → isRefused (.setChannel who channel fs) s .badArgument) ∧
    (channel = 0 →
      (1000 ≤ fs ∧ fs ≤ 60000 →
        isAnswered (.setChannel who channel fs) s .ok fun u => { u with flu.pressure.fullScale := fs }) ∧
      (fs < 1000 ∨ 60000 < fs → isRefused (.setChannel who channel fs) s .badArgument)) ∧
    (channel = 1 →
      (1000 ≤ fs ∧ fs ≤ 100000 →
        isAnswered (.setChannel who channel fs) s .ok fun u => { u with flu.load.fullScale := fs }) ∧
      (fs < 1000 ∨ 100000 < fs → isRefused (.setChannel who channel fs) s .badArgument)) ∧
    (channel = 2 →
      (200 ≤ fs ∧ fs ≤ 3000 →
        isAnswered (.setChannel who channel fs) s .ok fun u => { u with flu.height.fullScale := fs }) ∧
      (fs < 200 ∨ 3000 < fs → isRefused (.setChannel who channel fs) s .badArgument)) ∧
    (channel = 3 →
      (1000 ≤ fs ∧ fs ≤ 100000 →
        isAnswered (.setChannel who channel fs) s .ok fun u => { u with flu.torque.fullScale := fs }) ∧
      (fs < 1000 ∨ 100000 < fs → isRefused (.setChannel who channel fs) s .badArgument))

/-- SET CLOCK delivers one day boundary where the clock was set and the new day is later, then sets the clock, the day mark
and CLOCK_UNSET (R14); READ FIELD LINES answers the field lines and changes nothing: the four channels in order, the four
outputs, the straps with the address and line rate they give, the monitor's report, the kind of the last start and the clock
(R2, R17; the widths, and 0 for retention intact, log 17). -/
def Obligations.ClockAndFieldLineRequests : Prop :=
  ∀ (who : Addressee) (time : Nat) (s : State), ready who s →
    (time ≤ 4294967295 → s.flu.clockUnset = true ∨ time / 86400 ≤ s.flu.dayMark →
      isAnswered (.setClock who time) s .ok fun u =>
        { u with flu.clock := time, flu.dayMark := time / 86400, flu.clockUnset := false }) ∧
    (time ≤ 4294967295 → s.flu.clockUnset = false → s.flu.dayMark < time / 86400 →
      isAnswered (.setClock who time) s .ok fun u =>
        let v := dayBoundary u
        { v with flu.clock := time, flu.dayMark := time / 86400, flu.clockUnset := false }) ∧
    (4294967295 < time → isRefused (.setClock who time) s .badArgument) ∧
    (let channel (width : Nat) (c : ChannelState) : List Byte :=
       octets width c.value ++ octFlag c.fault ++ oct1 c.good ++ octets width c.fullScale
     let straps := s.flu.straps.val
     let data : List Byte :=
       channel 2 s.flu.pressure ++ channel 4 s.flu.load ++ channel 2 s.flu.height ++ channel 4 s.flu.torque ++
         octFlag s.flu.pumpAEnable ++ octFlag s.flu.pumpBEnable ++ octFlag s.flu.makeUpPermit ++
         octFlag s.flu.breakPermit ++ oct1 straps ++ oct1 (if straps = 31 then 0 else straps) ++
         oct4 (if straps ≤ 10 then 19200 else if straps ≤ 20 then 57600 else 115200) ++ octFlag (!s.flu.backupIntact) ++
         oct1 (if s.flu.lastStart = .cold then 0 else 1) ++ oct4 s.flu.clock ++ octFlag s.flu.clockUnset
     isAnswered (.readFieldLines who) s (.ok data) fun u => u)

/-- A sample's effect on its channel (R3 to R6): an in-band sample scales, clamps and counts toward the restore; an
out-of-band sample faults and, on an unfaulted channel, records CHANNEL_FAULT; the consumers take it as the channel then
stands. A pressure sample moves the bleed hold in STOPPING and ends a BREAK_PERMIT unless good and bled (R36, R100); a load
sample takes the overpull flag (R81); a height sample in READY recomputes the bit depth, and a depth beyond the hole raises
it, its footage, the lag tracker and the drilling timer (R74, R77 to R79, R156); a torque sample begins, raises, keeps or ends
an episode (R92). That CHANNEL_FAULT and COUNTER_SATURATED are recorded before what follows them is log 43, that circulation
takes a pressure sample before the joint controller log 33. -/
def Obligations.ASampleScalesRestoresOrFaultsItsChannel : Prop :=
  (∀ (ch : Channel) (current : Nat) (s : State), s.power = .running →
    let c := channelState ch s
    let scaled :=
      if current < 4000 then 0 else if 20000 < current then c.fullScale else (current - 4000) * c.fullScale / 16000
    let good := min (c.good + 1) 5
    (3600 ≤ current ∧ current ≤ 21000 →
      (c.fault = false ∨ 5 ≤ good →
        comesTo (.analogSample ch current) s
          (deliverSample ch (some scaled)
            (setChannelState ch { c with value := scaled, fault := false, good := good } s))) ∧
      (c.fault = true → good < 5 →
        comesTo (.analogSample ch current) s (deliverSample ch none (setChannelState ch { c with good := good } s)))) ∧
    (current < 3600 ∨ 21000 < current →
      (c.fault = true →
        comesTo (.analogSample ch current) s (deliverSample ch none (setChannelState ch { c with good := 0 } s))) ∧
      (c.fault = false →
        comesTo (.analogSample ch current) s
          (deliverSample ch none
            (record .channelFault (channelCode ch) current
              (setChannelState ch { c with fault := true, good := 0 } s)))))) ∧
  (∀ (good : Option Nat) (s : State),
    let low := good.any fun v => decide (v ≤ s.circ.limits.bleedLimit)
    let u : State :=
      if s.circ.state = .stopping then
        if low = true then
          if s.circ.bleedHolding = true then s else { s with circ.bleedHolding := true, circ.bleedCount := 0 }
        else { s with circ.bleedHolding := false, circ.bleedCount := 0 }
      else s
    (s.joint.state = .breakPermit → low = false → deliverSample .pressure good s = endBreakPermit u) ∧
    (s.joint.state ≠ .breakPermit ∨ low = true → deliverSample .pressure good s = u)) ∧
  (∀ (v : Nat) (s : State),
    let watched := s.joint.state = .ready ∧ s.rods.overpullLimit ≠ 0
    deliverSample .load none s = s ∧
    (watched → s.rods.overpullLimit < v →
      (s.rods.overpull = true → deliverSample .load (some v) s = s) ∧
      (s.rods.overpull = false →
        deliverSample .load (some v) s =
          record .overpull v s.rods.overpullLimit { s with rods.overpull := true })) ∧
    (¬ watched ∨ v ≤ s.rods.overpullLimit →
      deliverSample .load (some v) s = { s with rods.overpull := false })) ∧
  (∀ (v : Nat) (s : State),
    let sum : Int := (s.rods.bhaLength : Int) + s.rods.stringLength - v - s.rods.headOffset
    let depth := if sum < 0 then 0 else if 200000 < sum then 200000 else sum.toNat
    let u : State :=
      { s with rods.unclamped := sum, rods.bitDepth := depth, rods.depthClamp := decide (sum < 0 ∨ 200000 < sum) }
    let footage := min (s.rods.footage + (depth - s.rods.holeDepth)) 4000000000
    let w : State := { u with rods.holeDepth := depth, rods.footage := footage }
    let x := if s.rods.footage < 4000000000 ∧ footage = 4000000000 then record .counterSaturated 4 0 w else w
    deliverSample .height none s = s ∧
    (s.joint.state ≠ .ready → deliverSample .height (some v) s = s) ∧
    (s.joint.state = .ready →
      (depth ≤ s.rods.holeDepth → deliverSample .height (some v) s = u) ∧
      (s.rods.holeDepth < depth →
        (s.jobs.state ≠ .opened → deliverSample .height (some v) s = x) ∧
        (s.jobs.state = .opened →
          deliverSample .height (some v) s = { lagAdvance depth x with bill.drillTimer := 60 })))) ∧
  ∀ (v : Nat) (s : State),
    let threshold := s.joint.limits.target / 10
    deliverSample .torque none s = s ∧
    (s.joint.episode = none →
      (threshold < v →
        deliverSample .torque (some v) s =
          { s with joint.episode := some { peak := v, permitLow := !s.flu.makeUpPermit } }) ∧
      (v ≤ threshold → deliverSample .torque (some v) s = s)) ∧
    ∀ e, s.joint.episode = some e →
      (threshold < v →
        deliverSample .torque (some v) s = { s with joint.episode := some { e with peak := max e.peak v } }) ∧
      (v = threshold → deliverSample .torque (some v) s = s) ∧
      (v < threshold → deliverSample .torque (some v) s = endEpisode e s)

/-- A pulse on a quiet low line is accepted once its width reaches 2 ms, and leaves no trace where 2 ms of low ends it
sooner (R9). An accepted pulse is counted into its volume with every fraction kept, until the counter saturates; strokes outside
the lag-carrying states leave the lag clock where it stands (R21, R22). A stroke on a low enable is recorded (R23; before it is
counted, log 21), and each litre carried is taken in turn: it joins Vp or Vr and the open bin; a pumped litre of a
lag-carrying state joins Vl and is one advance of the lag clock, also at its limit (log 22); a returned litre counts toward the
prime volume in PRIMING and toward the flow check in STILL and STOPPED (R20, R21, R22, R24, R31, R42; a saturation is recorded
before the litre's next step, log 43). -/
def Obligations.AcceptedPulsesKeepEveryFraction : Prop :=
  (∀ (input : PulseInput) (micros low : Nat) (s : State), s.power = .running →
    pulseLine input s =
      { high := false, inPulse := false, width := 0, lowTime := low, counted := false, waitLow := false } →
    2000 ≤ low →
    (2000 ≤ micros →
      comesTo (.pulseAccepted input [{ high := true, micros := micros }]) s
        (acceptPulse input
          (setPulseLine input
            { high := true, inPulse := true, width := micros, lowTime := 0, counted := true, waitLow := false } s))) ∧
    (micros < 2000 →
      comesTo (.pulseAccepted input [{ high := true, micros := micros }, { high := false, micros := low }]) s s)) ∧
  (∀ (input : PulseInput) (micros : Nat) (s : State), s.power = .running → input ≠ .r → 2000 ≤ micros →
    pulseLine input s =
      { high := false, inPulse := false, width := 0, lowTime := 2000, counted := false, waitLow := false } →
    ∃ t, exec (.pulseAccepted input [{ high := true, micros := micros }]) s = .next t ∧
      t.circ.state = s.circ.state ∧ t.circ.vr = s.circ.vr ∧
      (let p := if input = .a then s.circ.pumpA else s.circ.pumpB
       s.circ.vp + (s.circ.pumpedResidue + p.displacement * p.efficiency) / 1000000 ≤ 4000000000 →
        t.circ.pumpedResidue < 1000000 ∧
        t.circ.vp * 1000000 + t.circ.pumpedResidue =
          s.circ.vp * 1000000 + s.circ.pumpedResidue + p.displacement * p.efficiency) ∧
      (s.circ.state.lagCarrying = false → t.circ.vl = s.circ.vl ∧ t.lag = s.lag)) ∧
  (∀ (micros : Nat) (s : State), s.power = .running → 2000 ≤ micros →
    pulseLine .r s =
      { high := false, inPulse := false, width := 0, lowTime := 2000, counted := false, waitLow := false } →
    ∃ t, exec (.pulseAccepted .r [{ high := true, micros := micros }]) s = .next t ∧
      t.circ.vp = s.circ.vp ∧ t.circ.vl = s.circ.vl ∧
      (s.circ.vr + (s.circ.returnResidue + s.circ.meterWeight * 1000) / 1000000 ≤ 4000000000 →
        t.circ.returnResidue < 1000000 ∧
        t.circ.vr * 1000000 + t.circ.returnResidue =
          s.circ.vr * 1000000 + s.circ.returnResidue + s.circ.meterWeight * 1000)) ∧
  (∀ s : State,
    let counted (p : PumpConfig) (u : State) : State :=
      let sum := s.circ.pumpedResidue + p.displacement * p.efficiency
      pumpedLitre^[sum / 1000000] { u with circ.pumpedResidue := sum % 1000000 }
    acceptPulse .a s =
      counted s.circ.pumpA
        (if s.flu.pumpAEnable = true then s else record .strokeWithoutEnable 0 s.circ.state.code s) ∧
    acceptPulse .b s =
      counted s.circ.pumpB
        (if s.flu.pumpBEnable = true then s else record .strokeWithoutEnable 1 s.circ.state.code s) ∧
    (let sum := s.circ.returnResidue + s.circ.meterWeight * 1000
     acceptPulse .r s = returnedLitre^[sum / 1000000] { s with circ.returnResidue := sum % 1000000 })) ∧
  (∀ s : State,
    let vp := min (s.circ.vp + 1) 4000000000
    let u : State := { s with circ.vp := vp }
    let v := if s.circ.vp < 4000000000 ∧ vp = 4000000000 then record .counterSaturated 0 0 u else u
    let w : State :=
      if s.circ.state.pumping = true then { v with circ.openBin.pumped := min (s.circ.openBin.pumped + 1) 65535 }
      else v
    let vl := min (s.circ.vl + 1) 4000000000
    let x : State := { w with circ.vl := vl }
    let y := if s.circ.vl < 4000000000 ∧ vl = 4000000000 then record .counterSaturated 2 0 x else x
    (s.circ.state.lagCarrying = true → pumpedLitre s = lagClockAdvance y) ∧
    (s.circ.state.lagCarrying = false → pumpedLitre s = w)) ∧
  ∀ s : State,
    let vr := min (s.circ.vr + 1) 4000000000
    let u : State := { s with circ.vr := vr }
    let v := if s.circ.vr < 4000000000 ∧ vr = 4000000000 then record .counterSaturated 1 0 u else u
    let w : State :=
      if s.circ.state.pumping = true then { v with circ.openBin.returned := min (s.circ.openBin.returned + 1) 65535 }
      else v
    (s.circ.state = .priming →
      let x : State := { w with circ.primeCount := s.circ.primeCount + 1 }
      (s.circ.primeCount + 1 < s.circ.limits.primeVolume → returnedLitre s = x) ∧
      (s.circ.limits.primeVolume ≤ s.circ.primeCount + 1 →
        returnedLitre s = enterCirc .circulating s.circ.mask x)) ∧
    (s.circ.state = .still ∨ s.circ.state = .stopped →
      let n := min (s.circ.staticCount + 1) 4000000000
      let x : State := { w with circ.staticCount := n }
      (n < s.circ.limits.flowCheck ∨ s.circ.staticFlag = true → returnedLitre s = x) ∧
      (s.circ.limits.flowCheck ≤ n → s.circ.staticFlag = false →
        ∃ y, y = record .flowWhileStill n s.circ.state.code x ∧
          returnedLitre s = { y with circ.staticFlag := true })) ∧
    (s.circ.state ≠ .priming → s.circ.state ≠ .still → s.circ.state ≠ .stopped → returnedLitre s = w)

/-- A sound reader frame is one tag read; a frame with a framing error, a wrong check character, a wrong last character or
rod id 0 delivers none; a gap of more than 50 ms discards the characters so far (R10; that a frame is judged, and consumed whole, at its fifth character is log 14).
-/
def Obligations.AReaderFrameIsOneTagRead : Prop :=
  ∀ s : State, s.power = .running →
    comesTo .tagFrameTimeout s { s with flu.reader := [] } ∧
    ∀ stx hi lo check etx : ReaderChar, s.flu.reader = [] → stx.octet = 0x02#8 →
      let sound := check.octet = hi.octet ^^^ lo.octet ∧ etx.octet = 0x03#8 ∧
        (stx.framingError || hi.framingError || lo.framingError || check.framingError || etx.framingError) = false ∧
        hi.octet.toNat * 256 + lo.octet.toNat ≠ 0
      (sound →
        comesTo (.tagRead [stx, hi, lo, check, etx]) s (readTag (hi.octet.toNat * 256 + lo.octet.toNat) s)) ∧
      (¬ sound → comesTo (.tagRead [stx, hi, lo, check, etx]) s s)

/-- A second tick moves the clock and the bin phase; a new day moves the day mark, and while the clock is set sets BILLING
pending (R12, R13, R15, R161). -/
def Obligations.ASecondTickMovesTheClockAndTheBinPhase : Prop :=
  ∀ s : State, s.power = .running →
    ∃ t, exec .secondTick s = .next t ∧ t.flu.clock = min (s.flu.clock + 1) 4294967295 ∧
      t.flu.clockUnset = s.flu.clockUnset ∧
      t.flu.binPhase = (if s.flu.binPhase = 4 then 0 else s.flu.binPhase + 1) ∧
      (if s.flu.dayMark < min (s.flu.clock + 1) 4294967295 / 86400 then
        t.flu.dayMark = min (s.flu.clock + 1) 4294967295 / 86400 ∧
          (s.flu.clockUnset = false → t.inc.flags.billing = true)
      else t.flu.dayMark = s.flu.dayMark)

/-! ## Circulation (spec 02) -/

/-- SET PUMP, SET FLOW BALANCE, SET RETURN METER and SET CIRCULATION LIMITS replace their settings whole or not at all (R18,
R19, R27, R40, R100). -/
def Obligations.CirculationSettingsAreReplacedWholeOrNotAtAll : Prop :=
  ∀ (who : Addressee) (s : State), ready who s →
    (∀ pump displacement efficiency,
      let good := pump ≤ 1 ∧ (displacement = 0 ∨ 500 ≤ displacement ∧ displacement ≤ 30000) ∧
        500 ≤ efficiency ∧ efficiency ≤ 1000
      (¬ good → isRefused (.setPump who pump displacement efficiency) s .badArgument) ∧
      (good → pump = 0 →
        (s.flu.pumpAEnable = true → isRefused (.setPump who pump displacement efficiency) s .wrongState) ∧
        (s.flu.pumpAEnable = false →
          isAnswered (.setPump who pump displacement efficiency) s .ok fun u =>
            { u with circ.pumpA := { displacement := displacement, efficiency := efficiency } })) ∧
      (good → pump = 1 →
        (s.flu.pumpBEnable = true → isRefused (.setPump who pump displacement efficiency) s .wrongState) ∧
        (s.flu.pumpBEnable = false →
          isAnswered (.setPump who pump displacement efficiency) s .ok fun u =>
            { u with circ.pumpB := { displacement := displacement, efficiency := efficiency } }))) ∧
    (∀ weight,
      (10 ≤ weight ∧ weight ≤ 10000 →
        isAnswered (.setReturnMeter who weight) s .ok fun u => { u with circ.meterWeight := weight }) ∧
      (weight < 10 ∨ 10000 < weight → isRefused (.setReturnMeter who weight) s .badArgument)) ∧
    (∀ minVolume totalPercent partialThreshold hysteresis gainThreshold,
      let good := (10 ≤ minVolume ∧ minVolume ≤ 10000) ∧ (1 ≤ totalPercent ∧ totalPercent ≤ 50) ∧
        (5 ≤ partialThreshold ∧ partialThreshold ≤ 2000) ∧ hysteresis ≤ 1000 ∧
        (5 ≤ gainThreshold ∧ gainThreshold ≤ 2000) ∧ hysteresis < partialThreshold ∧ hysteresis < gainThreshold
      (good →
        isAnswered (.setFlowBalance who minVolume totalPercent partialThreshold hysteresis gainThreshold) s .ok
          fun u =>
            { u with
              circ.balance :=
                { minVolume := minVolume, totalPercent := totalPercent, partialThreshold := partialThreshold,
                  hysteresis := hysteresis, gainThreshold := gainThreshold } }) ∧
      (¬ good →
        isRefused (.setFlowBalance who minVolume totalPercent partialThreshold hysteresis gainThreshold) s
          .badArgument)) ∧
    ∀ primeVolume primeTime stopTime bleedLimit flowCheck,
      let good := (10 ≤ primeVolume ∧ primeVolume ≤ 5000) ∧ (30 ≤ primeTime ∧ primeTime ≤ 1800) ∧
        (30 ≤ stopTime ∧ stopTime ≤ 600) ∧ (50 ≤ bleedLimit ∧ bleedLimit ≤ 5000) ∧ 5 ≤ flowCheck ∧ flowCheck ≤ 5000
      (good →
        isAnswered (.setCirculationLimits who primeVolume primeTime stopTime bleedLimit flowCheck) s .ok fun u =>
          let v : State :=
            { u with
              circ.limits :=
                { primeVolume := primeVolume, primeTimeout := primeTime, stopTimeout := stopTime,
                  bleedLimit := bleedLimit, flowCheck := flowCheck } }
          if s.joint.state = .breakPermit ∧ bleedLimit < s.flu.pressure.value then endBreakPermit v else v) ∧
      (¬ good →
        isRefused (.setCirculationLimits who primeVolume primeTime stopTime bleedLimit flowCheck) s .badArgument)

/-- START CIRCULATION and PUMP TEST: their refusals in order, and what the state, mask, counters and enables become (R28,
R30, R39). -/
def Obligations.StartAndPumpTestRunTheNamedPumps : Prop :=
  ∀ (who : Addressee) (s : State), ready who s →
    (∀ mask : Nat,
      let good := (mask = 1 ∨ mask = 2 ∨ mask = 3) ∧ (mask.testBit 0 = true → s.circ.pumpA.displacement ≠ 0) ∧
        (mask.testBit 1 = true → s.circ.pumpB.displacement ≠ 0)
      (¬ good → isRefused (.startCirculation who mask) s .badArgument) ∧
      (good → s.circ.state ≠ .still → isRefused (.startCirculation who mask) s .wrongState) ∧
      (good → s.circ.state = .still → s.joint.state ≠ .ready →
        isRefused (.startCirculation who mask) s .interlock) ∧
      (good → s.circ.state = .still → s.joint.state = .ready →
        ∃ u, exec (.startCirculation who mask) s = answered (.startCirculation who mask) .ok u ∧
          u.circ.state = .priming ∧ u.circ.mask = { a := mask.testBit 0, b := mask.testBit 1 } ∧
          u.circ.primeCount = 0 ∧ u.circ.primeTimer = 0 ∧ u.circ.window = [] ∧
          u.flu.pumpAEnable = mask.testBit 0 ∧ u.flu.pumpBEnable = mask.testBit 1 ∧ u.circ.vp = s.circ.vp ∧
          u.circ.vr = s.circ.vr ∧ u.circ.vl = s.circ.vl ∧ u.lag = s.lag ∧ u.rods = s.rods ∧ u.strata = s.strata ∧
          u.price = s.price ∧ u.bill = s.bill ∧ u.jobs = s.jobs)) ∧
    ∀ pump : Nat,
      let good := (pump = 0 ∧ s.circ.pumpA.displacement ≠ 0) ∨ (pump = 1 ∧ s.circ.pumpB.displacement ≠ 0)
      (¬ good → isRefused (.pumpTest who pump) s .badArgument) ∧
      (good → s.circ.state = .pumpTest → isRefused (.pumpTest who pump) s .wrongState) ∧
      (good → s.circ.state ≠ .pumpTest → s.joint.state ≠ .ready → isRefused (.pumpTest who pump) s .interlock) ∧
      (good → s.circ.state ≠ .pumpTest → s.joint.state = .ready →
        ∃ u, exec (.pumpTest who pump) s = answered (.pumpTest who pump) .ok u ∧ u.circ.state = .pumpTest ∧
          u.circ.mask = { a := decide (pump = 0), b := decide (pump = 1) } ∧ u.circ.window = s.circ.window ∧
          u.circ.bleedHolding = false ∧ u.flu.pumpAEnable = decide (pump = 0) ∧
          u.flu.pumpBEnable = decide (pump = 1) ∧ u.circ.vp = s.circ.vp ∧ u.circ.vr = s.circ.vr ∧
          u.circ.vl = s.circ.vl ∧ u.rods = s.rods ∧ u.bill = s.bill)

/-- STOP CIRCULATION in a pumping state becomes STOPPING with an empty mask, both enables low, the stop timer 0 and the bleed
hold not holding with count 0; elsewhere it is refused. CONFIRM STOP leaves STOPPED for STILL and is refused elsewhere (R35,
R37). -/
def Obligations.StopAndConfirmStop : Prop :=
  ∀ (who : Addressee) (s : State), ready who s →
    (s.circ.state.pumping = true →
      ∃ u, exec (.stopCirculation who) s = answered (.stopCirculation who) .ok u ∧ u.circ.state = .stopping ∧
        u.circ.mask = { a := false, b := false } ∧ u.flu.pumpAEnable = false ∧ u.flu.pumpBEnable = false ∧
        u.circ.stopTimer = 0 ∧ u.circ.bleedHolding = false ∧ u.circ.bleedCount = 0 ∧ u.circ.window = [] ∧
        u.circ.vp = s.circ.vp ∧ u.circ.vr = s.circ.vr ∧ u.circ.vl = s.circ.vl ∧ u.rods = s.rods ∧ u.bill = s.bill) ∧
    (s.circ.state = .still ∨ s.circ.state = .stopping ∨ s.circ.state = .stopped →
      isRefused (.stopCirculation who) s .wrongState) ∧
    (s.circ.state = .stopped →
      ∃ u, exec (.confirmStop who) s = answered (.confirmStop who) .ok u ∧ u.circ.state = .still ∧
        u.circ.staticCount = 0 ∧ u.circ.staticFlag = false ∧ u.lag = s.lag ∧ u.rods = s.rods ∧ u.price = s.price ∧
        u.strata = s.strata ∧ u.bill = s.bill ∧ u.jobs = s.jobs) ∧
    (s.circ.state ≠ .stopped → isRefused (.confirmStop who) s .wrongState)

/-- RESET CIRCULATION makes the state STILL at once from every state, with the mask empty, the enables low, the prime, stop
and bleed counters 0 and the window cleared; where the pressure is not bled it records RESET_UNDER_PRESSURE (R38, R40; after the
change, log 39). -/
def Obligations.ResetCirculationStopsAtOnce : Prop :=
  ∀ (who : Addressee) (s : State), ready who s →
    ∃ v u, exec (.resetCirculation who) s = answered (.resetCirculation who) .ok u ∧
      v = enterCirc .still { a := false, b := false }
        { taking (.resetCirculation who) s with
          circ.primeCount := 0, circ.primeTimer := 0, circ.stopTimer := 0, circ.bleedHolding := false,
          circ.bleedCount := 0 } ∧
      u = (if s.flu.pressure.fault = true ∨ s.circ.limits.bleedLimit < s.flu.pressure.value then
          record .resetUnderPressure s.flu.pressure.value s.circ.state.code v else v) ∧
      u.circ.state = .still ∧ u.circ.mask = { a := false, b := false } ∧ u.flu.pumpAEnable = false ∧
      u.flu.pumpBEnable = false ∧ u.circ.window = [] ∧ u.circ.openBin = { pumped := 0, returned := 0 } ∧
      u.circ.staticCount = 0 ∧ u.circ.vp = s.circ.vp ∧ u.circ.vl = s.circ.vl

/-- Every change of circulation state zeroes the four runs, clears the window but on entering PARTIAL_LOSS or PUMP_TEST,
commands the enables, sets CIRCULATION pending, clears the gain flag on leaving the evaluating states, begins a new stay in
STILL and STOPPED, and commands the permits (R24, R28, R29, R42, R87). A change into or out of TOTAL_LOSS is handed to the lag
tracker with the state already changed: while a job is OPEN the span with length is laid as a mark of its own blind flag and
reopened under the new state, and one of zero length takes the new state's flag alone; outside a job nothing is done (R29, R54;
that CIRCULATION is set pending before the hand-off and the permits come after it, log 40). A permit command with the make-up
permit low sets the permit-low flag of an episode in progress (R92). -/
def Obligations.AChangeOfCirculationStateDoesItsDuties : Prop :=
  (∀ (new : CircState) (mask : PumpMask) (s : State),
    let c : Circulation :=
      { s.circ with
        state := new, mask := mask, totalRun := 0, partialRun := 0, recoveryRun := 0, clearRun := 0,
        window := if new = .partialLoss ∨ new = .pumpTest then s.circ.window else [],
        openBin := if new = .partialLoss ∨ new = .pumpTest then s.circ.openBin else { pumped := 0, returned := 0 },
        gainEpisode := s.circ.gainEpisode && !(s.circ.state.evaluating && !new.evaluating),
        staticCount := if new = .still ∨ new = .stopped then 0 else s.circ.staticCount,
        staticFlag := if new = .still ∨ new = .stopped then false else s.circ.staticFlag }
    let v := notify .circulation
      { s with circ := c, flu.pumpAEnable := new.pumping && mask.a, flu.pumpBEnable := new.pumping && mask.b }
    ((s.circ.state = .totalLoss ↔ new = .totalLoss) → enterCirc new mask s = commandPermits v) ∧
    (¬ (s.circ.state = .totalLoss ↔ new = .totalLoss) →
      enterCirc new mask s = commandPermits (totalLossChange v))) ∧
  (∀ s : State,
    let blind := decide (s.circ.state = .totalLoss)
    let laid := layMark s.rods.holeDepth s
    (s.jobs.state ≠ .opened → totalLossChange s = s) ∧
    (s.jobs.state = .opened →
      (s.rods.holeDepth ≤ s.lag.spanTop → totalLossChange s = { s with lag.spanBlind := blind }) ∧
      (s.lag.spanTop < s.rods.holeDepth →
        (s.lag.queue.length < 256 → totalLossChange s = laid) ∧
        (256 ≤ s.lag.queue.length → totalLossChange s = swapCheck laid) ∧
        laid.lag.spanTop = s.rods.holeDepth ∧ laid.lag.spanSeconds = 0 ∧ laid.lag.spanLoss = 0 ∧
        laid.lag.spanBlind = blind ∧
        ∃ waiting m, laid.lag.queue = waiting ++ [m] ∧ m.top = s.lag.spanTop ∧ m.bottom = s.rods.holeDepth ∧
          m.blind = s.lag.spanBlind ∧ m.seconds = s.lag.spanSeconds ∧ m.loss = s.lag.spanLoss ∧
          waiting = (if s.lag.queue.length < 256 then s.lag.queue else s.lag.queue.drop 1)))) ∧
  (∀ s : State,
    let high := decide (s.joint.state = .loaded) && decide (s.circ.state = .still ∨ s.circ.state = .stopped)
    commandPermits s =
      { s with
        flu.makeUpPermit := high, flu.breakPermit := decide (s.joint.state = .breakPermit),
        joint.episode :=
          s.joint.episode.map fun e => { e with permitLow := if high = true then e.permitLow else true } }) ∧
  ∀ (new : CircState) (mask : PumpMask) (s : State),
    let u := enterCirc new mask s
    u.circ.state = new ∧ u.circ.mask = mask ∧ u.circ.totalRun = 0 ∧ u.circ.partialRun = 0 ∧
      u.circ.recoveryRun = 0 ∧ u.circ.clearRun = 0 ∧
      u.circ.window = (if new = .partialLoss ∨ new = .pumpTest then s.circ.window else []) ∧
      u.circ.openBin =
        (if new = .partialLoss ∨ new = .pumpTest then s.circ.openBin else { pumped := 0, returned := 0 }) ∧
      u.flu.pumpAEnable = (new.pumping && mask.a) ∧ u.flu.pumpBEnable = (new.pumping && mask.b) ∧
      u.inc.flags.circulation = true ∧
      u.circ.gainEpisode =
        (s.circ.gainEpisode && !(s.circ.state.evaluating && !new.evaluating)) ∧
      (new = .still ∨ new = .stopped → u.circ.staticCount = 0 ∧ u.circ.staticFlag = false) ∧
      u.flu.makeUpPermit = (decide (s.joint.state = .loaded) && decide (new = .still ∨ new = .stopped)) ∧
      u.circ.vp = s.circ.vp ∧ u.circ.vr = s.circ.vr ∧ u.circ.vl = s.circ.vl ∧ u.circ.lastEval = s.circ.lastEval ∧
      ((s.circ.state = .totalLoss ↔ new = .totalLoss) → u.lag = s.lag)

/-- The commands of rules whose condition is a count: each acts where its condition stands, and otherwise does nothing (R31,
R36, R42, R100; that they are taken as commands of their own is log 5, that a change comes before its recording log 39). -/
def Obligations.CountedConditionsActWhereTheyStand : Prop :=
  ∀ s : State, s.power = .running →
    (s.circ.state = .priming →
      (s.circ.limits.primeVolume ≤ s.circ.primeCount →
        comesTo .primeComplete s (enterCirc .circulating s.circ.mask s)) ∧
      (s.circ.primeCount < s.circ.limits.primeVolume → comesTo .primeComplete s s) ∧
      (s.circ.limits.primeTimeout ≤ s.circ.primeTimer →
        comesTo .primeTimeout s
          (record .primeNoReturns s.circ.primeCount s.circ.limits.primeTimeout
            (enterCirc .totalLoss s.circ.mask s))) ∧
      (s.circ.primeTimer < s.circ.limits.primeTimeout → comesTo .primeTimeout s s)) ∧
    (s.circ.state ≠ .priming → comesTo .primeComplete s s ∧ comesTo .primeTimeout s s) ∧
    (s.circ.state = .stopping →
      (10 ≤ s.circ.bleedCount → comesTo .bleedConfirmed s (enterCirc .stopped { a := false, b := false } s)) ∧
      (s.circ.bleedCount < 10 → comesTo .bleedConfirmed s s) ∧
      (s.circ.limits.stopTimeout ≤ s.circ.stopTimer →
        comesTo .stopTimeout s
          (record .bleedUnconfirmed s.flu.pressure.value (if s.flu.pressure.fault = true then 1 else 0)
            (enterCirc .stopped { a := false, b := false } s))) ∧
      (s.circ.stopTimer < s.circ.limits.stopTimeout → comesTo .stopTimeout s s)) ∧
    (s.circ.state ≠ .stopping → comesTo .bleedConfirmed s s ∧ comesTo .stopTimeout s s) ∧
    (s.circ.state = .still ∨ s.circ.state = .stopped →
      (s.circ.limits.flowCheck ≤ s.circ.staticCount → s.circ.staticFlag = false →
        ∃ u, u = record .flowWhileStill s.circ.staticCount s.circ.state.code s ∧
          comesTo .flowWhileStill s { u with circ.staticFlag := true }) ∧
      (s.circ.staticCount < s.circ.limits.flowCheck ∨ s.circ.staticFlag = true → comesTo .flowWhileStill s s)) ∧
    (s.circ.state ≠ .still → s.circ.state ≠ .stopped → comesTo .flowWhileStill s s) ∧
    (s.joint.state = .breakPermit → s.joint.limits.timeout ≤ s.joint.timer →
      comesTo .breakPermitTimeout s (endBreakPermit s)) ∧
    (s.joint.state ≠ .breakPermit ∨ s.joint.timer < s.joint.limits.timeout → comesTo .breakPermitTimeout s s)

/-- A bin tick acts at bin phase 4 unless already taken, and otherwise does nothing (R13; as a command of its own, log 6). It
closes the open bin while bins run, keeps the newest twelve, starts an empty bin and, in an evaluating state with a job OPEN,
hands the bin's positive part to the job loss volume and the open span; a full window is evaluated: without a verdict the four
runs are 0, with one the sums move the runs and the gain episode, and the runs decide the next state and its incident (R20,
R24, R25, R26, R32, R33, R34, R41). The model's reading of an order the spec does not give: the gain check before the tests on
the runs (log 20), a change of state before its recording (log 39), and FLOW_GAIN recorded before CIRCULATION is set pending and
the strike handed on, the saturation of the job loss volume before the span's litres (log 43). -/
def Obligations.ABinTickClosesTheBinAndEvaluatesAFullWindow : Prop :=
  (∀ s : State, s.power = .running →
    (s.flu.binPhase ≠ 4 ∨ s.flu.binTickTaken = true → comesTo .binTick s s) ∧
    (s.flu.binPhase = 4 → s.flu.binTickTaken = false →
      comesTo .binTick s (takeBinTick { s with flu.binTickTaken := true }))) ∧
  (∀ s : State,
    let w := if s.circ.window.length < 12 then s.circ.window ++ [s.circ.openBin]
      else (s.circ.window ++ [s.circ.openBin]).drop 1
    let closed : State := { s with circ.window := w, circ.openBin := { pumped := 0, returned := 0 } }
    let n := s.circ.openBin.pumped - s.circ.openBin.returned
    let loss := min (s.circ.jobLoss + n) 4000000000
    let u : State := { closed with circ.jobLoss := loss }
    let v := if s.circ.jobLoss < 4000000000 ∧ loss = 4000000000 then record .counterSaturated 3 0 u else u
    let handed : State :=
      if s.jobs.state = .opened then { v with lag.spanLoss := min (v.lag.spanLoss + n) 4000000000 } else closed
    (s.circ.state.binsRun = false → takeBinTick s = s) ∧
    (s.circ.state = .priming ∨ s.circ.state = .pumpTest → takeBinTick s = closed) ∧
    (s.circ.state.evaluating = true →
      (w.length ≠ 12 → takeBinTick s = handed) ∧ (w.length = 12 → takeBinTick s = evaluate handed))) ∧
  ∀ s : State, s.circ.state.evaluating = true →
    let p := (s.circ.window.map (·.pumped)).sum
    let r := (s.circ.window.map (·.returned)).sum
    let rate : Int := max (-9999) (min 9999 ((p : Int) - r))
    let b := s.circ.balance
    let total := decide (r * 100 < p * b.totalPercent)
    let recovered := decide (rate < (b.partialThreshold : Int) - b.hysteresis)
    let gains := (b.gainThreshold : Int) ≤ (r : Int) - p
    let run (holds : Bool) (n : Nat) : Nat := if holds = true then min (n + 1) 3 else 0
    let found : Evaluation := { lossRate := rate, pumped := p, returned := r, verdict := decide (b.minVolume ≤ p) }
    let e : State := { s with circ.lastEval := some found }
    let x : State :=
      { e with circ.totalRun := run total s.circ.totalRun,
               circ.partialRun := run (decide ((b.partialThreshold : Int) ≤ rate)) s.circ.partialRun,
               circ.recoveryRun := run recovered s.circ.recoveryRun,
               circ.clearRun := run (!total) s.circ.clearRun }
    let g := notify .circulation (record .flowGain (r - p) p { x with circ.gainEpisode := true })
    let y : State :=
      if gains then
        if s.circ.gainEpisode = true then x else if s.jobs.state = .opened then autoStrike (r - p) g else g
      else if (r : Int) - p < (b.gainThreshold : Int) - b.hysteresis then { x with circ.gainEpisode := false } else x
    (p < b.minVolume →
      evaluate s =
        { e with circ.totalRun := 0, circ.partialRun := 0, circ.recoveryRun := 0, circ.clearRun := 0 }) ∧
    (b.minVolume ≤ p →
      (s.circ.state ≠ .totalLoss → 2 ≤ x.circ.totalRun →
        evaluate s = record .lossTotal r p (enterCirc .totalLoss s.circ.mask y)) ∧
      (s.circ.state = .circulating → x.circ.totalRun < 2 →
        (2 ≤ x.circ.partialRun →
          evaluate s = record .lossPartial rate.toNat p (enterCirc .partialLoss s.circ.mask y)) ∧
        (x.circ.partialRun < 2 → evaluate s = y)) ∧
      (s.circ.state = .partialLoss → x.circ.totalRun < 2 →
        (3 ≤ x.circ.recoveryRun → evaluate s = enterCirc .circulating s.circ.mask y) ∧
        (x.circ.recoveryRun < 3 → evaluate s = y)) ∧
      (s.circ.state = .totalLoss →
        (2 ≤ x.circ.clearRun →
          evaluate s = enterCirc (if recovered = true then .circulating else .partialLoss) s.circ.mask y) ∧
        (x.circ.clearRun < 2 → evaluate s = y)))

/-! ## Lag and pricing (spec 03, spec 07) -/

/-- SET SECTION and SET LAG GEOMETRY: an argument out of range and an enabled entry that overlaps another enabled one are
refused; otherwise the entry, or all three settings, take the new values and nothing else changes (R47, R48; that SET SECTION
answers a value out of range before an overlap, log 45). -/
def Obligations.LagRequestsChangeTheTableOrTheGeometryAlone : Prop :=
  ∀ (who : Addressee) (s : State), ready who s →
    (∀ entry top bottom capacity,
      let good := entry ≤ 7 ∧ top ≤ 200000 ∧ bottom ≤ 200000 ∧ capacity ≤ 200000
      let overlap := top ≤ bottom ∧
        ∃ f ∈ s.lag.sections.eraseIdx entry, f.top ≤ f.bottom ∧ top < f.bottom ∧ f.top < bottom
      (¬ good → isRefused (.setSection who entry top bottom capacity) s .badArgument) ∧
      (good → overlap → isRefused (.setSection who entry top bottom capacity) s .overlap) ∧
      (good → ¬ overlap →
        isAnswered (.setSection who entry top bottom capacity) s .ok fun u =>
          { u with
            lag.sections :=
              u.lag.sections.modify entry fun _ => { top := top, bottom := bottom, capacity := capacity } })) ∧
    ∀ surface capacity spacing,
      let good := surface ≤ 20000 ∧ capacity ≤ 200000 ∧ 10 ≤ spacing ∧ spacing ≤ 100
      (good →
        isAnswered (.setLagGeometry who surface capacity spacing) s .ok fun u =>
          { u with lag.surface := surface, lag.capacity := capacity, lag.spacing := spacing }) ∧
      (¬ good → isRefused (.setLagGeometry who surface capacity spacing) s .badArgument)

/-- L(d) is the surface volume and the section volumes above d, rounded and clamped (R49); the next boundary is the next
multiple of the spacing or floor above band 0 (R50), a band the highest whose floor is at or below (R131). The span is laid as
one mark with these fields, after a forced retirement where the queue is full (R49, R51, R53; LAG_CLAMPED before the mark joins,
LAG_QUEUE_OVERRUN after the retirement, log 43). An advance lays one mark to each boundary it reaches, in ascending order, and
makes the swap check at its end where a laying met a full queue; the first mark takes the span's seconds and litres (R50, R53).
A retirement removes the mark, moves F to its bottom, places it, prices it at the class it was placed under and makes the swap
check (R55, R57). After a lag-clock advance no queued mark whose arrival volume is reached stands at the head (R56), in a lawful
state. -/
def Obligations.NoArrivedMarkWaitsAtTheHead : Prop :=
  (∀ (d : Nat) (lag : Lag),
    let covered (e : Section) : Nat := if e.top ≤ e.bottom then min e.bottom d - e.top else 0
    lagVolumeRaw d lag =
      lag.surface +
        ((lag.sections.map fun e => e.capacity * covered e).sum +
            lag.capacity * (d - (lag.sections.map covered).sum) + 50000) / 100000) ∧
  (∀ (spacing d : Nat) (floors : List Nat), 0 < spacing → floors.Pairwise (· < ·) →
    let b := nextBoundary spacing floors d
    d < b ∧ (b % spacing = 0 ∨ b ∈ floors.drop 1) ∧
      ∀ x, d < x → x < b → x % spacing ≠ 0 ∧ x ∉ floors.drop 1) ∧
  (∀ (d : Nat) (floors : List Nat), floors.head? = some 0 → floors.Pairwise (· < ·) →
    ∃ f, floors[bandOf floors d]? = some f ∧ f ≤ d ∧ ∀ g, floors[bandOf floors d + 1]? = some g → d < g) ∧
  (∀ (bottom : Nat) (s : State),
    let laid (u : State) : State :=
      let raw := lagVolumeRaw bottom u.lag
      let v := if 999999 < raw then record .lagClamped bottom raw u else u
      { v with
        lag.queue :=
          v.lag.queue ++
            [{ top := u.lag.spanTop, bottom := bottom, laid := u.circ.vl, arrival := u.circ.vl + min raw 999999,
               generation := activeGeneration u, band := bandOf (activeFloors u) u.lag.spanTop,
               blind := u.lag.spanBlind, seconds := u.lag.spanSeconds, loss := u.lag.spanLoss, forced := false }],
        lag.spanTop := bottom, lag.spanSeconds := 0, lag.spanLoss := 0,
        lag.spanBlind := decide (u.circ.state = .totalLoss) }
    (bottom ≤ s.lag.spanTop → layMark bottom s = s) ∧
    (s.lag.spanTop < bottom →
      (s.lag.queue.length < 256 → layMark bottom s = laid s) ∧
      ∀ m rest, s.lag.queue = m :: rest → 256 ≤ s.lag.queue.length →
        layMark bottom s =
          laid (markOverrunSeen
            (record .lagQueueOverrun m.top m.bottom (retireUnchecked .overrun { m with forced := true } rest s))))) ∧
  (∀ (depth : Nat) (s : State), 0 < s.lag.spacing → (activeFloors s).Pairwise (· < ·) →
    let reached := (List.range (depth + 1)).filter fun d =>
      decide (s.lag.spanTop < d ∧ (d % s.lag.spacing = 0 ∨ d ∈ (activeFloors s).drop 1))
    let laid := reached.foldl (fun u d => layMark d u) s
    (s.lag.queue.length + reached.length ≤ 256 → lagAdvance depth s = laid) ∧
    (256 < s.lag.queue.length + reached.length → reached ≠ [] → lagAdvance depth s = swapCheck laid) ∧
    (reached = [] → lagAdvance depth s = s)) ∧
  (∀ (depth : Nat) (s : State), 0 < s.lag.spacing → s.lag.spanTop ≤ depth →
    let reached := (List.range (depth + 1)).filter fun d =>
      decide (s.lag.spanTop < d ∧ (d % s.lag.spacing = 0 ∨ d ∈ (activeFloors s).drop 1))
    s.lag.queue.length + reached.length ≤ 256 →
    let t := lagAdvance depth s
    ∃ marks, t.lag.queue = s.lag.queue ++ marks ∧ chained s.lag.spanTop marks t.lag.spanTop = true ∧
      (∀ m ∈ marks, m.bottom = nextBoundary s.lag.spacing (activeFloors s) m.top ∧ m.bottom ≤ depth) ∧
      (∀ m ∈ marks.take 1, m.seconds = s.lag.spanSeconds ∧ m.loss = s.lag.spanLoss) ∧
      (∀ m ∈ marks.drop 1, m.seconds = 0 ∧ m.loss = 0) ∧
      depth < nextBoundary s.lag.spacing (activeFloors s) t.lag.spanTop) ∧
  (∀ (cause : RetireCause) (m : Mark) (rest : List Mark) (s : State),
    let u := placeMark cause m
      { s with lag.queue := rest, lag.head := (s.lag.head + 1) % 256, lag.frontier := m.bottom }
    let v := priceMark m ((u.strata.intervals.getLast?.map (·.cls)).getD 15) u
    retireUnchecked cause m rest s = v ∧ retire cause m rest s = swapCheck v) ∧
  (∀ (m : Mark) (rest : List Mark) (s : State), s.lag.queue = m :: rest →
    (m.arrival ≤ s.circ.vl → lagClockAdvance s = retireArrived (rest.length + 1) (retire .arrived m rest s)) ∧
    (s.circ.vl < m.arrival → lagClockAdvance s = s)) ∧
  ∀ s : State, s.jobs.state = .opened → frontierLawful s → generationsLawful s →
    ∀ m rest, (lagClockAdvance s).lag.queue = m :: rest → s.circ.vl < m.arrival

/-- The staging requests are refused with BAD_ARGUMENT for a value out of range, then with WRONG_STATE outside EDITING, and
otherwise replace the one part they carry (R133 to R136). -/
def Obligations.StagingRequestsReplaceTheirPartAlone : Prop :=
  ∀ (who : Addressee) (s : State), ready who s →
    (∀ count floors,
      let good := 1 ≤ count ∧ count ≤ 6 ∧ floors.length = count ∧ floors.head? = some 0 ∧
        (∀ k a b, floors[k]? = some a → floors[k + 1]? = some b → a < b) ∧ ∀ f ∈ floors, f ≤ 200000
      (¬ good → isRefused (.stageBands who count floors) s .badArgument) ∧
      (good → s.price.stage ≠ .editing → isRefused (.stageBands who count floors) s .wrongState) ∧
      (good → s.price.stage = .editing →
        isAnswered (.stageBands who count floors) s .ok fun u => { u with price.staging.floors := some floors })) ∧
    (∀ cls rates,
      let good := cls ≤ 15 ∧ rates.length = 6 ∧ ∀ r ∈ rates, r ≤ 9999999
      (¬ good → isRefused (.stageFootageRow who cls rates) s .badArgument) ∧
      (good → s.price.stage ≠ .editing → isRefused (.stageFootageRow who cls rates) s .wrongState) ∧
      (good → s.price.stage = .editing →
        isAnswered (.stageFootageRow who cls rates) s .ok fun u =>
          { u with price.staging.rows := u.price.staging.rows.modify cls fun _ => some rates })) ∧
    (∀ rates,
      let good := rates.length = 7 ∧ ∀ r ∈ rates, r ≤ 9999999
      (¬ good → isRefused (.stageTimeRates who rates) s .badArgument) ∧
      (good → s.price.stage ≠ .editing → isRefused (.stageTimeRates who rates) s .wrongState) ∧
      (good → s.price.stage = .editing →
        isAnswered (.stageTimeRates who rates) s .ok fun u => { u with price.staging.times := some rates })) ∧
    ∀ item unit price,
      let good := item ≤ 31 ∧ unit ≤ 5 ∧ (unit = 0 ∨ price ≤ 9999999)
      (¬ good → isRefused (.stageMaterial who item unit price) s .badArgument) ∧
      (good → s.price.stage ≠ .editing → isRefused (.stageMaterial who item unit price) s .wrongState) ∧
      (good → s.price.stage = .editing →
        (unit = 0 →
          isAnswered (.stageMaterial who item unit price) s .ok fun u =>
            { u with price.staging.materials := u.price.staging.materials.modify item fun _ => none }) ∧
        ∀ m : MaterialUnit, m.code = unit →
          isAnswered (.stageMaterial who item unit price) s .ok fun u =>
            { u with
              price.staging.materials :=
                u.price.staging.materials.modify item fun _ => some { unit := m, price := price } })

/-- COMMIT STAGE: its refusals in order; NEXT_CONNECTION and NEXT_DAY arm, IMMEDIATE becomes DUE and makes the swap check.
CANCEL STAGE drops ARMED and DUE to EDITING and is refused in EDITING with the active generation (R137, R142; that
generation's presence octet log 18). A trigger makes a state ARMED with it DUE, with the swap check, and does nothing in
EDITING, in DUE and under the other trigger; a joint made hands on NEXT_CONNECTION with the tripping timer, a day boundary
NEXT_DAY with BILLING pending (R93, R138, R157, R161; the order at a day boundary log 32). -/
def Obligations.CommitArmsAndCancelDisarms : Prop :=
  (∀ (t : Trigger) (s : State),
    (s.price.stage = .armed t → takeTrigger t s = swapCheck { s with price.stage := .due t }) ∧
    (s.price.stage ≠ .armed t → takeTrigger t s = s)) ∧
  (∀ s : State,
    handJointMade s = { takeTrigger .nextConnection s with bill.tripTimer := 300 } ∧
    dayBoundary s = notify .billing (takeTrigger .nextDay s)) ∧
  ∀ (who : Addressee) (s : State), ready who s →
    (∀ code,
      (2 < code → isRefused (.commitStage who code) s .badArgument) ∧
      (code ≤ 2 →
        (s.price.stage ≠ .editing → isRefused (.commitStage who code) s .wrongState) ∧
        (s.price.stage = .editing → s.jobs.state ≠ .opened → isRefused (.commitStage who code) s .noJob) ∧
        (s.price.stage = .editing → s.jobs.state = .opened → s.price.staging.valid = false →
          isRefused (.commitStage who code) s .badArgument) ∧
        (s.price.stage = .editing → s.jobs.state = .opened → s.price.staging.valid = true →
          (code = 0 →
            ∃ u, u = swapCheck { taking (.commitStage who 0) s with price.stage := .due .immediate } ∧
              exec (.commitStage who 0) s =
                answered (.commitStage who 0) (.ok (oct1 u.price.stage.code ++ oct2 (activeGeneration u))) u) ∧
          (code = 1 →
            isAnswered (.commitStage who 1) s (.ok (oct1 1 ++ oct2 (activeGeneration s))) fun u =>
              { u with price.stage := .armed .nextConnection }) ∧
          (code = 2 →
            isAnswered (.commitStage who 2) s (.ok (oct1 1 ++ oct2 (activeGeneration s))) fun u =>
              { u with price.stage := .armed .nextDay })))) ∧
    (s.price.stage = .editing →
      isRefused (.cancelStage who) s
        { result := 4, data := octOpt 2 (s.price.active.map (·.generation)) }) ∧
    (s.price.stage ≠ .editing →
      isAnswered (.cancelStage who) s .ok fun u => { u with price.stage := .editing })

/-- The swap check does nothing outside DUE and waits while a queued mark carries the previous generation. Otherwise the span is
closed at the hole depth, its mark laid under the old active generation, and then the old active set becomes the previous, the
staging set the active with the next generation (1 after 65,535), the staging set its copy, the state EDITING and BILLING
pending, and no length is left on the open span (R139, R140). -/
def Obligations.ASwapRotatesTheRateSets : Prop :=
  (∀ s : State, (∀ trigger, s.price.stage ≠ .due trigger) → swapCheck s = s) ∧
  ∀ (trigger : Trigger) (s : State), s.price.stage = .due trigger →
    ((∃ m ∈ s.lag.queue, s.price.previous.map (·.generation) = some m.generation) → swapCheck s = s) ∧
    ((∀ m ∈ s.lag.queue, s.price.previous.map (·.generation) ≠ some m.generation) →
      ∀ old, s.price.active = some old → s.lag.spanTop ≤ s.rods.holeDepth →
        let u := swapCheck s
        let g := if old.generation < 65535 then old.generation + 1 else 1
        let closed := layMark s.rods.holeDepth s
        u =
          notify .billing
            { closed with
              price.previous := some old, price.active := some (s.price.staging.toSet g),
              price.staging := .ofSet (s.price.staging.toSet g), price.stage := .editing } ∧
        (s.lag.spanTop < s.rods.holeDepth →
          ∃ m ∈ u.lag.queue.getLast?, m.top = s.lag.spanTop ∧ m.bottom = s.rods.holeDepth ∧
            m.generation = old.generation ∧ m.band = bandOf old.floors s.lag.spanTop) ∧
        u.price.previous = some old ∧ u.price.active = some (s.price.staging.toSet g) ∧
          u.price.staging = .ofSet (s.price.staging.toSet g) ∧ u.price.stage = .editing ∧
          u.inc.flags.billing = true ∧ u.lag.spanTop = s.rods.holeDepth)

/-- Pricing a value into a line keeps every hundredth of a cent until the line saturates; a line that would pass 999,999,999
cents stops there SATURATED with its residue kept and is recorded as CHARGE_SATURATED with its index and kind, and a SATURATED
line takes its quantity only (R146, R147). A value under a key goes to the line of that key, else to a new line at the next index, else, where its kind's keyed lines are full, to the
consolidated line with CHARGE_LINES_FULL recorded (R145, R148; after the pricing, log 43). A retired mark's length is priced at its own generation, class
and band (R149). -/
def Obligations.PricingKeepsEveryHundredthOfACent : Prop :=
  (∀ (index value quantity : Nat) (s : State) (l : ChargeLine), s.price.lines[index]? = some l →
    let u := priceInto index value quantity s
    ∃ l', u.price.lines[index]? = some l' ∧ l'.kind = l.kind ∧ l'.key = l.key ∧
      l'.quantity = min (l.quantity + quantity) 4000000000 ∧
      (∀ k, k ≠ index → u.price.lines[k]? = s.price.lines[k]?) ∧
      (l.saturated = true →
        l'.amount = l.amount ∧ l'.residue = l.residue ∧ l'.saturated = true ∧
          u = { s with price.lines := u.price.lines }) ∧
      (l.saturated = false → l.amount + (l.residue + value) / 100 ≤ 999999999 →
        l'.amount * 100 + l'.residue = l.amount * 100 + l.residue + value ∧ l'.residue < 100 ∧
          l'.saturated = false ∧ u = { s with price.lines := u.price.lines }) ∧
      (l.saturated = false → 999999999 < l.amount + (l.residue + value) / 100 →
        l'.amount = 999999999 ∧ l'.residue = l.residue ∧ l'.saturated = true ∧
          ∃ v, v = record .chargeSaturated index (if l.kind = .footage then 0 else if l.kind = .time then 1 else 2)
              { s with price.lines := u.price.lines } ∧
            u = { v with price.saturationSeen := true })) ∧
  (∀ (kind : LineKind) (key : LineKey) (value quantity : Nat) (s : State),
    let isLine (l : ChargeLine) : Prop := l.kind = kind ∧ l.key = some key
    (∀ i l, s.price.lines[i]? = some l → isLine l → (∀ j < i, ∀ k, s.price.lines[j]? = some k → ¬ isLine k) →
      lineFor kind key s = i ∧ priceUnder kind key value quantity s = priceInto i value quantity s) ∧
    ((∀ l ∈ s.price.lines, ¬ isLine l) →
      let keyed := s.price.lines.countP fun l => decide (l.kind = kind ∧ l.key.isSome = true)
      let limit := if kind = .footage then 160 else if kind = .time then 32 else 64
      let index := if kind = .footage then 0 else if kind = .time then 1 else 2
      (keyed < limit →
        lineFor kind key s = s.price.lines.length ∧
          priceUnder kind key value quantity s =
            priceInto s.price.lines.length value quantity
              { s with
                price.lines :=
                  s.price.lines ++
                    [{ kind := kind, key := some key, amount := 0, residue := 0, quantity := 0, saturated := false }] }) ∧
      (limit ≤ keyed →
        lineFor kind key s = index ∧
          priceUnder kind key value quantity s =
            record .chargeLinesFull index key.generation (priceInto index value quantity s)))) ∧
  ∀ (m : Mark) (cls rate : Nat) (r : RateSet) (row : List Nat) (s : State), r.generation = m.generation →
    s.price.active = some r ∨
      (s.price.active.map (·.generation) ≠ some m.generation ∧ s.price.previous = some r) →
    r.rows[cls]? = some row → row[m.band]? = some rate →
    priceMark m cls s =
      priceUnder .footage { generation := m.generation, a := cls, b := m.band } ((m.bottom - m.top) * rate)
        (m.bottom - m.top) s

/-! ## Rods and depth (spec 04) -/

/-- REGISTER ROD, DELIST ROD, SET ROD STATUS and SET ROD LIMITS: refusals in order, and the one record or pair of limits that
changes (R67, R68, R70, R71; that SET ROD STATUS answers a bad status before an unregistered id, log 41). -/
def Obligations.RegistryRequestsChangeTheirRecordAlone : Prop :=
  ∀ (who : Addressee) (s : State), ready who s →
    (∀ id length status makeUps rotating,
      let good := (1 ≤ id ∧ id ≤ 65535) ∧ (100 ≤ length ∧ length ≤ 1000) ∧ status ≤ 2 ∧ makeUps ≤ 65535 ∧
        rotating ≤ 65535
      (¬ good → isRefused (.registerRod who id length status makeUps rotating) s .badArgument) ∧
      (good → (∃ r ∈ s.rods.registry, r.id = id) →
        isRefused (.registerRod who id length status makeUps rotating) s .wrongState) ∧
      (good → (¬ ∃ r ∈ s.rods.registry, r.id = id) → 448 ≤ s.rods.registry.length →
        isRefused (.registerRod who id length status makeUps rotating) s .full) ∧
      (good → (¬ ∃ r ∈ s.rods.registry, r.id = id) → s.rods.registry.length < 448 →
        ∀ st : RodStatus, st.code = status →
          isAnswered (.registerRod who id length status makeUps rotating) s .ok fun u =>
            { u with
              rods.registry :=
                insertRod
                  { id := id, length := length, status := st, makeUps := makeUps, rotating := rotating,
                    location := .yard, entryFootage := none, makeUpPeak := none, breakPeak := none }
                  u.rods.registry })) ∧
    (∀ id,
      (findRod id s = none → isRefused (.delistRod who id) s .notFound) ∧
      ∀ r, findRod id s = some r →
        (r.location ≠ .yard → isRefused (.delistRod who id) s .wrongState) ∧
        (r.location = .yard →
          isAnswered (.delistRod who id) s .ok fun u =>
            { u with rods.registry := u.rods.registry.filter fun q => decide (q.id ≠ id) })) ∧
    (∀ id status,
      (2 < status → isRefused (.setRodStatus who id status) s .badArgument) ∧
      (status ≤ 2 → findRod id s = none → isRefused (.setRodStatus who id status) s .notFound) ∧
      (findRod id s ≠ none → ∀ st : RodStatus, st.code = status →
        isAnswered (.setRodStatus who id status) s .ok fun u =>
          { u with
            rods.registry := u.rods.registry.map fun r => if r.id = id then { r with status := st } else r })) ∧
    ∀ rotating makeUps,
      (rotating ≤ 65535 ∧ makeUps ≤ 65535 →
        isAnswered (.setRodLimits who rotating makeUps) s .ok fun u =>
          { u with rods.rotatingLimit := rotating, rods.makeUpLimit := makeUps }) ∧
      (65535 < rotating ∨ 65535 < makeUps → isRefused (.setRodLimits who rotating makeUps) s .badArgument)

/-- PLACE ROD, SET DEPTH REFERENCE and SET OVERPULL LIMIT: refusals in order; a placed rod leaves its slot and takes the
destination, and no other rod, slot or reading changes (R66, R69, R76, R81). -/
def Obligations.PlacingAndDepthRequestsChangeTheirFieldsAlone : Prop :=
  ∀ (who : Addressee) (s : State), ready who s →
    (∀ id destination,
      (96 ≤ destination → destination ≠ 255 → isRefused (.placeRod who id destination) s .badArgument) ∧
      (destination < 96 ∨ destination = 255 →
        (findRod id s = none → isRefused (.placeRod who id destination) s .notFound) ∧
        ∀ r loc, findRod id s = some r → loc = (if destination = 255 then .yard else .magazine destination) →
          let taken := destination < 96 ∧
            ((s.rods.magazine[destination]?).getD none ≠ some id ∧
              ((s.rods.magazine[destination]?).getD none ≠ none ∨ reservedSlot s = some destination))
          (r.location = .arm ∨ (∃ i, r.location = .string i) → isRefused (.placeRod who id destination) s .wrongState) ∧
          (r.location = .yard ∨ (∃ k, r.location = .magazine k) →
            (loc ≠ .yard → loc ≠ r.location → r.status = .retired →
              isRefused (.placeRod who id destination) s .badArgument) ∧
            (loc = .yard ∨ loc = r.location ∨ r.status ≠ .retired →
              (taken → isRefused (.placeRod who id destination) s .full) ∧
              (¬ taken →
                ∃ u, exec (.placeRod who id destination) s = answered (.placeRod who id destination) .ok u ∧
                  u = { taking (.placeRod who id destination) s with rods := u.rods } ∧
                  u.rods.registry =
                    s.rods.registry.map (fun q => if q.id = id then { q with location := loc } else q) ∧
                  (∀ k < s.rods.magazine.length,
                    u.rods.magazine[k]? =
                      (if loc = .magazine k then some (some id)
                      else if r.location = .magazine k then some none else s.rods.magazine[k]?)) ∧
                  u.rods = { s.rods with registry := u.rods.registry, magazine := u.rods.magazine }))))) ∧
    (∀ bha offset,
      (5000 < bha ∨ 1000 < offset → isRefused (.setDepthReference who bha offset) s .badArgument) ∧
      (bha ≤ 5000 → offset ≤ 1000 →
        (s.rods.string ≠ [] → isRefused (.setDepthReference who bha offset) s .stringInHole) ∧
        (s.rods.string = [] →
          isAnswered (.setDepthReference who bha offset) s .ok fun u =>
            { u with rods.bhaLength := bha, rods.headOffset := offset }))) ∧
    ∀ limit,
      (limit ≤ 100000 →
        isAnswered (.setOverpullLimit who limit) s .ok fun u => { u with rods.overpullLimit := limit }) ∧
      (100000 < limit → isRefused (.setOverpullLimit who limit) s .badArgument)

/-! ## Joints (spec 05) -/

/-- A tag read in READY: the four checks in order record their incidents and load nothing; past them the rod goes to the
arm, its slot is emptied and reserved, the state becomes LOADED, and the make-up permit rises if circulation rests (R75, R87,
R90). In UNLOADED a read of another rod than the arm's is recorded; that of the arm's rod, and every read in LOADED,
BREAK_PERMIT and HELD, does nothing (R91). -/
def Obligations.ATagReadInReadyLoadsTheRodOrRecordsWhyNot : Prop :=
  (∀ (id : Nat) (s : State), s.joint.state = .ready →
    (findRod id s = none → readTag id s = record .unknownRod id 0 s) ∧
    ∀ r, findRod id s = some r →
      (∀ i, r.location = .string i → readTag id s = record .rodMismatch id i s) ∧
      ((∀ i, r.location ≠ .string i) →
        (r.status ≠ .serviceable → readTag id s = record .rodNotServiceable id r.status.code s) ∧
        (r.status = .serviceable → 400 ≤ s.rods.string.length →
          readTag id s = record .stringFull id s.rods.string.length s) ∧
        (r.status = .serviceable → s.rods.string.length < 400 →
          let u := readTag id s
          u.joint.state = .loaded ∧ findRod id u = some { r with location := .arm } ∧
            (∀ k, r.location = .magazine k →
              u.joint.arm = some { rod := id, source := .slot k } ∧ reservedSlot u = some k ∧
                (k < s.rods.magazine.length → u.rods.magazine[k]? = some none)) ∧
            (r.location = .yard → u.joint.arm = some { rod := id, source := .yard }) ∧
            u.flu.makeUpPermit = s.circ.state.resting ∧ u.flu.breakPermit = false ∧
            u.inc.flags.joint = true ∧ u.rods.string = s.rods.string ∧ u.rods.bitDepth = s.rods.bitDepth))) ∧
  ∀ (id : Nat) (s : State),
    (s.joint.state = .unloaded → ∀ a, s.joint.arm = some a →
      (a.rod = id → readTag id s = s) ∧ (a.rod ≠ id → readTag id s = record .rodMismatch id a.rod s)) ∧
    (s.joint.state = .loaded ∨ s.joint.state = .breakPermit ∨ s.joint.state = .held → readTag id s = s)

/-- What the end of a torque episode does: MADE pushes the rod and returns to READY; above the maximum, and with the permit
low, the rod is pushed and HELD is entered on the slot the recording returned; SHORT, STRAY and IGNORED move nothing and
record what they are; BREAK pops the top rod into the arm. A push and a pop change the one rod's record as R72 and R73 give,
and no other. A joint accounted as made is handed on last, as NEXT_CONNECTION and as joint activity (R72, R73, R92 to R98,
R103). -/
def Obligations.TheEndOfATorqueEpisodeJudgesTheJoint : Prop :=
  ∀ (e : Episode) (s : State), s.joint.episode = some e →
    let u := endEpisode e s
    let l := s.joint.limits
    let judged (o : EpisodeOutcome) : State :=
      { s with joint.episode := none, joint.last := some { peak := e.peak, outcome := o } }
    let pushed (r : Rod) : Rod :=
      { r with location := .string s.rods.string.length, makeUps := min (r.makeUps + 1) 65535,
               entryFootage := some s.rods.footage, makeUpPeak := some e.peak }
    let inspected (r : Rod) : Rod := { r with status := .inspect }
    u.joint.episode = none ∧ u.joint.last.map (·.peak) = some e.peak ∧
    (s.joint.state = .loaded → ∀ a, s.joint.arm = some a →
      let made (v : State) : Prop := u = { takeTrigger .nextConnection v with bill.tripTimer := 300 }
      let onString := u.joint.arm = none ∧ u.rods.string = s.rods.string ++ [a.rod] ∧ u.bill.tripTimer = 300 ∧
        u.rods.magazine = s.rods.magazine ∧
        ∀ r, findRod a.rod s = some r → u.rods.stringLength = s.rods.stringLength + r.length
      let changed (f : Rod → Rod) : Prop :=
        u.rods.registry = s.rods.registry.map fun r => if r.id = a.rod then f r else r
      (e.permitLow = false → l.target - l.tolerance ≤ e.peak → e.peak ≤ l.maximum →
        u.joint.last.map (·.outcome) = some .made ∧ u.joint.state = .ready ∧ onString ∧ changed pushed ∧
          u.flu.makeUpPermit = false ∧ made (clearArmToReady (pushRod a.rod e.peak (judged .made)))) ∧
      (e.permitLow = false → l.maximum < e.peak →
        let recorded := recordIncident .overtorque e.peak l.maximum s
        (let r := recordIncident .overtorque e.peak l.maximum
            (updateRod a.rod inspected (pushRod a.rod e.peak (judged .overtorque)))
         made (clearArmToHeld r.2 r.1)) ∧
        u.joint.last.map (·.outcome) = some .overtorque ∧ u.joint.state = .held ∧ onString ∧
          changed (fun r => inspected (pushed r)) ∧ u.joint.heldRef = recorded.2 ∧
          (s.price.stage ≠ .armed .nextConnection → u.inc.slots = recorded.1.inc.slots)) ∧
      (e.permitLow = false → e.peak < l.target - l.tolerance → e.peak ≤ l.maximum →
        u = record .shortTorque e.peak (l.target - l.tolerance) (judged .short)) ∧
      (e.permitLow = true →
        let before := if l.maximum < e.peak then record .overtorque e.peak l.maximum s else s
        let recorded := recordIncident .interlockBypass e.peak s.circ.state.code before
        (let v := pushRod a.rod e.peak (judged .bypass)
         let w := if l.maximum < e.peak then record .overtorque e.peak l.maximum (updateRod a.rod inspected v) else v
         let r := recordIncident .interlockBypass e.peak s.circ.state.code w
         made (clearArmToHeld r.2 r.1)) ∧
        u.joint.last.map (·.outcome) = some .bypass ∧ u.joint.state = .held ∧ onString ∧
          changed (fun r => if l.maximum < e.peak then inspected (pushed r) else pushed r) ∧
          u.joint.heldRef = recorded.2 ∧
          (s.price.stage ≠ .armed .nextConnection → u.inc.slots = recorded.1.inc.slots))) ∧
    (s.joint.state = .ready → u = record .strayTorque e.peak s.rods.string.length (judged .stray)) ∧
    (s.joint.state = .unloaded ∨ s.joint.state = .held ∨ (s.joint.state = .breakPermit ∧ e.peak < l.detect) →
      u = judged .ignored) ∧
    (s.joint.state = .breakPermit → l.detect ≤ e.peak → ∀ below top, s.rods.string = below ++ [top] →
      let popped (r : Rod) : Rod :=
        let rotating := min (r.rotating + (s.rods.footage - r.entryFootage.getD s.rods.footage) / 100) 65535
        let spent := (s.rods.rotatingLimit ≠ 0 ∧ s.rods.rotatingLimit ≤ rotating) ∨
          (s.rods.makeUpLimit ≠ 0 ∧ s.rods.makeUpLimit ≤ r.makeUps)
        { r with location := .arm, breakPeak := some e.peak, rotating := rotating, entryFootage := none,
                 status := if spent then .retired else r.status }
      u.joint.last.map (·.outcome) = some .broken ∧ u.joint.state = .unloaded ∧
        u.joint.arm = some { rod := top, source := .string } ∧ u.joint.timer = 0 ∧ u.bill.tripTimer = 300 ∧
        u.flu.breakPermit = false ∧ u.rods.string = below ∧
        u.rods.registry = s.rods.registry.map (fun r => if r.id = top then popped r else r) ∧
        ∀ r, findRod top s = some r → u.rods.stringLength = s.rods.stringLength - r.length)

/-- SET JOINT LIMITS, REQUEST BREAK, CANCEL JOINT and RELEASE JOINT: refusals in order, and the state each leaves (R88, R89,
R99, R102, R104). Every change of joint state commands both permits, sets a permit-low flag where the make-up permit is low,
keeps the HELD reference in HELD only and sets JOINT pending; one into READY then recomputes the bit depth with the head height,
unless that channel is faulted, and the arm is emptied or the break-permit timer zeroed in the same step (R78, R86, R87, R88, R92,
R100, R103; the recomputation after JOINT, log 40). -/
def Obligations.JointRequestsFollowTheirChecks : Prop :=
  (∀ (j : JointState) (s : State),
    let high := decide (j = .loaded) && decide (s.circ.state = .still ∨ s.circ.state = .stopped)
    let u := enterJoint j s
    u =
      notify .joint
        { s with
          joint.state := j, joint.heldRef := if j = .held then s.joint.heldRef else none,
          flu.makeUpPermit := high, flu.breakPermit := decide (j = .breakPermit),
          joint.episode :=
            s.joint.episode.map fun e => { e with permitLow := if high = true then e.permitLow else true } } ∧
    u.inc.flags.joint = true) ∧
  (∀ s : State,
    let u := enterJoint .ready s
    (s.flu.height.fault = true → enterReady s = u) ∧
    (s.flu.height.fault = false → enterReady s = deliverSample .height (some s.flu.height.value) u) ∧
    (enterReady s).inc.flags.joint = true ∧
    clearArmToReady s = enterReady { s with joint.arm := none } ∧
    endBreakPermit s = enterReady { s with joint.timer := 0 } ∧
    ∀ ref, clearArmToHeld ref s = enterJoint .held { s with joint.arm := none, joint.heldRef := ref }) ∧
  ∀ (who : Addressee) (s : State), ready who s →
    (∀ target tolerance maximum detect timeout,
      let good := (500 ≤ target ∧ target ≤ 90000) ∧ (tolerance ≤ 20000 ∧ tolerance < target) ∧
        (target ≤ maximum ∧ maximum ≤ 100000) ∧ (500 ≤ detect ∧ detect ≤ 50000) ∧ 10 ≤ timeout ∧ timeout ≤ 600
      (good →
        isAnswered (.setJointLimits who target tolerance maximum detect timeout) s .ok fun u =>
          { u with
            joint.limits :=
              { target := target, tolerance := tolerance, maximum := maximum, detect := detect,
                timeout := timeout } }) ∧
      (¬ good → isRefused (.setJointLimits who target tolerance maximum detect timeout) s .badArgument)) ∧
    (let safe := (s.circ.state = .still ∨ s.circ.state = .stopped) ∧ s.flu.pressure.fault = false ∧
        s.flu.pressure.value ≤ s.circ.limits.bleedLimit
     (s.joint.state ≠ .ready → isRefused (.requestBreak who) s .wrongState) ∧
     (s.joint.state = .ready → s.rods.string = [] → isRefused (.requestBreak who) s .notFound) ∧
     (s.joint.state = .ready → s.rods.string ≠ [] → ¬ safe → isRefused (.requestBreak who) s .interlock) ∧
     (s.joint.state = .ready → s.rods.string ≠ [] → safe →
        ∃ u, exec (.requestBreak who) s = answered (.requestBreak who) .ok u ∧ u.joint.state = .breakPermit ∧
          u.joint.timer = 0 ∧ u.flu.breakPermit = true ∧ u.flu.makeUpPermit = false ∧ u.inc.flags.joint = true ∧
          u.rods = s.rods ∧ u.circ = s.circ)) ∧
    ((s.joint.state = .loaded → ∀ a r, s.joint.arm = some a → findRod a.rod s = some r →
        ∃ u, exec (.cancelJoint who) s = answered (.cancelJoint who) .ok u ∧ u.joint.state = .ready ∧
          u.joint.arm = none ∧ u.flu.makeUpPermit = false ∧
          findRod a.rod u = some { r with location := a.source.location } ∧ u.rods.string = s.rods.string) ∧
     (s.joint.state = .breakPermit →
        ∃ u, exec (.cancelJoint who) s = answered (.cancelJoint who) .ok u ∧ u.joint.state = .ready ∧
          u.joint.timer = 0 ∧ u.flu.breakPermit = false ∧ u.rods.string = s.rods.string) ∧
     (s.joint.state ≠ .loaded → s.joint.state ≠ .breakPermit → isRefused (.cancelJoint who) s .wrongState)) ∧
    ((s.joint.state ≠ .held → isRefused (.releaseJoint who) s .wrongState) ∧
     (s.joint.state = .held → ∀ n, s.joint.heldRef = some n → slotPending s n = true →
        isRefused (.releaseJoint who) s .interlock) ∧
     (s.joint.state = .held → (∀ n, s.joint.heldRef = some n → slotPending s n = false) →
        ∃ u, exec (.releaseJoint who) s = answered (.releaseJoint who) .ok u ∧ u.joint.state = .ready ∧
          u.joint.heldRef = none ∧ u.rods.string = s.rods.string))

/-- RACK ROD: refusals in order; taken, the popped rod goes to the destination, the arm is empty and the state READY
(R101). -/
def Obligations.RackRodPutsThePoppedRodAway : Prop :=
  ∀ (who : Addressee) (destination : Nat) (s : State), ready who s →
    (s.joint.state ≠ .unloaded → isRefused (.rackRod who destination) s .wrongState) ∧
    (s.joint.state = .unloaded →
      (96 ≤ destination → destination ≠ 255 → isRefused (.rackRod who destination) s .badArgument) ∧
      ∀ a r, s.joint.arm = some a → findRod a.rod s = some r →
        (destination < 96 →
          (r.status = .retired → isRefused (.rackRod who destination) s .badArgument) ∧
          (r.status ≠ .retired → (s.rods.magazine[destination]?).getD none ≠ some a.rod →
            ((s.rods.magazine[destination]?).getD none ≠ none ∨ reservedSlot s = some destination →
              isRefused (.rackRod who destination) s .full) ∧
            ((s.rods.magazine[destination]?).getD none = none → reservedSlot s ≠ some destination →
              ∃ u, exec (.rackRod who destination) s = answered (.rackRod who destination) .ok u ∧
                u.joint.state = .ready ∧ u.joint.arm = none ∧
                findRod a.rod u = some { r with location := .magazine destination } ∧
                (destination < s.rods.magazine.length → u.rods.magazine[destination]? = some (some a.rod)) ∧
                u.rods.string = s.rods.string))) ∧
        (destination = 255 →
          ∃ u, exec (.rackRod who destination) s = answered (.rackRod who destination) .ok u ∧
            u.joint.state = .ready ∧ u.joint.arm = none ∧ findRod a.rod u = some { r with location := .yard } ∧
            u.rods.string = s.rods.string))

/-! ## The strata log (spec 06) -/

/-- FORMATION: its refusals, the three cases at F, and the resume class (R111, R113). A retired mark is placed: a blind mark
begins a BLIND interval of class 14, a sighted one ends it with a RESUMED interval of the resume class, the first mark of a
drain begins the UNOBSERVED one, each by a new interval where the open one has extent and the log has room, by a relabelling
where it has none, and by STRATA_LOG_FULL where the log is full; the mark's counts then join the open interval (R110, R111,
R112, R116, R117, R118, R119). -/
def Obligations.FormationAppliesAtTheFrontier : Prop :=
  (∀ (who : Addressee) (cls : Nat) (s : State), ready who s →
    (13 < cls → isRefused (.formation who cls) s .badArgument) ∧
    (cls ≤ 13 → s.jobs.state ≠ .opened → isRefused (.formation who cls) s .noJob) ∧
    (cls ≤ 13 → s.jobs.state = .opened → ∀ closed v, s.strata.intervals = closed ++ [v] → v.bottom = none →
      let index := s.strata.intervals.length - 1
      (v.origin = .blind →
        isAnswered (.formation who cls) s (.ok (oct1 0 ++ oct2 index ++ oct4 s.lag.frontier)) fun u =>
          { u with strata.resumeClass := cls }) ∧
      (v.origin ≠ .blind → s.lag.frontier ≤ v.top →
        ∃ u, exec (.formation who cls) s =
            answered (.formation who cls) (.ok (oct1 3 ++ oct2 index ++ oct4 s.lag.frontier)) u ∧
          u.strata.intervals = closed ++ [{ v with cls := cls, origin := .observed }] ∧
          u.strata.resumeClass = cls ∧ u.inc.flags.strata = true ∧ u.price = s.price ∧ u.lag = s.lag) ∧
      (v.origin ≠ .blind → v.top < s.lag.frontier → s.strata.intervals.length < 320 →
        ∃ u, exec (.formation who cls) s =
            answered (.formation who cls) (.ok (oct1 1 ++ oct2 (index + 1) ++ oct4 s.lag.frontier)) u ∧
          u.strata.intervals =
            closed ++
              [{ v with
                 bottom := some s.lag.frontier,
                 rate :=
                   if v.seconds = 0 then none
                   else some (min ((s.lag.frontier - v.top) * 3600 / v.seconds) 65535),
                 waterBearing :=
                   v.waterBearing ||
                     s.strata.strikes.any fun k => decide (v.top ≤ k.depth ∧ k.depth < s.lag.frontier) },
               { top := s.lag.frontier, bottom := none, cls := cls, origin := .observed, opened := s.flu.clock,
                 seconds := 0, loss := 0, marks := 0, rate := none, waterBearing := false, forced := false,
                 note := 0 }] ∧
          u.strata.resumeClass = cls ∧ u.inc.flags.strata = true ∧ u.price = s.price ∧ u.lag = s.lag) ∧
      (v.origin ≠ .blind → v.top < s.lag.frontier → 320 ≤ s.strata.intervals.length →
        ∃ u, exec (.formation who cls) s =
            answered (.formation who cls) (.ok (oct1 2 ++ oct2 index ++ oct4 s.lag.frontier)) u ∧
          u =
            { record .strataLogFull s.lag.frontier cls (taking (.formation who cls) s) with
              strata.fullSeen := true, strata.resumeClass := cls }))) ∧
  ∀ (cause : RetireCause) (m : Mark) (closed : List Interval) (v : Interval) (s : State),
    s.strata.intervals = closed ++ [v] → v.bottom = none →
    let t := placeMark cause m s
    let plus (w : Interval) : Interval :=
      { w with seconds := min (w.seconds + m.seconds) 4000000000, loss := min (w.loss + m.loss) 4000000000,
               marks := min (w.marks + 1) 65535, forced := w.forced || m.forced }
    let ended : Interval :=
      { v with
        bottom := some m.top,
        rate := if v.seconds = 0 then none else some (min ((m.top - v.top) * 3600 / v.seconds) 65535),
        waterBearing := v.waterBearing || s.strata.strikes.any fun k => decide (v.top ≤ k.depth ∧ k.depth < m.top) }
    let fresh (cls : Nat) (origin : Origin) : Interval :=
      { top := m.top, bottom := none, cls := cls, origin := origin, opened := s.flu.clock, seconds := 0, loss := 0,
        marks := 0, rate := none, waterBearing := false, forced := false, note := 0 }
    let added := t.strata.intervals = closed ++ [plus v]
    let next (cls : Nat) (origin : Origin) : Prop :=
      (s.strata.intervals.length < 320 →
        t.strata.intervals = closed ++ [ended, plus (fresh cls origin)] ∧ t.inc.flags.strata = true) ∧
      (320 ≤ s.strata.intervals.length →
        added ∧ t.strata.fullSeen = true ∧ t.inc = (record .strataLogFull m.top cls s).inc)
    let classed (cls : Nat) (origin : Origin) : Prop :=
      (v.top < m.top → next cls origin) ∧
      (m.top ≤ v.top →
        t.strata.intervals = closed ++ [plus { v with cls := cls, origin := origin }] ∧ t.inc.flags.strata = true)
    t.strata.strikes = s.strata.strikes ∧ t.strata.resumeClass = s.strata.resumeClass ∧
    t.lag = s.lag ∧ t.price = s.price ∧ t.rods = s.rods ∧ t.circ = s.circ ∧ t.bill = s.bill ∧
    (s.strata.drain = true → added ∧ t.inc = s.inc) ∧
    (s.strata.drain = false →
      (cause = .close → t.strata.drain = true ∧ classed 15 .unobserved) ∧
      (cause ≠ .close → t.strata.drain = false ∧
        (m.blind = true → v.origin ≠ .blind → classed 14 .blind) ∧
        (m.blind = false → v.origin = .blind → next s.strata.resumeClass .resumed) ∧
        (m.blind = decide (v.origin = .blind) → added ∧ t.inc = s.inc)))

/-- WATER STRIKE and AMEND NOTE: refusals in order; a strike joins the list with the hole depth where none is given and
marks the closed interval that holds it, a note changes one note code (R121, R122, R124, R125). An automatic strike stands at
the hole depth with the gain, at most 5,000, as its yield, and is dropped and recorded where the list is full (R123). That
AMEND NOTE answers a job not OPEN before an index beyond the list is log 46. -/
def Obligations.StrikesAndNotesJoinTheLog : Prop :=
  (∀ (who : Addressee) (s : State), ready who s →
    (∀ yield depth level,
      let good := yield ≤ 5000 ∧ ∀ l, level = some l → l ≤ 200000
      (¬ good → isRefused (.waterStrike who yield depth level) s .badArgument) ∧
      (good → s.jobs.state ≠ .opened → isRefused (.waterStrike who yield depth level) s .noJob) ∧
      (good → s.jobs.state = .opened → ∀ job, s.jobs.context = some job →
        let inside := ∀ d, depth = some d → job.startDepth ≤ d ∧ d ≤ s.rods.holeDepth
        (¬ inside → isRefused (.waterStrike who yield depth level) s .badArgument) ∧
        (inside → 32 ≤ s.strata.strikes.length → isRefused (.waterStrike who yield depth level) s .full) ∧
        (inside → s.strata.strikes.length < 32 →
          let d := depth.getD s.rods.holeDepth
          ∃ u, exec (.waterStrike who yield depth level) s =
              answered (.waterStrike who yield depth level)
                (.ok (oct1 s.strata.strikes.length ++ octOpt 2 (s.strata.intervals.findIdx? (Interval.holds d)))) u ∧
            u.strata.strikes =
              s.strata.strikes ++
                [{ depth := d, yield := yield, level := level, time := s.flu.clock, auto := false }] ∧
            u.strata.intervals =
              s.strata.intervals.map (fun v => if v.holds d then { v with waterBearing := true } else v) ∧
            u.inc.flags.strata = true ∧ u.lag = s.lag ∧ u.price = s.price))) ∧
    ∀ index note,
      (s.jobs.state ≠ .opened → isRefused (.amendNote who index note) s .noJob) ∧
      (s.jobs.state = .opened → s.strata.intervals.length ≤ index → isRefused (.amendNote who index note) s .notFound) ∧
      (s.jobs.state = .opened → index < s.strata.intervals.length →
        isAnswered (.amendNote who index note) s .ok fun u =>
          { u with strata.intervals := u.strata.intervals.modify index fun v => { v with note := note } })) ∧
  ∀ (gain : Nat) (s : State),
    (32 ≤ s.strata.strikes.length →
      autoStrike gain s = record .strikeListFull s.rods.holeDepth (min gain 5000) s) ∧
    (s.strata.strikes.length < 32 →
      autoStrike gain s =
        notify .strata
          { s with
            strata.strikes :=
              s.strata.strikes ++
                [{ depth := s.rods.holeDepth, yield := min gain 5000, level := none, time := s.flu.clock, auto := true }],
            strata.intervals :=
              s.strata.intervals.map fun v => if v.holds s.rods.holeDepth then { v with waterBearing := true } else v })

/-! ## Billing (spec 08) -/

/-- A second tick is the clock's, the circulation monitor's, the joint controller's and the billing clock's parts and then the
bin tick (R12, R13; the order log 7, a bin tick already taken log 6): the day boundary (R15), the prime timer (R31), the stop
timer and the bleed hold (R36), the break-permit timer (R100). A second of an open job is counted under one category, the
first of R152's tests that holds: its total, its residue with a billing unit at 36 priced at the active set, the running
seconds and the last category; a drilled second reaches the span; the timers count down after (R152, R153, R154, R156, R157;
the count's effect within the tick log 5; a change before its recording log 39). From a state in which the tick's other parts change no state, the category is that
of the state before the tick. -/
def Obligations.ASecondIsCountedUnderOneCategory : Prop :=
  (∀ s : State, s.power = .running →
    comesTo .secondTick s (phaseTick (billingTick (jointTick (circulationTick (clockTick s)))))) ∧
  (∀ s : State,
    let now := min (s.flu.clock + 1) 4294967295
    clockTick s =
      if s.flu.dayMark < now / 86400 then
        if s.flu.clockUnset = true then { s with flu.clock := now, flu.dayMark := now / 86400 }
        else dayBoundary { s with flu.clock := now, flu.dayMark := now / 86400 }
      else { s with flu.clock := now }) ∧
  (∀ s : State,
    (s.circ.state = .priming →
      let u : State := { s with circ.primeTimer := s.circ.primeTimer + 1 }
      (s.circ.primeTimer + 1 < s.circ.limits.primeTimeout → circulationTick s = u) ∧
      (s.circ.limits.primeTimeout ≤ s.circ.primeTimer + 1 →
        circulationTick s =
          record .primeNoReturns s.circ.primeCount s.circ.limits.primeTimeout (enterCirc .totalLoss s.circ.mask u))) ∧
    (s.circ.state = .stopping →
      let held := if s.circ.bleedHolding = true then min (s.circ.bleedCount + 1) 10 else s.circ.bleedCount
      let u : State := { s with circ.stopTimer := s.circ.stopTimer + 1, circ.bleedCount := held }
      let stopped := enterCirc .stopped { a := false, b := false } u
      (10 ≤ held → circulationTick s = stopped) ∧
      (held < 10 →
        (s.circ.limits.stopTimeout ≤ s.circ.stopTimer + 1 →
          circulationTick s =
            record .bleedUnconfirmed s.flu.pressure.value (if s.flu.pressure.fault = true then 1 else 0) stopped) ∧
        (s.circ.stopTimer + 1 < s.circ.limits.stopTimeout → circulationTick s = u))) ∧
    (s.circ.state ≠ .priming → s.circ.state ≠ .stopping → circulationTick s = s) ∧
    (s.joint.state = .breakPermit →
      let u : State := { s with joint.timer := s.joint.timer + 1 }
      (s.joint.timer + 1 < s.joint.limits.timeout → jointTick s = u) ∧
      (s.joint.limits.timeout ≤ s.joint.timer + 1 → jointTick s = endBreakPermit u)) ∧
    (s.joint.state ≠ .breakPermit → jointTick s = s)) ∧
  (∀ s : State,
    let c : Category :=
      if s.bill.override = .standbyClient then .standbyClient
      else if s.bill.override = .nonBillable then .nonBillable
      else if s.circ.state = .totalLoss then .lossControl
      else if 0 < s.bill.drillTimer then .drilling
      else if s.joint.state ≠ .ready ∨ 0 < s.bill.tripTimer then .tripping
      else if s.circ.state.lagCarrying = true then .circulating
      else .idleOnSite
    let counted : State :=
      { s with
        bill.totals := s.bill.totals.modify (categoryCode c) fun n => min (n + 1) 4000000000,
        bill.running := min (s.bill.running + 1) 4000000000,
        bill.residues := s.bill.residues.modify (categoryCode c) fun n => n + 1 }
    let last (u : State) : State :=
      { u with bill.last := some c, bill.drillTimer := u.bill.drillTimer - 1, bill.tripTimer := u.bill.tripTimer - 1 }
    let drilled (u : State) : State :=
      if c = .drilling then { u with lag.spanSeconds := min (u.lag.spanSeconds + 1) 4000000000 } else u
    (s.jobs.state ≠ .opened →
      billingTick s =
        { s with bill.drillTimer := s.bill.drillTimer - 1, bill.tripTimer := s.bill.tripTimer - 1 }) ∧
    (s.jobs.state = .opened → ∀ n, s.bill.residues[categoryCode c]? = some n →
      (n < 35 → billingTick s = last (drilled counted)) ∧
      (35 ≤ n → ∀ r, s.price.active = some r →
        billingTick s =
          last (drilled
            (priceUnder .time { generation := r.generation, a := categoryCode c, b := 0 }
              (r.times[categoryCode c]?.getD 0) 1
              { counted with
                bill.residues := counted.bill.residues.modify (categoryCode c) fun n => n - 36 }))))) ∧
  (∀ s : State,
    (s.flu.binPhase ≠ 4 → phaseTick s = { s with flu.binPhase := s.flu.binPhase + 1 }) ∧
    (s.flu.binPhase = 4 →
      let u : State := { s with flu.binPhase := 0, flu.binTickTaken := false }
      (s.flu.binTickTaken = true → phaseTick s = u) ∧ (s.flu.binTickTaken = false → phaseTick s = takeBinTick u))) ∧
  ∀ s : State, s.power = .running → s.circ.state ≠ .priming → s.circ.state ≠ .stopping →
    s.joint.state ≠ .breakPermit → secondsLawful s →
    ∃ t, exec .secondTick s = .next t ∧ t.bill.drillTimer = s.bill.drillTimer - 1 ∧
      t.bill.tripTimer = s.bill.tripTimer - 1 ∧ t.bill.override = s.bill.override ∧
      (s.jobs.state ≠ .opened →
        t.bill.totals = s.bill.totals ∧ t.bill.residues = s.bill.residues ∧ t.bill.running = s.bill.running ∧
          t.bill.last = s.bill.last) ∧
      (s.jobs.state = .opened →
        let c : Category :=
          if s.bill.override = .standbyClient then .standbyClient
          else if s.bill.override = .nonBillable then .nonBillable
          else if s.circ.state = .totalLoss then .lossControl
          else if 0 < s.bill.drillTimer then .drilling
          else if s.joint.state ≠ .ready ∨ 0 < s.bill.tripTimer then .tripping
          else if s.circ.state = .circulating ∨ s.circ.state = .partialLoss ∨ s.circ.state = .pumpTest then .circulating
          else .idleOnSite
        t.bill.last = some c ∧ t.bill.running = min (s.bill.running + 1) 4000000000 ∧
          t.bill.totals = s.bill.totals.modify (categoryCode c) (fun n => min (n + 1) 4000000000) ∧
          t.bill.residues = s.bill.residues.modify (categoryCode c) (fun n => if n = 35 then 0 else n + 1))

/-- SET CATEGORY replaces the override; DRAW MATERIAL is refused in order, else the quantity times the price times 10 is
priced under its key; a residue that stands at 36 or more gives one unit, priced at the active set (R154, R158, R159, R160;
the unit as a command of its own is log 5). -/
def Obligations.CategoriesDrawsAndUnits : Prop :=
  (∀ (who : Addressee) (s : State), ready who s →
    (∀ o : Override, isAnswered (.setCategory who o.code) s .ok fun u => { u with bill.override := o }) ∧
    (∀ code, 2 < code → isRefused (.setCategory who code) s .badArgument) ∧
    ∀ item quantity,
      let good := item ≤ 31 ∧ 1 ≤ quantity ∧ quantity ≤ 99999
      (¬ good → isRefused (.drawMaterial who item quantity) s .badArgument) ∧
      (good → s.jobs.state ≠ .opened → isRefused (.drawMaterial who item quantity) s .noJob) ∧
      (good → s.jobs.state = .opened → activeMaterial item s = none →
        isRefused (.drawMaterial who item quantity) s .notFound) ∧
      (good → s.jobs.state = .opened → ∀ r m, s.price.active = some r → r.materials[item]? = some (some m) →
        let key : LineKey := { generation := r.generation, a := item, b := 0 }
        let line := lineFor .material key s
        ∃ u, u = priceUnder .material key (quantity * m.price * 10) quantity
              (taking (.drawMaterial who item quantity) s) ∧
          exec (.drawMaterial who item quantity) s =
            answered (.drawMaterial who item quantity)
              (.ok (oct2 line ++ oct4 (((u.price.lines[line]?).map (·.amount)).getD 0) ++
                oct1 (((u.price.lines[line]?).map (·.residue)).getD 0) ++ oct2 r.generation)) u)) ∧
  ∀ (c : Category) (s : State) (n : Nat), s.power = .running → s.bill.residues[categoryCode c]? = some n →
    (n < 36 → comesTo (.billingUnit c) s s) ∧
    (36 ≤ n → ∀ r, s.price.active = some r →
      comesTo (.billingUnit c) s
        (priceUnder .time { generation := r.generation, a := categoryCode c, b := 0 }
          (r.times[categoryCode c]?.getD 0) 1
          { s with bill.residues := s.bill.residues.modify (categoryCode c) fun k => k - 36 }))

/-! ## Incidents and reading (spec 09, spec 11) -/

/-- A recording merges into the pending slot of its kind; else, with the overflow flag clear, it is written whole into the
first free slot after the last written, or sets the overflow flag; with the flag set it is lost (R167, R168). -/
def Obligations.ARecordingMergesIsWrittenOrOverflows : Prop :=
  ∀ (kind : IncidentKind) (d1 d2 : Nat) (s : State), incidentsLawful s →
    let u := (recordIncident kind d1 d2 s).1
    let back := (recordIncident kind d1 d2 s).2
    (∀ (n : Nat) (r : Incident), s.inc.slots[n]? = some (some r) → r.pending = true → r.kind = kind →
      back = some n ∧
        u = { s with
              inc.slots := s.inc.slots.modify n fun _ =>
                some { r with repeats := min (r.repeats + 1) 255, last := s.flu.clock } }) ∧
    ((∀ (n : Nat) (r : Incident), s.inc.slots[n]? = some (some r) → r.pending = true → r.kind ≠ kind) →
      (s.inc.overflow = true → back = none ∧ u = s) ∧
      (s.inc.overflow = false →
        ((∀ n < 16, slotPending s n = true) →
          back = none ∧ u.inc.overflow = true ∧ u.inc.slots = s.inc.slots ∧ u.inc.order = s.inc.order ∧
            u.inc.flags.incident = true) ∧
        ∀ j < 16, slotPending s ((s.inc.lastWritten + 1 + j) % 16) = false →
          (∀ k < j, slotPending s ((s.inc.lastWritten + 1 + k) % 16) = true) →
          let n := (s.inc.lastWritten + 1 + j) % 16
          back = some n ∧ u.inc.lastWritten = n ∧ u.inc.order = s.inc.order ++ [n] ∧ u.inc.overflow = false ∧
            u.inc.slots =
              s.inc.slots.modify n (fun _ =>
                some
                  { kind := kind, first := s.flu.clock, last := s.flu.clock, hole := s.rods.holeDepth, detail1 := d1,
                    detail2 := d2, repeats := 1, pending := true }) ∧
            u.inc.flags.incident = true))

/-- CLEAR INCIDENT, CLEAR OVERFLOW and SET NOTICE MASK: the slot leaves the pending list and may free HELD, the flag clears,
the masks are replaced; the replies say what stood before (R104, R170, R171, R177). An event of a class whose flag is set changes
nothing; one that finds it clear sets it and, while the class is unmasked, the part has an own address and no notice of the
class waits, puts one notice of the class behind those waiting (R174, R175, R199, R202). -/
def Obligations.IncidentRequestsClearAndMask : Prop :=
  (∀ (c : NoticeClass) (s : State),
    (s.inc.flags.get c = true → notify c s = s) ∧
    (s.inc.flags.get c = false →
      let set : State := { s with inc.flags := s.inc.flags.set c true }
      (s.inc.masks.get c = true ∨ ownAddress s = none ∨ c ∈ s.link.notices → notify c s = set) ∧
      (s.inc.masks.get c = false → ownAddress s ≠ none → c ∉ s.link.notices →
        notify c s = { set with link.notices := s.link.notices ++ [c] }))) ∧
  (∀ (c d : NoticeClass) (f : ClassFlags) (b : Bool), (f.set c b).get d = if d = c then b else f.get d) ∧
  ∀ (who : Addressee) (s : State), ready who s →
    (∀ n,
      (15 < n → isRefused (.clearIncident who n) s .badArgument) ∧
      (n ≤ 15 → slotPending s n = false → isAnswered (.clearIncident who n) s (.ok (oct1 0)) fun u => u) ∧
      (n ≤ 15 → slotPending s n = true →
        ∃ u, exec (.clearIncident who n) s = answered (.clearIncident who n) (.ok (oct1 1)) u ∧
          let cleared : State :=
            { taking (.clearIncident who n) s with
              inc.slots := s.inc.slots.modify n fun slot => slot.map fun r => { r with pending := false },
              inc.order := s.inc.order.filter fun m => decide (m ≠ n) }
          (¬ (s.joint.state = .held ∧ s.joint.heldRef = some n) → u = cleared) ∧
          (s.joint.state = .held → s.joint.heldRef = some n →
            u = enterReady cleared ∧ u.joint.state = .ready ∧ u.joint.heldRef = none))) ∧
    isAnswered (.clearOverflow who) s (.ok (oct1 (if s.inc.overflow = true then 1 else 0)))
      (fun u => { u with inc.overflow := false }) ∧
    ∀ mask,
      (63 < mask → isRefused (.setNoticeMask who mask) s .badArgument) ∧
      (mask ≤ 63 →
        ∃ u, exec (.setNoticeMask who mask) s = answered (.setNoticeMask who mask) .ok u ∧
          u.inc.masks.bits = mask ∧ u.inc.flags = s.inc.flags ∧ u.inc.slots = s.inc.slots ∧
          (ownAddress s ≠ none → ∀ c : NoticeClass,
            c ∈ u.link.notices ↔
              c ∈ s.link.notices ∨
                (s.inc.masks.get c = true ∧ u.inc.masks.get c = false ∧ s.inc.flags.get c = true)))

/-- READ STATUS clears its class's pending flag and nothing else, LAG records LAG_CLAMPED where L(hole depth) is clamped, ROD
changes nothing; READ RECORDS answers the slice its start, count and direction name and changes nothing (R62, R176, R203,
R204). What the octets are: first the forms of fields and the codes (spec 11, Payload fields and code table; a composite with one
presence octet, log 18); then each status, field by field in its rule's order (R43, R62, R82, R105, R126, R150, R163, R173, R194;
widths and presence octets log 17 and 18, the order of the twelve notice flags log 37); then the records of each collection (R63,
R65, R83, R121, R127, R150, R166, R185, R195; the composites not laid out by spec 11 log 18, 19 and 42). -/
def Obligations.ReadingClearsNothingButThePendingFlag : Prop :=
  -- The forms.
  ((∀ n, oct1 n = [BitVec.ofNat 8 n] ∧ oct2 n = [BitVec.ofNat 8 (n / 256), BitVec.ofNat 8 n] ∧
      oct4 n =
        [BitVec.ofNat 8 (n / 16777216), BitVec.ofNat 8 (n / 65536), BitVec.ofNat 8 (n / 256), BitVec.ofNat 8 n]) ∧
    (octFlag false = [0] ∧ octFlag true = [1]) ∧
    (∀ i : Int, octOptInt 2 (some i) = [1] ++ oct2 (i % 65536).toNat ∧ octInt 4 i = oct4 (i % 4294967296).toNat) ∧
    octOptInt 2 none = [0, 0, 0] ∧
    (∀ w, octOpt w none = 0 :: List.replicate w 0 ∧ octBlock w none = 0 :: List.replicate w 0) ∧
    (∀ n, octOpt 1 (some n) = [1] ++ oct1 n ∧ octOpt 2 (some n) = [1] ++ oct2 n ∧ octOpt 4 (some n) = [1] ++ oct4 n) ∧
    (∀ w bs, octBlock w (some bs) = [1] ++ bs) ∧
    (∀ k, octLocation .yard = [0] ++ oct2 0 ∧ octLocation (.magazine k) = [1] ++ oct2 k ∧
      octLocation .arm = [2] ++ oct2 0 ∧ octLocation (.string k) = [3] ++ oct2 k) ∧
    octMaterial none = [0] ++ oct4 0 ∧ ∀ m : Material, octMaterial (some m) = oct1 m.unit.code ++ oct4 m.price) ∧
  -- The codes.
  ((∀ a b : Bool, PumpMask.code { a := a, b := b } = (if a then 1 else 0) + (if b then 2 else 0)) ∧
    [RodStatus.serviceable, .inspect, .retired].map RodStatus.code = List.range 3 ∧
    [EpisodeOutcome.made, .overtorque, .short, .bypass, .stray, .broken, .ignored].map EpisodeOutcome.code =
      List.range 7 ∧
    [Origin.observed, .resumed, .blind, .unobserved].map Origin.code = List.range 4 ∧
    [MaterialUnit.kg, .litre, .bag, .piece, .metre].map MaterialUnit.code = [1, 2, 3, 4, 5] ∧
    (∀ t, [StageState.editing, .armed t, .due t].map StageState.code = List.range 3) ∧
    [Trigger.immediate, .nextConnection, .nextDay].map Trigger.code = List.range 3 ∧
    [LineKind.footage, .time, .material].map LineKind.code = List.range 3 ∧
    [Category.standbyClient, .nonBillable, .lossControl, .drilling, .tripping, .circulating, .idleOnSite].map
      categoryCode = List.range 7 ∧
    [Override.off, .standbyClient, .nonBillable].map Override.code = List.range 3 ∧
    [FilingOutcome.filed, .programFailed, .interrupted, .storeFull, .storeProtected].map FilingOutcome.code =
      List.range 5 ∧
    (∀ t, [StoreSlot.erased, .writing, .filed t, .defective, .torn].map StoreSlot.code = List.range 5) ∧
    [NoticeClass.circulation, .joint, .strata, .billing, .incident, .store].map NoticeClass.code = List.range 6 ∧
    [IncidentKind.channelFault, .counterSaturated, .strokeWithoutEnable, .primeNoReturns, .lossPartial, .lossTotal,
      .bleedUnconfirmed, .resetUnderPressure, .flowGain, .flowWhileStill, .powerRestoredPumping, .lagClamped,
      .lagQueueOverrun, .overpull, .unknownRod, .rodMismatch, .rodNotServiceable, .stringFull, .overtorque, .shortTorque,
      .interlockBypass, .strayTorque, .rodOrphaned, .strataLogFull, .strikeListFull, .chargeSaturated, .chargeLinesFull,
      .storeFault, .tornTicket].map IncidentKind.code = List.range' 1 29) ∧
  -- The statuses of the six classes, of LAG and of ROD.
  (∀ s : State,
    let c := s.circ
    let j := s.joint
    let p := s.price
    let l := s.lag
    let r := s.rods
    let v := s.strata.intervals.getLast?.filter fun v => v.bottom.isNone
    let keyed (k : LineKind) := p.lines.countP fun i => decide (i.kind = k) && i.key.isSome
    let amount (i : Nat) := ((p.lines[i]?).map (·.amount)).getD 0
    let carrying := p.previous.elim 0 fun old => l.queue.countP fun m => decide (m.generation = old.generation)
    let oldest := s.inc.order.head?.bind fun n => (s.inc.slots[n]?).getD none
    let spacing := (l.spanTop / l.spacing + 1) * l.spacing
    classStatus .circulation s =
      oct1 c.state.code ++ oct1 c.mask.code ++
        oct2 c.pumpA.displacement ++ oct2 c.pumpA.efficiency ++ oct2 c.pumpB.displacement ++ oct2 c.pumpB.efficiency ++
        oct2 c.meterWeight ++
        oct4 c.vp ++ oct4 c.vr ++ oct4 c.vl ++ oct4 c.pumpedResidue ++ oct4 c.returnResidue ++
        oct4 c.jobLoss ++
        oct1 c.window.length ++ oct2 c.openBin.pumped ++ oct2 c.openBin.returned ++
        oct4 (c.window.map (·.pumped)).sum ++ oct4 (c.window.map (·.returned)).sum ++
        octOptInt 2 (c.lastEval.map (·.lossRate)) ++ octOpt 4 (c.lastEval.map (·.pumped)) ++
        octOpt 4 (c.lastEval.map (·.returned)) ++ octOpt 1 (c.lastEval.map fun e => if e.verdict then 1 else 0) ++
        oct1 c.totalRun ++ oct1 c.partialRun ++ oct1 c.recoveryRun ++ oct1 c.clearRun ++ octFlag c.gainEpisode ++
        oct2 c.primeCount ++ oct2 c.primeTimer ++
        oct2 c.stopTimer ++ octFlag c.bleedHolding ++ oct1 c.bleedCount ++
        oct4 c.staticCount ++ octFlag c.staticFlag ++
        oct2 c.limits.primeVolume ++ oct2 c.limits.primeTimeout ++ oct2 c.limits.stopTimeout ++
        oct2 c.limits.bleedLimit ++ oct2 c.limits.flowCheck ++
        oct2 c.balance.minVolume ++ oct1 c.balance.totalPercent ++ oct2 c.balance.partialThreshold ++
        oct2 c.balance.hysteresis ++ oct2 c.balance.gainThreshold ∧
    classStatus .joint s =
      oct1 j.state.code ++
        octOpt 2 (j.arm.map (·.rod)) ++
        octBlock 3 (j.arm.map fun a =>
          match a.source with
          | .yard => octLocation .yard
          | .slot k => octLocation (.magazine k)
          | .string => octLocation (.string 0)) ++
        octFlag j.episode.isSome ++ octOpt 4 (j.episode.map (·.peak)) ++
        octOpt 1 (j.episode.map fun e => if e.permitLow then 1 else 0) ++
        octOpt 4 (j.last.map (·.peak)) ++ octOpt 1 (j.last.map (·.outcome.code)) ++
        oct2 j.timer ++ octOpt 1 j.heldRef ++
        octFlag s.flu.makeUpPermit ++ octFlag s.flu.breakPermit ++
        oct4 j.limits.target ++ oct2 j.limits.tolerance ++ oct4 j.limits.maximum ++ oct2 j.limits.detect ++
        oct2 j.limits.timeout ++ oct2 (j.limits.target / 10) ∧
    classStatus .strata s =
      oct2 s.strata.intervals.length ++
        octOpt 2 (v.map fun _ => s.strata.intervals.length - 1) ++ octOpt 4 (v.map (·.top)) ++
        octOpt 1 (v.map (·.cls)) ++ octOpt 1 (v.map (·.origin.code)) ++
        oct4 l.frontier ++ oct1 s.strata.resumeClass ++ octFlag s.strata.drain ++ octFlag s.strata.fullSeen ++
        oct1 s.strata.strikes.length ∧
    classStatus .billing s =
      octOpt 2 (p.active.map (·.generation)) ++ octOpt 2 (p.previous.map (·.generation)) ++
        oct1 p.stage.code ++
        octOpt 1
          (match p.stage with
            | .editing => none
            | .armed t | .due t => some t.code) ++
        octFlag (p.staging.floors.isSome && p.staging.rows.all (·.isSome) && p.staging.times.isSome) ++
        octOpt 2
          (match p.stage with
            | .due _ => some carrying
            | .editing | .armed _ => none) ++
        oct1 (keyed .footage) ++ oct1 (keyed .time) ++ oct1 (keyed .material) ++
        oct4 (amount 0) ++ oct4 (amount 1) ++ oct4 (amount 2) ++ octFlag p.saturationSeen ++
        oct1 s.bill.override.code ++ octOpt 1 (s.bill.last.map categoryCode) ++
        oct1 s.bill.drillTimer ++ oct2 s.bill.tripTimer ++
        ((s.bill.totals.zip s.bill.residues).flatMap fun x => oct4 x.1 ++ oct1 x.2) ++ oct4 s.bill.running ∧
    classStatus .incident s =
      octFlag s.inc.overflow ++ oct1 s.inc.lastWritten ++ oct1 s.inc.order.length ++
        octOpt 1 s.inc.order.head? ++ octOpt 1 (oldest.map (·.kind.code)) ++ octOpt 4 (oldest.map (·.first)) ++
        s.inc.order.flatMap oct1 ++
        octFlag s.inc.flags.circulation ++ octFlag s.inc.masks.circulation ++
        octFlag s.inc.flags.joint ++ octFlag s.inc.masks.joint ++
        octFlag s.inc.flags.strata ++ octFlag s.inc.masks.strata ++
        octFlag s.inc.flags.billing ++ octFlag s.inc.masks.billing ++
        octFlag s.inc.flags.incident ++ octFlag s.inc.masks.incident ++
        octFlag s.inc.flags.store ++ octFlag s.inc.masks.store ∧
    classStatus .store s =
      oct1 s.jobs.state.code ++
        octBlock 34 (s.jobs.context.map fun x =>
          oct4 x.number ++ oct2 x.client ++ x.well ++ oct4 x.openTime ++ oct4 x.startDepth ++ octOpt 4 x.closeTime ++
            octFlag x.overrunSeen ++ octOpt 1 (x.filing.map (·.code))) ++
        octFlag s.jobs.buffer.isSome ++ octFlag s.jobs.isProtected ++
        octBlock 2 (s.jobs.op.map fun o =>
          match o with
          | .write n => [0] ++ oct1 n
          | .erase n => [1] ++ oct1 n) ++
        (s.jobs.slots.flatMap fun k =>
          oct1 k.code ++
            match k with
            | .filed t => [1] ++ oct4 t.header.number ++ [1] ++ oct4 t.header.closeTime
            | .erased | .writing | .defective | .torn => List.replicate 10 0) ++
        oct1 (s.jobs.slots.countP fun k => decide (k = .erased)) ∧
    lagStatus s =
      oct2 l.queue.length ++ oct1 l.head ++ oct1 ((l.head + l.queue.length) % 256) ++ oct4 l.frontier ++
        oct4 l.spanTop ++ oct4 (r.holeDepth - l.spanTop) ++ oct4 l.spanSeconds ++ oct4 l.spanLoss ++
        octFlag l.spanBlind ++
        octOpt 4 (if p.active.isSome && decide (spacing ≤ 200000) then some spacing else none) ++
        octOpt 4 (p.active.bind fun a =>
          ((a.floors.drop 1).find? fun f => decide (l.spanTop < f)).filter fun f => decide (f ≤ 200000)) ++
        octOpt 4 (l.queue.head?.map (·.arrival)) ++ octOpt 4 (l.queue.head?.map fun m => m.arrival - c.vl) ++
        oct4 (min (lagVolumeRaw r.holeDepth l) 999999) ++ oct2 l.surface ++ oct4 l.capacity ++ oct1 l.spacing ∧
    rodStatus s =
      oct2 r.registry.length ++ oct1 (r.magazine.countP (·.isSome)) ++
        octOpt 1 (j.arm.bind fun a =>
          match a.source with
          | .slot k => some k
          | .yard | .string => none) ++
        oct2 r.string.length ++ oct4 r.stringLength ++ octOpt 2 r.string.getLast? ++ oct4 r.footage ++
        oct2 r.rotatingLimit ++ oct2 r.makeUpLimit ++ oct2 r.bhaLength ++ oct2 r.headOffset ++ oct4 r.bitDepth ++
        (if j.state = .ready ∧ s.flu.height.fault = false then [0] else [1]) ++
        octFlag r.depthClamp ++ octInt 4 r.unclamped ++ oct4 r.holeDepth ++ oct4 r.overpullLimit ++ octFlag r.overpull) ∧
  -- The records of the collections.
  (∀ s : State,
    let interval (i : Nat) (v : Interval) : List Byte :=
      oct2 i ++ oct4 v.top ++ oct4 (v.bottom.getD 0) ++ oct1 v.cls ++ oct1 v.origin.code ++ oct4 v.opened ++
        oct4 v.seconds ++ oct4 v.loss ++ oct2 v.marks ++ oct2 (v.rate.getD 0) ++
        oct1 ((if v.bottom.isSome then 1 else 0) + (if v.rate.isSome then 2 else 0) + (if v.waterBearing then 4 else 0) +
          (if v.forced then 8 else 0)) ++ oct1 v.note
    let strike (k : Strike) : List Byte :=
      oct4 k.depth ++ oct2 k.yield ++ octOpt 4 k.level ++ oct4 k.time ++ octFlag k.auto
    let line (i : Nat) (l : ChargeLine) : List Byte :=
      oct2 i ++ oct1 l.kind.code ++ oct1 ((if l.key.isNone then 1 else 0) + (if l.saturated then 2 else 0)) ++
        (match l.key with
          | none => [0, 0, 0, 0]
          | some k => oct2 k.generation ++ oct1 k.a ++ oct1 k.b) ++
        oct4 l.amount ++ oct1 l.residue ++ oct4 l.quantity
    let rates (generation : Option Nat) (t : Staging) : List (List Byte) :=
      [octOpt 2 generation ++
          (match t.floors with
            | none => [0, 0]
            | some f => [1] ++ oct1 f.length ++ f.flatMap oct4)] ++
        (t.rows.map fun row => octBlock 24 (row.map fun x => x.flatMap oct4)) ++
        [octBlock 28 (t.times.map fun x => x.flatMap oct4)] ++ t.materials.map octMaterial
    let set (r : RateSet) : List (List Byte) :=
      rates (some r.generation)
        { floors := some r.floors, rows := r.rows.map some, times := some r.times, materials := r.materials }
    let parts (t : Ticket) : List (List (List Byte)) :=
      let h := t.header
      [ [oct4 h.number ++ oct2 h.client ++ h.well ++ oct4 h.openTime ++ oct4 h.closeTime ++ oct4 h.startDepth ++
          oct4 h.finalDepth ++ oct2 h.generation ++ oct4 h.jobLoss ++ oct4 h.vp ++ oct4 h.vr ++
          oct2 t.intervals.length ++ oct1 t.strikes.length ++ oct2 t.lines.length],
        t.intervals.mapIdx interval, t.strikes.map strike, t.lines.mapIdx line,
        ((t.totals.zip t.residues).map fun x => oct4 x.1 ++ oct1 x.2) ++ [oct4 t.running],
        [octFlag t.status.forced ++ octFlag t.status.saturationSeen ++ octFlag t.status.logFullSeen ++
          octFlag t.status.overrunSeen] ]
    (∀ code sel1 sel2,
      10 < code ∨ (code ≤ 8 ∧ (sel1 ≠ 0 ∨ sel2 ≠ 0)) ∨ (code = 9 ∧ (2 < sel1 ∨ sel2 ≠ 0)) ∨
        (code = 10 ∧ (16 < sel1 ∨ 5 < sel2)) → collection code sel1 sel2 s = none) ∧
    collection 0 0 0 s =
      some (s.rods.registry.map fun r =>
        oct2 r.id ++ oct2 r.length ++ oct1 r.status.code ++ oct2 r.makeUps ++ oct2 r.rotating ++ octLocation r.location ++
          octOpt 4 r.entryFootage ++ octOpt 4 r.makeUpPeak ++ octOpt 4 r.breakPeak) ∧
    collection 1 0 0 s =
      some (s.rods.magazine.mapIdx fun k held =>
        oct1 k ++ octOpt 2 held ++ octFlag (decide (s.joint.arm.map (·.source) = some (.slot k)))) ∧
    collection 2 0 0 s =
      some (s.rods.string.mapIdx fun i id =>
        let r := s.rods.registry.find? fun r => decide (r.id = id)
        oct2 i ++ oct2 id ++ oct2 ((r.map (·.length)).getD 0) ++ oct4 ((r.bind (·.entryFootage)).getD 0)) ∧
    collection 3 0 0 s =
      some (s.lag.queue.mapIdx fun i m =>
        oct1 ((s.lag.head + i) % 256) ++ oct4 m.top ++ oct4 m.bottom ++ oct4 m.laid ++ oct4 m.arrival ++
          oct2 m.generation ++ oct1 m.band ++ oct1 ((if m.blind then 1 else 0) + (if m.forced then 2 else 0)) ++
          oct4 m.seconds ++ oct4 m.loss) ∧
    collection 4 0 0 s =
      some (s.lag.sections.map fun e =>
        oct4 e.top ++ oct4 e.bottom ++ oct4 e.capacity ++ octFlag (decide (e.bottom < e.top))) ∧
    collection 5 0 0 s = some (s.strata.intervals.mapIdx interval) ∧
    collection 6 0 0 s = some (s.strata.strikes.map strike) ∧
    collection 7 0 0 s = some (s.price.lines.mapIdx line) ∧
    collection 8 0 0 s =
      some (s.inc.slots.mapIdx fun n slot =>
        oct1 n ++
          match slot with
          | none => List.replicate 23 0
          | some r =>
            oct1 r.kind.code ++ oct4 r.first ++ oct4 r.last ++ oct4 r.hole ++ oct4 r.detail1 ++ oct4 r.detail2 ++
              oct1 r.repeats ++ oct1 (if r.pending then 1 else 0)) ∧
    collection 9 0 0 s = some (s.price.active.elim [] set) ∧
    collection 9 1 0 s = some (s.price.previous.elim [] set) ∧
    collection 9 2 0 s = some (rates none s.price.staging) ∧
    ∀ part ≤ 5,
      collection 10 16 part s = some (s.jobs.buffer.elim [] fun t => (parts t).getD part []) ∧
      ∀ n ≤ 15,
        (∀ t, s.jobs.slots[n]? = some (.filed t) → s.jobs.op ≠ some (.erase n) →
          collection 10 n part s = some ((parts t).getD part [])) ∧
        ((∀ t, s.jobs.slots[n]? ≠ some (.filed t)) ∨ s.jobs.op = some (.erase n) →
          collection 10 n part s = some [])) ∧
  ∀ (who : Addressee) (s : State), ready who s →
    (∀ c : NoticeClass,
      let u : State := { s with inc.flags := s.inc.flags.set c false }
      isAnswered (.readStatus who c.code) s (.ok (classStatus c u)) fun v =>
        { v with inc.flags := v.inc.flags.set c false }) ∧
    (lagVolumeRaw s.rods.holeDepth s.lag ≤ 999999 →
      isAnswered (.readStatus who 6) s (.ok (lagStatus s)) fun u => u) ∧
    (999999 < lagVolumeRaw s.rods.holeDepth s.lag →
      isAnswered (.readStatus who 6) s (.ok (lagStatus s)) fun u =>
        record .lagClamped s.rods.holeDepth (lagVolumeRaw s.rods.holeDepth s.lag) u) ∧
    isAnswered (.readStatus who 7) s (.ok (rodStatus s)) (fun u => u) ∧
    (∀ selector, 7 < selector → isRefused (.readStatus who selector) s .badArgument) ∧
    ∀ code sel1 sel2 start count direction,
      let i : Instr := .readRecords who code sel1 sel2 start count direction
      (collection code sel1 sel2 s = none ∨ count < 1 ∨ 6 < count ∨ 1 < direction → isRefused i s .badArgument) ∧
      ∀ records, collection code sel1 sel2 s = some records → 1 ≤ count → count ≤ 6 →
        (direction ≤ 1 → records.length ≤ start → isRefused i s .notFound) ∧
        (start < records.length →
          (direction = 0 →
            let n := min count (records.length - start)
            isAnswered i s
              (.ok (oct1 n ++ octOpt 2 (if start + n < records.length then some (start + n) else none) ++
                ((records.drop start).take n).flatten)) fun u => u) ∧
          (direction = 1 →
            let n := min count (start + 1)
            isAnswered i s
              (.ok (oct1 n ++ octOpt 2 (if n ≤ start then some (start - n) else none) ++
                (((records.drop (start + 1 - n)).take n).reverse).flatten)) fun u => u))

/-! ## Jobs and the ticket store (spec 10) -/

/-- OPEN JOB: its refusals in order; taken, it sets the hole depth, the accumulators, the lag tracker, interval 0, the rate
sets, the billing clock and the context, and the job state is OPEN (R44, R58, R80, R109, R143, R162, R181, R182). -/
def Obligations.OpenJobFixesWhereTheWellIsAccountedFrom : Prop :=
  ∀ (who : Addressee) (n client : Nat) (well : List Byte) (s : State), ready who s →
    let i : Instr := .openJob who n client well
    let good := (1 ≤ n ∧ n ≤ 999999) ∧ (1 ≤ client ∧ client ≤ 65535) ∧ well.length = 12 ∧
      ∀ c ∈ well, 0x20 ≤ c.toNat ∧ c.toNat ≤ 0x7E
    (¬ good → isRefused i s .badArgument) ∧
    (good →
      (s.jobs.state = .unfiled → isRefused i s .unfiledTicket) ∧
      (s.jobs.state = .opened ∨ s.jobs.state = .closing → isRefused i s .jobOpen) ∧
      (s.jobs.state = .noJob →
        (s.flu.clockUnset = true → isRefused i s .clockUnset) ∧
        (s.flu.clockUnset = false → s.rods.string ≠ [] → isRefused i s .stringInHole) ∧
        (s.flu.clockUnset = false → s.rods.string = [] → s.price.staging.valid = false → isRefused i s .noRates) ∧
        (s.flu.clockUnset = false → s.rods.string = [] → s.price.staging.valid = true →
          let depth := s.rods.bitDepth
          let r := s.price.staging.toSet 1
          ∃ u, exec i s = answered i (.ok (oct4 depth ++ oct2 1)) u ∧
            u.rods = { s.rods with holeDepth := depth } ∧
            u.circ =
              { s.circ with
                vp := 0, vr := 0, vl := 0, pumpedResidue := 0, returnResidue := 0, jobLoss := 0, lastEval := none } ∧
            u.lag =
              { s.lag with
                queue := [], head := 0, frontier := depth, spanTop := depth, spanSeconds := 0, spanLoss := 0,
                spanBlind := decide (s.circ.state = .totalLoss) } ∧
            u.strata =
              { intervals :=
                  [{ top := depth, bottom := none, cls := 15, origin := .unobserved, opened := s.flu.clock, seconds := 0,
                     loss := 0, marks := 0, rate := none, waterBearing := false, forced := false, note := 0 }],
                strikes := [], resumeClass := 15, drain := false, fullSeen := false } ∧
            u.price =
              { active := some r, previous := none, staging := .ofSet r, stage := .editing, lines := consolidatedLines,
                saturationSeen := false } ∧
            u.bill =
              { override := s.bill.override, drillTimer := 0, tripTimer := 0, totals := List.replicate 7 0,
                residues := List.replicate 7 0, running := 0, last := none } ∧
            u.jobs =
              { s.jobs with
                state := .opened,
                context := some
                  { number := n, client := client, well := well, openTime := s.flu.clock, startDepth := depth,
                    closeTime := none, overrunSeen := false, filing := none } } ∧
            u.joint = s.joint ∧ u.flu = s.flu ∧ u.inc.flags.strata = true ∧ u.inc.flags.store = true)))

/-- CLOSE JOB: its refusals in order, with RETURNS_PENDING after the span is laid; taken, the queue is empty, F is the hole
depth, the ticket is assembled, and its WRITE starts on the lowest ERASED slot or it stays UNFILED (R59, R119, R120, R144,
R183 to R186, R188; the reply's last octet log 19). Closing the span leaves one of zero length alone and lays one with length as
the mark at the tail down to the hole depth, with its own flag, seconds and litres; the span reopens there with no counts, and a
swap check follows where the laying met a full queue (R51, R53, R54, R59). -/
def Obligations.CloseJobDrainsAssemblesAndFiles : Prop :=
  (∀ s : State,
    let laid := layMark s.rods.holeDepth s
    (s.rods.holeDepth ≤ s.lag.spanTop → closeSpan s = s) ∧
    (s.lag.spanTop < s.rods.holeDepth →
      (s.lag.queue.length < 256 →
        closeSpan s = laid ∧ laid.lag.frontier = s.lag.frontier ∧ laid.lag.head = s.lag.head) ∧
      (256 ≤ s.lag.queue.length → closeSpan s = swapCheck laid) ∧
      laid.lag.spanTop = s.rods.holeDepth ∧ laid.lag.spanSeconds = 0 ∧ laid.lag.spanLoss = 0 ∧
      laid.lag.spanBlind = decide (s.circ.state = .totalLoss) ∧
      ∃ waiting m, laid.lag.queue = waiting ++ [m] ∧ m.top = s.lag.spanTop ∧ m.bottom = s.rods.holeDepth ∧
        m.laid = s.circ.vl ∧ m.arrival = s.circ.vl + lagVolume s.rods.holeDepth s.lag ∧
        m.blind = s.lag.spanBlind ∧ m.seconds = s.lag.spanSeconds ∧ m.loss = s.lag.spanLoss ∧ m.forced = false ∧
        waiting = (if s.lag.queue.length < 256 then s.lag.queue else s.lag.queue.drop 1))) ∧
  ∀ (who : Addressee) (force : Bool) (s : State), ready who s →
    let i : Instr := .closeJob who force
    (s.jobs.state = .noJob → isRefused i s .noJob) ∧
    (s.jobs.state = .closing ∨ s.jobs.state = .unfiled → isRefused i s .wrongState) ∧
    (s.jobs.state = .opened → s.jobs.op ≠ none → isRefused i s .busy) ∧
    (s.jobs.state = .opened → s.jobs.op = none →
      let v := closeSpan (taking i s)
      (∀ m rest, v.lag.queue = m :: rest → force = false →
        exec i s =
          answered i (.returnsPending (oct2 v.lag.queue.length ++ oct4 (m.arrival - v.circ.vl))) v) ∧
      (v.lag.queue = [] ∨ force = true → frontierLawful s → storeLawful s →
        ∃ u data, exec i s = answered i (.ok (oct2 v.lag.queue.length ++ data)) u ∧
          u.lag.queue = [] ∧ u.lag.frontier = s.rods.holeDepth ∧ u.lag.spanSeconds = 0 ∧ u.lag.spanLoss = 0 ∧
          u.price.stage = .editing ∧
          (s.strata.intervals ≠ [] →
            u.strata.intervals.getLast?.map (·.bottom) = some (some s.rods.holeDepth)) ∧
          u.jobs.context.map (·.closeTime) = some (some s.flu.clock) ∧
          u.jobs.buffer.map (·.header.finalDepth) = some s.rods.holeDepth ∧
          u.jobs.buffer.map (·.status.forced) = some (decide (v.lag.queue ≠ [])) ∧
          u.jobs.buffer.map (·.intervals) = some u.strata.intervals ∧
          u.jobs.buffer.map (·.lines) = some u.price.lines ∧
          u.jobs.buffer.map (·.totals) = some s.bill.totals ∧
          (s.jobs.isProtected = true →
            data = oct1 3 ++ oct1 4 ∧ u.jobs.state = .unfiled ∧ u.jobs.op = none ∧ u.jobs.slots = s.jobs.slots ∧
              u.jobs.context.map (·.filing) = some (some .storeProtected)) ∧
          (s.jobs.isProtected = false → (∀ k ∈ s.jobs.slots, k ≠ .erased) →
            data = oct1 3 ++ oct1 3 ∧ u.jobs.state = .unfiled ∧ u.jobs.op = none ∧ u.jobs.slots = s.jobs.slots ∧
              u.jobs.context.map (·.filing) = some (some .storeFull)) ∧
          (s.jobs.isProtected = false → ∀ n, s.jobs.slots[n]? = some .erased →
            (∀ m < n, s.jobs.slots[m]? ≠ some .erased) →
            data = oct1 2 ++ oct1 n ∧ u.jobs.state = .closing ∧ u.jobs.op = some (.write n) ∧
              u.jobs.slots = s.jobs.slots.modify n fun _ => .writing)))

/-- The completions of the store act on their own operation and on nothing else (R188, R189, R190; that STORE is set pending
before STORE_FAULT is recorded, log 39). -/
def Obligations.CompletionsEndTheirOwnOperation : Prop :=
  ∀ s : State, s.power = .running →
    (∀ n t, s.jobs.op = some (.write n) → s.jobs.buffer = some t →
      (∃ u, comesTo .writeSucceeds s u ∧
        storeChange
          { s.jobs with
            slots := s.jobs.slots.modify n fun _ => .filed t, op := none, buffer := none, state := .noJob,
            context := s.jobs.context.map fun c => { c with filing := some .filed } } s u) ∧
      ∃ u, comesTo .writeProgramFailure s (record .storeFault n 0 u) ∧
        storeChange
          { s.jobs with
            slots := s.jobs.slots.modify n fun _ => .defective, op := none, isProtected := true, state := .unfiled,
            context := s.jobs.context.map fun c => { c with filing := some .programFailed } } s u) ∧
    (∀ n, s.jobs.op = some (.erase n) →
      (∃ u, comesTo (.eraseCompletion true) s u ∧
        storeChange { s.jobs with slots := s.jobs.slots.modify n fun _ => .erased, op := none } s u) ∧
      ∃ u, comesTo (.eraseCompletion false) s (record .storeFault n 1 u) ∧
        storeChange
          { s.jobs with slots := s.jobs.slots.modify n fun _ => .defective, op := none, isProtected := true } s u) ∧
    ((∀ n, s.jobs.op ≠ some (.write n)) → comesTo .writeSucceeds s s ∧ comesTo .writeProgramFailure s s) ∧
    ((∀ n, s.jobs.op ≠ some (.erase n)) → ∀ success, comesTo (.eraseCompletion success) s s)

/-- RETRY FILING, ERASE TICKET, DISCARD TICKET and RELEASE STORE: refusals in order, and what each changes in the job and the
store (R188, R190, R191, R192, R193). -/
def Obligations.StoreRequestsFollowTheirChecks : Prop :=
  ∀ (who : Addressee) (s : State), ready who s →
    ((s.jobs.state ≠ .unfiled → isRefused (.retryFiling who) s .wrongState) ∧
     (s.jobs.state = .unfiled → s.jobs.op ≠ none → isRefused (.retryFiling who) s .busy) ∧
     (s.jobs.state = .unfiled → s.jobs.op = none → s.jobs.isProtected = true →
       isRefused (.retryFiling who) s .storeProtected) ∧
     (s.jobs.state = .unfiled → s.jobs.op = none → s.jobs.isProtected = false →
       ((∀ k ∈ s.jobs.slots, k ≠ .erased) → isRefused (.retryFiling who) s .storeFull) ∧
       ∀ n, s.jobs.slots[n]? = some .erased → (∀ m < n, s.jobs.slots[m]? ≠ some .erased) →
         ∃ u, exec (.retryFiling who) s = answered (.retryFiling who) (.ok (oct1 n)) u ∧
           storeChange
             { s.jobs with
               state := .closing, op := some (.write n), slots := s.jobs.slots.modify n fun _ => .writing }
             (taking (.retryFiling who) s) u)) ∧
    (∀ n,
      (15 < n → isRefused (.eraseTicket who n) s .badArgument) ∧
      (n ≤ 15 → s.jobs.op ≠ none → isRefused (.eraseTicket who n) s .busy) ∧
      (n ≤ 15 → s.jobs.op = none → s.jobs.isProtected = true → isRefused (.eraseTicket who n) s .storeProtected) ∧
      (n ≤ 15 → s.jobs.op = none → s.jobs.isProtected = false →
        (s.jobs.slots[n]? = some .erased ∨ s.jobs.slots[n]? = some .writing →
          isRefused (.eraseTicket who n) s .wrongState) ∧
        (s.jobs.slots[n]? = some .defective ∨ s.jobs.slots[n]? = some .torn ∨
            (∃ t, s.jobs.slots[n]? = some (.filed t)) →
          ∃ u, exec (.eraseTicket who n) s = answered (.eraseTicket who n) .ok u ∧
            storeChange { s.jobs with op := some (.erase n) } (taking (.eraseTicket who n) s) u))) ∧
    ((s.jobs.state = .unfiled →
       ∃ u, exec (.discardTicket who) s = answered (.discardTicket who) .ok u ∧
         storeChange { s.jobs with buffer := none, state := .noJob } (taking (.discardTicket who) s) u) ∧
     (s.jobs.state ≠ .unfiled → isRefused (.discardTicket who) s .wrongState)) ∧
    (s.jobs.isProtected = true →
      ∃ u, exec (.releaseStore who) s = answered (.releaseStore who) (.ok (oct1 1)) u ∧
        storeChange { s.jobs with isProtected := false } (taking (.releaseStore who) s) u) ∧
    (s.jobs.isProtected = false → isAnswered (.releaseStore who) s (.ok (oct1 0)) fun u => u)

/-! ## The laws every step keeps -/

/-- Each law holds of the part right after a cold start. -/
def Obligations.EveryLawHoldsAtReset : Prop :=
  let s := State.reset
  interlockLawful s ∧ storeLawful s ∧ frontierLawful s ∧ generationsLawful s ∧ linkLawful s ∧ incidentsLawful s ∧
    depthLawful s ∧ jointLawful s ∧ secondsLawful s ∧ countsLawful s ∧ rodsLawful s ∧ strataLawful s

/-- The output lines stand as their owners' states command, BREAK_PERMIT stands on resting circulation and a bled standpipe,
and circulation leaves STILL only while the joint controller is READY (R11, R28, R87, R88). -/
def Obligations.EveryStepKeepsTheInterlock : Prop :=
  (∀ s t : State, interlockLawful s → step s = .next t → interlockLawful t) ∧
  ∀ (c : Instr) (s t : State), carriesOctets c = false → exec c s = .next t → s.circ.state = .still →
    t.circ.state ≠ .still → s.joint.state = .ready

/-- At most one store operation is in flight, only its target is WRITING, and buffer, context and PROTECTED agree with the job
state (R180, R187, R193). -/
def Obligations.EveryStepKeepsTheStoreLaw : Prop :=
  ∀ s t : State, storeLawful s → step s = .next t → storeLawful t

/-- While a job is OPEN the queued marks run without gap from F to the open span, the span ends at or above the hole depth,
each mark carries the active or the previous generation, and the strata log's intervals cover the job's start depth down to F
without gap, the last of them open; after the job they end closed at F. Outside a job the queue is empty; there are at most
320 intervals and 32 strikes (R55, R60, R108, R120, R121, R139). -/
def Obligations.EveryStepKeepsTheReturnsFrontier : Prop :=
  (∀ s t : State, frontierLawful s → step s = .next t → frontierLawful t) ∧
  (∀ s t : State, frontierLawful s → generationsLawful s → step s = .next t → generationsLawful t) ∧
  ∀ s t : State, frontierLawful s → strataLawful s → step s = .next t → strataLawful t

/-- The holding place, the reply of its first request and the waiting notices stay as R199, R200 and R202 give. -/
def Obligations.EveryStepKeepsTheLinkLaw : Prop :=
  ∀ s t : State, linkLawful s → step s = .next t → linkLawful t

/-- The pending list holds each pending slot once, and no two pending slots are of one kind (R166, R167). -/
def Obligations.EveryStepKeepsTheIncidentTableLaw : Prop :=
  ∀ s t : State, incidentsLawful s → step s = .next t → incidentsLawful t

/-- Bit depth never exceeds hole depth nor hole depth 200,000 cm; the arm record, the HELD reference and the break-permit
timer agree with the joint state; the category totals sum to the running seconds and no residue rests at 36; the window, the
runs, the bleed hold count and the bin phase stay in their ranges; every registered rod is in exactly one place, agreeing with
the magazine, the string and the arm (R13, R24, R26, R36, R65, R66, R79, R86, R100, R103, R153, R154). -/
def Obligations.EveryStepKeepsDepthJointAndSeconds : Prop :=
  (∀ s t : State, depthLawful s → step s = .next t → depthLawful t) ∧
  (∀ s t : State, jointLawful s → step s = .next t → jointLawful t) ∧
  (∀ s t : State, secondsLawful s → step s = .next t → secondsLawful t) ∧
  (∀ s t : State, countsLawful s → step s = .next t → countsLawful t) ∧
  ∀ s t : State, jointLawful s → rodsLawful s → step s = .next t → rodsLawful t
end

