-- ==== Sys2Proof/Laws/Frame.lean ====
section
/-! SUPPORT. Frames: what each operation of the model leaves alone, one lemma for each operation, block by block of State. A proof
about one block cites these and never opens an operation of another block. -/

namespace Sys2Proof.Machine

/-! ## Flags and outputs -/

@[simp] theorem commandEnables_frame (s : State) :
    (commandEnables s).power = s.power ∧ (commandEnables s).circ = s.circ ∧ (commandEnables s).lag = s.lag ∧
      (commandEnables s).rods = s.rods ∧ (commandEnables s).joint = s.joint ∧ (commandEnables s).strata = s.strata ∧
      (commandEnables s).price = s.price ∧ (commandEnables s).bill = s.bill ∧ (commandEnables s).inc = s.inc ∧
      (commandEnables s).jobs = s.jobs ∧ (commandEnables s).link = s.link ∧ (commandEnables s).free = s.free ∧
      (commandEnables s).pending = s.pending := by
  unfold commandEnables
  dsimp only
  simp

@[simp] theorem commandPermits_frame (s : State) :
    (commandPermits s).power = s.power ∧ (commandPermits s).circ = s.circ ∧ (commandPermits s).lag = s.lag ∧
      (commandPermits s).rods = s.rods ∧ (commandPermits s).strata = s.strata ∧ (commandPermits s).price = s.price ∧
      (commandPermits s).bill = s.bill ∧ (commandPermits s).inc = s.inc ∧ (commandPermits s).jobs = s.jobs ∧
      (commandPermits s).link = s.link ∧ (commandPermits s).free = s.free ∧
      (commandPermits s).pending = s.pending := by
  unfold commandPermits
  dsimp only
  simp

@[simp] theorem dropOutputs_frame (s : State) :
    (dropOutputs s).power = s.power ∧ (dropOutputs s).circ = s.circ ∧ (dropOutputs s).lag = s.lag ∧
      (dropOutputs s).rods = s.rods ∧ (dropOutputs s).joint = s.joint ∧ (dropOutputs s).strata = s.strata ∧
      (dropOutputs s).price = s.price ∧ (dropOutputs s).bill = s.bill ∧ (dropOutputs s).inc = s.inc ∧
      (dropOutputs s).jobs = s.jobs ∧ (dropOutputs s).link = s.link ∧ (dropOutputs s).free = s.free ∧
      (dropOutputs s).pending = s.pending := by
  unfold dropOutputs
  dsimp only
  simp

@[simp] theorem handNotice_frame (c : NoticeClass) (s : State) :
    (handNotice c s).power = s.power ∧ (handNotice c s).flu = s.flu ∧ (handNotice c s).circ = s.circ ∧
      (handNotice c s).lag = s.lag ∧ (handNotice c s).rods = s.rods ∧ (handNotice c s).joint = s.joint ∧
      (handNotice c s).strata = s.strata ∧ (handNotice c s).price = s.price ∧ (handNotice c s).bill = s.bill ∧
      (handNotice c s).inc = s.inc ∧ (handNotice c s).jobs = s.jobs ∧ (handNotice c s).free = s.free ∧
      (handNotice c s).pending = s.pending := by
  unfold handNotice
  dsimp only
  repeat' split
  all_goals simp

@[simp] theorem notify_frame (c : NoticeClass) (s : State) :
    (notify c s).power = s.power ∧ (notify c s).flu = s.flu ∧ (notify c s).circ = s.circ ∧ (notify c s).lag = s.lag ∧
      (notify c s).rods = s.rods ∧ (notify c s).joint = s.joint ∧ (notify c s).strata = s.strata ∧
      (notify c s).price = s.price ∧ (notify c s).bill = s.bill ∧ (notify c s).jobs = s.jobs ∧
      (notify c s).free = s.free ∧ (notify c s).pending = s.pending := by
  unfold notify
  dsimp only
  repeat' split
  all_goals simp

@[simp] theorem clearPending_frame (c : NoticeClass) (s : State) :
    (clearPending c s).power = s.power ∧ (clearPending c s).flu = s.flu ∧ (clearPending c s).circ = s.circ ∧
      (clearPending c s).lag = s.lag ∧ (clearPending c s).rods = s.rods ∧ (clearPending c s).joint = s.joint ∧
      (clearPending c s).strata = s.strata ∧ (clearPending c s).price = s.price ∧ (clearPending c s).bill = s.bill ∧
      (clearPending c s).jobs = s.jobs ∧ (clearPending c s).link = s.link ∧ (clearPending c s).free = s.free ∧
      (clearPending c s).pending = s.pending := by
  unfold clearPending
  dsimp only
  simp

/-! ## Incidents -/

@[simp] theorem mergeIncident_frame (n : Nat) (s : State) :
    (mergeIncident n s).power = s.power ∧ (mergeIncident n s).flu = s.flu ∧ (mergeIncident n s).circ = s.circ ∧
      (mergeIncident n s).lag = s.lag ∧ (mergeIncident n s).rods = s.rods ∧ (mergeIncident n s).joint = s.joint ∧
      (mergeIncident n s).strata = s.strata ∧ (mergeIncident n s).price = s.price ∧
      (mergeIncident n s).bill = s.bill ∧ (mergeIncident n s).jobs = s.jobs ∧ (mergeIncident n s).link = s.link ∧
      (mergeIncident n s).free = s.free ∧ (mergeIncident n s).pending = s.pending := by
  unfold mergeIncident
  dsimp only
  simp

@[simp] theorem writeIncident_frame (k : IncidentKind) (d1 d2 n : Nat) (s : State) :
    (writeIncident k d1 d2 n s).power = s.power ∧ (writeIncident k d1 d2 n s).flu = s.flu ∧
      (writeIncident k d1 d2 n s).circ = s.circ ∧ (writeIncident k d1 d2 n s).lag = s.lag ∧
      (writeIncident k d1 d2 n s).rods = s.rods ∧ (writeIncident k d1 d2 n s).joint = s.joint ∧
      (writeIncident k d1 d2 n s).strata = s.strata ∧ (writeIncident k d1 d2 n s).price = s.price ∧
      (writeIncident k d1 d2 n s).bill = s.bill ∧ (writeIncident k d1 d2 n s).jobs = s.jobs ∧
      (writeIncident k d1 d2 n s).free = s.free ∧ (writeIncident k d1 d2 n s).pending = s.pending := by
  unfold writeIncident
  dsimp only
  simp

@[simp] theorem recordIncident_frame (k : IncidentKind) (d1 d2 : Nat) (s : State) :
    (recordIncident k d1 d2 s).1.power = s.power ∧ (recordIncident k d1 d2 s).1.flu = s.flu ∧
      (recordIncident k d1 d2 s).1.circ = s.circ ∧ (recordIncident k d1 d2 s).1.lag = s.lag ∧
      (recordIncident k d1 d2 s).1.rods = s.rods ∧ (recordIncident k d1 d2 s).1.joint = s.joint ∧
      (recordIncident k d1 d2 s).1.strata = s.strata ∧ (recordIncident k d1 d2 s).1.price = s.price ∧
      (recordIncident k d1 d2 s).1.bill = s.bill ∧ (recordIncident k d1 d2 s).1.jobs = s.jobs ∧
      (recordIncident k d1 d2 s).1.free = s.free ∧ (recordIncident k d1 d2 s).1.pending = s.pending := by
  unfold recordIncident
  dsimp only
  repeat' split
  all_goals simp

@[simp] theorem record_frame (k : IncidentKind) (d1 d2 : Nat) (s : State) :
    (record k d1 d2 s).power = s.power ∧ (record k d1 d2 s).flu = s.flu ∧ (record k d1 d2 s).circ = s.circ ∧
      (record k d1 d2 s).lag = s.lag ∧ (record k d1 d2 s).rods = s.rods ∧ (record k d1 d2 s).joint = s.joint ∧
      (record k d1 d2 s).strata = s.strata ∧ (record k d1 d2 s).price = s.price ∧ (record k d1 d2 s).bill = s.bill ∧
      (record k d1 d2 s).jobs = s.jobs ∧ (record k d1 d2 s).free = s.free ∧
      (record k d1 d2 s).pending = s.pending := by
  simp [record]

@[simp] theorem recordSaturation_frame (counter before after : Nat) (s : State) :
    (recordSaturation counter before after s).power = s.power ∧
      (recordSaturation counter before after s).flu = s.flu ∧
      (recordSaturation counter before after s).circ = s.circ ∧
      (recordSaturation counter before after s).lag = s.lag ∧
      (recordSaturation counter before after s).rods = s.rods ∧
      (recordSaturation counter before after s).joint = s.joint ∧
      (recordSaturation counter before after s).strata = s.strata ∧
      (recordSaturation counter before after s).price = s.price ∧
      (recordSaturation counter before after s).bill = s.bill ∧
      (recordSaturation counter before after s).jobs = s.jobs ∧
      (recordSaturation counter before after s).free = s.free ∧
      (recordSaturation counter before after s).pending = s.pending := by
  unfold recordSaturation
  repeat' split
  all_goals simp

/-! ## Strata log -/

@[simp] theorem onLastInterval_frame (f : Interval → Interval) (s : State) :
    (onLastInterval f s).power = s.power ∧ (onLastInterval f s).flu = s.flu ∧ (onLastInterval f s).circ = s.circ ∧
      (onLastInterval f s).lag = s.lag ∧ (onLastInterval f s).rods = s.rods ∧ (onLastInterval f s).joint = s.joint ∧
      (onLastInterval f s).price = s.price ∧ (onLastInterval f s).bill = s.bill ∧ (onLastInterval f s).inc = s.inc ∧
      (onLastInterval f s).jobs = s.jobs ∧ (onLastInterval f s).link = s.link ∧ (onLastInterval f s).free = s.free ∧
      (onLastInterval f s).pending = s.pending := by
  unfold onLastInterval
  dsimp only
  simp

@[simp] theorem closeInterval_frame (d : Nat) (final : Bool) (s : State) :
    (closeInterval d final s).power = s.power ∧ (closeInterval d final s).flu = s.flu ∧
      (closeInterval d final s).circ = s.circ ∧ (closeInterval d final s).lag = s.lag ∧
      (closeInterval d final s).rods = s.rods ∧ (closeInterval d final s).joint = s.joint ∧
      (closeInterval d final s).price = s.price ∧ (closeInterval d final s).bill = s.bill ∧
      (closeInterval d final s).inc = s.inc ∧ (closeInterval d final s).jobs = s.jobs ∧
      (closeInterval d final s).link = s.link ∧ (closeInterval d final s).free = s.free ∧
      (closeInterval d final s).pending = s.pending := by
  simp [closeInterval]

@[simp] theorem appendInterval_frame (d cls : Nat) (o : Origin) (s : State) :
    (appendInterval d cls o s).power = s.power ∧ (appendInterval d cls o s).flu = s.flu ∧
      (appendInterval d cls o s).circ = s.circ ∧ (appendInterval d cls o s).lag = s.lag ∧
      (appendInterval d cls o s).rods = s.rods ∧ (appendInterval d cls o s).joint = s.joint ∧
      (appendInterval d cls o s).price = s.price ∧ (appendInterval d cls o s).bill = s.bill ∧
      (appendInterval d cls o s).jobs = s.jobs ∧ (appendInterval d cls o s).free = s.free ∧
      (appendInterval d cls o s).pending = s.pending := by
  unfold appendInterval
  dsimp only
  simp

@[simp] theorem nextInterval_frame (d cls : Nat) (o : Origin) (s : State) :
    (nextInterval d cls o s).power = s.power ∧ (nextInterval d cls o s).flu = s.flu ∧
      (nextInterval d cls o s).circ = s.circ ∧ (nextInterval d cls o s).lag = s.lag ∧
      (nextInterval d cls o s).rods = s.rods ∧ (nextInterval d cls o s).joint = s.joint ∧
      (nextInterval d cls o s).price = s.price ∧ (nextInterval d cls o s).bill = s.bill ∧
      (nextInterval d cls o s).jobs = s.jobs ∧ (nextInterval d cls o s).free = s.free ∧
      (nextInterval d cls o s).pending = s.pending := by
  unfold nextInterval
  dsimp only
  repeat' split
  all_goals simp

@[simp] theorem relabel_frame (cls : Nat) (o : Origin) (s : State) :
    (relabel cls o s).power = s.power ∧ (relabel cls o s).flu = s.flu ∧ (relabel cls o s).circ = s.circ ∧
      (relabel cls o s).lag = s.lag ∧ (relabel cls o s).rods = s.rods ∧ (relabel cls o s).joint = s.joint ∧
      (relabel cls o s).price = s.price ∧ (relabel cls o s).bill = s.bill ∧ (relabel cls o s).jobs = s.jobs ∧
      (relabel cls o s).free = s.free ∧ (relabel cls o s).pending = s.pending := by
  simp [relabel]

@[simp] theorem classAt_frame (d cls : Nat) (o : Origin) (s : State) :
    (classAt d cls o s).power = s.power ∧ (classAt d cls o s).flu = s.flu ∧ (classAt d cls o s).circ = s.circ ∧
      (classAt d cls o s).lag = s.lag ∧ (classAt d cls o s).rods = s.rods ∧ (classAt d cls o s).joint = s.joint ∧
      (classAt d cls o s).price = s.price ∧ (classAt d cls o s).bill = s.bill ∧ (classAt d cls o s).jobs = s.jobs ∧
      (classAt d cls o s).free = s.free ∧ (classAt d cls o s).pending = s.pending := by
  unfold classAt
  repeat' split
  all_goals simp

@[simp] theorem blindRunBegin_frame (m : Mark) (s : State) :
    (blindRunBegin m s).power = s.power ∧ (blindRunBegin m s).flu = s.flu ∧ (blindRunBegin m s).circ = s.circ ∧
      (blindRunBegin m s).lag = s.lag ∧ (blindRunBegin m s).rods = s.rods ∧ (blindRunBegin m s).joint = s.joint ∧
      (blindRunBegin m s).price = s.price ∧ (blindRunBegin m s).bill = s.bill ∧ (blindRunBegin m s).jobs = s.jobs ∧
      (blindRunBegin m s).free = s.free ∧ (blindRunBegin m s).pending = s.pending := by
  unfold blindRunBegin
  repeat' split
  all_goals simp

@[simp] theorem blindRunEnd_frame (m : Mark) (s : State) :
    (blindRunEnd m s).power = s.power ∧ (blindRunEnd m s).flu = s.flu ∧ (blindRunEnd m s).circ = s.circ ∧
      (blindRunEnd m s).lag = s.lag ∧ (blindRunEnd m s).rods = s.rods ∧ (blindRunEnd m s).joint = s.joint ∧
      (blindRunEnd m s).price = s.price ∧ (blindRunEnd m s).bill = s.bill ∧ (blindRunEnd m s).jobs = s.jobs ∧
      (blindRunEnd m s).free = s.free ∧ (blindRunEnd m s).pending = s.pending := by
  unfold blindRunEnd
  repeat' split
  all_goals simp

@[simp] theorem addMark_frame (m : Mark) (s : State) :
    (addMark m s).power = s.power ∧ (addMark m s).flu = s.flu ∧ (addMark m s).circ = s.circ ∧
      (addMark m s).lag = s.lag ∧ (addMark m s).rods = s.rods ∧ (addMark m s).joint = s.joint ∧
      (addMark m s).price = s.price ∧ (addMark m s).bill = s.bill ∧ (addMark m s).inc = s.inc ∧
      (addMark m s).jobs = s.jobs ∧ (addMark m s).link = s.link ∧ (addMark m s).free = s.free ∧
      (addMark m s).pending = s.pending := by
  simp [addMark]

@[simp] theorem drainBegin_frame (m : Mark) (s : State) :
    (drainBegin m s).power = s.power ∧ (drainBegin m s).flu = s.flu ∧ (drainBegin m s).circ = s.circ ∧
      (drainBegin m s).lag = s.lag ∧ (drainBegin m s).rods = s.rods ∧ (drainBegin m s).joint = s.joint ∧
      (drainBegin m s).price = s.price ∧ (drainBegin m s).bill = s.bill ∧ (drainBegin m s).jobs = s.jobs ∧
      (drainBegin m s).free = s.free ∧ (drainBegin m s).pending = s.pending := by
  unfold drainBegin
  dsimp only
  repeat' split
  all_goals simp

@[simp] theorem placeMark_frame (c : RetireCause) (m : Mark) (s : State) :
    (placeMark c m s).power = s.power ∧ (placeMark c m s).flu = s.flu ∧ (placeMark c m s).circ = s.circ ∧
      (placeMark c m s).lag = s.lag ∧ (placeMark c m s).rods = s.rods ∧ (placeMark c m s).joint = s.joint ∧
      (placeMark c m s).price = s.price ∧ (placeMark c m s).bill = s.bill ∧ (placeMark c m s).jobs = s.jobs ∧
      (placeMark c m s).free = s.free ∧ (placeMark c m s).pending = s.pending := by
  unfold placeMark
  repeat' split
  all_goals simp

@[simp] theorem addResidual_frame (sec loss : Nat) (s : State) :
    (addResidual sec loss s).power = s.power ∧ (addResidual sec loss s).flu = s.flu ∧
      (addResidual sec loss s).circ = s.circ ∧ (addResidual sec loss s).lag = s.lag ∧
      (addResidual sec loss s).rods = s.rods ∧ (addResidual sec loss s).joint = s.joint ∧
      (addResidual sec loss s).price = s.price ∧ (addResidual sec loss s).bill = s.bill ∧
      (addResidual sec loss s).inc = s.inc ∧ (addResidual sec loss s).jobs = s.jobs ∧
      (addResidual sec loss s).link = s.link ∧ (addResidual sec loss s).free = s.free ∧
      (addResidual sec loss s).pending = s.pending := by
  simp [addResidual]

@[simp] theorem finalClosure_frame (s : State) :
    (finalClosure s).power = s.power ∧ (finalClosure s).flu = s.flu ∧ (finalClosure s).circ = s.circ ∧
      (finalClosure s).lag = s.lag ∧ (finalClosure s).rods = s.rods ∧ (finalClosure s).joint = s.joint ∧
      (finalClosure s).price = s.price ∧ (finalClosure s).bill = s.bill ∧ (finalClosure s).jobs = s.jobs ∧
      (finalClosure s).free = s.free ∧ (finalClosure s).pending = s.pending := by
  simp [finalClosure]

@[simp] theorem recordStrike_frame (k : Strike) (s : State) :
    (recordStrike k s).power = s.power ∧ (recordStrike k s).flu = s.flu ∧ (recordStrike k s).circ = s.circ ∧
      (recordStrike k s).lag = s.lag ∧ (recordStrike k s).rods = s.rods ∧ (recordStrike k s).joint = s.joint ∧
      (recordStrike k s).price = s.price ∧ (recordStrike k s).bill = s.bill ∧ (recordStrike k s).jobs = s.jobs ∧
      (recordStrike k s).free = s.free ∧ (recordStrike k s).pending = s.pending := by
  unfold recordStrike
  dsimp only
  simp

@[simp] theorem autoStrike_frame (g : Nat) (s : State) :
    (autoStrike g s).power = s.power ∧ (autoStrike g s).flu = s.flu ∧ (autoStrike g s).circ = s.circ ∧
      (autoStrike g s).lag = s.lag ∧ (autoStrike g s).rods = s.rods ∧ (autoStrike g s).joint = s.joint ∧
      (autoStrike g s).price = s.price ∧ (autoStrike g s).bill = s.bill ∧ (autoStrike g s).jobs = s.jobs ∧
      (autoStrike g s).free = s.free ∧ (autoStrike g s).pending = s.pending := by
  unfold autoStrike
  repeat' split
  all_goals simp

@[simp] theorem openStrata_frame (d : Nat) (s : State) :
    (openStrata d s).power = s.power ∧ (openStrata d s).flu = s.flu ∧ (openStrata d s).circ = s.circ ∧
      (openStrata d s).lag = s.lag ∧ (openStrata d s).rods = s.rods ∧ (openStrata d s).joint = s.joint ∧
      (openStrata d s).price = s.price ∧ (openStrata d s).bill = s.bill ∧ (openStrata d s).jobs = s.jobs ∧
      (openStrata d s).free = s.free ∧ (openStrata d s).pending = s.pending := by
  simp [openStrata]

@[simp] theorem applyFormation_frame (cls : Nat) (s : State) :
    (applyFormation cls s).power = s.power ∧ (applyFormation cls s).flu = s.flu ∧
      (applyFormation cls s).circ = s.circ ∧ (applyFormation cls s).lag = s.lag ∧
      (applyFormation cls s).rods = s.rods ∧ (applyFormation cls s).joint = s.joint ∧
      (applyFormation cls s).price = s.price ∧ (applyFormation cls s).bill = s.bill ∧
      (applyFormation cls s).jobs = s.jobs ∧ (applyFormation cls s).free = s.free ∧
      (applyFormation cls s).pending = s.pending := by
  unfold applyFormation
  dsimp only
  repeat' split
  all_goals simp

/-! ## Pricing unit -/

@[simp] theorem priceInto_frame (i v q : Nat) (s : State) :
    (priceInto i v q s).power = s.power ∧ (priceInto i v q s).flu = s.flu ∧ (priceInto i v q s).circ = s.circ ∧
      (priceInto i v q s).lag = s.lag ∧ (priceInto i v q s).rods = s.rods ∧ (priceInto i v q s).joint = s.joint ∧
      (priceInto i v q s).strata = s.strata ∧ (priceInto i v q s).bill = s.bill ∧ (priceInto i v q s).jobs = s.jobs ∧
      (priceInto i v q s).free = s.free ∧ (priceInto i v q s).pending = s.pending := by
  unfold priceInto
  dsimp only
  repeat' split
  all_goals simp

@[simp] theorem priceUnder_frame (k : LineKind) (key : LineKey) (v q : Nat) (s : State) :
    (priceUnder k key v q s).power = s.power ∧ (priceUnder k key v q s).flu = s.flu ∧
      (priceUnder k key v q s).circ = s.circ ∧ (priceUnder k key v q s).lag = s.lag ∧
      (priceUnder k key v q s).rods = s.rods ∧ (priceUnder k key v q s).joint = s.joint ∧
      (priceUnder k key v q s).strata = s.strata ∧ (priceUnder k key v q s).bill = s.bill ∧
      (priceUnder k key v q s).jobs = s.jobs ∧ (priceUnder k key v q s).free = s.free ∧
      (priceUnder k key v q s).pending = s.pending := by
  unfold priceUnder
  dsimp only
  repeat' split
  all_goals simp

@[simp] theorem priceMark_frame (m : Mark) (cls : Nat) (s : State) :
    (priceMark m cls s).power = s.power ∧ (priceMark m cls s).flu = s.flu ∧ (priceMark m cls s).circ = s.circ ∧
      (priceMark m cls s).lag = s.lag ∧ (priceMark m cls s).rods = s.rods ∧ (priceMark m cls s).joint = s.joint ∧
      (priceMark m cls s).strata = s.strata ∧ (priceMark m cls s).bill = s.bill ∧ (priceMark m cls s).jobs = s.jobs ∧
      (priceMark m cls s).free = s.free ∧ (priceMark m cls s).pending = s.pending := by
  unfold priceMark
  repeat' split
  all_goals simp

@[simp] theorem priceUnit_frame (c : Category) (s : State) :
    (priceUnit c s).power = s.power ∧ (priceUnit c s).flu = s.flu ∧ (priceUnit c s).circ = s.circ ∧
      (priceUnit c s).lag = s.lag ∧ (priceUnit c s).rods = s.rods ∧ (priceUnit c s).joint = s.joint ∧
      (priceUnit c s).strata = s.strata ∧ (priceUnit c s).bill = s.bill ∧ (priceUnit c s).jobs = s.jobs ∧
      (priceUnit c s).free = s.free ∧ (priceUnit c s).pending = s.pending := by
  unfold priceUnit
  repeat' split
  all_goals simp

@[simp] theorem priceDraw_frame (i q p : Nat) (s : State) :
    (priceDraw i q p s).power = s.power ∧ (priceDraw i q p s).flu = s.flu ∧ (priceDraw i q p s).circ = s.circ ∧
      (priceDraw i q p s).lag = s.lag ∧ (priceDraw i q p s).rods = s.rods ∧ (priceDraw i q p s).joint = s.joint ∧
      (priceDraw i q p s).strata = s.strata ∧ (priceDraw i q p s).bill = s.bill ∧ (priceDraw i q p s).jobs = s.jobs ∧
      (priceDraw i q p s).free = s.free ∧ (priceDraw i q p s).pending = s.pending := by
  simp [priceDraw]

@[simp] theorem openPricing_frame (s : State) :
    (openPricing s).power = s.power ∧ (openPricing s).flu = s.flu ∧ (openPricing s).circ = s.circ ∧
      (openPricing s).lag = s.lag ∧ (openPricing s).rods = s.rods ∧ (openPricing s).joint = s.joint ∧
      (openPricing s).strata = s.strata ∧ (openPricing s).bill = s.bill ∧ (openPricing s).inc = s.inc ∧
      (openPricing s).jobs = s.jobs ∧ (openPricing s).link = s.link ∧ (openPricing s).free = s.free ∧
      (openPricing s).pending = s.pending := by
  unfold openPricing
  dsimp only
  simp

@[simp] theorem endPricing_frame (s : State) :
    (endPricing s).power = s.power ∧ (endPricing s).flu = s.flu ∧ (endPricing s).circ = s.circ ∧
      (endPricing s).lag = s.lag ∧ (endPricing s).rods = s.rods ∧ (endPricing s).joint = s.joint ∧
      (endPricing s).strata = s.strata ∧ (endPricing s).bill = s.bill ∧ (endPricing s).inc = s.inc ∧
      (endPricing s).jobs = s.jobs ∧ (endPricing s).link = s.link ∧ (endPricing s).free = s.free ∧
      (endPricing s).pending = s.pending := by
  unfold endPricing
  dsimp only
  simp

/-! ## Lag tracker and the swap -/

@[simp] theorem recordLagClamp_frame (d : Nat) (s : State) :
    (recordLagClamp d s).power = s.power ∧ (recordLagClamp d s).flu = s.flu ∧ (recordLagClamp d s).circ = s.circ ∧
      (recordLagClamp d s).lag = s.lag ∧ (recordLagClamp d s).rods = s.rods ∧ (recordLagClamp d s).joint = s.joint ∧
      (recordLagClamp d s).strata = s.strata ∧ (recordLagClamp d s).price = s.price ∧
      (recordLagClamp d s).bill = s.bill ∧ (recordLagClamp d s).jobs = s.jobs ∧ (recordLagClamp d s).free = s.free ∧
      (recordLagClamp d s).pending = s.pending := by
  unfold recordLagClamp
  repeat' split
  all_goals simp

@[simp] theorem removeOldest_frame (m : Mark) (rest : List Mark) (s : State) :
    (removeOldest m rest s).power = s.power ∧ (removeOldest m rest s).flu = s.flu ∧
      (removeOldest m rest s).circ = s.circ ∧ (removeOldest m rest s).rods = s.rods ∧
      (removeOldest m rest s).joint = s.joint ∧ (removeOldest m rest s).strata = s.strata ∧
      (removeOldest m rest s).price = s.price ∧ (removeOldest m rest s).bill = s.bill ∧
      (removeOldest m rest s).inc = s.inc ∧ (removeOldest m rest s).jobs = s.jobs ∧
      (removeOldest m rest s).link = s.link ∧ (removeOldest m rest s).free = s.free ∧
      (removeOldest m rest s).pending = s.pending := by
  unfold removeOldest
  dsimp only
  simp

@[simp] theorem retireUnchecked_frame (c : RetireCause) (m : Mark) (rest : List Mark) (s : State) :
    (retireUnchecked c m rest s).power = s.power ∧ (retireUnchecked c m rest s).flu = s.flu ∧
      (retireUnchecked c m rest s).circ = s.circ ∧ (retireUnchecked c m rest s).rods = s.rods ∧
      (retireUnchecked c m rest s).joint = s.joint ∧ (retireUnchecked c m rest s).bill = s.bill ∧
      (retireUnchecked c m rest s).jobs = s.jobs ∧ (retireUnchecked c m rest s).free = s.free ∧
      (retireUnchecked c m rest s).pending = s.pending := by
  unfold retireUnchecked
  dsimp only
  simp

@[simp] theorem markOverrunSeen_frame (s : State) :
    (markOverrunSeen s).power = s.power ∧ (markOverrunSeen s).flu = s.flu ∧ (markOverrunSeen s).circ = s.circ ∧
      (markOverrunSeen s).lag = s.lag ∧ (markOverrunSeen s).rods = s.rods ∧ (markOverrunSeen s).joint = s.joint ∧
      (markOverrunSeen s).strata = s.strata ∧ (markOverrunSeen s).price = s.price ∧
      (markOverrunSeen s).bill = s.bill ∧ (markOverrunSeen s).inc = s.inc ∧ (markOverrunSeen s).link = s.link ∧
      (markOverrunSeen s).free = s.free ∧ (markOverrunSeen s).pending = s.pending := by
  unfold markOverrunSeen
  dsimp only
  repeat' split
  all_goals simp

@[simp] theorem forceOldest_frame (s : State) :
    (forceOldest s).power = s.power ∧ (forceOldest s).flu = s.flu ∧ (forceOldest s).circ = s.circ ∧
      (forceOldest s).rods = s.rods ∧ (forceOldest s).joint = s.joint ∧ (forceOldest s).bill = s.bill ∧
      (forceOldest s).free = s.free ∧ (forceOldest s).pending = s.pending := by
  unfold forceOldest
  repeat' split
  all_goals simp

@[simp] theorem appendMark_frame (b : Nat) (s : State) :
    (appendMark b s).power = s.power ∧ (appendMark b s).flu = s.flu ∧ (appendMark b s).circ = s.circ ∧
      (appendMark b s).rods = s.rods ∧ (appendMark b s).joint = s.joint ∧ (appendMark b s).strata = s.strata ∧
      (appendMark b s).price = s.price ∧ (appendMark b s).bill = s.bill ∧ (appendMark b s).jobs = s.jobs ∧
      (appendMark b s).free = s.free ∧ (appendMark b s).pending = s.pending := by
  unfold appendMark
  dsimp only
  simp

@[simp] theorem layMark_frame (b : Nat) (s : State) :
    (layMark b s).power = s.power ∧ (layMark b s).flu = s.flu ∧ (layMark b s).circ = s.circ ∧
      (layMark b s).rods = s.rods ∧ (layMark b s).joint = s.joint ∧ (layMark b s).bill = s.bill ∧
      (layMark b s).free = s.free ∧ (layMark b s).pending = s.pending := by
  unfold layMark
  repeat' split
  all_goals simp

@[simp] theorem rotateSets_frame (s : State) :
    (rotateSets s).power = s.power ∧ (rotateSets s).flu = s.flu ∧ (rotateSets s).circ = s.circ ∧
      (rotateSets s).lag = s.lag ∧ (rotateSets s).rods = s.rods ∧ (rotateSets s).joint = s.joint ∧
      (rotateSets s).strata = s.strata ∧ (rotateSets s).bill = s.bill ∧ (rotateSets s).jobs = s.jobs ∧
      (rotateSets s).free = s.free ∧ (rotateSets s).pending = s.pending := by
  unfold rotateSets
  dsimp only
  simp

@[simp] theorem swap_frame (s : State) :
    (swap s).power = s.power ∧ (swap s).flu = s.flu ∧ (swap s).circ = s.circ ∧ (swap s).rods = s.rods ∧
      (swap s).joint = s.joint ∧ (swap s).bill = s.bill ∧ (swap s).free = s.free ∧ (swap s).pending = s.pending := by
  simp [swap]

@[simp] theorem swapCheck_frame (s : State) :
    (swapCheck s).power = s.power ∧ (swapCheck s).flu = s.flu ∧ (swapCheck s).circ = s.circ ∧
      (swapCheck s).rods = s.rods ∧ (swapCheck s).joint = s.joint ∧ (swapCheck s).bill = s.bill ∧
      (swapCheck s).free = s.free ∧ (swapCheck s).pending = s.pending := by
  unfold swapCheck
  repeat' split
  all_goals simp

@[simp] theorem retire_frame (c : RetireCause) (m : Mark) (rest : List Mark) (s : State) :
    (retire c m rest s).power = s.power ∧ (retire c m rest s).flu = s.flu ∧ (retire c m rest s).circ = s.circ ∧
      (retire c m rest s).rods = s.rods ∧ (retire c m rest s).joint = s.joint ∧ (retire c m rest s).bill = s.bill ∧
      (retire c m rest s).free = s.free ∧ (retire c m rest s).pending = s.pending := by
  simp [retire]

@[simp] theorem closeSpan_frame (s : State) :
    (closeSpan s).power = s.power ∧ (closeSpan s).flu = s.flu ∧ (closeSpan s).circ = s.circ ∧
      (closeSpan s).rods = s.rods ∧ (closeSpan s).joint = s.joint ∧ (closeSpan s).bill = s.bill ∧
      (closeSpan s).free = s.free ∧ (closeSpan s).pending = s.pending := by
  unfold closeSpan
  repeat' split
  all_goals simp

@[simp] theorem totalLossChange_frame (s : State) :
    (totalLossChange s).power = s.power ∧ (totalLossChange s).flu = s.flu ∧ (totalLossChange s).circ = s.circ ∧
      (totalLossChange s).rods = s.rods ∧ (totalLossChange s).joint = s.joint ∧ (totalLossChange s).bill = s.bill ∧
      (totalLossChange s).free = s.free ∧ (totalLossChange s).pending = s.pending := by
  unfold totalLossChange
  dsimp only
  repeat' split
  all_goals simp

@[simp] theorem layBoundaries_frame (fuel d : Nat) (s : State) :
    (layBoundaries fuel d s).1.power = s.power ∧ (layBoundaries fuel d s).1.flu = s.flu ∧
      (layBoundaries fuel d s).1.circ = s.circ ∧ (layBoundaries fuel d s).1.rods = s.rods ∧
      (layBoundaries fuel d s).1.joint = s.joint ∧ (layBoundaries fuel d s).1.bill = s.bill ∧
      (layBoundaries fuel d s).1.free = s.free ∧ (layBoundaries fuel d s).1.pending = s.pending := by
  induction fuel generalizing s with
  | zero => simp [layBoundaries]
  | succ n ih =>
    simp only [layBoundaries]
    repeat' split
    all_goals simp [*]

@[simp] theorem lagAdvance_frame (d : Nat) (s : State) :
    (lagAdvance d s).power = s.power ∧ (lagAdvance d s).flu = s.flu ∧ (lagAdvance d s).circ = s.circ ∧
      (lagAdvance d s).rods = s.rods ∧ (lagAdvance d s).joint = s.joint ∧ (lagAdvance d s).bill = s.bill ∧
      (lagAdvance d s).free = s.free ∧ (lagAdvance d s).pending = s.pending := by
  unfold lagAdvance
  dsimp only
  repeat' split
  all_goals simp

@[simp] theorem retireArrived_frame (fuel : Nat) (s : State) :
    (retireArrived fuel s).power = s.power ∧ (retireArrived fuel s).flu = s.flu ∧
      (retireArrived fuel s).circ = s.circ ∧ (retireArrived fuel s).rods = s.rods ∧
      (retireArrived fuel s).joint = s.joint ∧ (retireArrived fuel s).bill = s.bill ∧
      (retireArrived fuel s).free = s.free ∧ (retireArrived fuel s).pending = s.pending := by
  induction fuel generalizing s with
  | zero => simp [retireArrived]
  | succ n ih =>
    simp only [retireArrived]
    repeat' split
    all_goals simp [*]

@[simp] theorem lagClockAdvance_frame (s : State) :
    (lagClockAdvance s).power = s.power ∧ (lagClockAdvance s).flu = s.flu ∧ (lagClockAdvance s).circ = s.circ ∧
      (lagClockAdvance s).rods = s.rods ∧ (lagClockAdvance s).joint = s.joint ∧ (lagClockAdvance s).bill = s.bill ∧
      (lagClockAdvance s).free = s.free ∧ (lagClockAdvance s).pending = s.pending := by
  simp [lagClockAdvance]

@[simp] theorem drainQueue_frame (fuel : Nat) (s : State) :
    (drainQueue fuel s).power = s.power ∧ (drainQueue fuel s).flu = s.flu ∧ (drainQueue fuel s).circ = s.circ ∧
      (drainQueue fuel s).rods = s.rods ∧ (drainQueue fuel s).joint = s.joint ∧ (drainQueue fuel s).bill = s.bill ∧
      (drainQueue fuel s).free = s.free ∧ (drainQueue fuel s).pending = s.pending := by
  induction fuel generalizing s with
  | zero => simp [drainQueue]
  | succ n ih =>
    simp only [drainQueue]
    repeat' split
    all_goals simp [*]

@[simp] theorem drilledSecond_frame (s : State) :
    (drilledSecond s).power = s.power ∧ (drilledSecond s).flu = s.flu ∧ (drilledSecond s).circ = s.circ ∧
      (drilledSecond s).rods = s.rods ∧ (drilledSecond s).joint = s.joint ∧ (drilledSecond s).strata = s.strata ∧
      (drilledSecond s).price = s.price ∧ (drilledSecond s).bill = s.bill ∧ (drilledSecond s).inc = s.inc ∧
      (drilledSecond s).jobs = s.jobs ∧ (drilledSecond s).link = s.link ∧ (drilledSecond s).free = s.free ∧
      (drilledSecond s).pending = s.pending := by
  unfold drilledSecond
  dsimp only
  repeat' split
  all_goals simp

@[simp] theorem spanLossLitres_frame (n : Nat) (s : State) :
    (spanLossLitres n s).power = s.power ∧ (spanLossLitres n s).flu = s.flu ∧ (spanLossLitres n s).circ = s.circ ∧
      (spanLossLitres n s).rods = s.rods ∧ (spanLossLitres n s).joint = s.joint ∧
      (spanLossLitres n s).strata = s.strata ∧ (spanLossLitres n s).price = s.price ∧
      (spanLossLitres n s).bill = s.bill ∧ (spanLossLitres n s).inc = s.inc ∧ (spanLossLitres n s).jobs = s.jobs ∧
      (spanLossLitres n s).link = s.link ∧ (spanLossLitres n s).free = s.free ∧
      (spanLossLitres n s).pending = s.pending := by
  unfold spanLossLitres
  dsimp only
  repeat' split
  all_goals simp

@[simp] theorem handResidual_frame (s : State) :
    (handResidual s).power = s.power ∧ (handResidual s).flu = s.flu ∧ (handResidual s).circ = s.circ ∧
      (handResidual s).rods = s.rods ∧ (handResidual s).joint = s.joint ∧ (handResidual s).price = s.price ∧
      (handResidual s).bill = s.bill ∧ (handResidual s).inc = s.inc ∧ (handResidual s).jobs = s.jobs ∧
      (handResidual s).link = s.link ∧ (handResidual s).free = s.free ∧ (handResidual s).pending = s.pending := by
  unfold handResidual
  dsimp only
  simp

@[simp] theorem openLag_frame (d : Nat) (s : State) :
    (openLag d s).power = s.power ∧ (openLag d s).flu = s.flu ∧ (openLag d s).circ = s.circ ∧
      (openLag d s).rods = s.rods ∧ (openLag d s).joint = s.joint ∧ (openLag d s).strata = s.strata ∧
      (openLag d s).price = s.price ∧ (openLag d s).bill = s.bill ∧ (openLag d s).inc = s.inc ∧
      (openLag d s).jobs = s.jobs ∧ (openLag d s).link = s.link ∧ (openLag d s).free = s.free ∧
      (openLag d s).pending = s.pending := by
  unfold openLag
  dsimp only
  simp

/-! ## Staging -/

@[simp] theorem takeTrigger_frame (t : Trigger) (s : State) :
    (takeTrigger t s).power = s.power ∧ (takeTrigger t s).flu = s.flu ∧ (takeTrigger t s).circ = s.circ ∧
      (takeTrigger t s).rods = s.rods ∧ (takeTrigger t s).joint = s.joint ∧ (takeTrigger t s).bill = s.bill ∧
      (takeTrigger t s).free = s.free ∧ (takeTrigger t s).pending = s.pending := by
  unfold takeTrigger
  dsimp only
  repeat' split
  all_goals simp

@[simp] theorem commit_frame (t : Trigger) (s : State) :
    (commit t s).power = s.power ∧ (commit t s).flu = s.flu ∧ (commit t s).circ = s.circ ∧
      (commit t s).rods = s.rods ∧ (commit t s).joint = s.joint ∧ (commit t s).bill = s.bill ∧
      (commit t s).free = s.free ∧ (commit t s).pending = s.pending := by
  unfold commit
  dsimp only
  repeat' split
  all_goals simp

/-! ## Billing clock -/

@[simp] theorem billUnit_frame (c : Category) (s : State) :
    (billUnit c s).power = s.power ∧ (billUnit c s).flu = s.flu ∧ (billUnit c s).circ = s.circ ∧
      (billUnit c s).lag = s.lag ∧ (billUnit c s).rods = s.rods ∧ (billUnit c s).joint = s.joint ∧
      (billUnit c s).strata = s.strata ∧ (billUnit c s).jobs = s.jobs ∧ (billUnit c s).free = s.free ∧
      (billUnit c s).pending = s.pending := by
  unfold billUnit
  dsimp only
  repeat' split
  all_goals simp

@[simp] theorem countCategory_frame (c : Category) (s : State) :
    (countCategory c s).power = s.power ∧ (countCategory c s).flu = s.flu ∧ (countCategory c s).circ = s.circ ∧
      (countCategory c s).lag = s.lag ∧ (countCategory c s).rods = s.rods ∧ (countCategory c s).joint = s.joint ∧
      (countCategory c s).strata = s.strata ∧ (countCategory c s).price = s.price ∧ (countCategory c s).inc = s.inc ∧
      (countCategory c s).jobs = s.jobs ∧ (countCategory c s).link = s.link ∧ (countCategory c s).free = s.free ∧
      (countCategory c s).pending = s.pending := by
  unfold countCategory
  dsimp only
  simp

@[simp] theorem countSecond_frame (c : Category) (s : State) :
    (countSecond c s).power = s.power ∧ (countSecond c s).flu = s.flu ∧ (countSecond c s).circ = s.circ ∧
      (countSecond c s).rods = s.rods ∧ (countSecond c s).joint = s.joint ∧ (countSecond c s).strata = s.strata ∧
      (countSecond c s).jobs = s.jobs ∧ (countSecond c s).free = s.free ∧ (countSecond c s).pending = s.pending := by
  unfold countSecond
  dsimp only
  repeat' split
  all_goals simp

@[simp] theorem billingTick_frame (s : State) :
    (billingTick s).power = s.power ∧ (billingTick s).flu = s.flu ∧ (billingTick s).circ = s.circ ∧
      (billingTick s).rods = s.rods ∧ (billingTick s).joint = s.joint ∧ (billingTick s).strata = s.strata ∧
      (billingTick s).jobs = s.jobs ∧ (billingTick s).free = s.free ∧ (billingTick s).pending = s.pending := by
  unfold billingTick
  dsimp only
  repeat' split
  all_goals simp

@[simp] theorem drillingActivity_frame (s : State) :
    (drillingActivity s).power = s.power ∧ (drillingActivity s).flu = s.flu ∧ (drillingActivity s).circ = s.circ ∧
      (drillingActivity s).lag = s.lag ∧ (drillingActivity s).rods = s.rods ∧ (drillingActivity s).joint = s.joint ∧
      (drillingActivity s).strata = s.strata ∧ (drillingActivity s).price = s.price ∧
      (drillingActivity s).inc = s.inc ∧ (drillingActivity s).jobs = s.jobs ∧ (drillingActivity s).link = s.link ∧
      (drillingActivity s).free = s.free ∧ (drillingActivity s).pending = s.pending := by
  unfold drillingActivity
  dsimp only
  simp

@[simp] theorem jointActivity_frame (s : State) :
    (jointActivity s).power = s.power ∧ (jointActivity s).flu = s.flu ∧ (jointActivity s).circ = s.circ ∧
      (jointActivity s).lag = s.lag ∧ (jointActivity s).rods = s.rods ∧ (jointActivity s).joint = s.joint ∧
      (jointActivity s).strata = s.strata ∧ (jointActivity s).price = s.price ∧ (jointActivity s).inc = s.inc ∧
      (jointActivity s).jobs = s.jobs ∧ (jointActivity s).link = s.link ∧ (jointActivity s).free = s.free ∧
      (jointActivity s).pending = s.pending := by
  unfold jointActivity
  dsimp only
  simp

@[simp] theorem dayBoundary_frame (s : State) :
    (dayBoundary s).power = s.power ∧ (dayBoundary s).flu = s.flu ∧ (dayBoundary s).circ = s.circ ∧
      (dayBoundary s).rods = s.rods ∧ (dayBoundary s).joint = s.joint ∧ (dayBoundary s).bill = s.bill ∧
      (dayBoundary s).free = s.free ∧ (dayBoundary s).pending = s.pending := by
  simp [dayBoundary]

@[simp] theorem openBilling_frame (s : State) :
    (openBilling s).power = s.power ∧ (openBilling s).flu = s.flu ∧ (openBilling s).circ = s.circ ∧
      (openBilling s).lag = s.lag ∧ (openBilling s).rods = s.rods ∧ (openBilling s).joint = s.joint ∧
      (openBilling s).strata = s.strata ∧ (openBilling s).price = s.price ∧ (openBilling s).inc = s.inc ∧
      (openBilling s).jobs = s.jobs ∧ (openBilling s).link = s.link ∧ (openBilling s).free = s.free ∧
      (openBilling s).pending = s.pending := by
  unfold openBilling
  dsimp only
  simp

/-! ## Rods and depth -/

@[simp] theorem updateRod_frame (id : Nat) (f : Rod → Rod) (s : State) :
    (updateRod id f s).power = s.power ∧ (updateRod id f s).flu = s.flu ∧ (updateRod id f s).circ = s.circ ∧
      (updateRod id f s).lag = s.lag ∧ (updateRod id f s).joint = s.joint ∧ (updateRod id f s).strata = s.strata ∧
      (updateRod id f s).price = s.price ∧ (updateRod id f s).bill = s.bill ∧ (updateRod id f s).inc = s.inc ∧
      (updateRod id f s).jobs = s.jobs ∧ (updateRod id f s).link = s.link ∧ (updateRod id f s).free = s.free ∧
      (updateRod id f s).pending = s.pending := by
  unfold updateRod
  dsimp only
  simp

@[simp] theorem leaveSlot_frame (l : RodLocation) (s : State) :
    (leaveSlot l s).power = s.power ∧ (leaveSlot l s).flu = s.flu ∧ (leaveSlot l s).circ = s.circ ∧
      (leaveSlot l s).lag = s.lag ∧ (leaveSlot l s).joint = s.joint ∧ (leaveSlot l s).strata = s.strata ∧
      (leaveSlot l s).price = s.price ∧ (leaveSlot l s).bill = s.bill ∧ (leaveSlot l s).inc = s.inc ∧
      (leaveSlot l s).jobs = s.jobs ∧ (leaveSlot l s).link = s.link ∧ (leaveSlot l s).free = s.free ∧
      (leaveSlot l s).pending = s.pending := by
  unfold leaveSlot
  dsimp only
  repeat' split
  all_goals simp

@[simp] theorem takeSlot_frame (id : Nat) (l : RodLocation) (s : State) :
    (takeSlot id l s).power = s.power ∧ (takeSlot id l s).flu = s.flu ∧ (takeSlot id l s).circ = s.circ ∧
      (takeSlot id l s).lag = s.lag ∧ (takeSlot id l s).joint = s.joint ∧ (takeSlot id l s).strata = s.strata ∧
      (takeSlot id l s).price = s.price ∧ (takeSlot id l s).bill = s.bill ∧ (takeSlot id l s).inc = s.inc ∧
      (takeSlot id l s).jobs = s.jobs ∧ (takeSlot id l s).link = s.link ∧ (takeSlot id l s).free = s.free ∧
      (takeSlot id l s).pending = s.pending := by
  unfold takeSlot
  dsimp only
  repeat' split
  all_goals simp

@[simp] theorem moveRod_frame (id : Nat) (l : RodLocation) (s : State) :
    (moveRod id l s).power = s.power ∧ (moveRod id l s).flu = s.flu ∧ (moveRod id l s).circ = s.circ ∧
      (moveRod id l s).lag = s.lag ∧ (moveRod id l s).joint = s.joint ∧ (moveRod id l s).strata = s.strata ∧
      (moveRod id l s).price = s.price ∧ (moveRod id l s).bill = s.bill ∧ (moveRod id l s).inc = s.inc ∧
      (moveRod id l s).jobs = s.jobs ∧ (moveRod id l s).link = s.link ∧ (moveRod id l s).free = s.free ∧
      (moveRod id l s).pending = s.pending := by
  unfold moveRod
  repeat' split
  all_goals simp

@[simp] theorem pushRod_frame (id p : Nat) (s : State) :
    (pushRod id p s).power = s.power ∧ (pushRod id p s).flu = s.flu ∧ (pushRod id p s).circ = s.circ ∧
      (pushRod id p s).lag = s.lag ∧ (pushRod id p s).joint = s.joint ∧ (pushRod id p s).strata = s.strata ∧
      (pushRod id p s).price = s.price ∧ (pushRod id p s).bill = s.bill ∧ (pushRod id p s).inc = s.inc ∧
      (pushRod id p s).jobs = s.jobs ∧ (pushRod id p s).link = s.link ∧ (pushRod id p s).free = s.free ∧
      (pushRod id p s).pending = s.pending := by
  unfold pushRod
  dsimp only
  simp

@[simp] theorem popRod_frame (id p : Nat) (s : State) :
    (popRod id p s).power = s.power ∧ (popRod id p s).flu = s.flu ∧ (popRod id p s).circ = s.circ ∧
      (popRod id p s).lag = s.lag ∧ (popRod id p s).joint = s.joint ∧ (popRod id p s).strata = s.strata ∧
      (popRod id p s).price = s.price ∧ (popRod id p s).bill = s.bill ∧ (popRod id p s).inc = s.inc ∧
      (popRod id p s).jobs = s.jobs ∧ (popRod id p s).link = s.link ∧ (popRod id p s).free = s.free ∧
      (popRod id p s).pending = s.pending := by
  unfold popRod
  dsimp only
  simp

@[simp] theorem addFootage_frame (n : Nat) (s : State) :
    (addFootage n s).power = s.power ∧ (addFootage n s).flu = s.flu ∧ (addFootage n s).circ = s.circ ∧
      (addFootage n s).lag = s.lag ∧ (addFootage n s).joint = s.joint ∧ (addFootage n s).strata = s.strata ∧
      (addFootage n s).price = s.price ∧ (addFootage n s).bill = s.bill ∧ (addFootage n s).jobs = s.jobs ∧
      (addFootage n s).free = s.free ∧ (addFootage n s).pending = s.pending := by
  unfold addFootage
  dsimp only
  simp

@[simp] theorem handAdvance_frame (s : State) :
    (handAdvance s).power = s.power ∧ (handAdvance s).flu = s.flu ∧ (handAdvance s).circ = s.circ ∧
      (handAdvance s).rods = s.rods ∧ (handAdvance s).joint = s.joint ∧ (handAdvance s).free = s.free ∧
      (handAdvance s).pending = s.pending := by
  unfold handAdvance
  repeat' split
  all_goals simp

@[simp] theorem holeAdvance_frame (s : State) :
    (holeAdvance s).power = s.power ∧ (holeAdvance s).flu = s.flu ∧ (holeAdvance s).circ = s.circ ∧
      (holeAdvance s).joint = s.joint ∧ (holeAdvance s).free = s.free ∧ (holeAdvance s).pending = s.pending := by
  unfold holeAdvance
  dsimp only
  repeat' split
  all_goals simp

@[simp] theorem recompute_frame (h : Nat) (s : State) :
    (recompute h s).power = s.power ∧ (recompute h s).flu = s.flu ∧ (recompute h s).circ = s.circ ∧
      (recompute h s).joint = s.joint ∧ (recompute h s).free = s.free ∧ (recompute h s).pending = s.pending := by
  unfold recompute
  dsimp only
  simp

@[simp] theorem heightSample_frame (g : Option Nat) (s : State) :
    (heightSample g s).power = s.power ∧ (heightSample g s).flu = s.flu ∧ (heightSample g s).circ = s.circ ∧
      (heightSample g s).joint = s.joint ∧ (heightSample g s).free = s.free ∧
      (heightSample g s).pending = s.pending := by
  unfold heightSample
  repeat' split
  all_goals simp

@[simp] theorem loadSample_frame (g : Option Nat) (s : State) :
    (loadSample g s).power = s.power ∧ (loadSample g s).flu = s.flu ∧ (loadSample g s).circ = s.circ ∧
      (loadSample g s).lag = s.lag ∧ (loadSample g s).joint = s.joint ∧ (loadSample g s).strata = s.strata ∧
      (loadSample g s).price = s.price ∧ (loadSample g s).bill = s.bill ∧ (loadSample g s).jobs = s.jobs ∧
      (loadSample g s).free = s.free ∧ (loadSample g s).pending = s.pending := by
  unfold loadSample
  dsimp only
  repeat' split
  all_goals simp

@[simp] theorem openDepth_frame (s : State) :
    (openDepth s).power = s.power ∧ (openDepth s).flu = s.flu ∧ (openDepth s).circ = s.circ ∧
      (openDepth s).lag = s.lag ∧ (openDepth s).joint = s.joint ∧ (openDepth s).strata = s.strata ∧
      (openDepth s).price = s.price ∧ (openDepth s).bill = s.bill ∧ (openDepth s).inc = s.inc ∧
      (openDepth s).jobs = s.jobs ∧ (openDepth s).link = s.link ∧ (openDepth s).free = s.free ∧
      (openDepth s).pending = s.pending := by
  unfold openDepth
  dsimp only
  simp

/-! ## Joint controller -/

@[simp] theorem recomputeAtReady_frame (s : State) :
    (recomputeAtReady s).power = s.power ∧ (recomputeAtReady s).flu = s.flu ∧ (recomputeAtReady s).circ = s.circ ∧
      (recomputeAtReady s).joint = s.joint ∧ (recomputeAtReady s).free = s.free ∧
      (recomputeAtReady s).pending = s.pending := by
  unfold recomputeAtReady
  repeat' split
  all_goals simp

@[simp] theorem enterJoint_frame (j : JointState) (s : State) :
    (enterJoint j s).power = s.power ∧ (enterJoint j s).circ = s.circ ∧ (enterJoint j s).lag = s.lag ∧
      (enterJoint j s).rods = s.rods ∧ (enterJoint j s).strata = s.strata ∧ (enterJoint j s).price = s.price ∧
      (enterJoint j s).bill = s.bill ∧ (enterJoint j s).jobs = s.jobs ∧ (enterJoint j s).free = s.free ∧
      (enterJoint j s).pending = s.pending := by
  unfold enterJoint
  dsimp only
  repeat' split
  all_goals simp

@[simp] theorem enterReady_frame (s : State) :
    (enterReady s).power = s.power ∧ (enterReady s).circ = s.circ ∧ (enterReady s).free = s.free ∧
      (enterReady s).pending = s.pending := by
  simp [enterReady]

@[simp] theorem clearArmToReady_frame (s : State) :
    (clearArmToReady s).power = s.power ∧ (clearArmToReady s).circ = s.circ ∧ (clearArmToReady s).free = s.free ∧
      (clearArmToReady s).pending = s.pending := by
  unfold clearArmToReady
  dsimp only
  simp

@[simp] theorem clearArmToHeld_frame (r : Option Nat) (s : State) :
    (clearArmToHeld r s).power = s.power ∧ (clearArmToHeld r s).circ = s.circ ∧ (clearArmToHeld r s).lag = s.lag ∧
      (clearArmToHeld r s).rods = s.rods ∧ (clearArmToHeld r s).strata = s.strata ∧
      (clearArmToHeld r s).price = s.price ∧ (clearArmToHeld r s).bill = s.bill ∧
      (clearArmToHeld r s).jobs = s.jobs ∧ (clearArmToHeld r s).free = s.free ∧
      (clearArmToHeld r s).pending = s.pending := by
  unfold clearArmToHeld
  dsimp only
  simp

@[simp] theorem endBreakPermit_frame (s : State) :
    (endBreakPermit s).power = s.power ∧ (endBreakPermit s).circ = s.circ ∧ (endBreakPermit s).free = s.free ∧
      (endBreakPermit s).pending = s.pending := by
  unfold endBreakPermit
  dsimp only
  simp

@[simp] theorem loadRod_frame (r : Rod) (s : State) :
    (loadRod r s).power = s.power ∧ (loadRod r s).circ = s.circ ∧ (loadRod r s).lag = s.lag ∧
      (loadRod r s).strata = s.strata ∧ (loadRod r s).price = s.price ∧ (loadRod r s).bill = s.bill ∧
      (loadRod r s).jobs = s.jobs ∧ (loadRod r s).free = s.free ∧ (loadRod r s).pending = s.pending := by
  unfold loadRod
  dsimp only
  repeat' split
  all_goals simp

@[simp] theorem readTagReady_frame (id : Nat) (s : State) :
    (readTagReady id s).power = s.power ∧ (readTagReady id s).circ = s.circ ∧ (readTagReady id s).lag = s.lag ∧
      (readTagReady id s).strata = s.strata ∧ (readTagReady id s).price = s.price ∧
      (readTagReady id s).bill = s.bill ∧ (readTagReady id s).jobs = s.jobs ∧ (readTagReady id s).free = s.free ∧
      (readTagReady id s).pending = s.pending := by
  unfold readTagReady
  repeat' split
  all_goals simp

@[simp] theorem readTag_frame (id : Nat) (s : State) :
    (readTag id s).power = s.power ∧ (readTag id s).circ = s.circ ∧ (readTag id s).lag = s.lag ∧
      (readTag id s).strata = s.strata ∧ (readTag id s).price = s.price ∧ (readTag id s).bill = s.bill ∧
      (readTag id s).jobs = s.jobs ∧ (readTag id s).free = s.free ∧ (readTag id s).pending = s.pending := by
  unfold readTag
  repeat' split
  all_goals simp

@[simp] theorem pushArm_frame (p : Nat) (s : State) :
    (pushArm p s).power = s.power ∧ (pushArm p s).flu = s.flu ∧ (pushArm p s).circ = s.circ ∧
      (pushArm p s).lag = s.lag ∧ (pushArm p s).joint = s.joint ∧ (pushArm p s).strata = s.strata ∧
      (pushArm p s).price = s.price ∧ (pushArm p s).bill = s.bill ∧ (pushArm p s).inc = s.inc ∧
      (pushArm p s).jobs = s.jobs ∧ (pushArm p s).link = s.link ∧ (pushArm p s).free = s.free ∧
      (pushArm p s).pending = s.pending := by
  unfold pushArm
  repeat' split
  all_goals simp

@[simp] theorem inspectArm_frame (s : State) :
    (inspectArm s).power = s.power ∧ (inspectArm s).flu = s.flu ∧ (inspectArm s).circ = s.circ ∧
      (inspectArm s).lag = s.lag ∧ (inspectArm s).joint = s.joint ∧ (inspectArm s).strata = s.strata ∧
      (inspectArm s).price = s.price ∧ (inspectArm s).bill = s.bill ∧ (inspectArm s).inc = s.inc ∧
      (inspectArm s).jobs = s.jobs ∧ (inspectArm s).link = s.link ∧ (inspectArm s).free = s.free ∧
      (inspectArm s).pending = s.pending := by
  unfold inspectArm
  repeat' split
  all_goals simp

@[simp] theorem handJointMade_frame (s : State) :
    (handJointMade s).power = s.power ∧ (handJointMade s).flu = s.flu ∧ (handJointMade s).circ = s.circ ∧
      (handJointMade s).rods = s.rods ∧ (handJointMade s).joint = s.joint ∧ (handJointMade s).free = s.free ∧
      (handJointMade s).pending = s.pending := by
  simp [handJointMade]

@[simp] theorem jointMade_frame (p : Nat) (s : State) :
    (jointMade p s).power = s.power ∧ (jointMade p s).circ = s.circ ∧ (jointMade p s).free = s.free ∧
      (jointMade p s).pending = s.pending := by
  simp [jointMade]

@[simp] theorem jointOvertorque_frame (p : Nat) (s : State) :
    (jointOvertorque p s).power = s.power ∧ (jointOvertorque p s).circ = s.circ ∧
      (jointOvertorque p s).free = s.free ∧ (jointOvertorque p s).pending = s.pending := by
  unfold jointOvertorque
  dsimp only
  simp

@[simp] theorem jointBypass_frame (p : Nat) (s : State) :
    (jointBypass p s).power = s.power ∧ (jointBypass p s).circ = s.circ ∧ (jointBypass p s).free = s.free ∧
      (jointBypass p s).pending = s.pending := by
  unfold jointBypass
  dsimp only
  repeat' split
  all_goals simp

@[simp] theorem jointBroken_frame (p : Nat) (s : State) :
    (jointBroken p s).power = s.power ∧ (jointBroken p s).circ = s.circ ∧ (jointBroken p s).free = s.free ∧
      (jointBroken p s).pending = s.pending := by
  unfold jointBroken
  dsimp only
  repeat' split
  all_goals simp

@[simp] theorem applyOutcome_frame (o : EpisodeOutcome) (p : Nat) (s : State) :
    (applyOutcome o p s).power = s.power ∧ (applyOutcome o p s).circ = s.circ ∧ (applyOutcome o p s).free = s.free ∧
      (applyOutcome o p s).pending = s.pending := by
  unfold applyOutcome
  repeat' split
  all_goals simp

@[simp] theorem endEpisode_frame (e : Episode) (s : State) :
    (endEpisode e s).power = s.power ∧ (endEpisode e s).circ = s.circ ∧ (endEpisode e s).free = s.free ∧
      (endEpisode e s).pending = s.pending := by
  unfold endEpisode
  dsimp only
  simp

@[simp] theorem torqueSample_frame (g : Option Nat) (s : State) :
    (torqueSample g s).power = s.power ∧ (torqueSample g s).circ = s.circ ∧ (torqueSample g s).free = s.free ∧
      (torqueSample g s).pending = s.pending := by
  unfold torqueSample
  dsimp only
  repeat' split
  all_goals simp

@[simp] theorem jointPressure_frame (g : Option Nat) (s : State) :
    (jointPressure g s).power = s.power ∧ (jointPressure g s).circ = s.circ ∧ (jointPressure g s).free = s.free ∧
      (jointPressure g s).pending = s.pending := by
  unfold jointPressure
  repeat' split
  all_goals simp

@[simp] theorem expireBreakPermit_frame (s : State) :
    (expireBreakPermit s).power = s.power ∧ (expireBreakPermit s).circ = s.circ ∧
      (expireBreakPermit s).free = s.free ∧ (expireBreakPermit s).pending = s.pending := by
  unfold expireBreakPermit
  repeat' split
  all_goals simp

@[simp] theorem jointTick_frame (s : State) :
    (jointTick s).power = s.power ∧ (jointTick s).circ = s.circ ∧ (jointTick s).free = s.free ∧
      (jointTick s).pending = s.pending := by
  unfold jointTick
  dsimp only
  repeat' split
  all_goals simp

@[simp] theorem heldSlotCleared_frame (n : Nat) (s : State) :
    (heldSlotCleared n s).power = s.power ∧ (heldSlotCleared n s).circ = s.circ ∧
      (heldSlotCleared n s).free = s.free ∧ (heldSlotCleared n s).pending = s.pending := by
  unfold heldSlotCleared
  repeat' split
  all_goals simp

@[simp] theorem returnRod_frame (s : State) :
    (returnRod s).power = s.power ∧ (returnRod s).flu = s.flu ∧ (returnRod s).circ = s.circ ∧
      (returnRod s).lag = s.lag ∧ (returnRod s).joint = s.joint ∧ (returnRod s).strata = s.strata ∧
      (returnRod s).price = s.price ∧ (returnRod s).bill = s.bill ∧ (returnRod s).inc = s.inc ∧
      (returnRod s).jobs = s.jobs ∧ (returnRod s).link = s.link ∧ (returnRod s).free = s.free ∧
      (returnRod s).pending = s.pending := by
  unfold returnRod
  repeat' split
  all_goals simp

/-! ## Circulation monitor -/

@[simp] theorem enterCirc_frame (n : CircState) (m : PumpMask) (s : State) :
    (enterCirc n m s).power = s.power ∧ (enterCirc n m s).rods = s.rods ∧ (enterCirc n m s).bill = s.bill ∧
      (enterCirc n m s).free = s.free ∧ (enterCirc n m s).pending = s.pending := by
  unfold enterCirc
  dsimp only
  repeat' split
  all_goals simp

@[simp] theorem enterCircKept_frame (n : CircState) (s : State) :
    (enterCircKept n s).power = s.power ∧ (enterCircKept n s).rods = s.rods ∧ (enterCircKept n s).bill = s.bill ∧
      (enterCircKept n s).free = s.free ∧ (enterCircKept n s).pending = s.pending := by
  simp [enterCircKept]

@[simp] theorem lagLitre_frame (s : State) :
    (lagLitre s).power = s.power ∧ (lagLitre s).flu = s.flu ∧ (lagLitre s).rods = s.rods ∧
      (lagLitre s).joint = s.joint ∧ (lagLitre s).bill = s.bill ∧ (lagLitre s).free = s.free ∧
      (lagLitre s).pending = s.pending := by
  unfold lagLitre
  dsimp only
  simp

@[simp] theorem pumpedLitre_frame (s : State) :
    (pumpedLitre s).power = s.power ∧ (pumpedLitre s).flu = s.flu ∧ (pumpedLitre s).rods = s.rods ∧
      (pumpedLitre s).joint = s.joint ∧ (pumpedLitre s).bill = s.bill ∧ (pumpedLitre s).free = s.free ∧
      (pumpedLitre s).pending = s.pending := by
  unfold pumpedLitre
  dsimp only
  repeat' split
  all_goals simp

@[simp] theorem completePrime_frame (s : State) :
    (completePrime s).power = s.power ∧ (completePrime s).rods = s.rods ∧ (completePrime s).bill = s.bill ∧
      (completePrime s).free = s.free ∧ (completePrime s).pending = s.pending := by
  unfold completePrime
  repeat' split
  all_goals simp

@[simp] theorem checkStaticFlow_frame (s : State) :
    (checkStaticFlow s).power = s.power ∧ (checkStaticFlow s).flu = s.flu ∧ (checkStaticFlow s).lag = s.lag ∧
      (checkStaticFlow s).rods = s.rods ∧ (checkStaticFlow s).joint = s.joint ∧
      (checkStaticFlow s).strata = s.strata ∧ (checkStaticFlow s).price = s.price ∧
      (checkStaticFlow s).bill = s.bill ∧ (checkStaticFlow s).jobs = s.jobs ∧ (checkStaticFlow s).free = s.free ∧
      (checkStaticFlow s).pending = s.pending := by
  unfold checkStaticFlow
  dsimp only
  repeat' split
  all_goals simp

@[simp] theorem repeatPumped_frame (n : Nat) (s : State) :
    (repeatTimes pumpedLitre n s).power = s.power ∧ (repeatTimes pumpedLitre n s).flu = s.flu ∧
      (repeatTimes pumpedLitre n s).rods = s.rods ∧ (repeatTimes pumpedLitre n s).joint = s.joint ∧
      (repeatTimes pumpedLitre n s).bill = s.bill ∧ (repeatTimes pumpedLitre n s).free = s.free ∧
      (repeatTimes pumpedLitre n s).pending = s.pending := by
  induction n generalizing s with
  | zero => simp [repeatTimes]
  | succ n ih => simp [repeatTimes, ih]

@[simp] theorem returnedEffects_frame (s : State) :
    (returnedEffects s).power = s.power ∧ (returnedEffects s).rods = s.rods ∧ (returnedEffects s).bill = s.bill ∧
      (returnedEffects s).free = s.free ∧ (returnedEffects s).pending = s.pending := by
  unfold returnedEffects
  dsimp only
  repeat' split
  all_goals simp

@[simp] theorem returnedLitre_frame (s : State) :
    (returnedLitre s).power = s.power ∧ (returnedLitre s).rods = s.rods ∧ (returnedLitre s).bill = s.bill ∧
      (returnedLitre s).free = s.free ∧ (returnedLitre s).pending = s.pending := by
  unfold returnedLitre
  dsimp only
  repeat' split
  all_goals simp

@[simp] theorem repeatReturned_frame (n : Nat) (s : State) :
    (repeatTimes returnedLitre n s).power = s.power ∧ (repeatTimes returnedLitre n s).rods = s.rods ∧
      (repeatTimes returnedLitre n s).bill = s.bill ∧ (repeatTimes returnedLitre n s).free = s.free ∧
      (repeatTimes returnedLitre n s).pending = s.pending := by
  induction n generalizing s with
  | zero => simp [repeatTimes]
  | succ n ih => simp [repeatTimes, ih]

@[simp] theorem checkEnable_frame (p : Pump) (s : State) :
    (checkEnable p s).power = s.power ∧ (checkEnable p s).flu = s.flu ∧ (checkEnable p s).circ = s.circ ∧
      (checkEnable p s).lag = s.lag ∧ (checkEnable p s).rods = s.rods ∧ (checkEnable p s).joint = s.joint ∧
      (checkEnable p s).strata = s.strata ∧ (checkEnable p s).price = s.price ∧ (checkEnable p s).bill = s.bill ∧
      (checkEnable p s).jobs = s.jobs ∧ (checkEnable p s).free = s.free ∧ (checkEnable p s).pending = s.pending := by
  unfold checkEnable
  repeat' split
  all_goals simp

@[simp] theorem stroke_frame (p : Pump) (s : State) :
    (stroke p s).power = s.power ∧ (stroke p s).flu = s.flu ∧ (stroke p s).rods = s.rods ∧
      (stroke p s).joint = s.joint ∧ (stroke p s).bill = s.bill ∧ (stroke p s).free = s.free ∧
      (stroke p s).pending = s.pending := by
  unfold stroke
  dsimp only
  simp

@[simp] theorem returnPulse_frame (s : State) :
    (returnPulse s).power = s.power ∧ (returnPulse s).rods = s.rods ∧ (returnPulse s).bill = s.bill ∧
      (returnPulse s).free = s.free ∧ (returnPulse s).pending = s.pending := by
  unfold returnPulse
  dsimp only
  simp

@[simp] theorem closeBin_frame (s : State) :
    (closeBin s).power = s.power ∧ (closeBin s).flu = s.flu ∧ (closeBin s).lag = s.lag ∧ (closeBin s).rods = s.rods ∧
      (closeBin s).joint = s.joint ∧ (closeBin s).strata = s.strata ∧ (closeBin s).price = s.price ∧
      (closeBin s).bill = s.bill ∧ (closeBin s).inc = s.inc ∧ (closeBin s).jobs = s.jobs ∧
      (closeBin s).link = s.link ∧ (closeBin s).free = s.free ∧ (closeBin s).pending = s.pending := by
  unfold closeBin
  dsimp only
  simp

@[simp] theorem handLoss_frame (b : Bin) (s : State) :
    (handLoss b s).power = s.power ∧ (handLoss b s).flu = s.flu ∧ (handLoss b s).rods = s.rods ∧
      (handLoss b s).joint = s.joint ∧ (handLoss b s).strata = s.strata ∧ (handLoss b s).price = s.price ∧
      (handLoss b s).bill = s.bill ∧ (handLoss b s).jobs = s.jobs ∧ (handLoss b s).free = s.free ∧
      (handLoss b s).pending = s.pending := by
  unfold handLoss
  dsimp only
  repeat' split
  all_goals simp

@[simp] theorem updateRuns_frame (p r : Nat) (s : State) :
    (updateRuns p r s).power = s.power ∧ (updateRuns p r s).flu = s.flu ∧ (updateRuns p r s).lag = s.lag ∧
      (updateRuns p r s).rods = s.rods ∧ (updateRuns p r s).joint = s.joint ∧ (updateRuns p r s).strata = s.strata ∧
      (updateRuns p r s).price = s.price ∧ (updateRuns p r s).bill = s.bill ∧ (updateRuns p r s).inc = s.inc ∧
      (updateRuns p r s).jobs = s.jobs ∧ (updateRuns p r s).link = s.link ∧ (updateRuns p r s).free = s.free ∧
      (updateRuns p r s).pending = s.pending := by
  unfold updateRuns
  dsimp only
  simp

@[simp] theorem checkGain_frame (p r : Nat) (s : State) :
    (checkGain p r s).power = s.power ∧ (checkGain p r s).flu = s.flu ∧ (checkGain p r s).lag = s.lag ∧
      (checkGain p r s).rods = s.rods ∧ (checkGain p r s).joint = s.joint ∧ (checkGain p r s).price = s.price ∧
      (checkGain p r s).bill = s.bill ∧ (checkGain p r s).jobs = s.jobs ∧ (checkGain p r s).free = s.free ∧
      (checkGain p r s).pending = s.pending := by
  unfold checkGain
  dsimp only
  repeat' split
  all_goals simp

@[simp] theorem enterTotalLoss_frame (p r : Nat) (s : State) :
    (enterTotalLoss p r s).power = s.power ∧ (enterTotalLoss p r s).rods = s.rods ∧
      (enterTotalLoss p r s).bill = s.bill ∧ (enterTotalLoss p r s).free = s.free ∧
      (enterTotalLoss p r s).pending = s.pending := by
  simp [enterTotalLoss]

@[simp] theorem testRuns_frame (p r : Nat) (s : State) :
    (testRuns p r s).power = s.power ∧ (testRuns p r s).rods = s.rods ∧ (testRuns p r s).bill = s.bill ∧
      (testRuns p r s).free = s.free ∧ (testRuns p r s).pending = s.pending := by
  unfold testRuns
  repeat' split
  all_goals simp

@[simp] theorem evaluate_frame (s : State) :
    (evaluate s).power = s.power ∧ (evaluate s).rods = s.rods ∧ (evaluate s).bill = s.bill ∧
      (evaluate s).free = s.free ∧ (evaluate s).pending = s.pending := by
  unfold evaluate
  dsimp only
  repeat' split
  all_goals simp

@[simp] theorem takeBinTick_frame (s : State) :
    (takeBinTick s).power = s.power ∧ (takeBinTick s).rods = s.rods ∧ (takeBinTick s).bill = s.bill ∧
      (takeBinTick s).free = s.free ∧ (takeBinTick s).pending = s.pending := by
  unfold takeBinTick
  dsimp only
  repeat' split
  all_goals simp

@[simp] theorem bleedSample_frame (g : Option Nat) (s : State) :
    (bleedSample g s).power = s.power ∧ (bleedSample g s).flu = s.flu ∧ (bleedSample g s).lag = s.lag ∧
      (bleedSample g s).rods = s.rods ∧ (bleedSample g s).joint = s.joint ∧ (bleedSample g s).strata = s.strata ∧
      (bleedSample g s).price = s.price ∧ (bleedSample g s).bill = s.bill ∧ (bleedSample g s).inc = s.inc ∧
      (bleedSample g s).jobs = s.jobs ∧ (bleedSample g s).link = s.link ∧ (bleedSample g s).free = s.free ∧
      (bleedSample g s).pending = s.pending := by
  unfold bleedSample
  dsimp only
  repeat' split
  all_goals simp

@[simp] theorem confirmBleed_frame (s : State) :
    (confirmBleed s).power = s.power ∧ (confirmBleed s).rods = s.rods ∧ (confirmBleed s).bill = s.bill ∧
      (confirmBleed s).free = s.free ∧ (confirmBleed s).pending = s.pending := by
  unfold confirmBleed
  repeat' split
  all_goals simp

@[simp] theorem expireStop_frame (s : State) :
    (expireStop s).power = s.power ∧ (expireStop s).rods = s.rods ∧ (expireStop s).bill = s.bill ∧
      (expireStop s).free = s.free ∧ (expireStop s).pending = s.pending := by
  unfold expireStop
  repeat' split
  all_goals simp

@[simp] theorem stoppingTick_frame (s : State) :
    (stoppingTick s).power = s.power ∧ (stoppingTick s).rods = s.rods ∧ (stoppingTick s).bill = s.bill ∧
      (stoppingTick s).free = s.free ∧ (stoppingTick s).pending = s.pending := by
  unfold stoppingTick
  dsimp only
  repeat' split
  all_goals simp

@[simp] theorem expirePrime_frame (s : State) :
    (expirePrime s).power = s.power ∧ (expirePrime s).rods = s.rods ∧ (expirePrime s).bill = s.bill ∧
      (expirePrime s).free = s.free ∧ (expirePrime s).pending = s.pending := by
  unfold expirePrime
  repeat' split
  all_goals simp

@[simp] theorem circulationTick_frame (s : State) :
    (circulationTick s).power = s.power ∧ (circulationTick s).rods = s.rods ∧ (circulationTick s).bill = s.bill ∧
      (circulationTick s).free = s.free ∧ (circulationTick s).pending = s.pending := by
  unfold circulationTick
  dsimp only
  repeat' split
  all_goals simp

@[simp] theorem openCirculation_frame (s : State) :
    (openCirculation s).power = s.power ∧ (openCirculation s).flu = s.flu ∧ (openCirculation s).lag = s.lag ∧
      (openCirculation s).rods = s.rods ∧ (openCirculation s).joint = s.joint ∧
      (openCirculation s).strata = s.strata ∧ (openCirculation s).price = s.price ∧
      (openCirculation s).bill = s.bill ∧ (openCirculation s).inc = s.inc ∧ (openCirculation s).jobs = s.jobs ∧
      (openCirculation s).link = s.link ∧ (openCirculation s).free = s.free ∧
      (openCirculation s).pending = s.pending := by
  unfold openCirculation
  dsimp only
  simp

@[simp] theorem checkBleedLimit_frame (s : State) :
    (checkBleedLimit s).power = s.power ∧ (checkBleedLimit s).circ = s.circ ∧ (checkBleedLimit s).free = s.free ∧
      (checkBleedLimit s).pending = s.pending := by
  unfold checkBleedLimit
  repeat' split
  all_goals simp

/-! ## Field-line unit -/

@[simp] theorem setChannelState_frame (ch : Channel) (c : ChannelState) (s : State) :
    (setChannelState ch c s).power = s.power ∧ (setChannelState ch c s).circ = s.circ ∧
      (setChannelState ch c s).lag = s.lag ∧ (setChannelState ch c s).rods = s.rods ∧
      (setChannelState ch c s).joint = s.joint ∧ (setChannelState ch c s).strata = s.strata ∧
      (setChannelState ch c s).price = s.price ∧ (setChannelState ch c s).bill = s.bill ∧
      (setChannelState ch c s).inc = s.inc ∧ (setChannelState ch c s).jobs = s.jobs ∧
      (setChannelState ch c s).link = s.link ∧ (setChannelState ch c s).free = s.free ∧
      (setChannelState ch c s).pending = s.pending := by
  unfold setChannelState
  dsimp only
  repeat' split
  all_goals simp

@[simp] theorem recordFault_frame (ch : Channel) (cur : Nat) (w : ChannelState) (s : State) :
    (recordFault ch cur w s).power = s.power ∧ (recordFault ch cur w s).flu = s.flu ∧
      (recordFault ch cur w s).circ = s.circ ∧ (recordFault ch cur w s).lag = s.lag ∧
      (recordFault ch cur w s).rods = s.rods ∧ (recordFault ch cur w s).joint = s.joint ∧
      (recordFault ch cur w s).strata = s.strata ∧ (recordFault ch cur w s).price = s.price ∧
      (recordFault ch cur w s).bill = s.bill ∧ (recordFault ch cur w s).jobs = s.jobs ∧
      (recordFault ch cur w s).free = s.free ∧ (recordFault ch cur w s).pending = s.pending := by
  unfold recordFault
  repeat' split
  all_goals simp

@[simp] theorem deliverSample_frame (ch : Channel) (g : Option Nat) (s : State) :
    (deliverSample ch g s).power = s.power ∧ (deliverSample ch g s).free = s.free ∧
      (deliverSample ch g s).pending = s.pending := by
  unfold deliverSample
  repeat' split
  all_goals simp

@[simp] theorem sample_frame (ch : Channel) (cur : Nat) (s : State) :
    (sample ch cur s).power = s.power ∧ (sample ch cur s).free = s.free ∧ (sample ch cur s).pending = s.pending := by
  unfold sample
  dsimp only
  simp

@[simp] theorem setPulseLine_frame (i : PulseInput) (l : PulseLine) (s : State) :
    (setPulseLine i l s).power = s.power ∧ (setPulseLine i l s).circ = s.circ ∧ (setPulseLine i l s).lag = s.lag ∧
      (setPulseLine i l s).rods = s.rods ∧ (setPulseLine i l s).joint = s.joint ∧
      (setPulseLine i l s).strata = s.strata ∧ (setPulseLine i l s).price = s.price ∧
      (setPulseLine i l s).bill = s.bill ∧ (setPulseLine i l s).inc = s.inc ∧ (setPulseLine i l s).jobs = s.jobs ∧
      (setPulseLine i l s).link = s.link ∧ (setPulseLine i l s).free = s.free ∧
      (setPulseLine i l s).pending = s.pending := by
  unfold setPulseLine
  dsimp only
  repeat' split
  all_goals simp

@[simp] theorem acceptPulse_frame (i : PulseInput) (s : State) :
    (acceptPulse i s).power = s.power ∧ (acceptPulse i s).rods = s.rods ∧ (acceptPulse i s).bill = s.bill ∧
      (acceptPulse i s).free = s.free ∧ (acceptPulse i s).pending = s.pending := by
  unfold acceptPulse
  repeat' split
  all_goals simp

@[simp] theorem repeatAccept_frame (i : PulseInput) (n : Nat) (s : State) :
    (repeatTimes (acceptPulse i) n s).power = s.power ∧ (repeatTimes (acceptPulse i) n s).rods = s.rods ∧
      (repeatTimes (acceptPulse i) n s).bill = s.bill ∧ (repeatTimes (acceptPulse i) n s).free = s.free ∧
      (repeatTimes (acceptPulse i) n s).pending = s.pending := by
  induction n generalizing s with
  | zero => simp [repeatTimes]
  | succ n ih => simp [repeatTimes, ih]

@[simp] theorem pulseActivity_frame (i : PulseInput) (sp : List LineSpan) (s : State) :
    (pulseActivity i sp s).power = s.power ∧ (pulseActivity i sp s).rods = s.rods ∧
      (pulseActivity i sp s).bill = s.bill ∧ (pulseActivity i sp s).free = s.free ∧
      (pulseActivity i sp s).pending = s.pending := by
  unfold pulseActivity
  dsimp only
  simp

@[simp] theorem readerChar_frame (c : ReaderChar) (s : State) :
    (readerChar c s).power = s.power ∧ (readerChar c s).circ = s.circ ∧ (readerChar c s).lag = s.lag ∧
      (readerChar c s).strata = s.strata ∧ (readerChar c s).price = s.price ∧ (readerChar c s).bill = s.bill ∧
      (readerChar c s).jobs = s.jobs ∧ (readerChar c s).free = s.free ∧ (readerChar c s).pending = s.pending := by
  unfold readerChar
  dsimp only
  repeat' split
  all_goals simp

@[simp] theorem readerChars_frame (cs : List ReaderChar) (s : State) :
    (readerChars cs s).power = s.power ∧ (readerChars cs s).circ = s.circ ∧ (readerChars cs s).lag = s.lag ∧
      (readerChars cs s).strata = s.strata ∧ (readerChars cs s).price = s.price ∧ (readerChars cs s).bill = s.bill ∧
      (readerChars cs s).jobs = s.jobs ∧ (readerChars cs s).free = s.free ∧
      (readerChars cs s).pending = s.pending := by
  induction cs generalizing s with
  | nil => simp [readerChars]
  | cons b rest ih =>
    simp only [readerChars]
    all_goals simp [*]

@[simp] theorem readerTimeout_frame (s : State) :
    (readerTimeout s).power = s.power ∧ (readerTimeout s).circ = s.circ ∧ (readerTimeout s).lag = s.lag ∧
      (readerTimeout s).rods = s.rods ∧ (readerTimeout s).joint = s.joint ∧ (readerTimeout s).strata = s.strata ∧
      (readerTimeout s).price = s.price ∧ (readerTimeout s).bill = s.bill ∧ (readerTimeout s).inc = s.inc ∧
      (readerTimeout s).jobs = s.jobs ∧ (readerTimeout s).link = s.link ∧ (readerTimeout s).free = s.free ∧
      (readerTimeout s).pending = s.pending := by
  unfold readerTimeout
  dsimp only
  simp

@[simp] theorem clockTick_frame (s : State) :
    (clockTick s).power = s.power ∧ (clockTick s).circ = s.circ ∧ (clockTick s).rods = s.rods ∧
      (clockTick s).joint = s.joint ∧ (clockTick s).bill = s.bill ∧ (clockTick s).free = s.free ∧
      (clockTick s).pending = s.pending := by
  unfold clockTick
  dsimp only
  repeat' split
  all_goals simp

@[simp] theorem phaseTick_frame (s : State) :
    (phaseTick s).power = s.power ∧ (phaseTick s).rods = s.rods ∧ (phaseTick s).bill = s.bill ∧
      (phaseTick s).free = s.free ∧ (phaseTick s).pending = s.pending := by
  unfold phaseTick
  dsimp only
  repeat' split
  all_goals simp

@[simp] theorem secondTick_frame (s : State) :
    (secondTick s).power = s.power ∧ (secondTick s).free = s.free ∧ (secondTick s).pending = s.pending := by
  simp [secondTick]

@[simp] theorem earlyBinTick_frame (s : State) :
    (earlyBinTick s).power = s.power ∧ (earlyBinTick s).rods = s.rods ∧ (earlyBinTick s).bill = s.bill ∧
      (earlyBinTick s).free = s.free ∧ (earlyBinTick s).pending = s.pending := by
  unfold earlyBinTick
  dsimp only
  repeat' split
  all_goals simp

@[simp] theorem applySetClock_frame (t : Nat) (s : State) :
    (applySetClock t s).power = s.power ∧ (applySetClock t s).circ = s.circ ∧ (applySetClock t s).rods = s.rods ∧
      (applySetClock t s).joint = s.joint ∧ (applySetClock t s).bill = s.bill ∧ (applySetClock t s).free = s.free ∧
      (applySetClock t s).pending = s.pending := by
  unfold applySetClock
  dsimp only
  repeat' split
  all_goals simp

/-! ## Incident requests and the job controller -/

@[simp] theorem clearSlot_frame (n : Nat) (s : State) :
    (clearSlot n s).power = s.power ∧ (clearSlot n s).circ = s.circ ∧ (clearSlot n s).free = s.free ∧
      (clearSlot n s).pending = s.pending := by
  unfold clearSlot
  dsimp only
  simp

@[simp] theorem handUnmasked_frame (o : ClassFlags) (s : State) (c : NoticeClass) :
    (handUnmasked o s c).power = s.power ∧ (handUnmasked o s c).flu = s.flu ∧ (handUnmasked o s c).circ = s.circ ∧
      (handUnmasked o s c).lag = s.lag ∧ (handUnmasked o s c).rods = s.rods ∧ (handUnmasked o s c).joint = s.joint ∧
      (handUnmasked o s c).strata = s.strata ∧ (handUnmasked o s c).price = s.price ∧
      (handUnmasked o s c).bill = s.bill ∧ (handUnmasked o s c).inc = s.inc ∧ (handUnmasked o s c).jobs = s.jobs ∧
      (handUnmasked o s c).free = s.free ∧ (handUnmasked o s c).pending = s.pending := by
  unfold handUnmasked
  repeat' split
  all_goals simp

@[simp] theorem foldUnmasked_frame (o : ClassFlags) (cs : List NoticeClass) (s : State) :
    (cs.foldl (handUnmasked o) s).power = s.power ∧ (cs.foldl (handUnmasked o) s).flu = s.flu ∧
      (cs.foldl (handUnmasked o) s).circ = s.circ ∧ (cs.foldl (handUnmasked o) s).lag = s.lag ∧
      (cs.foldl (handUnmasked o) s).rods = s.rods ∧ (cs.foldl (handUnmasked o) s).joint = s.joint ∧
      (cs.foldl (handUnmasked o) s).strata = s.strata ∧ (cs.foldl (handUnmasked o) s).price = s.price ∧
      (cs.foldl (handUnmasked o) s).bill = s.bill ∧ (cs.foldl (handUnmasked o) s).inc = s.inc ∧
      (cs.foldl (handUnmasked o) s).jobs = s.jobs ∧ (cs.foldl (handUnmasked o) s).free = s.free ∧
      (cs.foldl (handUnmasked o) s).pending = s.pending := by
  induction cs generalizing s with
  | nil => simp
  | cons b rest ih => simp [ih]

@[simp] theorem enterJob_frame (j : JobState) (s : State) :
    (enterJob j s).power = s.power ∧ (enterJob j s).flu = s.flu ∧ (enterJob j s).circ = s.circ ∧
      (enterJob j s).lag = s.lag ∧ (enterJob j s).rods = s.rods ∧ (enterJob j s).joint = s.joint ∧
      (enterJob j s).strata = s.strata ∧ (enterJob j s).price = s.price ∧ (enterJob j s).bill = s.bill ∧
      (enterJob j s).free = s.free ∧ (enterJob j s).pending = s.pending := by
  unfold enterJob
  dsimp only
  simp

@[simp] theorem setFiling_frame (o : FilingOutcome) (s : State) :
    (setFiling o s).power = s.power ∧ (setFiling o s).flu = s.flu ∧ (setFiling o s).circ = s.circ ∧
      (setFiling o s).lag = s.lag ∧ (setFiling o s).rods = s.rods ∧ (setFiling o s).joint = s.joint ∧
      (setFiling o s).strata = s.strata ∧ (setFiling o s).price = s.price ∧ (setFiling o s).bill = s.bill ∧
      (setFiling o s).inc = s.inc ∧ (setFiling o s).link = s.link ∧ (setFiling o s).free = s.free ∧
      (setFiling o s).pending = s.pending := by
  unfold setFiling
  dsimp only
  simp

@[simp] theorem endOperation_frame (n : Nat) (k : StoreSlot) (s : State) :
    (endOperation n k s).power = s.power ∧ (endOperation n k s).flu = s.flu ∧ (endOperation n k s).circ = s.circ ∧
      (endOperation n k s).lag = s.lag ∧ (endOperation n k s).rods = s.rods ∧ (endOperation n k s).joint = s.joint ∧
      (endOperation n k s).strata = s.strata ∧ (endOperation n k s).price = s.price ∧
      (endOperation n k s).bill = s.bill ∧ (endOperation n k s).free = s.free ∧
      (endOperation n k s).pending = s.pending := by
  unfold endOperation
  dsimp only
  simp

@[simp] theorem startWrite_frame (n : Nat) (s : State) :
    (startWrite n s).power = s.power ∧ (startWrite n s).flu = s.flu ∧ (startWrite n s).circ = s.circ ∧
      (startWrite n s).lag = s.lag ∧ (startWrite n s).rods = s.rods ∧ (startWrite n s).joint = s.joint ∧
      (startWrite n s).strata = s.strata ∧ (startWrite n s).price = s.price ∧ (startWrite n s).bill = s.bill ∧
      (startWrite n s).free = s.free ∧ (startWrite n s).pending = s.pending := by
  unfold startWrite
  dsimp only
  simp

@[simp] theorem leaveUnfiled_frame (o : FilingOutcome) (s : State) :
    (leaveUnfiled o s).power = s.power ∧ (leaveUnfiled o s).flu = s.flu ∧ (leaveUnfiled o s).circ = s.circ ∧
      (leaveUnfiled o s).lag = s.lag ∧ (leaveUnfiled o s).rods = s.rods ∧ (leaveUnfiled o s).joint = s.joint ∧
      (leaveUnfiled o s).strata = s.strata ∧ (leaveUnfiled o s).price = s.price ∧ (leaveUnfiled o s).bill = s.bill ∧
      (leaveUnfiled o s).free = s.free ∧ (leaveUnfiled o s).pending = s.pending := by
  simp [leaveUnfiled]

@[simp] theorem applyOpenJob_frame (number client : Nat) (well : List Byte) (s : State) :
    (applyOpenJob number client well s).power = s.power ∧ (applyOpenJob number client well s).flu = s.flu ∧
      (applyOpenJob number client well s).joint = s.joint ∧ (applyOpenJob number client well s).free = s.free ∧
      (applyOpenJob number client well s).pending = s.pending := by
  unfold applyOpenJob
  dsimp only
  simp

@[simp] theorem beginFiling_frame (s : State) :
    (beginFiling s).power = s.power ∧ (beginFiling s).flu = s.flu ∧ (beginFiling s).circ = s.circ ∧
      (beginFiling s).lag = s.lag ∧ (beginFiling s).rods = s.rods ∧ (beginFiling s).joint = s.joint ∧
      (beginFiling s).strata = s.strata ∧ (beginFiling s).price = s.price ∧ (beginFiling s).bill = s.bill ∧
      (beginFiling s).free = s.free ∧ (beginFiling s).pending = s.pending := by
  unfold beginFiling
  repeat' split
  all_goals simp

@[simp] theorem endJob_frame (s : State) :
    (endJob s).power = s.power ∧ (endJob s).flu = s.flu ∧ (endJob s).circ = s.circ ∧ (endJob s).rods = s.rods ∧
      (endJob s).joint = s.joint ∧ (endJob s).bill = s.bill ∧ (endJob s).free = s.free ∧
      (endJob s).pending = s.pending := by
  unfold endJob
  dsimp only
  simp

@[simp] theorem applyCloseJob_frame (s : State) :
    (applyCloseJob s).power = s.power ∧ (applyCloseJob s).flu = s.flu ∧ (applyCloseJob s).circ = s.circ ∧
      (applyCloseJob s).rods = s.rods ∧ (applyCloseJob s).joint = s.joint ∧ (applyCloseJob s).bill = s.bill ∧
      (applyCloseJob s).free = s.free ∧ (applyCloseJob s).pending = s.pending := by
  unfold applyCloseJob
  dsimp only
  simp

@[simp] theorem writeSucceeds_frame (s : State) :
    (writeSucceeds s).power = s.power ∧ (writeSucceeds s).flu = s.flu ∧ (writeSucceeds s).circ = s.circ ∧
      (writeSucceeds s).lag = s.lag ∧ (writeSucceeds s).rods = s.rods ∧ (writeSucceeds s).joint = s.joint ∧
      (writeSucceeds s).strata = s.strata ∧ (writeSucceeds s).price = s.price ∧ (writeSucceeds s).bill = s.bill ∧
      (writeSucceeds s).free = s.free ∧ (writeSucceeds s).pending = s.pending := by
  unfold writeSucceeds
  dsimp only
  repeat' split
  all_goals simp

@[simp] theorem failOperation_frame (n : Nat) (s : State) :
    (failOperation n s).power = s.power ∧ (failOperation n s).flu = s.flu ∧ (failOperation n s).circ = s.circ ∧
      (failOperation n s).lag = s.lag ∧ (failOperation n s).rods = s.rods ∧ (failOperation n s).joint = s.joint ∧
      (failOperation n s).strata = s.strata ∧ (failOperation n s).price = s.price ∧
      (failOperation n s).bill = s.bill ∧ (failOperation n s).free = s.free ∧
      (failOperation n s).pending = s.pending := by
  unfold failOperation
  dsimp only
  simp

@[simp] theorem writeFailure_frame (s : State) :
    (writeFailure s).power = s.power ∧ (writeFailure s).flu = s.flu ∧ (writeFailure s).circ = s.circ ∧
      (writeFailure s).lag = s.lag ∧ (writeFailure s).rods = s.rods ∧ (writeFailure s).joint = s.joint ∧
      (writeFailure s).strata = s.strata ∧ (writeFailure s).price = s.price ∧ (writeFailure s).bill = s.bill ∧
      (writeFailure s).free = s.free ∧ (writeFailure s).pending = s.pending := by
  unfold writeFailure
  repeat' split
  all_goals simp

@[simp] theorem eraseCompletion_frame (ok : Bool) (s : State) :
    (eraseCompletion ok s).power = s.power ∧ (eraseCompletion ok s).flu = s.flu ∧
      (eraseCompletion ok s).circ = s.circ ∧ (eraseCompletion ok s).lag = s.lag ∧
      (eraseCompletion ok s).rods = s.rods ∧ (eraseCompletion ok s).joint = s.joint ∧
      (eraseCompletion ok s).strata = s.strata ∧ (eraseCompletion ok s).price = s.price ∧
      (eraseCompletion ok s).bill = s.bill ∧ (eraseCompletion ok s).free = s.free ∧
      (eraseCompletion ok s).pending = s.pending := by
  unfold eraseCompletion
  repeat' split
  all_goals simp

/-! ## Starts -/

@[simp] theorem foldTorn_frame (cut : List Nat) (s : State) :
    (cut.foldl (fun t n => record .tornTicket n 0 t) s).power = s.power ∧
      (cut.foldl (fun t n => record .tornTicket n 0 t) s).flu = s.flu ∧
      (cut.foldl (fun t n => record .tornTicket n 0 t) s).circ = s.circ ∧
      (cut.foldl (fun t n => record .tornTicket n 0 t) s).lag = s.lag ∧
      (cut.foldl (fun t n => record .tornTicket n 0 t) s).rods = s.rods ∧
      (cut.foldl (fun t n => record .tornTicket n 0 t) s).joint = s.joint ∧
      (cut.foldl (fun t n => record .tornTicket n 0 t) s).strata = s.strata ∧
      (cut.foldl (fun t n => record .tornTicket n 0 t) s).price = s.price ∧
      (cut.foldl (fun t n => record .tornTicket n 0 t) s).bill = s.bill ∧
      (cut.foldl (fun t n => record .tornTicket n 0 t) s).jobs = s.jobs ∧
      (cut.foldl (fun t n => record .tornTicket n 0 t) s).free = s.free ∧
      (cut.foldl (fun t n => record .tornTicket n 0 t) s).pending = s.pending := by
  induction cut generalizing s with
  | nil => simp
  | cons b rest ih => simp [ih]

@[simp] theorem reportTorn_frame (cut : List Nat) (ch : Bool) (s : State) :
    (reportTorn cut ch s).power = s.power ∧ (reportTorn cut ch s).flu = s.flu ∧ (reportTorn cut ch s).circ = s.circ ∧
      (reportTorn cut ch s).lag = s.lag ∧ (reportTorn cut ch s).rods = s.rods ∧
      (reportTorn cut ch s).joint = s.joint ∧ (reportTorn cut ch s).strata = s.strata ∧
      (reportTorn cut ch s).price = s.price ∧ (reportTorn cut ch s).bill = s.bill ∧
      (reportTorn cut ch s).jobs = s.jobs ∧ (reportTorn cut ch s).free = s.free ∧
      (reportTorn cut ch s).pending = s.pending := by
  unfold reportTorn
  repeat' split
  all_goals simp

@[simp] theorem scanStore_frame (s : State) :
    (scanStore s).power = s.power ∧ (scanStore s).flu = s.flu ∧ (scanStore s).circ = s.circ ∧
      (scanStore s).lag = s.lag ∧ (scanStore s).rods = s.rods ∧ (scanStore s).joint = s.joint ∧
      (scanStore s).strata = s.strata ∧ (scanStore s).price = s.price ∧ (scanStore s).bill = s.bill ∧
      (scanStore s).pending = s.pending := by
  unfold scanStore
  dsimp only
  simp

@[simp] theorem settleCirculation_frame (s : State) :
    (settleCirculation s).power = s.power ∧ (settleCirculation s).rods = s.rods ∧
      (settleCirculation s).bill = s.bill ∧ (settleCirculation s).free = s.free ∧
      (settleCirculation s).pending = s.pending := by
  unfold settleCirculation
  dsimp only
  repeat' split
  all_goals simp

@[simp] theorem orphanRod_frame (a : Arm) (s : State) :
    (orphanRod a s).power = s.power ∧ (orphanRod a s).circ = s.circ ∧ (orphanRod a s).free = s.free ∧
      (orphanRod a s).pending = s.pending := by
  simp [orphanRod]

@[simp] theorem settleJoint_frame (s : State) :
    (settleJoint s).power = s.power ∧ (settleJoint s).circ = s.circ ∧ (settleJoint s).free = s.free ∧
      (settleJoint s).pending = s.pending := by
  unfold settleJoint
  dsimp only
  repeat' split
  all_goals simp

@[simp] theorem settleJob_frame (s : State) :
    (settleJob s).power = s.power ∧ (settleJob s).flu = s.flu ∧ (settleJob s).circ = s.circ ∧
      (settleJob s).lag = s.lag ∧ (settleJob s).rods = s.rods ∧ (settleJob s).joint = s.joint ∧
      (settleJob s).strata = s.strata ∧ (settleJob s).price = s.price ∧ (settleJob s).bill = s.bill ∧
      (settleJob s).free = s.free ∧ (settleJob s).pending = s.pending := by
  unfold settleJob
  repeat' split
  all_goals simp

@[simp] theorem startDayBoundary_frame (s : State) :
    (startDayBoundary s).power = s.power ∧ (startDayBoundary s).circ = s.circ ∧ (startDayBoundary s).rods = s.rods ∧
      (startDayBoundary s).joint = s.joint ∧ (startDayBoundary s).bill = s.bill ∧
      (startDayBoundary s).free = s.free ∧ (startDayBoundary s).pending = s.pending := by
  unfold startDayBoundary
  dsimp only
  repeat' split
  all_goals simp

@[simp] theorem warmStart_frame (l : StartLines) (n : Nat) (s : State) :
    (warmStart l n s).power = s.power ∧ (warmStart l n s).pending = s.pending := by
  unfold warmStart
  dsimp only
  simp

@[simp] theorem coldStart_frame (l : StartLines) (s : State) :
    (coldStart l s).power = s.power ∧ (coldStart l s).pending = s.pending := by
  unfold coldStart
  simp [State.cold]

@[simp] theorem silence_frame (p : Power) (s : State) :
    (silence p s).circ = s.circ ∧ (silence p s).lag = s.lag ∧ (silence p s).rods = s.rods ∧
      (silence p s).joint = s.joint ∧ (silence p s).strata = s.strata ∧ (silence p s).price = s.price ∧
      (silence p s).bill = s.bill ∧ (silence p s).inc = s.inc ∧ (silence p s).jobs = s.jobs ∧
      (silence p s).free = s.free ∧ (silence p s).pending = s.pending := by
  unfold silence
  dsimp only
  simp

/-! ## Requests at their owners -/

@[simp] theorem takeReadStatus_frame (x : Nat) (s : State) :
    (takeReadStatus x s).1.power = s.power ∧ (takeReadStatus x s).1.flu = s.flu ∧
      (takeReadStatus x s).1.circ = s.circ ∧ (takeReadStatus x s).1.lag = s.lag ∧
      (takeReadStatus x s).1.rods = s.rods ∧ (takeReadStatus x s).1.joint = s.joint ∧
      (takeReadStatus x s).1.strata = s.strata ∧ (takeReadStatus x s).1.price = s.price ∧
      (takeReadStatus x s).1.bill = s.bill ∧ (takeReadStatus x s).1.jobs = s.jobs ∧
      (takeReadStatus x s).1.free = s.free ∧ (takeReadStatus x s).1.pending = s.pending := by
  unfold takeReadStatus
  repeat' split
  all_goals simp

@[simp] theorem takeReadRecords_frame (a b c d e f : Nat) (s : State) :
    (takeReadRecords a b c d e f s).1.power = s.power ∧ (takeReadRecords a b c d e f s).1.flu = s.flu ∧
      (takeReadRecords a b c d e f s).1.circ = s.circ ∧ (takeReadRecords a b c d e f s).1.lag = s.lag ∧
      (takeReadRecords a b c d e f s).1.rods = s.rods ∧ (takeReadRecords a b c d e f s).1.joint = s.joint ∧
      (takeReadRecords a b c d e f s).1.strata = s.strata ∧ (takeReadRecords a b c d e f s).1.price = s.price ∧
      (takeReadRecords a b c d e f s).1.bill = s.bill ∧ (takeReadRecords a b c d e f s).1.inc = s.inc ∧
      (takeReadRecords a b c d e f s).1.jobs = s.jobs ∧ (takeReadRecords a b c d e f s).1.link = s.link ∧
      (takeReadRecords a b c d e f s).1.free = s.free ∧ (takeReadRecords a b c d e f s).1.pending = s.pending := by
  unfold takeReadRecords
  repeat' split
  all_goals simp

@[simp] theorem takeRestart_frame (s : State) :
    (takeRestart s).1.power = s.power ∧ (takeRestart s).1.flu = s.flu ∧ (takeRestart s).1.circ = s.circ ∧
      (takeRestart s).1.lag = s.lag ∧ (takeRestart s).1.rods = s.rods ∧ (takeRestart s).1.joint = s.joint ∧
      (takeRestart s).1.strata = s.strata ∧ (takeRestart s).1.price = s.price ∧ (takeRestart s).1.bill = s.bill ∧
      (takeRestart s).1.inc = s.inc ∧ (takeRestart s).1.jobs = s.jobs ∧ (takeRestart s).1.link = s.link ∧
      (takeRestart s).1.free = s.free ∧ (takeRestart s).1.pending = s.pending := by
  unfold takeRestart
  dsimp only
  simp

@[simp] theorem takeReadFieldLines_frame (s : State) :
    (takeReadFieldLines s).1.power = s.power ∧ (takeReadFieldLines s).1.flu = s.flu ∧
      (takeReadFieldLines s).1.circ = s.circ ∧ (takeReadFieldLines s).1.lag = s.lag ∧
      (takeReadFieldLines s).1.rods = s.rods ∧ (takeReadFieldLines s).1.joint = s.joint ∧
      (takeReadFieldLines s).1.strata = s.strata ∧ (takeReadFieldLines s).1.price = s.price ∧
      (takeReadFieldLines s).1.bill = s.bill ∧ (takeReadFieldLines s).1.inc = s.inc ∧
      (takeReadFieldLines s).1.jobs = s.jobs ∧ (takeReadFieldLines s).1.link = s.link ∧
      (takeReadFieldLines s).1.free = s.free ∧ (takeReadFieldLines s).1.pending = s.pending := by
  unfold takeReadFieldLines
  dsimp only
  simp

@[simp] theorem takeSetChannel_frame (a b : Nat) (s : State) :
    (takeSetChannel a b s).1.power = s.power ∧ (takeSetChannel a b s).1.circ = s.circ ∧
      (takeSetChannel a b s).1.lag = s.lag ∧ (takeSetChannel a b s).1.rods = s.rods ∧
      (takeSetChannel a b s).1.joint = s.joint ∧ (takeSetChannel a b s).1.strata = s.strata ∧
      (takeSetChannel a b s).1.price = s.price ∧ (takeSetChannel a b s).1.bill = s.bill ∧
      (takeSetChannel a b s).1.inc = s.inc ∧ (takeSetChannel a b s).1.jobs = s.jobs ∧
      (takeSetChannel a b s).1.link = s.link ∧ (takeSetChannel a b s).1.free = s.free ∧
      (takeSetChannel a b s).1.pending = s.pending := by
  unfold takeSetChannel
  dsimp only
  repeat' split
  all_goals simp

@[simp] theorem takeSetClock_frame (a : Nat) (s : State) :
    (takeSetClock a s).1.power = s.power ∧ (takeSetClock a s).1.circ = s.circ ∧ (takeSetClock a s).1.rods = s.rods ∧
      (takeSetClock a s).1.joint = s.joint ∧ (takeSetClock a s).1.bill = s.bill ∧
      (takeSetClock a s).1.free = s.free ∧ (takeSetClock a s).1.pending = s.pending := by
  unfold takeSetClock
  repeat' split
  all_goals simp

@[simp] theorem takeSetPump_frame (a b c : Nat) (s : State) :
    (takeSetPump a b c s).1.power = s.power ∧ (takeSetPump a b c s).1.flu = s.flu ∧
      (takeSetPump a b c s).1.lag = s.lag ∧ (takeSetPump a b c s).1.rods = s.rods ∧
      (takeSetPump a b c s).1.joint = s.joint ∧ (takeSetPump a b c s).1.strata = s.strata ∧
      (takeSetPump a b c s).1.price = s.price ∧ (takeSetPump a b c s).1.bill = s.bill ∧
      (takeSetPump a b c s).1.inc = s.inc ∧ (takeSetPump a b c s).1.jobs = s.jobs ∧
      (takeSetPump a b c s).1.link = s.link ∧ (takeSetPump a b c s).1.free = s.free ∧
      (takeSetPump a b c s).1.pending = s.pending := by
  unfold takeSetPump
  dsimp only
  repeat' split
  all_goals simp

@[simp] theorem takeSetReturnMeter_frame (a : Nat) (s : State) :
    (takeSetReturnMeter a s).1.power = s.power ∧ (takeSetReturnMeter a s).1.flu = s.flu ∧
      (takeSetReturnMeter a s).1.lag = s.lag ∧ (takeSetReturnMeter a s).1.rods = s.rods ∧
      (takeSetReturnMeter a s).1.joint = s.joint ∧ (takeSetReturnMeter a s).1.strata = s.strata ∧
      (takeSetReturnMeter a s).1.price = s.price ∧ (takeSetReturnMeter a s).1.bill = s.bill ∧
      (takeSetReturnMeter a s).1.inc = s.inc ∧ (takeSetReturnMeter a s).1.jobs = s.jobs ∧
      (takeSetReturnMeter a s).1.link = s.link ∧ (takeSetReturnMeter a s).1.free = s.free ∧
      (takeSetReturnMeter a s).1.pending = s.pending := by
  unfold takeSetReturnMeter
  dsimp only
  repeat' split
  all_goals simp

@[simp] theorem takeSetFlowBalance_frame (a b c d e : Nat) (s : State) :
    (takeSetFlowBalance a b c d e s).1.power = s.power ∧ (takeSetFlowBalance a b c d e s).1.flu = s.flu ∧
      (takeSetFlowBalance a b c d e s).1.lag = s.lag ∧ (takeSetFlowBalance a b c d e s).1.rods = s.rods ∧
      (takeSetFlowBalance a b c d e s).1.joint = s.joint ∧ (takeSetFlowBalance a b c d e s).1.strata = s.strata ∧
      (takeSetFlowBalance a b c d e s).1.price = s.price ∧ (takeSetFlowBalance a b c d e s).1.bill = s.bill ∧
      (takeSetFlowBalance a b c d e s).1.inc = s.inc ∧ (takeSetFlowBalance a b c d e s).1.jobs = s.jobs ∧
      (takeSetFlowBalance a b c d e s).1.link = s.link ∧ (takeSetFlowBalance a b c d e s).1.free = s.free ∧
      (takeSetFlowBalance a b c d e s).1.pending = s.pending := by
  unfold takeSetFlowBalance
  dsimp only
  repeat' split
  all_goals simp

@[simp] theorem takeSetCirculationLimits_frame (a b c d e : Nat) (s : State) :
    (takeSetCirculationLimits a b c d e s).1.power = s.power ∧
      (takeSetCirculationLimits a b c d e s).1.free = s.free ∧
      (takeSetCirculationLimits a b c d e s).1.pending = s.pending := by
  unfold takeSetCirculationLimits
  dsimp only
  repeat' split
  all_goals simp

@[simp] theorem takeStartCirculation_frame (a : Nat) (s : State) :
    (takeStartCirculation a s).1.power = s.power ∧ (takeStartCirculation a s).1.rods = s.rods ∧
      (takeStartCirculation a s).1.bill = s.bill ∧ (takeStartCirculation a s).1.free = s.free ∧
      (takeStartCirculation a s).1.pending = s.pending := by
  unfold takeStartCirculation
  dsimp only
  repeat' split
  all_goals simp

@[simp] theorem takeStopCirculation_frame (s : State) :
    (takeStopCirculation s).1.power = s.power ∧ (takeStopCirculation s).1.rods = s.rods ∧
      (takeStopCirculation s).1.bill = s.bill ∧ (takeStopCirculation s).1.free = s.free ∧
      (takeStopCirculation s).1.pending = s.pending := by
  unfold takeStopCirculation
  dsimp only
  repeat' split
  all_goals simp

@[simp] theorem takeConfirmStop_frame (s : State) :
    (takeConfirmStop s).1.power = s.power ∧ (takeConfirmStop s).1.rods = s.rods ∧
      (takeConfirmStop s).1.bill = s.bill ∧ (takeConfirmStop s).1.free = s.free ∧
      (takeConfirmStop s).1.pending = s.pending := by
  unfold takeConfirmStop
  repeat' split
  all_goals simp

@[simp] theorem takeResetCirculation_frame (s : State) :
    (takeResetCirculation s).1.power = s.power ∧ (takeResetCirculation s).1.rods = s.rods ∧
      (takeResetCirculation s).1.bill = s.bill ∧ (takeResetCirculation s).1.free = s.free ∧
      (takeResetCirculation s).1.pending = s.pending := by
  unfold takeResetCirculation
  dsimp only
  repeat' split
  all_goals simp

@[simp] theorem takePumpTest_frame (a : Nat) (s : State) :
    (takePumpTest a s).1.power = s.power ∧ (takePumpTest a s).1.rods = s.rods ∧ (takePumpTest a s).1.bill = s.bill ∧
      (takePumpTest a s).1.free = s.free ∧ (takePumpTest a s).1.pending = s.pending := by
  unfold takePumpTest
  dsimp only
  repeat' split
  all_goals simp

@[simp] theorem takeSetSection_frame (a b c d : Nat) (s : State) :
    (takeSetSection a b c d s).1.power = s.power ∧ (takeSetSection a b c d s).1.flu = s.flu ∧
      (takeSetSection a b c d s).1.circ = s.circ ∧ (takeSetSection a b c d s).1.rods = s.rods ∧
      (takeSetSection a b c d s).1.joint = s.joint ∧ (takeSetSection a b c d s).1.strata = s.strata ∧
      (takeSetSection a b c d s).1.price = s.price ∧ (takeSetSection a b c d s).1.bill = s.bill ∧
      (takeSetSection a b c d s).1.inc = s.inc ∧ (takeSetSection a b c d s).1.jobs = s.jobs ∧
      (takeSetSection a b c d s).1.link = s.link ∧ (takeSetSection a b c d s).1.free = s.free ∧
      (takeSetSection a b c d s).1.pending = s.pending := by
  unfold takeSetSection
  dsimp only
  repeat' split
  all_goals simp

@[simp] theorem takeSetLagGeometry_frame (a b c : Nat) (s : State) :
    (takeSetLagGeometry a b c s).1.power = s.power ∧ (takeSetLagGeometry a b c s).1.flu = s.flu ∧
      (takeSetLagGeometry a b c s).1.circ = s.circ ∧ (takeSetLagGeometry a b c s).1.rods = s.rods ∧
      (takeSetLagGeometry a b c s).1.joint = s.joint ∧ (takeSetLagGeometry a b c s).1.strata = s.strata ∧
      (takeSetLagGeometry a b c s).1.price = s.price ∧ (takeSetLagGeometry a b c s).1.bill = s.bill ∧
      (takeSetLagGeometry a b c s).1.inc = s.inc ∧ (takeSetLagGeometry a b c s).1.jobs = s.jobs ∧
      (takeSetLagGeometry a b c s).1.link = s.link ∧ (takeSetLagGeometry a b c s).1.free = s.free ∧
      (takeSetLagGeometry a b c s).1.pending = s.pending := by
  unfold takeSetLagGeometry
  dsimp only
  repeat' split
  all_goals simp

@[simp] theorem takeRegisterRod_frame (a b c d e : Nat) (s : State) :
    (takeRegisterRod a b c d e s).1.power = s.power ∧ (takeRegisterRod a b c d e s).1.flu = s.flu ∧
      (takeRegisterRod a b c d e s).1.circ = s.circ ∧ (takeRegisterRod a b c d e s).1.lag = s.lag ∧
      (takeRegisterRod a b c d e s).1.joint = s.joint ∧ (takeRegisterRod a b c d e s).1.strata = s.strata ∧
      (takeRegisterRod a b c d e s).1.price = s.price ∧ (takeRegisterRod a b c d e s).1.bill = s.bill ∧
      (takeRegisterRod a b c d e s).1.inc = s.inc ∧ (takeRegisterRod a b c d e s).1.jobs = s.jobs ∧
      (takeRegisterRod a b c d e s).1.link = s.link ∧ (takeRegisterRod a b c d e s).1.free = s.free ∧
      (takeRegisterRod a b c d e s).1.pending = s.pending := by
  unfold takeRegisterRod
  dsimp only
  repeat' split
  all_goals simp

@[simp] theorem takeDelistRod_frame (a : Nat) (s : State) :
    (takeDelistRod a s).1.power = s.power ∧ (takeDelistRod a s).1.flu = s.flu ∧ (takeDelistRod a s).1.circ = s.circ ∧
      (takeDelistRod a s).1.lag = s.lag ∧ (takeDelistRod a s).1.joint = s.joint ∧
      (takeDelistRod a s).1.strata = s.strata ∧ (takeDelistRod a s).1.price = s.price ∧
      (takeDelistRod a s).1.bill = s.bill ∧ (takeDelistRod a s).1.inc = s.inc ∧ (takeDelistRod a s).1.jobs = s.jobs ∧
      (takeDelistRod a s).1.link = s.link ∧ (takeDelistRod a s).1.free = s.free ∧
      (takeDelistRod a s).1.pending = s.pending := by
  unfold takeDelistRod
  dsimp only
  repeat' split
  all_goals simp

@[simp] theorem takePlaceRod_frame (a b : Nat) (s : State) :
    (takePlaceRod a b s).1.power = s.power ∧ (takePlaceRod a b s).1.flu = s.flu ∧
      (takePlaceRod a b s).1.circ = s.circ ∧ (takePlaceRod a b s).1.lag = s.lag ∧
      (takePlaceRod a b s).1.joint = s.joint ∧ (takePlaceRod a b s).1.strata = s.strata ∧
      (takePlaceRod a b s).1.price = s.price ∧ (takePlaceRod a b s).1.bill = s.bill ∧
      (takePlaceRod a b s).1.inc = s.inc ∧ (takePlaceRod a b s).1.jobs = s.jobs ∧
      (takePlaceRod a b s).1.link = s.link ∧ (takePlaceRod a b s).1.free = s.free ∧
      (takePlaceRod a b s).1.pending = s.pending := by
  unfold takePlaceRod
  repeat' split
  all_goals simp

@[simp] theorem takeSetRodStatus_frame (a b : Nat) (s : State) :
    (takeSetRodStatus a b s).1.power = s.power ∧ (takeSetRodStatus a b s).1.flu = s.flu ∧
      (takeSetRodStatus a b s).1.circ = s.circ ∧ (takeSetRodStatus a b s).1.lag = s.lag ∧
      (takeSetRodStatus a b s).1.joint = s.joint ∧ (takeSetRodStatus a b s).1.strata = s.strata ∧
      (takeSetRodStatus a b s).1.price = s.price ∧ (takeSetRodStatus a b s).1.bill = s.bill ∧
      (takeSetRodStatus a b s).1.inc = s.inc ∧ (takeSetRodStatus a b s).1.jobs = s.jobs ∧
      (takeSetRodStatus a b s).1.link = s.link ∧ (takeSetRodStatus a b s).1.free = s.free ∧
      (takeSetRodStatus a b s).1.pending = s.pending := by
  unfold takeSetRodStatus
  repeat' split
  all_goals simp

@[simp] theorem takeSetRodLimits_frame (a b : Nat) (s : State) :
    (takeSetRodLimits a b s).1.power = s.power ∧ (takeSetRodLimits a b s).1.flu = s.flu ∧
      (takeSetRodLimits a b s).1.circ = s.circ ∧ (takeSetRodLimits a b s).1.lag = s.lag ∧
      (takeSetRodLimits a b s).1.joint = s.joint ∧ (takeSetRodLimits a b s).1.strata = s.strata ∧
      (takeSetRodLimits a b s).1.price = s.price ∧ (takeSetRodLimits a b s).1.bill = s.bill ∧
      (takeSetRodLimits a b s).1.inc = s.inc ∧ (takeSetRodLimits a b s).1.jobs = s.jobs ∧
      (takeSetRodLimits a b s).1.link = s.link ∧ (takeSetRodLimits a b s).1.free = s.free ∧
      (takeSetRodLimits a b s).1.pending = s.pending := by
  unfold takeSetRodLimits
  dsimp only
  repeat' split
  all_goals simp

@[simp] theorem takeSetDepthReference_frame (a b : Nat) (s : State) :
    (takeSetDepthReference a b s).1.power = s.power ∧ (takeSetDepthReference a b s).1.flu = s.flu ∧
      (takeSetDepthReference a b s).1.circ = s.circ ∧ (takeSetDepthReference a b s).1.lag = s.lag ∧
      (takeSetDepthReference a b s).1.joint = s.joint ∧ (takeSetDepthReference a b s).1.strata = s.strata ∧
      (takeSetDepthReference a b s).1.price = s.price ∧ (takeSetDepthReference a b s).1.bill = s.bill ∧
      (takeSetDepthReference a b s).1.inc = s.inc ∧ (takeSetDepthReference a b s).1.jobs = s.jobs ∧
      (takeSetDepthReference a b s).1.link = s.link ∧ (takeSetDepthReference a b s).1.free = s.free ∧
      (takeSetDepthReference a b s).1.pending = s.pending := by
  unfold takeSetDepthReference
  dsimp only
  repeat' split
  all_goals simp

@[simp] theorem takeSetOverpullLimit_frame (a : Nat) (s : State) :
    (takeSetOverpullLimit a s).1.power = s.power ∧ (takeSetOverpullLimit a s).1.flu = s.flu ∧
      (takeSetOverpullLimit a s).1.circ = s.circ ∧ (takeSetOverpullLimit a s).1.lag = s.lag ∧
      (takeSetOverpullLimit a s).1.joint = s.joint ∧ (takeSetOverpullLimit a s).1.strata = s.strata ∧
      (takeSetOverpullLimit a s).1.price = s.price ∧ (takeSetOverpullLimit a s).1.bill = s.bill ∧
      (takeSetOverpullLimit a s).1.inc = s.inc ∧ (takeSetOverpullLimit a s).1.jobs = s.jobs ∧
      (takeSetOverpullLimit a s).1.link = s.link ∧ (takeSetOverpullLimit a s).1.free = s.free ∧
      (takeSetOverpullLimit a s).1.pending = s.pending := by
  unfold takeSetOverpullLimit
  dsimp only
  repeat' split
  all_goals simp

@[simp] theorem takeSetJointLimits_frame (a b c d e : Nat) (s : State) :
    (takeSetJointLimits a b c d e s).1.power = s.power ∧ (takeSetJointLimits a b c d e s).1.flu = s.flu ∧
      (takeSetJointLimits a b c d e s).1.circ = s.circ ∧ (takeSetJointLimits a b c d e s).1.lag = s.lag ∧
      (takeSetJointLimits a b c d e s).1.rods = s.rods ∧ (takeSetJointLimits a b c d e s).1.strata = s.strata ∧
      (takeSetJointLimits a b c d e s).1.price = s.price ∧ (takeSetJointLimits a b c d e s).1.bill = s.bill ∧
      (takeSetJointLimits a b c d e s).1.inc = s.inc ∧ (takeSetJointLimits a b c d e s).1.jobs = s.jobs ∧
      (takeSetJointLimits a b c d e s).1.link = s.link ∧ (takeSetJointLimits a b c d e s).1.free = s.free ∧
      (takeSetJointLimits a b c d e s).1.pending = s.pending := by
  unfold takeSetJointLimits
  dsimp only
  repeat' split
  all_goals simp

@[simp] theorem takeRequestBreak_frame (s : State) :
    (takeRequestBreak s).1.power = s.power ∧ (takeRequestBreak s).1.circ = s.circ ∧
      (takeRequestBreak s).1.lag = s.lag ∧ (takeRequestBreak s).1.rods = s.rods ∧
      (takeRequestBreak s).1.strata = s.strata ∧ (takeRequestBreak s).1.price = s.price ∧
      (takeRequestBreak s).1.bill = s.bill ∧ (takeRequestBreak s).1.jobs = s.jobs ∧
      (takeRequestBreak s).1.free = s.free ∧ (takeRequestBreak s).1.pending = s.pending := by
  unfold takeRequestBreak
  dsimp only
  repeat' split
  all_goals simp

@[simp] theorem takeRackRod_frame (a : Nat) (s : State) :
    (takeRackRod a s).1.power = s.power ∧ (takeRackRod a s).1.circ = s.circ ∧ (takeRackRod a s).1.free = s.free ∧
      (takeRackRod a s).1.pending = s.pending := by
  unfold takeRackRod
  repeat' split
  all_goals simp

@[simp] theorem takeCancelJoint_frame (s : State) :
    (takeCancelJoint s).1.power = s.power ∧ (takeCancelJoint s).1.circ = s.circ ∧
      (takeCancelJoint s).1.free = s.free ∧ (takeCancelJoint s).1.pending = s.pending := by
  unfold takeCancelJoint
  repeat' split
  all_goals simp

@[simp] theorem takeReleaseJoint_frame (s : State) :
    (takeReleaseJoint s).1.power = s.power ∧ (takeReleaseJoint s).1.circ = s.circ ∧
      (takeReleaseJoint s).1.free = s.free ∧ (takeReleaseJoint s).1.pending = s.pending := by
  unfold takeReleaseJoint
  repeat' split
  all_goals simp

@[simp] theorem takeFormation_frame (a : Nat) (s : State) :
    (takeFormation a s).1.power = s.power ∧ (takeFormation a s).1.flu = s.flu ∧ (takeFormation a s).1.circ = s.circ ∧
      (takeFormation a s).1.lag = s.lag ∧ (takeFormation a s).1.rods = s.rods ∧
      (takeFormation a s).1.joint = s.joint ∧ (takeFormation a s).1.price = s.price ∧
      (takeFormation a s).1.bill = s.bill ∧ (takeFormation a s).1.jobs = s.jobs ∧
      (takeFormation a s).1.free = s.free ∧ (takeFormation a s).1.pending = s.pending := by
  unfold takeFormation
  dsimp only
  repeat' split
  all_goals simp

@[simp] theorem takeWaterStrike_frame (a : Nat) (b c : Option Nat) (s : State) :
    (takeWaterStrike a b c s).1.power = s.power ∧ (takeWaterStrike a b c s).1.flu = s.flu ∧
      (takeWaterStrike a b c s).1.circ = s.circ ∧ (takeWaterStrike a b c s).1.lag = s.lag ∧
      (takeWaterStrike a b c s).1.rods = s.rods ∧ (takeWaterStrike a b c s).1.joint = s.joint ∧
      (takeWaterStrike a b c s).1.price = s.price ∧ (takeWaterStrike a b c s).1.bill = s.bill ∧
      (takeWaterStrike a b c s).1.jobs = s.jobs ∧ (takeWaterStrike a b c s).1.free = s.free ∧
      (takeWaterStrike a b c s).1.pending = s.pending := by
  unfold takeWaterStrike
  dsimp only
  repeat' split
  all_goals simp

@[simp] theorem takeAmendNote_frame (a b : Nat) (s : State) :
    (takeAmendNote a b s).1.power = s.power ∧ (takeAmendNote a b s).1.flu = s.flu ∧
      (takeAmendNote a b s).1.circ = s.circ ∧ (takeAmendNote a b s).1.lag = s.lag ∧
      (takeAmendNote a b s).1.rods = s.rods ∧ (takeAmendNote a b s).1.joint = s.joint ∧
      (takeAmendNote a b s).1.price = s.price ∧ (takeAmendNote a b s).1.bill = s.bill ∧
      (takeAmendNote a b s).1.inc = s.inc ∧ (takeAmendNote a b s).1.jobs = s.jobs ∧
      (takeAmendNote a b s).1.link = s.link ∧ (takeAmendNote a b s).1.free = s.free ∧
      (takeAmendNote a b s).1.pending = s.pending := by
  unfold takeAmendNote
  dsimp only
  repeat' split
  all_goals simp

@[simp] theorem takeStageBands_frame (a : Nat) (b : List Nat) (s : State) :
    (takeStageBands a b s).1.power = s.power ∧ (takeStageBands a b s).1.flu = s.flu ∧
      (takeStageBands a b s).1.circ = s.circ ∧ (takeStageBands a b s).1.lag = s.lag ∧
      (takeStageBands a b s).1.rods = s.rods ∧ (takeStageBands a b s).1.joint = s.joint ∧
      (takeStageBands a b s).1.strata = s.strata ∧ (takeStageBands a b s).1.bill = s.bill ∧
      (takeStageBands a b s).1.inc = s.inc ∧ (takeStageBands a b s).1.jobs = s.jobs ∧
      (takeStageBands a b s).1.link = s.link ∧ (takeStageBands a b s).1.free = s.free ∧
      (takeStageBands a b s).1.pending = s.pending := by
  unfold takeStageBands
  dsimp only
  repeat' split
  all_goals simp

@[simp] theorem takeStageFootageRow_frame (a : Nat) (b : List Nat) (s : State) :
    (takeStageFootageRow a b s).1.power = s.power ∧ (takeStageFootageRow a b s).1.flu = s.flu ∧
      (takeStageFootageRow a b s).1.circ = s.circ ∧ (takeStageFootageRow a b s).1.lag = s.lag ∧
      (takeStageFootageRow a b s).1.rods = s.rods ∧ (takeStageFootageRow a b s).1.joint = s.joint ∧
      (takeStageFootageRow a b s).1.strata = s.strata ∧ (takeStageFootageRow a b s).1.bill = s.bill ∧
      (takeStageFootageRow a b s).1.inc = s.inc ∧ (takeStageFootageRow a b s).1.jobs = s.jobs ∧
      (takeStageFootageRow a b s).1.link = s.link ∧ (takeStageFootageRow a b s).1.free = s.free ∧
      (takeStageFootageRow a b s).1.pending = s.pending := by
  unfold takeStageFootageRow
  dsimp only
  repeat' split
  all_goals simp

@[simp] theorem takeStageTimeRates_frame (a : List Nat) (s : State) :
    (takeStageTimeRates a s).1.power = s.power ∧ (takeStageTimeRates a s).1.flu = s.flu ∧
      (takeStageTimeRates a s).1.circ = s.circ ∧ (takeStageTimeRates a s).1.lag = s.lag ∧
      (takeStageTimeRates a s).1.rods = s.rods ∧ (takeStageTimeRates a s).1.joint = s.joint ∧
      (takeStageTimeRates a s).1.strata = s.strata ∧ (takeStageTimeRates a s).1.bill = s.bill ∧
      (takeStageTimeRates a s).1.inc = s.inc ∧ (takeStageTimeRates a s).1.jobs = s.jobs ∧
      (takeStageTimeRates a s).1.link = s.link ∧ (takeStageTimeRates a s).1.free = s.free ∧
      (takeStageTimeRates a s).1.pending = s.pending := by
  unfold takeStageTimeRates
  dsimp only
  repeat' split
  all_goals simp

@[simp] theorem takeStageMaterial_frame (a b c : Nat) (s : State) :
    (takeStageMaterial a b c s).1.power = s.power ∧ (takeStageMaterial a b c s).1.flu = s.flu ∧
      (takeStageMaterial a b c s).1.circ = s.circ ∧ (takeStageMaterial a b c s).1.lag = s.lag ∧
      (takeStageMaterial a b c s).1.rods = s.rods ∧ (takeStageMaterial a b c s).1.joint = s.joint ∧
      (takeStageMaterial a b c s).1.strata = s.strata ∧ (takeStageMaterial a b c s).1.bill = s.bill ∧
      (takeStageMaterial a b c s).1.inc = s.inc ∧ (takeStageMaterial a b c s).1.jobs = s.jobs ∧
      (takeStageMaterial a b c s).1.link = s.link ∧ (takeStageMaterial a b c s).1.free = s.free ∧
      (takeStageMaterial a b c s).1.pending = s.pending := by
  unfold takeStageMaterial
  dsimp only
  repeat' split
  all_goals simp

@[simp] theorem takeCommitStage_frame (a : Nat) (s : State) :
    (takeCommitStage a s).1.power = s.power ∧ (takeCommitStage a s).1.flu = s.flu ∧
      (takeCommitStage a s).1.circ = s.circ ∧ (takeCommitStage a s).1.rods = s.rods ∧
      (takeCommitStage a s).1.joint = s.joint ∧ (takeCommitStage a s).1.bill = s.bill ∧
      (takeCommitStage a s).1.free = s.free ∧ (takeCommitStage a s).1.pending = s.pending := by
  unfold takeCommitStage
  dsimp only
  repeat' split
  all_goals simp

@[simp] theorem takeCancelStage_frame (s : State) :
    (takeCancelStage s).1.power = s.power ∧ (takeCancelStage s).1.flu = s.flu ∧ (takeCancelStage s).1.circ = s.circ ∧
      (takeCancelStage s).1.lag = s.lag ∧ (takeCancelStage s).1.rods = s.rods ∧
      (takeCancelStage s).1.joint = s.joint ∧ (takeCancelStage s).1.strata = s.strata ∧
      (takeCancelStage s).1.bill = s.bill ∧ (takeCancelStage s).1.inc = s.inc ∧ (takeCancelStage s).1.jobs = s.jobs ∧
      (takeCancelStage s).1.link = s.link ∧ (takeCancelStage s).1.free = s.free ∧
      (takeCancelStage s).1.pending = s.pending := by
  unfold takeCancelStage
  dsimp only
  repeat' split
  all_goals simp

@[simp] theorem takeSetCategory_frame (a : Nat) (s : State) :
    (takeSetCategory a s).1.power = s.power ∧ (takeSetCategory a s).1.flu = s.flu ∧
      (takeSetCategory a s).1.circ = s.circ ∧ (takeSetCategory a s).1.lag = s.lag ∧
      (takeSetCategory a s).1.rods = s.rods ∧ (takeSetCategory a s).1.joint = s.joint ∧
      (takeSetCategory a s).1.strata = s.strata ∧ (takeSetCategory a s).1.price = s.price ∧
      (takeSetCategory a s).1.inc = s.inc ∧ (takeSetCategory a s).1.jobs = s.jobs ∧
      (takeSetCategory a s).1.link = s.link ∧ (takeSetCategory a s).1.free = s.free ∧
      (takeSetCategory a s).1.pending = s.pending := by
  unfold takeSetCategory
  dsimp only
  repeat' split
  all_goals simp

@[simp] theorem takeDrawMaterial_frame (a b : Nat) (s : State) :
    (takeDrawMaterial a b s).1.power = s.power ∧ (takeDrawMaterial a b s).1.flu = s.flu ∧
      (takeDrawMaterial a b s).1.circ = s.circ ∧ (takeDrawMaterial a b s).1.lag = s.lag ∧
      (takeDrawMaterial a b s).1.rods = s.rods ∧ (takeDrawMaterial a b s).1.joint = s.joint ∧
      (takeDrawMaterial a b s).1.strata = s.strata ∧ (takeDrawMaterial a b s).1.bill = s.bill ∧
      (takeDrawMaterial a b s).1.jobs = s.jobs ∧ (takeDrawMaterial a b s).1.free = s.free ∧
      (takeDrawMaterial a b s).1.pending = s.pending := by
  unfold takeDrawMaterial
  dsimp only
  repeat' split
  all_goals simp

@[simp] theorem takeClearIncident_frame (a : Nat) (s : State) :
    (takeClearIncident a s).1.power = s.power ∧ (takeClearIncident a s).1.circ = s.circ ∧
      (takeClearIncident a s).1.free = s.free ∧ (takeClearIncident a s).1.pending = s.pending := by
  unfold takeClearIncident
  repeat' split
  all_goals simp

@[simp] theorem takeClearOverflow_frame (s : State) :
    (takeClearOverflow s).1.power = s.power ∧ (takeClearOverflow s).1.flu = s.flu ∧
      (takeClearOverflow s).1.circ = s.circ ∧ (takeClearOverflow s).1.lag = s.lag ∧
      (takeClearOverflow s).1.rods = s.rods ∧ (takeClearOverflow s).1.joint = s.joint ∧
      (takeClearOverflow s).1.strata = s.strata ∧ (takeClearOverflow s).1.price = s.price ∧
      (takeClearOverflow s).1.bill = s.bill ∧ (takeClearOverflow s).1.jobs = s.jobs ∧
      (takeClearOverflow s).1.link = s.link ∧ (takeClearOverflow s).1.free = s.free ∧
      (takeClearOverflow s).1.pending = s.pending := by
  unfold takeClearOverflow
  dsimp only
  simp

@[simp] theorem takeSetNoticeMask_frame (a : Nat) (s : State) :
    (takeSetNoticeMask a s).1.power = s.power ∧ (takeSetNoticeMask a s).1.flu = s.flu ∧
      (takeSetNoticeMask a s).1.circ = s.circ ∧ (takeSetNoticeMask a s).1.lag = s.lag ∧
      (takeSetNoticeMask a s).1.rods = s.rods ∧ (takeSetNoticeMask a s).1.joint = s.joint ∧
      (takeSetNoticeMask a s).1.strata = s.strata ∧ (takeSetNoticeMask a s).1.price = s.price ∧
      (takeSetNoticeMask a s).1.bill = s.bill ∧ (takeSetNoticeMask a s).1.jobs = s.jobs ∧
      (takeSetNoticeMask a s).1.free = s.free ∧ (takeSetNoticeMask a s).1.pending = s.pending := by
  unfold takeSetNoticeMask
  dsimp only
  repeat' split
  all_goals simp

@[simp] theorem takeOpenJob_frame (a b : Nat) (c : List Byte) (s : State) :
    (takeOpenJob a b c s).1.power = s.power ∧ (takeOpenJob a b c s).1.flu = s.flu ∧
      (takeOpenJob a b c s).1.joint = s.joint ∧ (takeOpenJob a b c s).1.free = s.free ∧
      (takeOpenJob a b c s).1.pending = s.pending := by
  unfold takeOpenJob
  dsimp only
  repeat' split
  all_goals simp

@[simp] theorem takeCloseJob_frame (f : Bool) (s : State) :
    (takeCloseJob f s).1.power = s.power ∧ (takeCloseJob f s).1.flu = s.flu ∧ (takeCloseJob f s).1.circ = s.circ ∧
      (takeCloseJob f s).1.rods = s.rods ∧ (takeCloseJob f s).1.joint = s.joint ∧
      (takeCloseJob f s).1.bill = s.bill ∧ (takeCloseJob f s).1.free = s.free ∧
      (takeCloseJob f s).1.pending = s.pending := by
  unfold takeCloseJob
  dsimp only
  repeat' split
  all_goals simp

@[simp] theorem takeRetryFiling_frame (s : State) :
    (takeRetryFiling s).1.power = s.power ∧ (takeRetryFiling s).1.flu = s.flu ∧ (takeRetryFiling s).1.circ = s.circ ∧
      (takeRetryFiling s).1.lag = s.lag ∧ (takeRetryFiling s).1.rods = s.rods ∧
      (takeRetryFiling s).1.joint = s.joint ∧ (takeRetryFiling s).1.strata = s.strata ∧
      (takeRetryFiling s).1.price = s.price ∧ (takeRetryFiling s).1.bill = s.bill ∧
      (takeRetryFiling s).1.free = s.free ∧ (takeRetryFiling s).1.pending = s.pending := by
  unfold takeRetryFiling
  repeat' split
  all_goals simp

@[simp] theorem takeEraseTicket_frame (a : Nat) (s : State) :
    (takeEraseTicket a s).1.power = s.power ∧ (takeEraseTicket a s).1.flu = s.flu ∧
      (takeEraseTicket a s).1.circ = s.circ ∧ (takeEraseTicket a s).1.lag = s.lag ∧
      (takeEraseTicket a s).1.rods = s.rods ∧ (takeEraseTicket a s).1.joint = s.joint ∧
      (takeEraseTicket a s).1.strata = s.strata ∧ (takeEraseTicket a s).1.price = s.price ∧
      (takeEraseTicket a s).1.bill = s.bill ∧ (takeEraseTicket a s).1.free = s.free ∧
      (takeEraseTicket a s).1.pending = s.pending := by
  unfold takeEraseTicket
  dsimp only
  repeat' split
  all_goals simp

@[simp] theorem takeDiscardTicket_frame (s : State) :
    (takeDiscardTicket s).1.power = s.power ∧ (takeDiscardTicket s).1.flu = s.flu ∧
      (takeDiscardTicket s).1.circ = s.circ ∧ (takeDiscardTicket s).1.lag = s.lag ∧
      (takeDiscardTicket s).1.rods = s.rods ∧ (takeDiscardTicket s).1.joint = s.joint ∧
      (takeDiscardTicket s).1.strata = s.strata ∧ (takeDiscardTicket s).1.price = s.price ∧
      (takeDiscardTicket s).1.bill = s.bill ∧ (takeDiscardTicket s).1.free = s.free ∧
      (takeDiscardTicket s).1.pending = s.pending := by
  unfold takeDiscardTicket
  dsimp only
  repeat' split
  all_goals simp

@[simp] theorem takeReleaseStore_frame (s : State) :
    (takeReleaseStore s).1.power = s.power ∧ (takeReleaseStore s).1.flu = s.flu ∧
      (takeReleaseStore s).1.circ = s.circ ∧ (takeReleaseStore s).1.lag = s.lag ∧
      (takeReleaseStore s).1.rods = s.rods ∧ (takeReleaseStore s).1.joint = s.joint ∧
      (takeReleaseStore s).1.strata = s.strata ∧ (takeReleaseStore s).1.price = s.price ∧
      (takeReleaseStore s).1.bill = s.bill ∧ (takeReleaseStore s).1.free = s.free ∧
      (takeReleaseStore s).1.pending = s.pending := by
  unfold takeReleaseStore
  dsimp only
  repeat' split
  all_goals simp

@[simp] theorem takeRequest_frame (i : Instr) (s : State) :
    (takeRequest i s).1.power = s.power ∧ (takeRequest i s).1.free = s.free ∧
      (takeRequest i s).1.pending = s.pending := by
  unfold takeRequest
  repeat' split
  all_goals simp

@[simp] theorem takeForm_frame (f : RequestForm) (s : State) :
    (takeForm f s).1.power = s.power ∧ (takeForm f s).1.free = s.free ∧ (takeForm f s).1.pending = s.pending := by
  unfold takeForm
  repeat' split
  all_goals simp

/-! ## Link -/

@[simp] theorem formReply_frame (k : Nat) (r : Reply) (s : State) :
    (formReply k r s).power = s.power ∧ (formReply k r s).flu = s.flu ∧ (formReply k r s).circ = s.circ ∧
      (formReply k r s).lag = s.lag ∧ (formReply k r s).rods = s.rods ∧ (formReply k r s).joint = s.joint ∧
      (formReply k r s).strata = s.strata ∧ (formReply k r s).price = s.price ∧ (formReply k r s).bill = s.bill ∧
      (formReply k r s).inc = s.inc ∧ (formReply k r s).jobs = s.jobs ∧ (formReply k r s).free = s.free ∧
      (formReply k r s).pending = s.pending := by
  unfold formReply
  dsimp only
  simp

@[simp] theorem dropFront_frame (s : State) :
    (dropFront s).power = s.power ∧ (dropFront s).flu = s.flu ∧ (dropFront s).circ = s.circ ∧
      (dropFront s).lag = s.lag ∧ (dropFront s).rods = s.rods ∧ (dropFront s).joint = s.joint ∧
      (dropFront s).strata = s.strata ∧ (dropFront s).price = s.price ∧ (dropFront s).bill = s.bill ∧
      (dropFront s).inc = s.inc ∧ (dropFront s).jobs = s.jobs ∧ (dropFront s).free = s.free ∧
      (dropFront s).pending = s.pending := by
  unfold dropFront
  dsimp only
  simp

@[simp] theorem conclude_frame (r : Received) (t : State × Reply) :
    (conclude r t).pending = t.1.pending := by
  unfold conclude
  repeat' split
  all_goals simp

@[simp] theorem takeInProgress_frame (r : Received) (s : State) :
    (takeInProgress r s).pending = s.pending := by
  simp [takeInProgress]

@[simp] theorem holdRequest_frame (r : Received) (s : State) :
    (holdRequest r s).pending = s.pending := by
  unfold holdRequest
  dsimp only
  repeat' split
  all_goals simp

@[simp] theorem arrive_frame (r : Received) (s : State) :
    (arrive r s).pending = s.pending := by
  unfold arrive
  repeat' split
  all_goals simp

@[simp] theorem endInProgress_frame (s : State) :
    (endInProgress s).pending = s.pending := by
  unfold endInProgress
  dsimp only
  repeat' split
  all_goals simp

@[simp] theorem transmit_frame (s : State) :
    (transmit s).power = s.power ∧ (transmit s).flu = s.flu ∧ (transmit s).circ = s.circ ∧ (transmit s).lag = s.lag ∧
      (transmit s).rods = s.rods ∧ (transmit s).joint = s.joint ∧ (transmit s).strata = s.strata ∧
      (transmit s).price = s.price ∧ (transmit s).bill = s.bill ∧ (transmit s).inc = s.inc ∧
      (transmit s).jobs = s.jobs ∧ (transmit s).free = s.free ∧ (transmit s).pending = s.pending := by
  unfold transmit
  dsimp only
  repeat' split
  all_goals simp

@[simp] theorem transmitRunning_frame (s : State) :
    (transmitRunning s).power = s.power ∧ (transmitRunning s).flu = s.flu ∧ (transmitRunning s).circ = s.circ ∧
      (transmitRunning s).lag = s.lag ∧ (transmitRunning s).rods = s.rods ∧ (transmitRunning s).joint = s.joint ∧
      (transmitRunning s).strata = s.strata ∧ (transmitRunning s).price = s.price ∧ (transmitRunning s).bill = s.bill ∧
      (transmitRunning s).inc = s.inc ∧ (transmitRunning s).jobs = s.jobs ∧ (transmitRunning s).free = s.free ∧
      (transmitRunning s).pending = s.pending := by
  unfold transmitRunning
  split <;> simp

@[simp] theorem transmitComplete_frame (s : State) :
    (transmitComplete s).pending = s.pending := by
  unfold transmitComplete
  dsimp only
  repeat' split
  all_goals simp

@[simp] theorem receiveOctet_frame (b : Byte) (s : State) :
    (receiveOctet b s).pending = s.pending := by
  unfold receiveOctet
  dsimp only
  repeat' split
  all_goals simp

@[simp] theorem receiveOctets_frame (bs : List Byte) (s : State) :
    (receiveOctets bs s).pending = s.pending := by
  induction bs generalizing s with
  | nil => simp [receiveOctets]
  | cons b rest ih =>
    simp only [receiveOctets]
    all_goals simp [*]

@[simp] theorem receiverHunts_frame (s : State) :
    (receiverHunts s).power = s.power ∧ (receiverHunts s).flu = s.flu ∧ (receiverHunts s).circ = s.circ ∧
      (receiverHunts s).lag = s.lag ∧ (receiverHunts s).rods = s.rods ∧ (receiverHunts s).joint = s.joint ∧
      (receiverHunts s).strata = s.strata ∧ (receiverHunts s).price = s.price ∧ (receiverHunts s).bill = s.bill ∧
      (receiverHunts s).inc = s.inc ∧ (receiverHunts s).jobs = s.jobs ∧ (receiverHunts s).free = s.free ∧
      (receiverHunts s).pending = s.pending := by
  unfold receiverHunts
  dsimp only
  simp

@[simp] theorem arriveRequest_frame (i : Instr) (s : State) :
    (arriveRequest i s).pending = s.pending := by
  unfold arriveRequest
  repeat' split
  all_goals simp

@[simp] theorem arriveKind_frame (w : Addressee) (k : Nat) (p : List Byte) (s : State) :
    (arriveKind w k p s).pending = s.pending := by
  unfold arriveKind
  repeat' split
  all_goals simp

end Sys2Proof.Machine
end

