-- ==== Sys2Proof/Laws/State.lean ====
section
/-! SUPPORT. What each named update of the state reads back as, field by field, so that no later proof unfolds a record
update. What an update leaves alone is in Laws/Frame.lean. -/

namespace Sys2Proof.Machine

/-! ## Field lines -/

@[simp] theorem channelState_setChannelState (ch : Channel) (c : ChannelState) (s : State) :
    channelState ch (setChannelState ch c s) = c := by cases ch <;> rfl

theorem channelState_setChannelState_ne (a b : Channel) (c : ChannelState) (s : State) (h : a ≠ b) :
    channelState a (setChannelState b c s) = channelState a s := by
  cases a <;> cases b <;> first | rfl | exact absurd rfl h

@[simp] theorem pulseLine_setPulseLine (i : PulseInput) (l : PulseLine) (s : State) :
    pulseLine i (setPulseLine i l s) = l := by cases i <;> rfl

theorem pulseLine_setPulseLine_ne (i j : PulseInput) (l : PulseLine) (s : State) (h : i ≠ j) :
    pulseLine i (setPulseLine j l s) = pulseLine i s := by
  cases i <;> cases j <;> first | rfl | exact absurd rfl h

theorem setChannelState_self (ch : Channel) (s : State) : setChannelState ch (channelState ch s) s = s := by
  cases ch <;> rfl

theorem setPulseLine_self (i : PulseInput) (s : State) : setPulseLine i (pulseLine i s) s = s := by cases i <;> rfl

@[simp] theorem readerTimeout_reader (s : State) : (readerTimeout s).flu.reader = [] := rfl

/-! ## Output lines -/

@[simp] theorem commandEnables_pumpA (s : State) :
    (commandEnables s).flu.pumpAEnable = (s.circ.state.pumping && s.circ.mask.a) := rfl
@[simp] theorem commandEnables_pumpB (s : State) :
    (commandEnables s).flu.pumpBEnable = (s.circ.state.pumping && s.circ.mask.b) := rfl
@[simp] theorem commandEnables_makeUp (s : State) : (commandEnables s).flu.makeUpPermit = s.flu.makeUpPermit := rfl
@[simp] theorem commandEnables_break (s : State) : (commandEnables s).flu.breakPermit = s.flu.breakPermit := rfl

@[simp] theorem commandPermits_makeUp (s : State) :
    (commandPermits s).flu.makeUpPermit = (decide (s.joint.state = .loaded) && s.circ.state.resting) := rfl
@[simp] theorem commandPermits_break (s : State) :
    (commandPermits s).flu.breakPermit = decide (s.joint.state = .breakPermit) := rfl
@[simp] theorem commandPermits_pumpA (s : State) : (commandPermits s).flu.pumpAEnable = s.flu.pumpAEnable := rfl
@[simp] theorem commandPermits_pumpB (s : State) : (commandPermits s).flu.pumpBEnable = s.flu.pumpBEnable := rfl
@[simp] theorem commandPermits_state (s : State) : (commandPermits s).joint.state = s.joint.state := rfl
@[simp] theorem commandPermits_arm (s : State) : (commandPermits s).joint.arm = s.joint.arm := rfl
@[simp] theorem commandPermits_timer (s : State) : (commandPermits s).joint.timer = s.joint.timer := rfl
@[simp] theorem commandPermits_heldRef (s : State) : (commandPermits s).joint.heldRef = s.joint.heldRef := rfl
@[simp] theorem commandPermits_limits (s : State) : (commandPermits s).joint.limits = s.joint.limits := rfl
@[simp] theorem commandPermits_last (s : State) : (commandPermits s).joint.last = s.joint.last := rfl

@[simp] theorem dropOutputs_pumpA (s : State) : (dropOutputs s).flu.pumpAEnable = false := rfl
@[simp] theorem dropOutputs_pumpB (s : State) : (dropOutputs s).flu.pumpBEnable = false := rfl
@[simp] theorem dropOutputs_makeUp (s : State) : (dropOutputs s).flu.makeUpPermit = false := rfl
@[simp] theorem dropOutputs_break (s : State) : (dropOutputs s).flu.breakPermit = false := rfl

/-! ## Notice classes -/

@[simp] theorem ClassFlags.get_set (f : ClassFlags) (c : NoticeClass) (v : Bool) : (f.set c v).get c = v := by
  cases c <;> rfl

theorem ClassFlags.get_set_ne (f : ClassFlags) (a b : NoticeClass) (v : Bool) (h : a ≠ b) :
    (f.set b v).get a = f.get a := by
  cases a <;> cases b <;> first | rfl | exact absurd rfl h

theorem ClassFlags.set_get (f : ClassFlags) (c : NoticeClass) : f.set c (f.get c) = f := by cases c <;> rfl

@[simp] theorem ClassFlags.get_all (v : Bool) (c : NoticeClass) : (ClassFlags.all v).get c = v := by cases c <;> rfl

/-- The bits of a mask and the mask of the bits agree (R177). -/
theorem ClassFlags.bits_ofBits (n : Fin 64) : (ClassFlags.ofBits n.val).bits = n.val := by
  revert n; decide

theorem ClassFlags.ofBits_bits (f : ClassFlags) : ClassFlags.ofBits f.bits = f := by
  rcases f with ⟨a, b, c, d, e, g⟩
  revert a b c d e g; decide

@[simp] theorem clearPending_flags (c : NoticeClass) (s : State) :
    (clearPending c s).inc.flags = s.inc.flags.set c false := rfl
@[simp] theorem clearPending_masks (c : NoticeClass) (s : State) : (clearPending c s).inc.masks = s.inc.masks := rfl
@[simp] theorem clearPending_slots (c : NoticeClass) (s : State) : (clearPending c s).inc.slots = s.inc.slots := rfl

/-! ## Circulation -/

@[simp] theorem entered_state (new : CircState) (mask : PumpMask) (c : Circulation) : (c.entered new mask).state = new := rfl
@[simp] theorem entered_mask (new : CircState) (mask : PumpMask) (c : Circulation) : (c.entered new mask).mask = mask := rfl
@[simp] theorem entered_limits (new : CircState) (mask : PumpMask) (c : Circulation) :
    (c.entered new mask).limits = c.limits := rfl
@[simp] theorem entered_vp (new : CircState) (mask : PumpMask) (c : Circulation) : (c.entered new mask).vp = c.vp := rfl
@[simp] theorem entered_vr (new : CircState) (mask : PumpMask) (c : Circulation) : (c.entered new mask).vr = c.vr := rfl
@[simp] theorem entered_vl (new : CircState) (mask : PumpMask) (c : Circulation) : (c.entered new mask).vl = c.vl := rfl

@[simp] theorem enterCirc_circ (new : CircState) (mask : PumpMask) (s : State) :
    (enterCirc new mask s).circ = s.circ.entered new mask := by
  unfold enterCirc; simp only []; split <;> simp

@[simp] theorem enterCircKept_circ (new : CircState) (s : State) :
    (enterCircKept new s).circ = s.circ.entered new s.circ.mask := enterCirc_circ _ _ _

/-- The pump enables after a change of state (R28). -/
@[simp] theorem enterCirc_pumpA (new : CircState) (mask : PumpMask) (s : State) :
    (enterCirc new mask s).flu.pumpAEnable = (new.pumping && mask.a) := by
  unfold enterCirc; dsimp only; split <;> simp
@[simp] theorem enterCirc_pumpB (new : CircState) (mask : PumpMask) (s : State) :
    (enterCirc new mask s).flu.pumpBEnable = (new.pumping && mask.b) := by
  unfold enterCirc; dsimp only; split <;> simp

/-- The permits after a change of circulation state (R87, R88). -/
@[simp] theorem enterCirc_makeUp (new : CircState) (mask : PumpMask) (s : State) :
    (enterCirc new mask s).flu.makeUpPermit = (decide (s.joint.state = .loaded) && new.resting) := by
  unfold enterCirc; dsimp only; split <;> simp
@[simp] theorem enterCirc_break (new : CircState) (mask : PumpMask) (s : State) :
    (enterCirc new mask s).flu.breakPermit = decide (s.joint.state = .breakPermit) := by
  unfold enterCirc; dsimp only; split <;> simp

@[simp] theorem enterCirc_jointState (new : CircState) (mask : PumpMask) (s : State) :
    (enterCirc new mask s).joint.state = s.joint.state := by
  unfold enterCirc; dsimp only; split <;> simp

@[simp] theorem closeBin_window (s : State) : (closeBin s).circ.window = pushBin s.circ.window s.circ.openBin := rfl
@[simp] theorem closeBin_openBin (s : State) : (closeBin s).circ.openBin = Bin.zero := rfl
@[simp] theorem closeBin_state (s : State) : (closeBin s).circ.state = s.circ.state := rfl

/-! ## Joint, strata, lag and jobs -/

@[simp] theorem enterJoint_state (j : JointState) (s : State) : (enterJoint j s).joint.state = j := by simp [enterJoint]
@[simp] theorem enterJoint_arm (j : JointState) (s : State) : (enterJoint j s).joint.arm = s.joint.arm := by
  simp [enterJoint]
@[simp] theorem enterJoint_timer (j : JointState) (s : State) : (enterJoint j s).joint.timer = s.joint.timer := by
  simp [enterJoint]
@[simp] theorem enterJoint_limits (j : JointState) (s : State) : (enterJoint j s).joint.limits = s.joint.limits := by
  simp [enterJoint]
/-- The permits after a change of joint state (R87, R88). -/
@[simp] theorem enterJoint_makeUp (j : JointState) (s : State) :
    (enterJoint j s).flu.makeUpPermit = (decide (j = .loaded) && s.circ.state.resting) := by simp [enterJoint]
@[simp] theorem enterJoint_break (j : JointState) (s : State) :
    (enterJoint j s).flu.breakPermit = decide (j = .breakPermit) := by simp [enterJoint]
@[simp] theorem enterJoint_pumpA (j : JointState) (s : State) :
    (enterJoint j s).flu.pumpAEnable = s.flu.pumpAEnable := by simp [enterJoint]
@[simp] theorem enterJoint_pumpB (j : JointState) (s : State) :
    (enterJoint j s).flu.pumpBEnable = s.flu.pumpBEnable := by simp [enterJoint]
@[simp] theorem enterJoint_heldRef (j : JointState) (s : State) :
    (enterJoint j s).joint.heldRef = if j = .held then s.joint.heldRef else none := by simp [enterJoint]

@[simp] theorem onLastInterval_strikes (f : Interval → Interval) (s : State) :
    (onLastInterval f s).strata.strikes = s.strata.strikes := rfl
@[simp] theorem onLastInterval_drain (f : Interval → Interval) (s : State) :
    (onLastInterval f s).strata.drain = s.strata.drain := rfl
@[simp] theorem onLastInterval_intervals (f : Interval → Interval) (s : State) :
    (onLastInterval f s).strata.intervals = updateLast f s.strata.intervals := rfl

@[simp] theorem removeOldest_queue (m : Mark) (rest : List Mark) (s : State) :
    (removeOldest m rest s).lag.queue = rest := rfl
@[simp] theorem removeOldest_frontier (m : Mark) (rest : List Mark) (s : State) :
    (removeOldest m rest s).lag.frontier = m.bottom := rfl
@[simp] theorem removeOldest_spanTop (m : Mark) (rest : List Mark) (s : State) :
    (removeOldest m rest s).lag.spanTop = s.lag.spanTop := rfl
@[simp] theorem handResidual_queue (s : State) : (handResidual s).lag.queue = s.lag.queue := by simp [handResidual]
@[simp] theorem handResidual_spanSeconds (s : State) : (handResidual s).lag.spanSeconds = 0 := rfl
@[simp] theorem handResidual_spanLoss (s : State) : (handResidual s).lag.spanLoss = 0 := rfl

@[simp] theorem enterJob_jobs (j : JobState) (s : State) : (enterJob j s).jobs = { s.jobs with state := j } := by
  simp [enterJob]
@[simp] theorem endOperation_jobs (n : Nat) (k : StoreSlot) (s : State) :
    (endOperation n k s).jobs = { s.jobs with slots := setAt s.jobs.slots n fun _ => k, op := none } := by
  simp [endOperation]
@[simp] theorem setFiling_jobs (o : FilingOutcome) (s : State) :
    (setFiling o s).jobs =
      { s.jobs with context := s.jobs.context.map fun c => { c with filing := some o } } := rfl
@[simp] theorem startWrite_jobs (n : Nat) (s : State) :
    (startWrite n s).jobs =
      { s.jobs with state := .closing, slots := setAt s.jobs.slots n fun _ => .writing, op := some (.write n) } := by
  simp [startWrite]
@[simp] theorem leaveUnfiled_jobs (o : FilingOutcome) (s : State) :
    (leaveUnfiled o s).jobs =
      { s.jobs with state := .unfiled, context := s.jobs.context.map fun c => { c with filing := some o } } := by
  simp [leaveUnfiled]

/-! ## Link -/

@[simp] theorem dropFront_holding (s : State) : (dropFront s).link.holding = s.link.holding.drop 1 := rfl
@[simp] theorem formReply_holding (kind : Nat) (r : Reply) (s : State) :
    (formReply kind r s).link.holding = s.link.holding := rfl
@[simp] theorem formReply_overrun (kind : Nat) (r : Reply) (s : State) :
    (formReply kind r s).link.rxOverrun = false := rfl
@[simp] theorem receiverHunts_rx (s : State) : (receiverHunts s).link.rx = [] := rfl
@[simp] theorem taking_holding (i : Instr) (s : State) :
    ({ s with link.holding := (receivedRequest i).toList } : State).link.holding = (receivedRequest i).toList := rfl

/-! ## The supply and the reset input -/

@[simp] theorem running_supply : Power.running.supply = true := rfl
@[simp] theorem running_resetLine : Power.running.resetLine = false := rfl

/-- The part runs just where both lines let it. -/
theorem Power.eq_running (p : Power) : p = .running ↔ p.supply = true ∧ p.resetLine = false := by
  cases p
  simp [Power.running]

@[simp] theorem silence_power (p : Power) (s : State) : (silence p s).power = p := rfl
@[simp] theorem silence_sending (p : Power) (s : State) : (silence p s).link.sending = none := rfl
@[simp] theorem assertReset_power (s : State) : (assertReset s).power = { s.power with resetLine := true } := rfl
@[simp] theorem losePower_power (s : State) : (losePower s).power = { s.power with supply := false } := rfl

@[simp] theorem applyPower_power (intact : Bool) (n : Nat) (l : StartLines) (s : State) :
    (applyPower intact n l s).power = { s.power with supply := true } := by
  cases intact <;> simp [applyPower]

@[simp] theorem releaseReset_power (n : Nat) (l : StartLines) (s : State) :
    (releaseReset n l s).power = { s.power with resetLine := false } := by
  by_cases h : s.power.supply = true <;> simp [releaseReset, h, Power.running]

end Sys2Proof.Machine
end

