-- ==== Sys2Proof/Laws/Ops.lean ====
section
/-! SUPPORT. What each shared operation can do, said once: saturating sums, list updates, notices, recording an incident,
field octets, the free line, and a request at a ready part. -/

namespace Sys2Proof.Machine

/-- Doing an operation a number of times is iterating it (R21, R22). -/
theorem repeatTimes_eq_iterate (f : State → State) (n : Nat) (s : State) : repeatTimes f n s = f^[n] s := by
  induction n generalizing s with
  | zero => rfl
  | succ n ih => exact ih (f s)


/-! ## Saturating sums and list updates -/

theorem satAdd_le (limit a b : Nat) : satAdd limit a b ≤ limit := Nat.min_le_right _ _

theorem satAdd_of_le {limit a b : Nat} (h : a + b ≤ limit) : satAdd limit a b = a + b := Nat.min_eq_left h

theorem satAdd_of_ge {limit a b : Nat} (h : limit ≤ a + b) : satAdd limit a b = limit := Nat.min_eq_right h

@[simp] theorem length_setAt {α : Type} (l : List α) (i : Nat) (f : α → α) : (setAt l i f).length = l.length := by
  simp [setAt]

@[simp] theorem getElem?_setAt {α : Type} (l : List α) (i n : Nat) (f : α → α) :
    (setAt l i f)[n]? = if i = n then l[n]?.map f else l[n]? := by
  by_cases h : i = n <;> simp [setAt, h]

@[simp] theorem length_updateLast {α : Type} (f : α → α) (l : List α) : (updateLast f l).length = l.length := by
  induction l with
  | nil => rfl
  | cons x rest ih => cases rest <;> simp_all [updateLast]

@[simp] theorem updateLast_concat {α : Type} (f : α → α) (l : List α) (x : α) :
    updateLast f (l ++ [x]) = l ++ [f x] := by
  induction l with
  | nil => rfl
  | cons y rest ih =>
    cases rest with
    | nil => rfl
    | cons z rest => simpa [updateLast] using ih

/-! ## Notices (R174, R175) -/

/-- Handing on a notice changes the waiting notices only. -/
theorem handNotice_link (c : NoticeClass) (s : State) :
    (handNotice c s).link =
      { s.link with
        notices :=
          if (ownAddress s).isNone || s.link.notices.contains c then s.link.notices else s.link.notices ++ [c] } := by
  unfold handNotice; split <;> rfl

/-- An event sets its class's pending flag. -/
@[simp] theorem notify_flags (c : NoticeClass) (s : State) : (notify c s).inc.flags = s.inc.flags.set c true := by
  unfold notify
  split
  · next h => rw [← h, ClassFlags.set_get]
  · simp only []; split <;> simp

@[simp] theorem notify_masks (c : NoticeClass) (s : State) : (notify c s).inc.masks = s.inc.masks := by
  unfold notify; split
  · rfl
  · simp only []; split <;> simp

@[simp] theorem notify_slots (c : NoticeClass) (s : State) : (notify c s).inc.slots = s.inc.slots := by
  unfold notify; split
  · rfl
  · simp only []; split <;> simp

@[simp] theorem notify_order (c : NoticeClass) (s : State) : (notify c s).inc.order = s.inc.order := by
  unfold notify; split
  · rfl
  · simp only []; split <;> simp

@[simp] theorem notify_lastWritten (c : NoticeClass) (s : State) : (notify c s).inc.lastWritten = s.inc.lastWritten := by
  unfold notify; split
  · rfl
  · simp only []; split <;> simp

@[simp] theorem notify_overflow (c : NoticeClass) (s : State) : (notify c s).inc.overflow = s.inc.overflow := by
  unfold notify; split
  · rfl
  · simp only []; split <;> simp

/-- An event of a class already pending changes nothing (R174). -/
theorem notify_of_set {c : NoticeClass} {s : State} (h : s.inc.flags.get c = true) : notify c s = s := by
  simp [notify, h]

/-- An event hands on no notice while its class is masked or waits, or the part has no own address (R174, R175, R199,
R202). -/
theorem notify_quiet {c : NoticeClass} {s : State} (h : s.inc.flags.get c = false)
    (hq : s.inc.masks.get c = true ∨ ownAddress s = none ∨ c ∈ s.link.notices) :
    notify c s = { s with inc.flags := s.inc.flags.set c true } := by
  rcases hq with hq | hq
  · simp [notify, h, hq]
  · have e : (ownAddress s).isNone = true ∨ c ∈ s.link.notices := hq.imp_left (by simp [·])
    simp only [notify, h, handNotice, Bool.false_eq_true, if_false, Bool.or_eq_true, List.contains_iff_mem]
    rw [if_pos (show (ownAddress { s with inc.flags := s.inc.flags.set c true }).isNone = true ∨ c ∈ s.link.notices
      from e)]
    split <;> rfl

/-- An event that finds its class clear and unmasked, with its place free, hands on one notice (R175, R202). -/
theorem notify_hands {c : NoticeClass} {s : State} (h : s.inc.flags.get c = false) (hm : s.inc.masks.get c = false)
    (ha : ownAddress s ≠ none) (hn : c ∉ s.link.notices) :
    notify c s = { s with inc.flags := s.inc.flags.set c true, link.notices := s.link.notices ++ [c] } := by
  have e : (ownAddress { s with inc.flags := s.inc.flags.set c true }).isNone = false := by
    rw [Option.isNone_eq_false_iff, Option.isSome_iff_ne_none]; exact ha
  simp [notify, h, hm, handNotice, e, hn]

/-- An event changes nothing of the link but the waiting notices. -/
theorem notify_link (c : NoticeClass) (s : State) :
    (notify c s).link = { s.link with notices := (notify c s).link.notices } := by
  unfold notify; split
  · rfl
  · simp only []; split
    · rfl
    · rw [handNotice_link]

/-! ## Recording an incident (R167, R168) -/

/-- A recording merges, is lost, overflows or is written, and nothing else. -/
theorem recordIncident_cases (kind : IncidentKind) (d1 d2 : Nat) (s : State) :
    (∃ n, s.inc.slots.findIdx? (pendingOfKind kind) = some n ∧
        recordIncident kind d1 d2 s = (mergeIncident n s, some n)) ∨
      (s.inc.slots.findIdx? (pendingOfKind kind) = none ∧
        ((s.inc.overflow = true ∧ recordIncident kind d1 d2 s = (s, none)) ∨
          (s.inc.overflow = false ∧ freeSlot? s = none ∧
            recordIncident kind d1 d2 s = (notify .incident { s with inc.overflow := true }, none)) ∨
          ∃ n, s.inc.overflow = false ∧ freeSlot? s = some n ∧
            recordIncident kind d1 d2 s = (writeIncident kind d1 d2 n s, some n))) := by
  unfold recordIncident
  cases h1 : s.inc.slots.findIdx? (pendingOfKind kind) with
  | some n => exact .inl ⟨n, rfl, rfl⟩
  | none =>
    refine .inr ⟨rfl, ?_⟩
    cases h2 : s.inc.overflow with
    | true => exact .inl ⟨rfl, rfl⟩
    | false =>
      cases h3 : freeSlot? s with
      | none => exact .inr (.inl ⟨rfl, rfl, by simp⟩)
      | some n => exact .inr (.inr ⟨n, rfl, rfl, by simp⟩)

/-! ## Field octets (spec 11, Payload fields) -/

@[simp] theorem length_octets (w n : Nat) : (octets w n).length = w := by
  induction w with
  | zero => rfl
  | succ w ih => simp [octets, ih]

/-- Reading octets from a value already read. -/
theorem foldl_octets (w n acc : Nat) :
    (octets w n).foldl (fun a b => a * 256 + b.toNat) acc = acc * 256 ^ w + n % 256 ^ w := by
  induction w generalizing acc with
  | zero => simp [octets, Nat.mod_one]
  | succ w ih =>
    simp only [octets, List.foldl_cons, ih, BitVec.toNat_ofNat]
    have h : n % 256 ^ (w + 1) = n % 256 ^ w + 256 ^ w * (n / 256 ^ w % 256) := by rw [Nat.pow_succ, Nat.mod_mul]
    rw [h, show (2 : Nat) ^ 8 = 256 from rfl]
    ring

/-- A number that fits its octets is read back from them. -/
theorem number_octets {w n : Nat} (h : n < 256 ^ w) : number (octets w n) = n := by
  simp [number, foldl_octets, Nat.mod_eq_of_lt h]

/-- The first field is read back, and the rest of the octets are cut as before. -/
theorem splitFields_octets {w n : Nat} (ws : List Nat) (rest : List Byte) (h : n < 256 ^ w) :
    splitFields (w :: ws) (octets w n ++ rest) = (splitFields ws rest).map (n :: ·) := by
  have : ¬ (octets w n ++ rest).length < w := by simp
  simp [splitFields, number_octets h]

/-- The last field is read back, and nothing is left. -/
theorem splitFields_last {w n : Nat} (h : n < 256 ^ w) : splitFields [w] (octets w n) = some [n] := by
  simpa [splitFields] using splitFields_octets (w := w) (n := n) [] [] h

/-- Fields of one width are read back, each at any value its octets hold. -/
theorem splitFields_flatMap {w : Nat} {xs : List Nat} (h : ∀ x ∈ xs, x < 256 ^ w) (ws : List Nat) (rest : List Byte) :
    splitFields (List.replicate xs.length w ++ ws) (xs.flatMap (octets w) ++ rest) =
      (splitFields ws rest).map (xs ++ ·) := by
  induction xs with
  | nil => simp
  | cons x xs ih =>
    simp only [List.length_cons, List.replicate_succ, List.cons_append, List.flatMap_cons, List.append_assoc]
    rw [splitFields_octets _ _ (h x (by simp)), ih fun y hy => h y (by simp [hy])]
    cases splitFields ws rest <;> simp

/-- Fields of one octet are the octets. -/
theorem splitFields_bytes (bs : List Byte) :
    splitFields (List.replicate bs.length 1) bs = some (bs.map BitVec.toNat) := by
  induction bs with
  | nil => rfl
  | cons b bs ih => simp [splitFields, List.replicate_succ, ih, number]

theorem oct1_eq (n : Nat) : oct1 n = [BitVec.ofNat 8 n] := by simp [oct1, octets]

/-! ## The receiver (R198) -/

theorem receiveOctets_append (xs ys : List Byte) (s : State) :
    receiveOctets (xs ++ ys) s = receiveOctets ys (receiveOctets xs s) := by
  induction xs generalizing s with
  | nil => rfl
  | cons x xs ih => simp [receiveOctets, ih]

/-- Octets that neither complete a frame nor give too great a length join the partial frame. -/
theorem receiveOctets_join {p rest : List Byte} {s : State} (hp : p ≠ []) (hrx : s.link.rx = p)
    (h : ∀ k, p.length < k → k ≤ p.length + rest.length →
      lengthTooLarge ((p ++ rest).take k) = false ∧ frameComplete ((p ++ rest).take k) = false) :
    receiveOctets rest s = { s with link.rx := p ++ rest } := by
  induction rest generalizing p s with
  | nil => simp [receiveOctets, ← hrx]
  | cons b rest ih =>
    have h1 := h (p.length + 1) (by omega) (by simp)
    have e : (p ++ b :: rest).take (p.length + 1) = p ++ [b] := by rw [List.take_append]; simp
    rw [e] at h1
    have one : receiveOctet b s = { s with link.rx := p ++ [b] } := by
      unfold receiveOctet; simp [hrx, hp, h1]
    rw [receiveOctets, one, ih (p := p ++ [b]) (by simp) rfl]
    · simp
    · intro k hk hk2
      simpa using h k (by simp at hk ⊢; omega) (by simp at hk2 ⊢; omega)

/-! ## The free line (R202) -/

/-- Beginning a frame twice is beginning it once. -/
theorem transmit_transmit (s : State) : transmit (transmit s) = transmit s := by
  have key : ∀ t : State, t.link.sending.isSome = true → transmit t = t := by
    intro t h
    unfold transmit
    cases h2 : t.link.sending with
    | none => simp [h2] at h
    | some f => rfl
  cases h1 : s.link.sending with
  | some f => rw [key s (by simp [h1]), key s (by simp [h1])]
  | none =>
    cases h2 : s.link.reply with
    | some f => exact key _ (by simp [transmit, h1, h2])
    | none =>
      cases h3 : s.link.notices with
      | cons c rest => exact key _ (by simp [transmit, h1, h2, h3])
      | nil => simp [transmit, h1, h2, h3]

/-! ## A request at a ready part (R200) -/

/-- Each request row is that request arriving at a running part. -/
theorem exec_request {i : Instr} {r : Received} (hi : receivedRequest i = some r) (s : State) :
    exec i s = whileRunning (arriveRequest i) s := by
  cases i <;> first | rfl | simp [receivedRequest, requestWire] at hi

/-- A received request's form is the request. -/
theorem form_of_receivedRequest {i : Instr} {r : Received} (hi : receivedRequest i = some r) : r.form = .request i := by
  simp only [receivedRequest, Option.map_eq_some_iff] at hi
  obtain ⟨w, _, rfl⟩ := hi
  rfl

end Sys2Proof.Machine
end

