-- ==== Sys2Proof/Laws/Notices.lean ====
section
/-! SUPPORT. Pending flags only grow inside the blocks: a class that an operation finds pending it leaves pending, since only a
READ STATUS of the class clears its flag (R174, R176). One lemma for each operation. -/

namespace Sys2Proof.Machine

/-- Setting a flag leaves set flags set. -/
theorem ClassFlags.get_set_true {f : ClassFlags} {c : NoticeClass} (k : NoticeClass) (h : f.get c = true) :
    (f.set k true).get c = true := by
  cases c <;> cases k <;> first | exact h | rfl

theorem notify_keepsFlag {c : NoticeClass} {s : State} (k : NoticeClass) (h : s.inc.flags.get c = true) :
    (notify k s).inc.flags.get c = true := by
  rw [notify_flags]; exact ClassFlags.get_set_true k h

/-- A class is pending after its own event. -/
theorem notify_setsFlag (k : NoticeClass) (s : State) : (notify k s).inc.flags.get k = true := by
  rw [notify_flags, ClassFlags.get_set]

theorem recordIncident_keepsFlag {c : NoticeClass} {s : State} (k : IncidentKind) (a b : Nat)
    (h : s.inc.flags.get c = true) : (recordIncident k a b s).1.inc.flags.get c = true := by
  rcases recordIncident_cases k a b s with ⟨n, _, e⟩ | ⟨_, ⟨_, e⟩ | ⟨_, _, e⟩ | ⟨n, _, _, e⟩⟩ <;> rw [e]
  · exact h
  · exact h
  · exact notify_keepsFlag _ h
  · exact notify_keepsFlag _ h

theorem record_keepsFlag {c : NoticeClass} {s : State} (k : IncidentKind) (a b : Nat) (h : s.inc.flags.get c = true) :
    (record k a b s).inc.flags.get c = true := recordIncident_keepsFlag k a b h

theorem recordSaturation_keepsFlag {c : NoticeClass} {s : State} (n a b : Nat) (h : s.inc.flags.get c = true) :
    (recordSaturation n a b s).inc.flags.get c = true := by
  unfold recordSaturation
  try dsimp only
  repeat' split
  all_goals repeat with_reducible (first | refine record_keepsFlag _ _ _ ?_ | exact h)

theorem onLastInterval_keepsFlag {c : NoticeClass} {s : State} (f : Interval → Interval)
    (h : s.inc.flags.get c = true) :
    (onLastInterval f s).inc.flags.get c = true := by
  unfold onLastInterval
  all_goals exact h

theorem closeInterval_keepsFlag {c : NoticeClass} {s : State} (d : Nat) (final : Bool) (h : s.inc.flags.get c = true) :
    (closeInterval d final s).inc.flags.get c = true := by
  unfold closeInterval
  try dsimp only
  all_goals repeat with_reducible (first | refine onLastInterval_keepsFlag _ ?_ | exact h)

theorem appendInterval_keepsFlag {c : NoticeClass} {s : State} (d k : Nat) (o : Origin) (h : s.inc.flags.get c = true) :
    (appendInterval d k o s).inc.flags.get c = true := by
  unfold appendInterval
  try dsimp only
  all_goals repeat with_reducible (first | refine notify_keepsFlag _ ?_ | exact h)

theorem nextInterval_keepsFlag {c : NoticeClass} {s : State} (d k : Nat) (o : Origin) (h : s.inc.flags.get c = true) :
    (nextInterval d k o s).inc.flags.get c = true := by
  unfold nextInterval
  try dsimp only
  repeat' split
  all_goals repeat with_reducible (first
      | refine record_keepsFlag _ _ _ ?_ | refine closeInterval_keepsFlag _ _ ?_
      | refine appendInterval_keepsFlag _ _ _ ?_ | exact h)

theorem relabel_keepsFlag {c : NoticeClass} {s : State} (k : Nat) (o : Origin) (h : s.inc.flags.get c = true) :
    (relabel k o s).inc.flags.get c = true := by
  unfold relabel
  try dsimp only
  all_goals repeat with_reducible (first
      | refine notify_keepsFlag _ ?_ | refine onLastInterval_keepsFlag _ ?_ | exact h)

theorem classAt_keepsFlag {c : NoticeClass} {s : State} (d k : Nat) (o : Origin) (h : s.inc.flags.get c = true) :
    (classAt d k o s).inc.flags.get c = true := by
  unfold classAt
  try dsimp only
  repeat' split
  all_goals repeat with_reducible (first
      | refine nextInterval_keepsFlag _ _ _ ?_ | refine relabel_keepsFlag _ _ ?_ | exact h)

theorem blindRunBegin_keepsFlag {c : NoticeClass} {s : State} (m : Mark) (h : s.inc.flags.get c = true) :
    (blindRunBegin m s).inc.flags.get c = true := by
  unfold blindRunBegin
  try dsimp only
  repeat' split
  all_goals repeat with_reducible (first | refine classAt_keepsFlag _ _ _ ?_ | exact h)

theorem blindRunEnd_keepsFlag {c : NoticeClass} {s : State} (m : Mark) (h : s.inc.flags.get c = true) :
    (blindRunEnd m s).inc.flags.get c = true := by
  unfold blindRunEnd
  try dsimp only
  repeat' split
  all_goals repeat with_reducible (first | refine nextInterval_keepsFlag _ _ _ ?_ | exact h)

theorem addMark_keepsFlag {c : NoticeClass} {s : State} (m : Mark) (h : s.inc.flags.get c = true) :
    (addMark m s).inc.flags.get c = true := by
  unfold addMark
  try dsimp only
  all_goals repeat with_reducible (first | refine onLastInterval_keepsFlag _ ?_ | exact h)

theorem drainBegin_keepsFlag {c : NoticeClass} {s : State} (m : Mark) (h : s.inc.flags.get c = true) :
    (drainBegin m s).inc.flags.get c = true := by
  unfold drainBegin
  try dsimp only
  repeat' split
  all_goals repeat with_reducible (first | refine classAt_keepsFlag _ _ _ ?_ | exact h)

theorem placeMark_keepsFlag {c : NoticeClass} {s : State} (k : RetireCause) (m : Mark) (h : s.inc.flags.get c = true) :
    (placeMark k m s).inc.flags.get c = true := by
  unfold placeMark
  try dsimp only
  repeat' split
  all_goals repeat with_reducible (first
      | refine blindRunBegin_keepsFlag _ ?_ | refine blindRunEnd_keepsFlag _ ?_ | refine addMark_keepsFlag _ ?_
      | refine drainBegin_keepsFlag _ ?_ | exact h)

theorem addResidual_keepsFlag {c : NoticeClass} {s : State} (a b : Nat) (h : s.inc.flags.get c = true) :
    (addResidual a b s).inc.flags.get c = true := by
  unfold addResidual
  try dsimp only
  all_goals repeat with_reducible (first | refine onLastInterval_keepsFlag _ ?_ | exact h)

theorem finalClosure_keepsFlag {c : NoticeClass} {s : State} (h : s.inc.flags.get c = true) :
    (finalClosure s).inc.flags.get c = true := by
  unfold finalClosure
  try dsimp only
  all_goals repeat with_reducible (first
      | refine notify_keepsFlag _ ?_ | refine closeInterval_keepsFlag _ _ ?_ | exact h)

theorem recordStrike_keepsFlag {c : NoticeClass} {s : State} (k : Strike) (h : s.inc.flags.get c = true) :
    (recordStrike k s).inc.flags.get c = true := by
  unfold recordStrike
  try dsimp only
  all_goals repeat with_reducible (first | refine notify_keepsFlag _ ?_ | exact h)

theorem autoStrike_keepsFlag {c : NoticeClass} {s : State} (n : Nat) (h : s.inc.flags.get c = true) :
    (autoStrike n s).inc.flags.get c = true := by
  unfold autoStrike
  try dsimp only
  repeat' split
  all_goals repeat with_reducible (first
      | refine record_keepsFlag _ _ _ ?_ | refine recordStrike_keepsFlag _ ?_ | exact h)

theorem openStrata_keepsFlag {c : NoticeClass} {s : State} (n : Nat) (h : s.inc.flags.get c = true) :
    (openStrata n s).inc.flags.get c = true := by
  unfold openStrata
  try dsimp only
  all_goals repeat with_reducible (first | refine appendInterval_keepsFlag _ _ _ ?_ | exact h)

theorem applyFormation_keepsFlag {c : NoticeClass} {s : State} (n : Nat) (h : s.inc.flags.get c = true) :
    (applyFormation n s).inc.flags.get c = true := by
  unfold applyFormation
  try dsimp only
  repeat' split
  all_goals repeat with_reducible (first
      | refine nextInterval_keepsFlag _ _ _ ?_ | refine relabel_keepsFlag _ _ ?_ | exact h)

theorem priceInto_keepsFlag {c : NoticeClass} {s : State} (i v q : Nat) (h : s.inc.flags.get c = true) :
    (priceInto i v q s).inc.flags.get c = true := by
  unfold priceInto
  try dsimp only
  repeat' split
  all_goals repeat with_reducible (first | refine record_keepsFlag _ _ _ ?_ | exact h)

theorem priceUnder_keepsFlag {c : NoticeClass} {s : State} (k : LineKind) (key : LineKey) (v q : Nat)
    (h : s.inc.flags.get c = true) :
    (priceUnder k key v q s).inc.flags.get c = true := by
  unfold priceUnder
  try dsimp only
  repeat' split
  all_goals repeat with_reducible (first
      | refine record_keepsFlag _ _ _ ?_ | refine priceInto_keepsFlag _ _ _ ?_ | exact h)

theorem priceMark_keepsFlag {c : NoticeClass} {s : State} (m : Mark) (k : Nat) (h : s.inc.flags.get c = true) :
    (priceMark m k s).inc.flags.get c = true := by
  unfold priceMark
  try dsimp only
  repeat' split
  all_goals repeat with_reducible (first | refine priceUnder_keepsFlag _ _ _ _ ?_ | exact h)

theorem priceUnit_keepsFlag {c : NoticeClass} {s : State} (k : Category) (h : s.inc.flags.get c = true) :
    (priceUnit k s).inc.flags.get c = true := by
  unfold priceUnit
  try dsimp only
  repeat' split
  all_goals repeat with_reducible (first | refine priceUnder_keepsFlag _ _ _ _ ?_ | exact h)

theorem priceDraw_keepsFlag {c : NoticeClass} {s : State} (i q p : Nat) (h : s.inc.flags.get c = true) :
    (priceDraw i q p s).inc.flags.get c = true := by
  unfold priceDraw
  try dsimp only
  all_goals repeat with_reducible (first | refine priceUnder_keepsFlag _ _ _ _ ?_ | exact h)

theorem recordLagClamp_keepsFlag {c : NoticeClass} {s : State} (d : Nat) (h : s.inc.flags.get c = true) :
    (recordLagClamp d s).inc.flags.get c = true := by
  unfold recordLagClamp
  try dsimp only
  repeat' split
  all_goals repeat with_reducible (first | refine record_keepsFlag _ _ _ ?_ | exact h)

theorem removeOldest_keepsFlag {c : NoticeClass} {s : State} (m : Mark) (rest : List Mark)
    (h : s.inc.flags.get c = true) :
    (removeOldest m rest s).inc.flags.get c = true := by
  unfold removeOldest
  all_goals exact h

theorem retireUnchecked_keepsFlag {c : NoticeClass} {s : State} (k : RetireCause) (m : Mark) (rest : List Mark)
    (h : s.inc.flags.get c = true) :
    (retireUnchecked k m rest s).inc.flags.get c = true := by
  unfold retireUnchecked
  try dsimp only
  all_goals repeat with_reducible (first
      | refine placeMark_keepsFlag _ _ ?_ | refine priceMark_keepsFlag _ _ ?_ | refine removeOldest_keepsFlag _ _ ?_
      | exact h)

theorem markOverrunSeen_keepsFlag {c : NoticeClass} {s : State} (h : s.inc.flags.get c = true) :
    (markOverrunSeen s).inc.flags.get c = true := by
  unfold markOverrunSeen
  repeat' split
  all_goals exact h

theorem forceOldest_keepsFlag {c : NoticeClass} {s : State} (h : s.inc.flags.get c = true) :
    (forceOldest s).inc.flags.get c = true := by
  unfold forceOldest
  try dsimp only
  repeat' split
  all_goals repeat with_reducible (first
      | refine record_keepsFlag _ _ _ ?_ | refine retireUnchecked_keepsFlag _ _ _ ?_
      | refine markOverrunSeen_keepsFlag ?_ | exact h)

theorem appendMark_keepsFlag {c : NoticeClass} {s : State} (d : Nat) (h : s.inc.flags.get c = true) :
    (appendMark d s).inc.flags.get c = true := by
  unfold appendMark
  try dsimp only
  all_goals repeat with_reducible (first | refine recordLagClamp_keepsFlag _ ?_ | exact h)

theorem layMark_keepsFlag {c : NoticeClass} {s : State} (d : Nat) (h : s.inc.flags.get c = true) :
    (layMark d s).inc.flags.get c = true := by
  unfold layMark
  try dsimp only
  repeat' split
  all_goals repeat with_reducible (first | refine forceOldest_keepsFlag ?_ | refine appendMark_keepsFlag _ ?_ | exact h)

theorem rotateSets_keepsFlag {c : NoticeClass} {s : State} (h : s.inc.flags.get c = true) :
    (rotateSets s).inc.flags.get c = true := by
  unfold rotateSets
  try dsimp only
  all_goals repeat with_reducible (first | refine notify_keepsFlag _ ?_ | exact h)

theorem swap_keepsFlag {c : NoticeClass} {s : State} (h : s.inc.flags.get c = true) :
    (swap s).inc.flags.get c = true := by
  unfold swap
  try dsimp only
  all_goals repeat with_reducible (first | refine layMark_keepsFlag _ ?_ | refine rotateSets_keepsFlag ?_ | exact h)

theorem swapCheck_keepsFlag {c : NoticeClass} {s : State} (h : s.inc.flags.get c = true) :
    (swapCheck s).inc.flags.get c = true := by
  unfold swapCheck
  try dsimp only
  repeat' split
  all_goals repeat with_reducible (first | refine swap_keepsFlag ?_ | exact h)

theorem retire_keepsFlag {c : NoticeClass} {s : State} (k : RetireCause) (m : Mark) (rest : List Mark)
    (h : s.inc.flags.get c = true) :
    (retire k m rest s).inc.flags.get c = true := by
  unfold retire
  try dsimp only
  all_goals repeat with_reducible (first
      | refine retireUnchecked_keepsFlag _ _ _ ?_ | refine swapCheck_keepsFlag ?_ | exact h)

theorem closeSpan_keepsFlag {c : NoticeClass} {s : State} (h : s.inc.flags.get c = true) :
    (closeSpan s).inc.flags.get c = true := by
  unfold closeSpan
  try dsimp only
  repeat' split
  all_goals repeat with_reducible (first | refine layMark_keepsFlag _ ?_ | refine swapCheck_keepsFlag ?_ | exact h)

theorem totalLossChange_keepsFlag {c : NoticeClass} {s : State} (h : s.inc.flags.get c = true) :
    (totalLossChange s).inc.flags.get c = true := by
  unfold totalLossChange
  try dsimp only
  repeat' split
  all_goals repeat with_reducible (first | refine closeSpan_keepsFlag ?_ | exact h)

theorem layBoundaries_keepsFlag {c : NoticeClass} {s : State} (fuel : Nat) (d : Nat) (h : s.inc.flags.get c = true) :
    (layBoundaries fuel d s).1.inc.flags.get c = true := by
  induction fuel generalizing s with
  | zero => exact h
  | succ fuel ih =>
    unfold layBoundaries; dsimp only; split
    · exact ih (layMark_keepsFlag _ h)
    · exact h

theorem lagAdvance_keepsFlag {c : NoticeClass} {s : State} (d : Nat) (h : s.inc.flags.get c = true) :
    (lagAdvance d s).inc.flags.get c = true := by
  unfold lagAdvance
  try dsimp only
  repeat' split
  all_goals repeat with_reducible (first
      | refine swapCheck_keepsFlag ?_ | refine layBoundaries_keepsFlag _ _ ?_ | exact h)

theorem retireArrived_keepsFlag {c : NoticeClass} {s : State} (fuel : Nat) (h : s.inc.flags.get c = true) :
    (retireArrived fuel s).inc.flags.get c = true := by
  induction fuel generalizing s with
  | zero => exact h
  | succ fuel ih =>
    unfold retireArrived; split
    · exact h
    · split
      · exact ih (retire_keepsFlag _ _ _ h)
      · exact h

theorem lagClockAdvance_keepsFlag {c : NoticeClass} {s : State} (h : s.inc.flags.get c = true) :
    (lagClockAdvance s).inc.flags.get c = true := by
  unfold lagClockAdvance
  try dsimp only
  all_goals repeat with_reducible (first | refine retireArrived_keepsFlag _ ?_ | exact h)

theorem drainQueue_keepsFlag {c : NoticeClass} {s : State} (fuel : Nat) (h : s.inc.flags.get c = true) :
    (drainQueue fuel s).inc.flags.get c = true := by
  induction fuel generalizing s with
  | zero => exact h
  | succ fuel ih =>
    unfold drainQueue; split
    · exact h
    · exact ih (retire_keepsFlag _ _ _ h)

theorem drilledSecond_keepsFlag {c : NoticeClass} {s : State} (h : s.inc.flags.get c = true) :
    (drilledSecond s).inc.flags.get c = true := by
  unfold drilledSecond
  repeat' split
  all_goals exact h

theorem spanLossLitres_keepsFlag {c : NoticeClass} {s : State} (n : Nat) (h : s.inc.flags.get c = true) :
    (spanLossLitres n s).inc.flags.get c = true := by
  unfold spanLossLitres
  repeat' split
  all_goals exact h

theorem handResidual_keepsFlag {c : NoticeClass} {s : State} (h : s.inc.flags.get c = true) :
    (handResidual s).inc.flags.get c = true := by
  unfold handResidual
  try dsimp only
  all_goals repeat with_reducible (first | refine addResidual_keepsFlag _ _ ?_ | exact h)

theorem takeTrigger_keepsFlag {c : NoticeClass} {s : State} (k : Trigger) (h : s.inc.flags.get c = true) :
    (takeTrigger k s).inc.flags.get c = true := by
  unfold takeTrigger
  try dsimp only
  repeat' split
  all_goals repeat with_reducible (first | refine swapCheck_keepsFlag ?_ | exact h)

theorem commit_keepsFlag {c : NoticeClass} {s : State} (k : Trigger) (h : s.inc.flags.get c = true) :
    (commit k s).inc.flags.get c = true := by
  unfold commit
  try dsimp only
  repeat' split
  all_goals repeat with_reducible (first | refine swapCheck_keepsFlag ?_ | exact h)

theorem billUnit_keepsFlag {c : NoticeClass} {s : State} (k : Category) (h : s.inc.flags.get c = true) :
    (billUnit k s).inc.flags.get c = true := by
  unfold billUnit
  try dsimp only
  repeat' split
  all_goals repeat with_reducible (first | refine priceUnit_keepsFlag _ ?_ | exact h)

theorem countCategory_keepsFlag {c : NoticeClass} {s : State} (k : Category) (h : s.inc.flags.get c = true) :
    (countCategory k s).inc.flags.get c = true := by
  unfold countCategory
  all_goals exact h

theorem countSecond_keepsFlag {c : NoticeClass} {s : State} (k : Category) (h : s.inc.flags.get c = true) :
    (countSecond k s).inc.flags.get c = true := by
  unfold countSecond
  try dsimp only
  repeat' split
  all_goals repeat with_reducible (first
      | refine drilledSecond_keepsFlag ?_ | refine billUnit_keepsFlag _ ?_ | refine countCategory_keepsFlag _ ?_
      | exact h)

theorem billingTick_keepsFlag {c : NoticeClass} {s : State} (h : s.inc.flags.get c = true) :
    (billingTick s).inc.flags.get c = true := by
  unfold billingTick
  try dsimp only
  repeat' split
  all_goals repeat with_reducible (first | refine countSecond_keepsFlag _ ?_ | exact h)

theorem dayBoundary_keepsFlag {c : NoticeClass} {s : State} (h : s.inc.flags.get c = true) :
    (dayBoundary s).inc.flags.get c = true := by
  unfold dayBoundary
  try dsimp only
  all_goals repeat with_reducible (first | refine notify_keepsFlag _ ?_ | refine takeTrigger_keepsFlag _ ?_ | exact h)

theorem updateRod_keepsFlag {c : NoticeClass} {s : State} (i : Nat) (f : Rod → Rod) (h : s.inc.flags.get c = true) :
    (updateRod i f s).inc.flags.get c = true := by
  unfold updateRod
  all_goals exact h

theorem leaveSlot_keepsFlag {c : NoticeClass} {s : State} (l : RodLocation) (h : s.inc.flags.get c = true) :
    (leaveSlot l s).inc.flags.get c = true := by
  unfold leaveSlot
  repeat' split
  all_goals exact h

theorem takeSlot_keepsFlag {c : NoticeClass} {s : State} (i : Nat) (l : RodLocation) (h : s.inc.flags.get c = true) :
    (takeSlot i l s).inc.flags.get c = true := by
  unfold takeSlot
  repeat' split
  all_goals exact h

theorem moveRod_keepsFlag {c : NoticeClass} {s : State} (i : Nat) (l : RodLocation) (h : s.inc.flags.get c = true) :
    (moveRod i l s).inc.flags.get c = true := by
  unfold moveRod
  try dsimp only
  repeat' split
  all_goals repeat with_reducible (first
      | refine updateRod_keepsFlag _ _ ?_ | refine leaveSlot_keepsFlag _ ?_ | refine takeSlot_keepsFlag _ _ ?_
      | exact h)

theorem pushRod_keepsFlag {c : NoticeClass} {s : State} (i p : Nat) (h : s.inc.flags.get c = true) :
    (pushRod i p s).inc.flags.get c = true := by
  unfold pushRod
  try dsimp only
  all_goals repeat with_reducible (first | refine updateRod_keepsFlag _ _ ?_ | exact h)

theorem popRod_keepsFlag {c : NoticeClass} {s : State} (i p : Nat) (h : s.inc.flags.get c = true) :
    (popRod i p s).inc.flags.get c = true := by
  unfold popRod
  try dsimp only
  all_goals repeat with_reducible (first | refine updateRod_keepsFlag _ _ ?_ | exact h)

theorem addFootage_keepsFlag {c : NoticeClass} {s : State} (n : Nat) (h : s.inc.flags.get c = true) :
    (addFootage n s).inc.flags.get c = true := by
  unfold addFootage
  try dsimp only
  all_goals repeat with_reducible (first | refine recordSaturation_keepsFlag _ _ _ ?_ | exact h)

theorem drillingActivity_keepsFlag {c : NoticeClass} {s : State} (h : s.inc.flags.get c = true) :
    (drillingActivity s).inc.flags.get c = true := by
  unfold drillingActivity
  all_goals exact h

theorem handAdvance_keepsFlag {c : NoticeClass} {s : State} (h : s.inc.flags.get c = true) :
    (handAdvance s).inc.flags.get c = true := by
  unfold handAdvance
  try dsimp only
  repeat' split
  all_goals repeat with_reducible (first
      | refine lagAdvance_keepsFlag _ ?_ | refine drillingActivity_keepsFlag ?_ | exact h)

theorem holeAdvance_keepsFlag {c : NoticeClass} {s : State} (h : s.inc.flags.get c = true) :
    (holeAdvance s).inc.flags.get c = true := by
  unfold holeAdvance
  try dsimp only
  repeat' split
  all_goals repeat with_reducible (first | refine addFootage_keepsFlag _ ?_ | refine handAdvance_keepsFlag ?_ | exact h)

theorem recompute_keepsFlag {c : NoticeClass} {s : State} (n : Nat) (h : s.inc.flags.get c = true) :
    (recompute n s).inc.flags.get c = true := by
  unfold recompute
  try dsimp only
  all_goals repeat with_reducible (first | refine holeAdvance_keepsFlag ?_ | exact h)

theorem heightSample_keepsFlag {c : NoticeClass} {s : State} (g : Option Nat) (h : s.inc.flags.get c = true) :
    (heightSample g s).inc.flags.get c = true := by
  unfold heightSample
  try dsimp only
  repeat' split
  all_goals repeat with_reducible (first | refine recompute_keepsFlag _ ?_ | exact h)

theorem loadSample_keepsFlag {c : NoticeClass} {s : State} (g : Option Nat) (h : s.inc.flags.get c = true) :
    (loadSample g s).inc.flags.get c = true := by
  unfold loadSample
  try dsimp only
  repeat' split
  all_goals repeat with_reducible (first | refine record_keepsFlag _ _ _ ?_ | exact h)

theorem recomputeAtReady_keepsFlag {c : NoticeClass} {s : State} (h : s.inc.flags.get c = true) :
    (recomputeAtReady s).inc.flags.get c = true := by
  unfold recomputeAtReady
  try dsimp only
  repeat' split
  all_goals repeat with_reducible (first | refine recompute_keepsFlag _ ?_ | exact h)

theorem commandPermits_keepsFlag {c : NoticeClass} {s : State} (h : s.inc.flags.get c = true) :
    (commandPermits s).inc.flags.get c = true := by
  unfold commandPermits
  all_goals exact h

theorem commandEnables_keepsFlag {c : NoticeClass} {s : State} (h : s.inc.flags.get c = true) :
    (commandEnables s).inc.flags.get c = true := by
  unfold commandEnables
  all_goals exact h

theorem enterJoint_keepsFlag {c : NoticeClass} {s : State} (j : JointState) (h : s.inc.flags.get c = true) :
    (enterJoint j s).inc.flags.get c = true := by
  unfold enterJoint
  try dsimp only
  repeat' split
  all_goals repeat with_reducible (first | refine notify_keepsFlag _ ?_ | refine commandPermits_keepsFlag ?_ | exact h)

theorem enterReady_keepsFlag {c : NoticeClass} {s : State} (h : s.inc.flags.get c = true) :
    (enterReady s).inc.flags.get c = true := by
  unfold enterReady
  try dsimp only
  all_goals repeat with_reducible (first
      | refine recomputeAtReady_keepsFlag ?_ | refine enterJoint_keepsFlag _ ?_ | exact h)

theorem clearArmToReady_keepsFlag {c : NoticeClass} {s : State} (h : s.inc.flags.get c = true) :
    (clearArmToReady s).inc.flags.get c = true := by
  unfold clearArmToReady
  try dsimp only
  all_goals repeat with_reducible (first | refine enterReady_keepsFlag ?_ | exact h)

theorem clearArmToHeld_keepsFlag {c : NoticeClass} {s : State} (r : Option Nat) (h : s.inc.flags.get c = true) :
    (clearArmToHeld r s).inc.flags.get c = true := by
  unfold clearArmToHeld
  try dsimp only
  all_goals repeat with_reducible (first | refine enterJoint_keepsFlag _ ?_ | exact h)

theorem endBreakPermit_keepsFlag {c : NoticeClass} {s : State} (h : s.inc.flags.get c = true) :
    (endBreakPermit s).inc.flags.get c = true := by
  unfold endBreakPermit
  try dsimp only
  all_goals repeat with_reducible (first | refine enterReady_keepsFlag ?_ | exact h)

theorem loadRod_keepsFlag {c : NoticeClass} {s : State} (r : Rod) (h : s.inc.flags.get c = true) :
    (loadRod r s).inc.flags.get c = true := by
  unfold loadRod
  try dsimp only
  repeat' split
  all_goals repeat with_reducible (first | refine moveRod_keepsFlag _ _ ?_ | refine enterJoint_keepsFlag _ ?_ | exact h)

theorem readTagReady_keepsFlag {c : NoticeClass} {s : State} (i : Nat) (h : s.inc.flags.get c = true) :
    (readTagReady i s).inc.flags.get c = true := by
  unfold readTagReady
  try dsimp only
  repeat' split
  all_goals repeat with_reducible (first | refine record_keepsFlag _ _ _ ?_ | refine loadRod_keepsFlag _ ?_ | exact h)

theorem readTag_keepsFlag {c : NoticeClass} {s : State} (i : Nat) (h : s.inc.flags.get c = true) :
    (readTag i s).inc.flags.get c = true := by
  unfold readTag
  try dsimp only
  repeat' split
  all_goals repeat with_reducible (first
      | refine record_keepsFlag _ _ _ ?_ | refine readTagReady_keepsFlag _ ?_ | exact h)

theorem pushArm_keepsFlag {c : NoticeClass} {s : State} (p : Nat) (h : s.inc.flags.get c = true) :
    (pushArm p s).inc.flags.get c = true := by
  unfold pushArm
  try dsimp only
  repeat' split
  all_goals repeat with_reducible (first | refine pushRod_keepsFlag _ _ ?_ | exact h)

theorem inspectArm_keepsFlag {c : NoticeClass} {s : State} (h : s.inc.flags.get c = true) :
    (inspectArm s).inc.flags.get c = true := by
  unfold inspectArm
  try dsimp only
  repeat' split
  all_goals repeat with_reducible (first | refine updateRod_keepsFlag _ _ ?_ | exact h)

theorem jointActivity_keepsFlag {c : NoticeClass} {s : State} (h : s.inc.flags.get c = true) :
    (jointActivity s).inc.flags.get c = true := by
  unfold jointActivity
  all_goals exact h

theorem handJointMade_keepsFlag {c : NoticeClass} {s : State} (h : s.inc.flags.get c = true) :
    (handJointMade s).inc.flags.get c = true := by
  unfold handJointMade
  try dsimp only
  all_goals repeat with_reducible (first
      | refine takeTrigger_keepsFlag _ ?_ | refine jointActivity_keepsFlag ?_ | exact h)

theorem jointMade_keepsFlag {c : NoticeClass} {s : State} (p : Nat) (h : s.inc.flags.get c = true) :
    (jointMade p s).inc.flags.get c = true := by
  unfold jointMade
  try dsimp only
  all_goals repeat with_reducible (first
      | refine clearArmToReady_keepsFlag ?_ | refine pushArm_keepsFlag _ ?_ | refine handJointMade_keepsFlag ?_
      | exact h)

theorem jointOvertorque_keepsFlag {c : NoticeClass} {s : State} (p : Nat) (h : s.inc.flags.get c = true) :
    (jointOvertorque p s).inc.flags.get c = true := by
  unfold jointOvertorque
  try dsimp only
  all_goals repeat with_reducible (first
      | refine recordIncident_keepsFlag _ _ _ ?_ | refine clearArmToHeld_keepsFlag _ ?_
      | refine pushArm_keepsFlag _ ?_ | refine inspectArm_keepsFlag ?_ | refine handJointMade_keepsFlag ?_ | exact h)

theorem jointBypass_keepsFlag {c : NoticeClass} {s : State} (p : Nat) (h : s.inc.flags.get c = true) :
    (jointBypass p s).inc.flags.get c = true := by
  unfold jointBypass
  try dsimp only
  repeat' split
  all_goals repeat with_reducible (first
      | refine record_keepsFlag _ _ _ ?_ | refine recordIncident_keepsFlag _ _ _ ?_
      | refine clearArmToHeld_keepsFlag _ ?_ | refine pushArm_keepsFlag _ ?_ | refine inspectArm_keepsFlag ?_
      | refine handJointMade_keepsFlag ?_ | exact h)

theorem jointBroken_keepsFlag {c : NoticeClass} {s : State} (p : Nat) (h : s.inc.flags.get c = true) :
    (jointBroken p s).inc.flags.get c = true := by
  unfold jointBroken
  try dsimp only
  repeat' split
  all_goals repeat with_reducible (first
      | refine popRod_keepsFlag _ _ ?_ | refine enterJoint_keepsFlag _ ?_ | refine jointActivity_keepsFlag ?_
      | exact h)

theorem applyOutcome_keepsFlag {c : NoticeClass} {s : State} (o : EpisodeOutcome) (p : Nat)
    (h : s.inc.flags.get c = true) :
    (applyOutcome o p s).inc.flags.get c = true := by
  unfold applyOutcome
  try dsimp only
  repeat' split
  all_goals repeat with_reducible (first
      | refine record_keepsFlag _ _ _ ?_ | refine jointMade_keepsFlag _ ?_ | refine jointOvertorque_keepsFlag _ ?_
      | refine jointBypass_keepsFlag _ ?_ | refine jointBroken_keepsFlag _ ?_ | exact h)

theorem endEpisode_keepsFlag {c : NoticeClass} {s : State} (e : Episode) (h : s.inc.flags.get c = true) :
    (endEpisode e s).inc.flags.get c = true := by
  unfold endEpisode
  try dsimp only
  all_goals repeat with_reducible (first | refine applyOutcome_keepsFlag _ _ ?_ | exact h)

theorem torqueSample_keepsFlag {c : NoticeClass} {s : State} (g : Option Nat) (h : s.inc.flags.get c = true) :
    (torqueSample g s).inc.flags.get c = true := by
  unfold torqueSample
  try dsimp only
  repeat' split
  all_goals repeat with_reducible (first | refine endEpisode_keepsFlag _ ?_ | exact h)

theorem jointPressure_keepsFlag {c : NoticeClass} {s : State} (g : Option Nat) (h : s.inc.flags.get c = true) :
    (jointPressure g s).inc.flags.get c = true := by
  unfold jointPressure
  try dsimp only
  repeat' split
  all_goals repeat with_reducible (first | refine endBreakPermit_keepsFlag ?_ | exact h)

theorem expireBreakPermit_keepsFlag {c : NoticeClass} {s : State} (h : s.inc.flags.get c = true) :
    (expireBreakPermit s).inc.flags.get c = true := by
  unfold expireBreakPermit
  try dsimp only
  repeat' split
  all_goals repeat with_reducible (first | refine endBreakPermit_keepsFlag ?_ | exact h)

theorem jointTick_keepsFlag {c : NoticeClass} {s : State} (h : s.inc.flags.get c = true) :
    (jointTick s).inc.flags.get c = true := by
  unfold jointTick
  try dsimp only
  repeat' split
  all_goals repeat with_reducible (first | refine expireBreakPermit_keepsFlag ?_ | exact h)

theorem heldSlotCleared_keepsFlag {c : NoticeClass} {s : State} (n : Nat) (h : s.inc.flags.get c = true) :
    (heldSlotCleared n s).inc.flags.get c = true := by
  unfold heldSlotCleared
  try dsimp only
  repeat' split
  all_goals repeat with_reducible (first | refine enterReady_keepsFlag ?_ | exact h)

theorem returnRod_keepsFlag {c : NoticeClass} {s : State} (h : s.inc.flags.get c = true) :
    (returnRod s).inc.flags.get c = true := by
  unfold returnRod
  try dsimp only
  repeat' split
  all_goals repeat with_reducible (first | refine moveRod_keepsFlag _ _ ?_ | exact h)

theorem enterCirc_keepsFlag {c : NoticeClass} {s : State} (new : CircState) (mask : PumpMask)
    (h : s.inc.flags.get c = true) :
    (enterCirc new mask s).inc.flags.get c = true := by
  unfold enterCirc
  try dsimp only
  repeat' split
  all_goals repeat with_reducible (first
      | refine notify_keepsFlag _ ?_ | refine totalLossChange_keepsFlag ?_ | refine commandPermits_keepsFlag ?_
      | refine commandEnables_keepsFlag ?_ | exact h)

theorem enterCircKept_keepsFlag {c : NoticeClass} {s : State} (new : CircState) (h : s.inc.flags.get c = true) :
    (enterCircKept new s).inc.flags.get c = true := by
  unfold enterCircKept
  try dsimp only
  all_goals repeat with_reducible (first | refine enterCirc_keepsFlag _ _ ?_ | exact h)

theorem lagLitre_keepsFlag {c : NoticeClass} {s : State} (h : s.inc.flags.get c = true) :
    (lagLitre s).inc.flags.get c = true := by
  unfold lagLitre
  try dsimp only
  all_goals repeat with_reducible (first
      | refine recordSaturation_keepsFlag _ _ _ ?_ | refine lagClockAdvance_keepsFlag ?_ | exact h)

theorem pumpedLitre_keepsFlag {c : NoticeClass} {s : State} (h : s.inc.flags.get c = true) :
    (pumpedLitre s).inc.flags.get c = true := by
  unfold pumpedLitre
  try dsimp only
  repeat' split
  all_goals repeat with_reducible (first
      | refine recordSaturation_keepsFlag _ _ _ ?_ | refine lagLitre_keepsFlag ?_ | exact h)

theorem completePrime_keepsFlag {c : NoticeClass} {s : State} (h : s.inc.flags.get c = true) :
    (completePrime s).inc.flags.get c = true := by
  unfold completePrime
  try dsimp only
  repeat' split
  all_goals repeat with_reducible (first | refine enterCircKept_keepsFlag _ ?_ | exact h)

theorem checkStaticFlow_keepsFlag {c : NoticeClass} {s : State} (h : s.inc.flags.get c = true) :
    (checkStaticFlow s).inc.flags.get c = true := by
  unfold checkStaticFlow
  try dsimp only
  repeat' split
  all_goals repeat with_reducible (first | refine record_keepsFlag _ _ _ ?_ | exact h)

theorem returnedEffects_keepsFlag {c : NoticeClass} {s : State} (h : s.inc.flags.get c = true) :
    (returnedEffects s).inc.flags.get c = true := by
  unfold returnedEffects
  try dsimp only
  repeat' split
  all_goals repeat with_reducible (first
      | refine completePrime_keepsFlag ?_ | refine checkStaticFlow_keepsFlag ?_ | exact h)

theorem returnedLitre_keepsFlag {c : NoticeClass} {s : State} (h : s.inc.flags.get c = true) :
    (returnedLitre s).inc.flags.get c = true := by
  unfold returnedLitre
  try dsimp only
  repeat' split
  all_goals repeat with_reducible (first
      | refine recordSaturation_keepsFlag _ _ _ ?_ | refine returnedEffects_keepsFlag ?_ | exact h)

theorem handLoss_keepsFlag {c : NoticeClass} {s : State} (b : Bin) (h : s.inc.flags.get c = true) :
    (handLoss b s).inc.flags.get c = true := by
  unfold handLoss
  try dsimp only
  repeat' split
  all_goals repeat with_reducible (first
      | refine recordSaturation_keepsFlag _ _ _ ?_ | refine spanLossLitres_keepsFlag _ ?_ | exact h)

theorem updateRuns_keepsFlag {c : NoticeClass} {s : State} (p r : Nat) (h : s.inc.flags.get c = true) :
    (updateRuns p r s).inc.flags.get c = true := by
  unfold updateRuns
  all_goals exact h

theorem checkGain_keepsFlag {c : NoticeClass} {s : State} (p r : Nat) (h : s.inc.flags.get c = true) :
    (checkGain p r s).inc.flags.get c = true := by
  unfold checkGain
  try dsimp only
  repeat' split
  all_goals repeat with_reducible (first
      | refine notify_keepsFlag _ ?_ | refine record_keepsFlag _ _ _ ?_ | refine autoStrike_keepsFlag _ ?_ | exact h)

theorem enterTotalLoss_keepsFlag {c : NoticeClass} {s : State} (p r : Nat) (h : s.inc.flags.get c = true) :
    (enterTotalLoss p r s).inc.flags.get c = true := by
  unfold enterTotalLoss
  try dsimp only
  all_goals repeat with_reducible (first
      | refine record_keepsFlag _ _ _ ?_ | refine enterCircKept_keepsFlag _ ?_ | exact h)

theorem testRuns_keepsFlag {c : NoticeClass} {s : State} (p r : Nat) (h : s.inc.flags.get c = true) :
    (testRuns p r s).inc.flags.get c = true := by
  unfold testRuns
  try dsimp only
  repeat' split
  all_goals repeat with_reducible (first
      | refine record_keepsFlag _ _ _ ?_ | refine enterCircKept_keepsFlag _ ?_
      | refine enterTotalLoss_keepsFlag _ _ ?_ | exact h)

theorem evaluate_keepsFlag {c : NoticeClass} {s : State} (h : s.inc.flags.get c = true) :
    (evaluate s).inc.flags.get c = true := by
  unfold evaluate
  try dsimp only
  repeat' split
  all_goals repeat with_reducible (first
      | refine updateRuns_keepsFlag _ _ ?_ | refine checkGain_keepsFlag _ _ ?_ | refine testRuns_keepsFlag _ _ ?_
      | exact h)

theorem closeBin_keepsFlag {c : NoticeClass} {s : State} (h : s.inc.flags.get c = true) :
    (closeBin s).inc.flags.get c = true := by
  unfold closeBin
  all_goals exact h

theorem takeBinTick_keepsFlag {c : NoticeClass} {s : State} (h : s.inc.flags.get c = true) :
    (takeBinTick s).inc.flags.get c = true := by
  unfold takeBinTick
  try dsimp only
  repeat' split
  all_goals repeat with_reducible (first
      | refine handLoss_keepsFlag _ ?_ | refine evaluate_keepsFlag ?_ | refine closeBin_keepsFlag ?_ | exact h)

theorem confirmBleed_keepsFlag {c : NoticeClass} {s : State} (h : s.inc.flags.get c = true) :
    (confirmBleed s).inc.flags.get c = true := by
  unfold confirmBleed
  try dsimp only
  repeat' split
  all_goals repeat with_reducible (first | refine enterCirc_keepsFlag _ _ ?_ | exact h)

theorem expireStop_keepsFlag {c : NoticeClass} {s : State} (h : s.inc.flags.get c = true) :
    (expireStop s).inc.flags.get c = true := by
  unfold expireStop
  try dsimp only
  repeat' split
  all_goals repeat with_reducible (first
      | refine record_keepsFlag _ _ _ ?_ | refine enterCirc_keepsFlag _ _ ?_ | exact h)

theorem stoppingTick_keepsFlag {c : NoticeClass} {s : State} (h : s.inc.flags.get c = true) :
    (stoppingTick s).inc.flags.get c = true := by
  unfold stoppingTick
  try dsimp only
  repeat' split
  all_goals repeat with_reducible (first | refine confirmBleed_keepsFlag ?_ | refine expireStop_keepsFlag ?_ | exact h)

theorem expirePrime_keepsFlag {c : NoticeClass} {s : State} (h : s.inc.flags.get c = true) :
    (expirePrime s).inc.flags.get c = true := by
  unfold expirePrime
  try dsimp only
  repeat' split
  all_goals repeat with_reducible (first
      | refine record_keepsFlag _ _ _ ?_ | refine enterCircKept_keepsFlag _ ?_ | exact h)

theorem circulationTick_keepsFlag {c : NoticeClass} {s : State} (h : s.inc.flags.get c = true) :
    (circulationTick s).inc.flags.get c = true := by
  unfold circulationTick
  try dsimp only
  repeat' split
  all_goals repeat with_reducible (first | refine stoppingTick_keepsFlag ?_ | refine expirePrime_keepsFlag ?_ | exact h)

theorem clockTick_keepsFlag {c : NoticeClass} {s : State} (h : s.inc.flags.get c = true) :
    (clockTick s).inc.flags.get c = true := by
  unfold clockTick
  try dsimp only
  repeat' split
  all_goals repeat with_reducible (first | refine dayBoundary_keepsFlag ?_ | exact h)

theorem phaseTick_keepsFlag {c : NoticeClass} {s : State} (h : s.inc.flags.get c = true) :
    (phaseTick s).inc.flags.get c = true := by
  unfold phaseTick
  try dsimp only
  repeat' split
  all_goals repeat with_reducible (first | refine takeBinTick_keepsFlag ?_ | exact h)

theorem secondTick_keepsFlag {c : NoticeClass} {s : State} (h : s.inc.flags.get c = true) :
    (secondTick s).inc.flags.get c = true := by
  unfold secondTick
  try dsimp only
  all_goals repeat with_reducible (first
      | refine billingTick_keepsFlag ?_ | refine jointTick_keepsFlag ?_ | refine circulationTick_keepsFlag ?_
      | refine clockTick_keepsFlag ?_ | refine phaseTick_keepsFlag ?_ | exact h)

theorem enterJob_keepsFlag {c : NoticeClass} {s : State} (j : JobState) (h : s.inc.flags.get c = true) :
    (enterJob j s).inc.flags.get c = true := by
  unfold enterJob
  try dsimp only
  all_goals repeat with_reducible (first | refine notify_keepsFlag _ ?_ | exact h)

theorem endOperation_keepsFlag {c : NoticeClass} {s : State} (n : Nat) (k : StoreSlot) (h : s.inc.flags.get c = true) :
    (endOperation n k s).inc.flags.get c = true := by
  unfold endOperation
  try dsimp only
  all_goals repeat with_reducible (first | refine notify_keepsFlag _ ?_ | exact h)

theorem startWrite_keepsFlag {c : NoticeClass} {s : State} (n : Nat) (h : s.inc.flags.get c = true) :
    (startWrite n s).inc.flags.get c = true := by
  unfold startWrite
  try dsimp only
  all_goals repeat with_reducible (first | refine enterJob_keepsFlag _ ?_ | exact h)

theorem leaveUnfiled_keepsFlag {c : NoticeClass} {s : State} (o : FilingOutcome) (h : s.inc.flags.get c = true) :
    (leaveUnfiled o s).inc.flags.get c = true := by
  unfold leaveUnfiled
  try dsimp only
  all_goals repeat with_reducible (first | refine enterJob_keepsFlag _ ?_ | exact h)
  all_goals exact h

theorem settleCirculation_keepsFlag {c : NoticeClass} {s : State} (h : s.inc.flags.get c = true) :
    (settleCirculation s).inc.flags.get c = true := by
  unfold settleCirculation
  try dsimp only
  repeat' split
  all_goals repeat with_reducible (first
      | refine record_keepsFlag _ _ _ ?_ | refine enterCirc_keepsFlag _ _ ?_ | exact h)

theorem orphanRod_keepsFlag {c : NoticeClass} {s : State} (a : Arm) (h : s.inc.flags.get c = true) :
    (orphanRod a s).inc.flags.get c = true := by
  unfold orphanRod
  try dsimp only
  all_goals repeat with_reducible (first
      | refine record_keepsFlag _ _ _ ?_ | refine moveRod_keepsFlag _ _ ?_ | refine clearArmToReady_keepsFlag ?_
      | exact h)

theorem settleJoint_keepsFlag {c : NoticeClass} {s : State} (h : s.inc.flags.get c = true) :
    (settleJoint s).inc.flags.get c = true := by
  unfold settleJoint
  try dsimp only
  repeat' split
  all_goals repeat with_reducible (first
      | refine enterReady_keepsFlag ?_ | refine clearArmToReady_keepsFlag ?_ | refine returnRod_keepsFlag ?_
      | refine orphanRod_keepsFlag _ ?_ | exact h)

theorem settleJob_keepsFlag {c : NoticeClass} {s : State} (h : s.inc.flags.get c = true) :
    (settleJob s).inc.flags.get c = true := by
  unfold settleJob
  try dsimp only
  repeat' split
  all_goals repeat with_reducible (first | refine leaveUnfiled_keepsFlag _ ?_ | exact h)

theorem startDayBoundary_keepsFlag {c : NoticeClass} {s : State} (h : s.inc.flags.get c = true) :
    (startDayBoundary s).inc.flags.get c = true := by
  unfold startDayBoundary
  try dsimp only
  repeat' split
  all_goals repeat with_reducible (first | refine dayBoundary_keepsFlag ?_ | exact h)

end Sys2Proof.Machine
end

