-- ==== Sys2Proof/Laws/Lag.lean ====
section
/-! SUPPORT. What the lag tracker's operations and the rate swap do to the mark queue, the open span and the rate sets, said
once: each keeps the run of marks from F to the hole depth (R55), and pricing keeps the rate sets (R149). -/

namespace Sys2Proof.Machine

/-! ## Pricing keeps the rate sets and the staging state -/

/-- Pricing into a line changes the lines and the saturation flag only. -/
theorem priceInto_price (i v q : Nat) (s : State) :
    (priceInto i v q s).price =
      { s.price with
        lines := setAt s.price.lines i (ChargeLine.priced v q),
        saturationSeen := (priceInto i v q s).price.saturationSeen } := by
  unfold priceInto; dsimp only; split <;> simp

theorem priceUnder_price (k : LineKind) (key : LineKey) (v q : Nat) (s : State) :
    (priceUnder k key v q s).price =
      { s.price with
        lines := (priceUnder k key v q s).price.lines,
        saturationSeen := (priceUnder k key v q s).price.saturationSeen } := by
  unfold priceUnder; split
  · rw [priceInto_price]
  · split
    · rw [priceInto_price]
    · simp only [record_frame]; rw [priceInto_price]

theorem priceMark_price (m : Mark) (k : Nat) (s : State) :
    (priceMark m k s).price =
      { s.price with
        lines := (priceMark m k s).price.lines, saturationSeen := (priceMark m k s).price.saturationSeen } := by
  unfold priceMark; split
  · rw [priceUnder_price]
  · rfl

/-! ## Retirement and laying -/

theorem retireUnchecked_price (k : RetireCause) (m : Mark) (rest : List Mark) (s : State) :
    (retireUnchecked k m rest s).price =
      { s.price with
        lines := (retireUnchecked k m rest s).price.lines,
        saturationSeen := (retireUnchecked k m rest s).price.saturationSeen } := by
  unfold retireUnchecked; dsimp only; rw [priceMark_price]; simp

theorem retireUnchecked_lag (k : RetireCause) (m : Mark) (rest : List Mark) (s : State) :
    (retireUnchecked k m rest s).lag =
      { s.lag with queue := rest, head := (s.lag.head + 1) % Config.queuePlaces, frontier := m.bottom } := by
  simp [retireUnchecked, removeOldest]

/-- A forced retirement takes the oldest mark off and moves F to its bottom (R53). -/
theorem forceOldest_lag {m : Mark} {rest : List Mark} {s : State} (h : s.lag.queue = m :: rest) :
    (forceOldest s).lag =
      { s.lag with queue := rest, head := (s.lag.head + 1) % Config.queuePlaces, frontier := m.bottom } := by
  simp [forceOldest, h, retireUnchecked_lag]

theorem forceOldest_price (s : State) :
    (forceOldest s).price =
      { s.price with
        lines := (forceOldest s).price.lines, saturationSeen := (forceOldest s).price.saturationSeen } := by
  unfold forceOldest; split
  · rfl
  · simp only [markOverrunSeen_frame, record_frame]; rw [retireUnchecked_price]

/-- A forced retirement touches the job context's overrun flag only (R180). -/
theorem forceOldest_jobs (s : State) :
    (forceOldest s).jobs = { s.jobs with context := (forceOldest s).jobs.context } ∧
      ((forceOldest s).jobs.context.isSome = s.jobs.context.isSome) ∧
      ((forceOldest s).jobs.context.map (·.filing) = s.jobs.context.map (·.filing)) := by
  unfold forceOldest; split
  · simp
  · unfold markOverrunSeen; split <;> simp [Function.comp_def]

/-- The mark a laying appends, and the span it leaves (R51). -/
theorem appendMark_lag (d : Nat) (s : State) :
    (appendMark d s).lag =
      { s.lag with
        queue := s.lag.queue ++ [spanMark d s], spanTop := d, spanSeconds := 0, spanLoss := 0,
        spanBlind := decide (s.circ.state = .totalLoss) } := by
  have e : spanMark d (recordLagClamp d s) = spanMark d s := by
    simp [spanMark, activeGeneration, activeFloors]
  simp [appendMark, e]

/-- Laying changes the job context's overrun flag only (R180). -/
theorem layMark_jobs (d : Nat) (s : State) :
    (layMark d s).jobs = { s.jobs with context := (layMark d s).jobs.context } ∧
      ((layMark d s).jobs.context.isSome = s.jobs.context.isSome) ∧
      ((layMark d s).jobs.context.map (·.filing) = s.jobs.context.map (·.filing)) := by
  unfold layMark; split
  · simp only [appendMark_frame]; split
    · exact forceOldest_jobs s
    · simp
  · simp

/-- Laying changes the charge lines only of the pricing unit. -/
theorem layMark_price (d : Nat) (s : State) :
    (layMark d s).price =
      { s.price with lines := (layMark d s).price.lines, saturationSeen := (layMark d s).price.saturationSeen } := by
  unfold layMark; split
  · simp only [appendMark_frame]; split
    · exact forceOldest_price s
    · rfl
  · rfl

/-- The span's top after a laying (R51). -/
theorem layMark_spanTop (d : Nat) (s : State) :
    (layMark d s).lag.spanTop = if s.lag.spanTop < d then d else s.lag.spanTop := by
  unfold layMark spanHasLength
  by_cases h : s.lag.spanTop < d <;> simp [h, appendMark_lag]

/-- The mark a span becomes does not depend on the forced retirement before it (R51, R53). -/
theorem spanMark_forceOldest (d : Nat) (s : State) : spanMark d (forceOldest s) = spanMark d s := by
  cases e : s.lag.queue with
  | nil => simp [forceOldest, e]
  | cons m r =>
    simp only [spanMark, activeGeneration, activeFloors, forceOldest_lag e, lagVolume, lagVolumeRaw, annularSum]
    rw [forceOldest_price]; simp

/-- A laying keeps the active floors: no swap is made before the operation is complete (R53). -/
theorem layMark_floors (d : Nat) (s : State) : activeFloors (layMark d s) = activeFloors s := by
  simp only [activeFloors]; rw [layMark_price]

/-- What a laying makes of a span with length: its mark at the tail, after the oldest of a full queue has gone, and the span
reopened (R51, R53). -/
theorem layMark_lag {d : Nat} {s : State} (h : s.lag.spanTop < d) :
    (layMark d s).lag =
      { s.lag with
        queue := (if queueFull s then s.lag.queue.drop 1 else s.lag.queue) ++ [spanMark d s],
        head := (layMark d s).lag.head, frontier := (layMark d s).lag.frontier,
        spanTop := d, spanSeconds := 0, spanLoss := 0, spanBlind := decide (s.circ.state = .totalLoss) } := by
  by_cases hq : queueFull s = true
  · cases e : s.lag.queue with
    | nil => simp [queueFull, e, Config.queuePlaces] at hq
    | cons m r => simp [layMark, spanHasLength, h, hq, appendMark_lag, spanMark_forceOldest, forceOldest_lag e]
  · simp [layMark, spanHasLength, h, hq, appendMark_lag]

/-! ## The run of marks (R55) -/

/-- The marks run from F to the span's top, the span ends at or above the hole depth, and the queue is within its
places. -/
abbrev runLawful (s : State) : Prop :=
  chained s.lag.frontier s.lag.queue s.lag.spanTop = true ∧ s.lag.spanTop ≤ s.rods.holeDepth ∧
    s.lag.queue.length ≤ 256

theorem frontierLawful_of_opened {s : State} (h : s.jobs.state = .opened) : frontierLawful s ↔ runLawful s := by
  simp [frontierLawful, h]

theorem chained_cons {a b : Nat} {m : Mark} {q : List Mark} (h : chained a (m :: q) b = true) :
    m.top = a ∧ m.top < m.bottom ∧ chained m.bottom q b = true := by
  simpa [chained, and_assoc] using h

theorem chained_append {a b c : Nat} {m : Mark} {q : List Mark} (h : chained a q b = true) (ht : m.top = b)
    (hb : m.bottom = c) (hl : b < c) : chained a (q ++ [m]) c = true := by
  induction q generalizing a with
  | nil => simp_all [chained]
  | cons n q ih =>
    obtain ⟨h1, h2, h3⟩ := chained_cons h
    simp only [List.cons_append, chained, Bool.and_eq_true, decide_eq_true_eq]
    exact ⟨⟨h1, h2⟩, ih h3⟩

theorem chained_le {a b : Nat} {q : List Mark} (h : chained a q b = true) : a ≤ b := by
  induction q generalizing a with
  | nil => simp [chained] at h; omega
  | cons m q ih => obtain ⟨h1, h2, h3⟩ := chained_cons h; have := ih h3; omega

/-- A retirement's first three phases keep the run. -/
theorem retireUnchecked_run {k : RetireCause} {m n : Mark} {rest : List Mark} {s : State} (h : runLawful s)
    (hq : s.lag.queue = m :: rest) (hn : n.bottom = m.bottom) : runLawful (retireUnchecked k n rest s) := by
  obtain ⟨h1, h2, h3⟩ := h
  rw [hq] at h1 h3
  refine ⟨?_, ?_, ?_⟩ <;> simp only [retireUnchecked_lag, retireUnchecked_frame]
  · rw [hn]; exact (chained_cons h1).2.2
  · exact h2
  · simp at h3; omega

theorem forceOldest_run {s : State} (h : runLawful s) : runLawful (forceOldest s) := by
  obtain ⟨h1, h2, h3⟩ := h
  cases hq : s.lag.queue with
  | nil => unfold forceOldest; rw [hq]; exact ⟨h1, h2, h3⟩
  | cons m rest =>
    rw [hq] at h1 h3
    refine ⟨?_, ?_, ?_⟩ <;> simp only [forceOldest_lag hq, forceOldest_frame]
    · exact (chained_cons h1).2.2
    · exact h2
    · simp at h3; omega

/-- A laying down to a depth within the hole keeps the run, with room made on a full queue (R53). -/
theorem layMark_run {d : Nat} {s : State} (h : runLawful s) (hd : d ≤ s.rods.holeDepth) : runLawful (layMark d s) := by
  unfold layMark; split
  · next hl =>
    simp only [spanHasLength, decide_eq_true_eq] at hl
    have key : ∀ t : State, runLawful t → t.lag.spanTop = s.lag.spanTop → t.rods = s.rods →
        t.lag.queue.length ≤ 255 → runLawful (appendMark d t) := by
      intro t ⟨a, b, _⟩ e1 e2 e3
      refine ⟨?_, ?_, ?_⟩ <;> simp only [appendMark_lag, appendMark_frame]
      · exact chained_append a rfl rfl (by rw [e1]; exact hl)
      · rw [e2]; exact hd
      · simp; omega
    split
    · next hf =>
      simp [queueFull, Config.queuePlaces] at hf
      cases hq : s.lag.queue with
      | nil => simp [hq] at hf
      | cons m rest =>
        refine key _ (forceOldest_run h) ?_ (by simp) ?_
        · rw [forceOldest_lag hq]
        · rw [forceOldest_lag hq]; have := h.2.2; simp only [hq, List.length_cons] at this; simp only []; omega
    · next hf =>
      have hl' : s.lag.queue.length < 256 :=
        Nat.lt_of_not_le fun h' => hf (by unfold queueFull; exact decide_eq_true h')
      exact key s h rfl rfl (by omega)
  · exact h

theorem rotateSets_run {s : State} (h : runLawful s) : runLawful (rotateSets s) := by
  have e : (rotateSets s).lag = s.lag ∧ (rotateSets s).rods = s.rods := by simp
  unfold runLawful; rw [e.1, e.2]; exact h

/-- A swap check keeps the run (R139, R140). -/
theorem swapCheck_run {s : State} (h : runLawful s) : runLawful (swapCheck s) := by
  unfold swapCheck; split
  · exact rotateSets_run (layMark_run h (Nat.le_refl _))
  · exact h

theorem retire_run {k : RetireCause} {m n : Mark} {rest : List Mark} {s : State} (h : runLawful s)
    (hq : s.lag.queue = m :: rest) (hn : n.bottom = m.bottom) : runLawful (retire k n rest s) :=
  swapCheck_run (retireUnchecked_run h hq hn)

theorem closeSpan_run {s : State} (h : runLawful s) : runLawful (closeSpan s) := by
  unfold closeSpan; split
  · exact swapCheck_run (layMark_run h (Nat.le_refl _))
  · exact layMark_run h (Nat.le_refl _)

theorem totalLossChange_run {s : State} (h : runLawful s) : runLawful (totalLossChange s) := by
  unfold totalLossChange; split
  · split
    · exact closeSpan_run h
    · exact h
  · exact h

/-- The marks of an advance keep the run (R50). -/
theorem layBoundaries_run {fuel d : Nat} {s : State} (h : runLawful s) (hd : d ≤ s.rods.holeDepth) :
    runLawful (layBoundaries fuel d s).1 := by
  induction fuel generalizing s with
  | zero => exact h
  | succ fuel ih =>
    unfold layBoundaries; dsimp only; split
    · next hb => exact ih (layMark_run h (by omega)) (by simpa using hd)
    · exact h

theorem lagAdvance_run {d : Nat} {s : State} (h : runLawful s) (hd : d ≤ s.rods.holeDepth) :
    runLawful (lagAdvance d s) := by
  unfold lagAdvance; dsimp only; split
  · exact swapCheck_run (layBoundaries_run h hd)
  · exact layBoundaries_run h hd

theorem retireArrived_run {fuel : Nat} {s : State} (h : runLawful s) : runLawful (retireArrived fuel s) := by
  induction fuel generalizing s with
  | zero => exact h
  | succ fuel ih =>
    unfold retireArrived; split
    · exact h
    · next m rest hq =>
      split
      · exact ih (retire_run h hq rfl)
      · exact h

theorem lagClockAdvance_run {s : State} (h : runLawful s) : runLawful (lagClockAdvance s) := retireArrived_run h

theorem takeTrigger_run {t : Trigger} {s : State} (h : runLawful s) : runLawful (takeTrigger t s) := by
  unfold takeTrigger; split
  · exact swapCheck_run h
  · exact h

/-! ## One swap at most -/

/-- Outside DUE a swap check does nothing (R139). -/
theorem swapCheck_of_not_due {s : State} (h : s.price.stage.isDue = false) : swapCheck s = s := by
  simp [swapCheck, h]

/-- After a swap check the staging state is EDITING, or the check did nothing (R140). -/
theorem swapCheck_cases (s : State) :
    swapCheck s = s ∨ ((swapCheck s).price.stage = .editing ∧ (swapCheck s).lag = (layMark s.rods.holeDepth s).lag) := by
  unfold swapCheck; split
  · refine .inr ⟨?_, ?_⟩ <;> simp [swap, rotateSets]
  · exact .inl rfl

/-- Where the span has been closed at the hole depth, a swap check lays nothing (R140). -/
theorem swapCheck_lag_of_closed {s : State} (h : s.rods.holeDepth ≤ s.lag.spanTop) : (swapCheck s).lag = s.lag := by
  rcases swapCheck_cases s with e | ⟨_, e⟩
  · rw [e]
  · rw [e]; simp [layMark, spanHasLength, Nat.not_lt.mpr h]

/-- After closing, the span's top stands at the hole depth (R54). -/
theorem closeSpan_spanTop {s : State} (h : s.lag.spanTop ≤ s.rods.holeDepth) :
    (closeSpan s).lag.spanTop = s.rods.holeDepth := by
  have e : (layMark s.rods.holeDepth s).lag.spanTop = s.rods.holeDepth := by
    rw [layMark_spanTop]; split <;> omega
  unfold closeSpan; split
  · rw [swapCheck_lag_of_closed (by rw [e]; simp)]; exact e
  · exact e

/-- A drain with the span closed empties the queue and moves F to the span's top (R59). -/
theorem drainQueue_lag {fuel : Nat} {s : State} (h : chained s.lag.frontier s.lag.queue s.lag.spanTop = true)
    (hc : s.rods.holeDepth ≤ s.lag.spanTop) (hf : s.lag.queue.length ≤ fuel) :
    (drainQueue fuel s).lag.queue = [] ∧ (drainQueue fuel s).lag.frontier = s.lag.spanTop ∧
      (drainQueue fuel s).lag.spanTop = s.lag.spanTop := by
  induction fuel generalizing s with
  | zero =>
    have hq : s.lag.queue = [] := List.eq_nil_of_length_eq_zero (by omega)
    rw [hq] at h
    simp [chained] at h
    exact ⟨hq, h, rfl⟩
  | succ fuel ih =>
    unfold drainQueue; split
    · next hq => rw [hq] at h; simp [chained] at h; exact ⟨hq, h, rfl⟩
    · next m rest hq =>
      have e : (retire .close { m with forced := true } rest s).lag =
          { s.lag with queue := rest, head := (s.lag.head + 1) % Config.queuePlaces, frontier := m.bottom } := by
        unfold retire
        rw [swapCheck_lag_of_closed] <;> simp [retireUnchecked_lag, hc]
      rw [hq] at h hf
      obtain ⟨a, b, c⟩ := ih (s := retire .close { m with forced := true } rest s)
        (by rw [e]; exact (chained_cons h).2.2) (by rw [e]; simpa using hc) (by rw [e]; simp at hf; omega)
      rw [e] at b c
      exact ⟨a, b, c⟩

/-! ## Rate generations (R139) -/

/-- Every queued mark carries the active generation or the previous one. -/
abbrev marksPriced (s : State) : Prop :=
  ∀ m ∈ s.lag.queue,
    m.generation = activeGeneration s ∨ s.price.previous.any (fun p => decide (p.generation = m.generation)) = true

/-- Two states with one active and one previous set price a mark alike. -/
theorem marksPriced_of_subset {s t : State} (h : marksPriced s) (ha : t.price.active = s.price.active)
    (hp : t.price.previous = s.price.previous) (hq : ∀ m ∈ t.lag.queue, m ∈ s.lag.queue) : marksPriced t := by
  intro m hm
  have := h m (hq m hm)
  simpa [activeGeneration, ha, hp] using this

theorem forceOldest_priced {s : State} (h : marksPriced s) : marksPriced (forceOldest s) := by
  refine marksPriced_of_subset h ?_ ?_ ?_
  · rw [forceOldest_price]
  · rw [forceOldest_price]
  · cases hq : s.lag.queue with
    | nil => simp [forceOldest, hq]
    | cons m rest => rw [forceOldest_lag hq]; intro n hn; exact List.mem_cons_of_mem _ hn

theorem appendMark_priced {d : Nat} {s : State} (h : marksPriced s) : marksPriced (appendMark d s) := by
  intro m hm
  rw [appendMark_lag] at hm
  simp only [activeGeneration, appendMark_frame]
  rcases List.mem_append.mp hm with hm | hm
  · exact h m hm
  · simp only [List.mem_singleton] at hm; subst hm; exact .inl rfl

theorem layMark_priced {d : Nat} {s : State} (h : marksPriced s) : marksPriced (layMark d s) := by
  unfold layMark; split
  · refine appendMark_priced ?_
    split
    · exact forceOldest_priced h
    · exact h
  · exact h

/-- No queued mark carries the previous generation. -/
theorem previousMarks_eq_zero {s : State} (h : previousMarks s = 0) {m : Mark} (hm : m ∈ s.lag.queue) :
    s.price.previous.any (fun p => decide (p.generation = m.generation)) = false := by
  unfold previousMarks at h
  split at h
  · next p hp =>
    rw [List.countP_eq_zero] at h
    have := h m hm
    simp only [decide_eq_true_eq] at this
    simp [hp, Ne.symm this]
  · next hp => simp [hp]

/-- A swap keeps every mark priced: those of the old active set are those of the previous set now (R140). -/
theorem swapCheck_priced {s : State} (ha : s.price.active.isSome = true) (h : marksPriced s) :
    marksPriced (swapCheck s) := by
  unfold swapCheck; split
  · next hc =>
    simp only [Bool.and_eq_true, decide_eq_true_eq] at hc
    obtain ⟨old, ho⟩ := Option.isSome_iff_exists.mp ha
    have act : activeGeneration s = old.generation := by simp [activeGeneration, ho]
    have hall : ∀ m ∈ (layMark s.rods.holeDepth s).lag.queue, m.generation = old.generation := by
      have base : ∀ m ∈ s.lag.queue, m.generation = old.generation := by
        intro m hm
        rcases h m hm with e | e
        · rw [e, act]
        · rw [previousMarks_eq_zero hc.2 hm] at e; cases e
      unfold layMark; split
      · rw [appendMark_lag]
        intro m hm
        rcases List.mem_append.mp hm with hm | hm
        · split at hm
          · cases hq : s.lag.queue with
            | nil => simp [forceOldest, hq] at hm
            | cons n rest =>
              rw [forceOldest_lag hq] at hm
              exact base m (by rw [hq]; exact List.mem_cons_of_mem _ hm)
          · exact base m hm
        · simp only [List.mem_singleton] at hm; subst hm
          simp only [spanMark, activeGeneration]
          split
          · rw [forceOldest_price]; simp [ho]
          · simp [ho]
      · exact base
    intro m hm
    have hm' : m ∈ (layMark s.rods.holeDepth s).lag.queue := by simpa [swap, rotateSets] using hm
    right
    have hp : (swap s).price.previous = some old := by
      simp only [swap, rotateSets, notify_frame]; rw [layMark_price]; exact ho
    simp [hp, hall m hm']
  · exact h

end Sys2Proof.Machine
end

