-- ==== Sys2Proof/Laws/Log.lean ====
section
/-! SUPPORT. What the changes of the strata log's list do to a run of intervals: the small lemmas of intervalsRun
(Safety.lean), one for each way the list changes. -/

namespace Sys2Proof.Machine

/-- A deeper floor keeps the run. -/
theorem intervalsRun_mono {top low high : Nat} {bottom : Option Nat} {vs : List Interval} (h : low ≤ high)
    (hr : intervalsRun top bottom low vs = true) : intervalsRun top bottom high vs = true := by
  induction vs generalizing top with
  | nil => simp [intervalsRun] at hr
  | cons v rest ih =>
    cases rest with
    | nil =>
      simp only [intervalsRun, Bool.and_eq_true, decide_eq_true_eq] at hr ⊢
      exact ⟨hr.1, hr.2.trans h⟩
    | cons w rest =>
      simp only [intervalsRun, Bool.and_eq_true] at hr ⊢
      exact ⟨hr.1, ih hr.2⟩

/-- A change of every interval that keeps its extent keeps the run (R118, R124, R125). -/
theorem intervalsRun_map {top floor : Nat} {bottom : Option Nat} (f : Interval → Interval)
    (hf : ∀ v, (f v).top = v.top ∧ (f v).bottom = v.bottom) (vs : List Interval) :
    intervalsRun top bottom floor (vs.map f) = intervalsRun top bottom floor vs := by
  induction vs generalizing top with
  | nil => rfl
  | cons v rest ih =>
    cases rest with
    | nil => simp [intervalsRun, hf]
    | cons w rest =>
      have := ih (top := w.top)
      simp only [List.map_cons] at this
      simp [intervalsRun, hf, this]

/-- A change of the last interval that keeps its extent keeps the run (R113, R116, R118, R120). -/
theorem intervalsRun_updateLast {top floor : Nat} {bottom : Option Nat} (f : Interval → Interval)
    (hf : ∀ v, (f v).top = v.top ∧ (f v).bottom = v.bottom) (vs : List Interval) :
    intervalsRun top bottom floor (updateLast f vs) = intervalsRun top bottom floor vs := by
  induction vs generalizing top with
  | nil => rfl
  | cons v rest ih =>
    cases rest with
    | nil => simp [updateLast, intervalsRun, hf]
    | cons w rest =>
      have := ih (top := w.top)
      cases rest with
      | nil => simp [updateLast, intervalsRun, hf]
      | cons x rest =>
        simp only [updateLast, intervalsRun] at this ⊢
        rw [this]

/-- The last interval of a run has the run's bottom and begins at or above its floor. -/
theorem intervalsRun_last {top floor : Nat} {bottom : Option Nat} {vs : List Interval} {v : Interval}
    (h : intervalsRun top bottom floor (vs ++ [v]) = true) : v.bottom = bottom ∧ v.top ≤ floor := by
  induction vs generalizing top with
  | nil =>
    simp only [List.nil_append, intervalsRun, Bool.and_eq_true, decide_eq_true_eq] at h
    exact ⟨h.1.2, h.1.1 ▸ h.2⟩
  | cons w rest ih =>
    cases rest with
    | nil =>
      simp only [List.cons_append, List.nil_append, intervalsRun, Bool.and_eq_true, decide_eq_true_eq] at h
      exact ⟨h.2.1.2, h.2.2⟩
    | cons x rest =>
      simp only [List.cons_append, intervalsRun, Bool.and_eq_true] at h
      exact ih h.2

/-- The last interval closed at a depth and a new one opened there continue the run (R110, R111). -/
theorem intervalsRun_next {top floor depth : Nat} {bottom after : Option Nat} {vs : List Interval} {v w x : Interval}
    (h : intervalsRun top bottom floor (vs ++ [v]) = true) (hv : v.top ≤ depth) (hd : depth ≤ floor)
    (hw : w.top = v.top ∧ w.bottom = some depth) (hx : x.top = depth ∧ x.bottom = after) :
    intervalsRun top after floor (vs ++ [w, x]) = true := by
  induction vs generalizing top with
  | nil =>
    simp only [List.nil_append, intervalsRun, Bool.and_eq_true, decide_eq_true_eq] at h
    simp only [List.nil_append, intervalsRun, hw, hx, Bool.and_eq_true, decide_eq_true_eq]
    exact ⟨⟨⟨h.1.1, h.1.1 ▸ hv⟩, trivial⟩, ⟨trivial, trivial⟩, hd⟩
  | cons y rest ih =>
    cases rest with
    | nil =>
      simp only [List.cons_append, List.nil_append, intervalsRun, Bool.and_eq_true, decide_eq_true_eq] at h
      simp [intervalsRun, hw, hx, h.1, hv, hd]
    | cons z rest =>
      simp only [List.cons_append, intervalsRun, Bool.and_eq_true] at h ⊢
      exact ⟨h.1, ih h.2⟩

end Sys2Proof.Machine
end

