-- ==== Sys2Proof/Tests/Slice0.lean ====
section
/-! SUPPORT. The model's own tests: ill-formed commands are refused by the well-formedness check, the spec's worked examples
come out as it prints them, and every statement's hypotheses are met, clause by clause, by a concrete state. -/

namespace Sys2Proof.Tests

open Sys2Proof.Machine

/-! ## Small states -/

/-- The part right after a cold start: it runs, answers address 7 and holds no request. -/
abbrev base : State := State.reset
/-- With a circulation state. -/
abbrev inCirc (c : CircState) : State := { base with circ.state := c }
/-- With a joint state. -/
abbrev inJoint (j : JointState) : State := { base with joint.state := j }
/-- With a job state. -/
abbrev inJob (j : JobState) : State := { base with jobs.state := j }
/-- A rod of 610 cm, SERVICEABLE. -/
abbrev rodAt (id : Nat) (loc : RodLocation) : Rod :=
  { id := id, length := 610, status := .serviceable, makeUps := 37, rotating := 0, location := loc, entryFootage := none,
    makeUpPeak := none, breakPeak := none }
/-- With one rod registered. -/
abbrev withRod (r : Rod) (s : State) : State := { s with rods.registry := [r] }
/-- Popped, in the arm. -/
abbrev withPopped : State :=
  { withRod (rodAt 9 .arm) (inJoint .unloaded) with joint.arm := some { rod := 9, source := .string } }
/-- Loaded from the yard. -/
abbrev withLoaded : State :=
  { withRod (rodAt 9 .arm) (inJoint .loaded) with joint.arm := some { rod := 9, source := .yard } }
/-- A rate set whose rates are all the same. -/
abbrev flatSet (g rate : Nat) (floors : List Nat) : RateSet :=
  { generation := g, floors := floors, rows := List.replicate 16 (List.replicate 6 rate), times := List.replicate 7 rate,
    materials := List.replicate 32 none }
/-- An open job at depth 0 under generation 1, with interval 0 open. -/
abbrev openBase : State :=
  { base with
    jobs.state := .opened,
    jobs.context := some (newContext 40117 2208 (List.replicate 12 0x41#8) 0 0),
    price.active := some (flatSet 1 100 [0]), price.staging := .ofSet (flatSet 1 100 [0]),
    strata.intervals :=
      [{ top := 0, bottom := none, cls := 15, origin := .unobserved, opened := 0, seconds := 0, loss := 0, marks := 0,
         rate := none, waterBearing := false, forced := false, note := 0 }] }
/-- A mark of generation 1. -/
abbrev mark (top bottom arrival : Nat) : Mark :=
  { top := top, bottom := bottom, laid := 0, arrival := arrival, generation := 1, band := 0, blind := false,
    seconds := 0, loss := 0, forced := false }
/-- The open job with one mark queued, to the hole depth of 50 cm. -/
abbrev marked : State :=
  { openBase with lag.queue := [mark 0 50 10], lag.spanTop := 50, rods.holeDepth := 50 }
/-- A pending incident. -/
abbrev pendingIncident (k : IncidentKind) : Incident :=
  { kind := k, first := 0, last := 0, hole := 0, detail1 := 0, detail2 := 0, repeats := 1, pending := true }
/-- With slot 0 pending. -/
abbrev withIncident (k : IncidentKind) (s : State) : State :=
  { s with inc.slots := some (pendingIncident k) :: List.replicate 15 none, inc.order := [0], inc.lastWritten := 0 }
/-- With a slot of the store. -/
abbrev withSlot (k : StoreSlot) (s : State) : State := { s with jobs.slots := k :: List.replicate 15 .erased }
/-- With the supply off, or with the reset input asserted, or both. -/
abbrev powered (supply resetLine : Bool) (s : State) : State :=
  { s with power := { supply := supply, resetLine := resetLine } }
/-- A small ticket. -/
abbrev ticket : Ticket := assembleTicket false (newContext 1 1 [] 0 0) base

/-! ## Well-formedness: one ill-formed command for each check -/

theorem test_wellFormed_current : (Instr.analogSample .pressure 25000).wellFormed = true ∧
    (Instr.analogSample .pressure 25001).wellFormed = false := by decide
theorem test_wellFormed_unknownKind :
    (Instr.unknownKind .own 0x7F []).wellFormed = true ∧ (Instr.unknownKind .own 0x80 []).wellFormed = false ∧
      (Instr.unknownKind .own 0x01 []).wellFormed = false ∧
      (Instr.unknownKind .own 0 (List.replicate 241 0)).wellFormed = false := by decide +kernel
theorem test_wellFormed_octet :
    (Instr.readStatus .own 255).wellFormed = true ∧ (Instr.readStatus .own 256).wellFormed = false ∧
      (Instr.startCirculation .own 256).wellFormed = false ∧ (Instr.pumpTest .own 256).wellFormed = false ∧
      (Instr.rackRod .own 256).wellFormed = false ∧ (Instr.formation .own 256).wellFormed = false ∧
      (Instr.commitStage .own 256).wellFormed = false ∧ (Instr.setCategory .own 256).wellFormed = false ∧
      (Instr.clearIncident .own 256).wellFormed = false ∧ (Instr.setNoticeMask .own 256).wellFormed = false ∧
      (Instr.eraseTicket .own 256).wellFormed = false := by decide
theorem test_wellFormed_word :
    (Instr.setReturnMeter .own 65535).wellFormed = true ∧ (Instr.setReturnMeter .own 65536).wellFormed = false ∧
      (Instr.delistRod .own 65536).wellFormed = false ∧ (Instr.setRodLimits .own 0 65536).wellFormed = false ∧
      (Instr.setRodLimits .own 65536 0).wellFormed = false ∧ (Instr.setDepthReference .own 65536 0).wellFormed = false ∧
      (Instr.setDepthReference .own 0 65536).wellFormed = false := by decide
theorem test_wellFormed_long :
    (Instr.setClock .own 4294967295).wellFormed = true ∧ (Instr.setClock .own 4294967296).wellFormed = false ∧
      (Instr.setOverpullLimit .own 4294967296).wellFormed = false := by decide
theorem test_wellFormed_records :
    (Instr.readRecords .own 0 0 0 0 1 0).wellFormed = true ∧ (Instr.readRecords .own 256 0 0 0 1 0).wellFormed = false ∧
      (Instr.readRecords .own 0 256 0 0 1 0).wellFormed = false ∧
      (Instr.readRecords .own 0 0 256 0 1 0).wellFormed = false ∧
      (Instr.readRecords .own 0 0 0 65536 1 0).wellFormed = false ∧
      (Instr.readRecords .own 0 0 0 0 256 0).wellFormed = false ∧
      (Instr.readRecords .own 0 0 0 0 1 256).wellFormed = false := by decide
theorem test_wellFormed_settings :
    (Instr.setChannel .own 256 0).wellFormed = false ∧ (Instr.setChannel .own 0 4294967296).wellFormed = false ∧
      (Instr.setPump .own 256 0 0).wellFormed = false ∧ (Instr.setPump .own 0 65536 0).wellFormed = false ∧
      (Instr.setPump .own 0 0 65536).wellFormed = false ∧ (Instr.setFlowBalance .own 65536 0 0 0 0).wellFormed = false ∧
      (Instr.setFlowBalance .own 0 256 0 0 0).wellFormed = false ∧
      (Instr.setFlowBalance .own 0 0 65536 0 0).wellFormed = false ∧
      (Instr.setFlowBalance .own 0 0 0 65536 0).wellFormed = false ∧
      (Instr.setFlowBalance .own 0 0 0 0 65536).wellFormed = false ∧
      (Instr.setCirculationLimits .own 65536 0 0 0 0).wellFormed = false ∧
      (Instr.setCirculationLimits .own 0 65536 0 0 0).wellFormed = false ∧
      (Instr.setCirculationLimits .own 0 0 65536 0 0).wellFormed = false ∧
      (Instr.setCirculationLimits .own 0 0 0 65536 0).wellFormed = false ∧
      (Instr.setCirculationLimits .own 0 0 0 0 65536).wellFormed = false := by decide
theorem test_wellFormed_hole :
    (Instr.setSection .own 256 0 0 0).wellFormed = false ∧ (Instr.setSection .own 0 4294967296 0 0).wellFormed = false ∧
      (Instr.setSection .own 0 0 4294967296 0).wellFormed = false ∧
      (Instr.setSection .own 0 0 0 4294967296).wellFormed = false ∧
      (Instr.setLagGeometry .own 65536 0 0).wellFormed = false ∧
      (Instr.setLagGeometry .own 0 4294967296 0).wellFormed = false ∧
      (Instr.setLagGeometry .own 0 0 256).wellFormed = false := by decide
theorem test_wellFormed_rods :
    (Instr.registerRod .own 65536 0 0 0 0).wellFormed = false ∧
      (Instr.registerRod .own 0 65536 0 0 0).wellFormed = false ∧ (Instr.registerRod .own 0 0 256 0 0).wellFormed = false ∧
      (Instr.registerRod .own 0 0 0 65536 0).wellFormed = false ∧
      (Instr.registerRod .own 0 0 0 0 65536).wellFormed = false ∧ (Instr.placeRod .own 65536 0).wellFormed = false ∧
      (Instr.placeRod .own 0 256).wellFormed = false ∧ (Instr.setRodStatus .own 65536 0).wellFormed = false ∧
      (Instr.setRodStatus .own 0 256).wellFormed = false ∧
      (Instr.setJointLimits .own 4294967296 0 0 0 0).wellFormed = false ∧
      (Instr.setJointLimits .own 0 65536 0 0 0).wellFormed = false ∧
      (Instr.setJointLimits .own 0 0 4294967296 0 0).wellFormed = false ∧
      (Instr.setJointLimits .own 0 0 0 65536 0).wellFormed = false ∧
      (Instr.setJointLimits .own 0 0 0 0 65536).wellFormed = false := by decide
theorem test_wellFormed_strata :
    (Instr.waterStrike .own 65536 none none).wellFormed = false ∧
      (Instr.waterStrike .own 0 (some 4294967296) none).wellFormed = false ∧
      (Instr.waterStrike .own 0 none (some 4294967296)).wellFormed = false ∧
      (Instr.amendNote .own 65536 0).wellFormed = false ∧ (Instr.amendNote .own 0 256).wellFormed = false := by decide
theorem test_wellFormed_rates :
    (Instr.stageBands .own 2 [0, 9680]).wellFormed = true ∧ (Instr.stageBands .own 1 [0, 9680]).wellFormed = false ∧
      (Instr.stageBands .own 60 (List.replicate 60 0)).wellFormed = false ∧
      (Instr.stageBands .own 1 [4294967296]).wellFormed = false ∧
      (Instr.stageFootageRow .own 256 (List.replicate 6 0)).wellFormed = false ∧
      (Instr.stageFootageRow .own 0 []).wellFormed = false ∧
      (Instr.stageFootageRow .own 0 (List.replicate 6 4294967296)).wellFormed = false ∧
      (Instr.stageTimeRates .own []).wellFormed = false ∧
      (Instr.stageTimeRates .own (List.replicate 7 4294967296)).wellFormed = false ∧
      (Instr.stageMaterial .own 256 0 0).wellFormed = false ∧ (Instr.stageMaterial .own 0 256 0).wellFormed = false ∧
      (Instr.stageMaterial .own 0 0 4294967296).wellFormed = false ∧
      (Instr.drawMaterial .own 256 0).wellFormed = false ∧
      (Instr.drawMaterial .own 0 4294967296).wellFormed = false := by decide
theorem test_wellFormed_job :
    (Instr.openJob .own 4294967296 0 (List.replicate 12 0)).wellFormed = false ∧
      (Instr.openJob .own 0 65536 (List.replicate 12 0)).wellFormed = false ∧
      (Instr.openJob .own 0 0 []).wellFormed = false ∧ (Instr.rxLengthAbove240 240).wellFormed = false ∧
      (Instr.rxLengthAbove240 241).wellFormed = true := by decide

/-! ## The spec's worked examples -/

/-- Spec 11, A status request on the line: the CRC register after each octet. -/
theorem test_crc_of_the_status_request :
    crc [0x07#8] = 0x9117#16 ∧ crc [0x07#8, 0x01#8] = 0x94B9#16 ∧ crc [0x07#8, 0x01#8, 0x01#8] = 0x6A1C#16 ∧
      crc [0x07#8, 0x01#8, 0x01#8, 0x00#8] = 0xD1EC#16 := by decide +kernel
/-- Spec 11: the octets of that request. -/
theorem test_octets_of_the_status_request :
    requestLine { who := .own, kind := 0x01, payload := oct1 0 } base =
      [0xC3#8, 0x07#8, 0x01#8, 0x01#8, 0x00#8, 0xD1#8, 0xEC#8] := by decide +kernel
/-- Spec 01, R4's table of scaled currents. -/
theorem test_scaled_currents :
    scaledValue 25000 12000 = 12500 ∧ scaledValue 25000 3700 = 0 ∧ scaledValue 25000 20500 = 25000 ∧
      scaledValue 1500 9333 = 499 ∧ scaledValue 30000 4000 = 0 ∧ inBand 3500 = false ∧
      scaledValue 25000 12160 = 12750 := by decide
/-- Spec 01, The clock across midnight: the day numbers. -/
theorem test_day_numbers :
    dayNumber 820367998 = 9494 ∧ dayNumber 820368000 = 9495 ∧ dayNumber 820540800 = 9497 := by decide
/-- Spec 02, Five strokes of pump A: the stroke volume product. -/
theorem test_stroke_volume_product :
    ({ displacement := 7850, efficiency := 920 } : PumpConfig).product = 7222000 := by decide
/-- Spec 02, A window evaluation, step by step: sums, loss rate and tests at bin 14. -/
theorem test_window_evaluation :
    lossRate 434 390 = 44 ∧ totalCondition Circulation.cold.balance 434 390 = false ∧
      partialCondition Circulation.cold.balance 434 390 = true ∧
      partialCondition Circulation.cold.balance 433 395 = false := by decide
/-- Spec 03, Lag volume in one case. -/
theorem test_lag_volume :
    let lag : Lag :=
      { Lag.cold with
        surface := 180,
        sections := { top := 0, bottom := 3000, capacity := 42866 } ::
          { top := 3000, bottom := 12000, capacity := 20150 } :: List.replicate 6 { top := 1, bottom := 0, capacity := 0 } }
    lagVolume 9650 lag = 2806 ∧ lagVolume 9680 lag = 2812 ∧ lagVolume 9700 lag = 2816 := by decide
/-- Spec 04, R77's table of terms. -/
theorem test_bit_depth :
    depthSum 780 { base with rods.bhaLength := 850, rods.headOffset := 180, rods.stringLength := 9760 } = 9650 := by decide
/-- Spec 06, R112's table of rates. -/
theorem test_penetration_rates :
    penetrationRate 200 2420 = some 297 ∧ penetrationRate 30 380 = some 284 ∧ penetrationRate 90 1100 = some 294 ∧
      penetrationRate 40 2 = some 65535 ∧ penetrationRate 150 0 = none := by decide
/-- Spec 07, Footage priced, mark by mark: M3 and M4 on line 4. -/
theorem test_footage_arithmetic :
    let l := ChargeLine.priced 1051850 50 (ChargeLine.priced 420740 20 (.fresh .footage none))
    l.amount = 14725 ∧ l.residue = 90 ∧ l.quantity = 70 := by decide
/-- Spec 08, R154's example: two units at 42,075 cents per hour. -/
theorem test_billing_units :
    let l := ChargeLine.priced 42075 1 (ChargeLine.priced 42075 1 (.fresh .time none))
    l.amount = 841 ∧ l.residue = 50 ∧ l.quantity = 2 := by decide
/-- Spec 09, The table filling: after slot 13 the search runs 14, 15, 0, 1. -/
theorem test_search_order : (searchOrder 13).take 4 = [14, 15, 0, 1] := by decide
/-- The group RESTART is a warm start; an idle part steps to itself. -/
theorem test_restart_group :
    ∃ t, step { base with pending := [.restart .group] } = .next t ∧ t.flu.lastStart = .warm := ⟨_, rfl, by decide⟩
/-- A status request begins its reply: kind 0x81 from address 7. -/
theorem test_status_reply :
    ∃ t, step { base with pending := [.readStatus .own 0] } = .next t ∧
      t.link.sending.map (fun f => (f.address, f.kind, f.payload.take 5)) =
        some (7, 0x81, [0x00#8, 0x00#8, 0x00#8, 0x80#8, 0x00#8]) := ⟨_, rfl, by decide⟩

/-! ## Witnesses: every statement's hypotheses are met, clause by clause, at the ends of their ranges -/

/-- A READ STATUS to the part, as received. -/
abbrev statusIn : Received := { who := .own, kind := 0x01, form := .request (.readStatus .own 0) }
/-- A RESTART to the part, as received. -/
abbrev restartIn : Received := { who := .own, kind := 0x03, form := .request (.restart .own) }
/-- A reply to READ STATUS. -/
abbrev statusOut : Frame := { address := 7, kind := 0x81, payload := [] }
/-- A notice. -/
abbrev noticeOut : Frame := { address := 7, kind := 0x7F, payload := [] }
/-- With the link controller in some state. -/
abbrev withLink (l : Link) : State := { base with link := l }
/-- The quiet link. -/
abbrev quiet : Link := .atStart
/-- A part without an address. -/
abbrev unaddressed : State := { base with flu.straps := 31 }
/-- Lines at a start. -/
abbrev lines : StartLines := { straps := 30, highA := true, highB := false, highR := false }
/-- A running part that is sending the reply to RESTART. -/
abbrev restarting : State :=
  { base with link.holding := [restartIn], link.sending := some { address := 7, kind := 0x83, payload := [] } }
/-- With circulation and the pressure channel in some state. -/
abbrev atPressure (c : CircState) (fault : Bool) (value : Nat) (s : State) : State :=
  { s with circ.state := c, flu.pressure.fault := fault, flu.pressure.value := value }
/-- Rods in the string. -/
abbrev withString (ids : List Nat) (s : State) : State := { s with rods.string := ids }
/-- A staging state with a valid staging set. -/
abbrev staged (st : StageState) (s : State) : State :=
  { s with price.stage := st, price.staging := .ofSet (flatSet 1 100 [0]) }
/-- A torque episode in progress in a joint state. -/
abbrev inEpisode (e : Episode) (s : State) : State := { s with joint.episode := some e }
/-- The last interval of the open job, with a chosen top and origin. -/
abbrev openInterval (top : Nat) (o : Origin) : Interval :=
  { top := top, bottom := none, cls := 15, origin := o, opened := 0, seconds := 0, loss := 0, marks := 0, rate := none,
    waterBearing := false, forced := false, note := 0 }
/-- The open job with F at 50 cm and some intervals. -/
abbrev atFrontier (vs : List Interval) : State := { openBase with lag.frontier := 50, strata.intervals := vs }
/-- A water strike. -/
abbrev strike : Strike := { depth := 0, yield := 0, level := none, time := 0, auto := false }
/-- The bin phase that has just reached five seconds. -/
abbrev atBin (c : CircState) (n : Nat) : State :=
  { base with circ.state := c, flu.binPhase := 4, circ.window := List.replicate n { pumped := 60, returned := 1 } }
/-- A defined material item. -/
abbrev bagSet : RateSet := { flatSet 1 100 [0] with materials := some { unit := .bag, price := 5 } :: List.replicate 31 none }
/-- All sixteen slots pending, of sixteen kinds. -/
abbrev fullTable : State :=
  { base with
    inc.slots :=
      [IncidentKind.channelFault, .counterSaturated, .strokeWithoutEnable, .primeNoReturns, .lossPartial, .lossTotal,
        .bleedUnconfirmed, .resetUnderPressure, .flowGain, .flowWhileStill, .powerRestoredPumping, .lagClamped,
        .lagQueueOverrun, .overpull, .unknownRod, .rodMismatch].map (fun k => some (pendingIncident k)),
    inc.order := List.range 16 }
/-- A WRITE in flight on a slot, in CLOSING. -/
abbrev writing : State :=
  { base with
    jobs.state := .closing, jobs.context := some (newContext 1 1 [] 0 0), jobs.buffer := some ticket,
    jobs.op := some (.write 0), jobs.slots := .writing :: List.replicate 15 .erased }
/-- A line with nothing in it, and one that stands at its limit. -/
abbrev lineAt (amount : Nat) (saturated : Bool) : State :=
  { base with
    price.lines := [{ kind := .footage, key := none, amount := amount, residue := 99, quantity := 0,
                      saturated := saturated }] }

theorem test_witness_step :
    base.pending = [] := by
  decide +kernel
theorem test_witness_holdingPlace :
    (receivedRequest (.readStatus .own 0) = some statusIn) ∧
    (base.power = .running) ∧
    (answers statusIn.who base = true) ∧
    (base.link.holding = []) ∧
    ((withLink { quiet with holding := [statusIn] }).link.holding = [statusIn]) ∧
    ((withLink { quiet with holding := [statusIn, statusIn] }).link.holding = statusIn :: statusIn :: []) ∧
    (unaddressed.power = .running) ∧
    (answers statusIn.who unaddressed = false) := by
  refine ⟨?_, ?_, ?_, ?_, ?_, ?_, ?_, ?_⟩ <;> decide +kernel
theorem test_witness_reply :
    (receivedRequest (.readStatus .own 0) = some statusIn) ∧
    (statusIn.who = .own) ∧
    (receivedRequest (.readStatus .group 0) = some { who := .group, kind := 0x01, form := .request (.readStatus .group 0) }) ∧
    ((Instr.readStatus .group 0) ≠ .restart .group) := by
  refine ⟨?_, ?_, ?_, ?_⟩ <;> decide +kernel
theorem test_witness_freeLine :
    ((withLink { quiet with sending := some statusOut }).link.sending = some statusOut) ∧
    (base.link.sending = none) ∧
    ((withLink { quiet with reply := some statusOut }).link.reply = some statusOut) ∧
    ((withLink { quiet with reply := some statusOut }).link.sending = none) ∧
    (base.link.reply = none ∧ base.link.notices = []) ∧
    ((withLink { quiet with notices := [.joint] }).link.sending = none ∧ (withLink { quiet with notices := [.joint] }).link.reply = none ∧
      (withLink { quiet with notices := [.joint] }).link.notices = .joint :: []) := by
  refine ⟨?_, ?_, ?_, ?_, ?_, ?_⟩ <;> decide +kernel
theorem test_witness_transmitComplete :
    ((withLink { quiet with sending := some noticeOut }).power = .running) ∧
    ((withLink { quiet with sending := some noticeOut }).link.sending = some noticeOut ∧ noticeOut.kind = 0x7F) ∧
    (let s := withLink { quiet with sending := some statusOut, holding := [statusIn] };
      s.power = .running ∧ s.link.sending = some statusOut ∧ 0x80 ≤ statusOut.kind ∧ s.link.holding = [statusIn] ∧
        statusIn.form.isRestart = false) ∧
    (let s := withLink { quiet with sending := some statusOut, holding := [statusIn, restartIn] };
      s.link.sending = some statusOut ∧ s.link.holding = [statusIn, restartIn] ∧ statusIn.form.isRestart = false) ∧
    (restarting.power = .running ∧ restarting.link.holding = restartIn :: [] ∧ restartIn.form.isRestart = true ∧
      restarting.link.sending = some { address := 7, kind := 0x83, payload := [] }) := by
  refine ⟨?_, ?_, ?_, ?_, ?_⟩ <;> decide +kernel
theorem test_witness_goodFrame :
    ((Instr.readStatus .own 255).wellFormed = true) ∧
    (requestWire (.readStatus .own 255) = some ⟨.own, 0x01, oct1 255⟩) ∧
    (base.power = .running ∧ base.link.rx = [] ∧ answers .own base = true ∧ base.link.holding = []) ∧
    ((withLink { quiet with holding := [statusIn] }).link.rx = [] ∧ (withLink { quiet with holding := [statusIn] }).link.holding ≠ []) := by
  refine ⟨?_, ?_, ?_, ?_⟩ <;> decide +kernel
theorem test_witness_readBack :
    ((Instr.setClock .group 4294967295).wellFormed = true) ∧
    (requestWire (.setClock .group 4294967295) = some ⟨.group, 0x09, oct4 4294967295⟩) := by
  refine ⟨?_, ?_⟩ <;> decide +kernel
theorem test_witness_wrongForm :
    (ready .own base) ∧
    (0x7F < 0x80) ∧
    (requestKinds.contains 0x7F = false) ∧
    (judgeForm .own 0x01 [] = .badLength) ∧
    ((Instr.readStatus .own 0).wellFormed = true) ∧
    (requestWire (.readStatus .own 0) = some ⟨.own, 0x01, oct1 0⟩) ∧
    ((0x01 : Nat) ≠ 0x40) ∧
    (([] : List Byte).length ≠ (oct1 0).length) := by
  refine ⟨?_, ?_, ?_, ?_, ?_, ?_, ?_, ?_⟩ <;> decide +kernel
theorem test_witness_brokenFrame :
    (base.power = .running) ∧
    ((withLink { quiet with rx := [0xC3#8, 7#8, 1#8] }).link.rx = [0xC3#8, 7#8, 1#8]) ∧
    (240 < (241#8 : Byte).toNat) ∧
    (base.link.rx = []) ∧
    ((0xC4#8 : Byte) ≠ 0xC3#8) ∧
    ((0#8 : Byte).toNat ≤ 240 ∧ ([0#8, 0#8] : List Byte).length = (0#8 : Byte).toNat + 2) ∧
    (number (([0#8, 0#8] : List Byte).drop 0) ≠ (crc ([7#8, 1#8, 0#8] ++ ([0#8, 0#8] : List Byte).take 0)).toNat) := by
  refine ⟨?_, ?_, ?_, ?_, ?_, ?_, ?_⟩ <;> decide +kernel
theorem test_witness_starts :
    ((powered false false base).power ≠ .running ∧ (powered true true base).power ≠ .running) ∧
    (isPower .secondTick = false) ∧
    (base.power.resetLine = false ∧ (powered false true base).power.resetLine = true) ∧
    ((powered true true base).power.supply = true ∧ (powered false true base).power.supply = false) ∧
    (ready .own base) ∧
    (ready .group unaddressed) ∧
    (restarting.power = .running ∧ sendingRestart restarting = true) := by
  refine ⟨?_, ?_, ?_, ?_, ?_, ?_, ?_⟩ <;> decide +kernel
theorem test_witness_coldStart :
    isCut base [] ∧ isCut writing [0] ∧
      isCut (withSlot (.filed ticket) { base with jobs.op := some (.erase 0) }) [0] ∧
      isCut (withSlot (.filed ticket) { base with jobs.op := some (.erase 0) }) [] := by
  have none_writing : ∀ n : Nat, (List.replicate 15 StoreSlot.erased)[n]? ≠ some StoreSlot.writing := by
    intro n h
    have := List.mem_of_getElem? h
    simp at this
  refine ⟨⟨by simp, ?_, by simp⟩, ⟨by simp, ?_, by simp⟩, ⟨by simp, ?_, by simp⟩, ⟨by simp, ?_, by simp⟩⟩
  · intro n h; simp [State.reset, State.cold, Jobs.cold, List.getElem?_replicate] at h
  all_goals
    intro n h
    cases n with
    | zero => simp_all
    | succ n => exact absurd h (none_writing n)
theorem test_witness_coldStart_slot :
    writing.jobs.slots[0]? = some .writing ∧ writing.jobs.slots[15]? = some .erased := by
  decide +kernel
/-- A part whose supply returns while reset is still asserted makes its start and then counts no second, until the release
makes a warm start. -/
theorem test_reset_outlasts_the_supply :
    ∃ a b c d e : State,
      exec .resetAsserted base = .next a ∧ exec .powerFails a = .next b ∧
        exec (.powerApplied true 5 lines) b = .next c ∧ exec .secondTick c = .next d ∧
        exec (.resetReleased 2 lines) d = .next e ∧ c.flu.clock = 5 ∧ d = c ∧ e.flu.clock = 7 ∧
        e.power = .running := ⟨_, _, _, _, _, rfl, rfl, rfl, rfl, rfl, by decide +kernel⟩
theorem test_witness_warmStart_byPower :
    warmStarts (.powerApplied true 5 lines) lines 5 (powered false true base) := by
  exact .inl rfl
theorem test_witness_warmStart_byReset :
    warmStarts (.resetReleased 0 lines) lines 0 (powered true true base) := by
  exact .inr (.inl ⟨rfl, rfl⟩)
theorem test_witness_warmStart_byRestart :
    warmStarts (.restartWarmStart lines) lines 0 restarting := by
  exact .inr (.inr ⟨rfl, rfl, rfl, by decide⟩)
theorem test_witness_warmStart_joint :
    (let s := withIncident .overtorque { inJoint .held with joint.heldRef := some 0 };
      s.joint.state = .held ∧ heldPending s = true ∧ jointLawful s) ∧
    (base.joint.state ≠ .held ∧ jointLawful base) ∧
    ((inJoint .held).joint.heldRef = none ∧ jointLawful (inJoint .held)) ∧
    (withLoaded.joint.arm = some { rod := 9, source := .yard } ∧ findRod 9 withLoaded = some (rodAt 9 .arm) ∧
      withLoaded.joint.state = .loaded ∧ jointLawful withLoaded) ∧
    (withPopped.joint.arm = some { rod := 9, source := .string } ∧ findRod 9 withPopped = some (rodAt 9 .arm) ∧
      withPopped.joint.state = .unloaded ∧ jointLawful withPopped) := by
  refine ⟨?_, ?_, ?_, ?_, ?_⟩ <;> decide +kernel
theorem test_witness_warmStart_circulation :
    base.circ.state = .still ∧ (inCirc .totalLoss).circ.state ≠ .still := by
  decide +kernel
theorem test_witness_warmStart_arm :
    base.joint.arm = none ∧ (rodAt 9 .arm).location = .arm ∧
      ({ withLoaded with joint.arm := some { rod := 9, source := .slot 95 } } : State).joint.state = .loaded := by
  decide +kernel
theorem test_witness_warmStart_store :
    (writing.jobs.state = .closing) ∧
    (base.jobs.state ≠ .closing) ∧
    (({ base with jobs.op := some (.erase 15) } : State).jobs.op ≠ none) ∧
    (writing.jobs.slots[0]? = some .writing) ∧
    (writing.jobs.slots[15]? = some .erased) := by
  refine ⟨?_, ?_, ?_, ?_, ?_⟩ <;> decide +kernel
theorem test_witness_warmStart_kept :
    openBase.price.stage ≠ .armed .nextDay ∧ openBase.circ.state ≠ .totalLoss ∧ (inCirc .totalLoss).jobs.state ≠ .opened ∧
      openBase.circ.state = .still ∧ openBase.joint.state ≠ .unloaded ∧
      ({ openBase with inc.overflow := true } : State).inc.overflow = true := by
  decide +kernel
theorem test_witness_warmStart_uncut :
    ∀ n k, openBase.jobs.slots[n]? = some k → k ≠ .writing ∧ openBase.jobs.op ≠ some (.erase n) := by
  intro n k h
  simp only [base, State.reset, State.cold, Jobs.cold, List.getElem?_replicate, Option.ite_none_right_eq_some,
    Option.some.injEq] at h
  obtain ⟨_, rfl⟩ := h
  exact ⟨by decide, by simp [State.reset, State.cold, Jobs.cold]⟩
theorem test_witness_setChannel :
    (ready .own base) ∧
    ((3 : Nat) < 4) := by
  refine ⟨?_, ?_⟩ <;> decide +kernel
theorem test_witness_clock :
    (ready .own base) ∧
    (base.flu.clockUnset = true) ∧
    (let s : State := { base with flu.clockUnset := false };
      ready .own s ∧ s.flu.clockUnset = false ∧ s.flu.dayMark < 86400 / 86400 ∧ 86399 / 86400 ≤ s.flu.dayMark) ∧
    ((4294967295 : Nat) < 4294967296) := by
  refine ⟨?_, ?_, ?_, ?_⟩ <;> decide +kernel
theorem test_witness_sample :
    (base.power = .running) ∧
    ((3600 : Nat) ≤ 3600 ∧ (21000 : Nat) ≤ 21000) ∧
    ((channelState .load { base with flu.load.fault := false }).fault = false) ∧
    ((channelState .load { base with flu.load.good := 4 }).fault = true ∧ 5 ≤ min ((channelState .load { base with flu.load.good := 4 }).good + 1) 5) ∧
    ((channelState .load { base with flu.load.good := 3 }).fault = true ∧ min ((channelState .load { base with flu.load.good := 3 }).good + 1) 5 < 5) ∧
    (3599 < 3600 ∧ 21000 < 21001) := by
  refine ⟨?_, ?_, ?_, ?_, ?_, ?_⟩ <;> decide +kernel
theorem test_witness_sample_consumers :
    ((atPressure .stopping false 300 base).circ.state = .stopping ∧ (inJoint .breakPermit).joint.state = .breakPermit ∧
      (none : Option Nat).any (fun v => decide (v ≤ 300)) = false ∧ (some 300).any (fun v => decide (v ≤ 300)) = true) ∧
    (let s : State := { base with rods.overpullLimit := 1 };
      (s.joint.state = .ready ∧ s.rods.overpullLimit ≠ 0) ∧ s.rods.overpullLimit < 2 ∧ s.rods.overpull = false ∧
        ({ s with rods.overpull := true } : State).rods.overpull = true ∧ 1 ≤ s.rods.overpullLimit) ∧
    (¬ (base.joint.state = .ready ∧ base.rods.overpullLimit ≠ 0)) ∧
    (base.joint.state = .ready ∧ (inJoint .held).joint.state ≠ .ready ∧ 0 ≤ base.rods.holeDepth ∧
      base.rods.holeDepth < 1 ∧ base.jobs.state ≠ .opened ∧ openBase.jobs.state = .opened) ∧
    (base.joint.episode = none ∧ base.joint.limits.target / 10 < 1201 ∧ 1200 = base.joint.limits.target / 10 ∧
      1199 < base.joint.limits.target / 10 ∧
      (inEpisode { peak := 1201, permitLow := false } base).joint.episode = some { peak := 1201, permitLow := false }) := by
  refine ⟨?_, ?_, ?_, ?_, ?_⟩ <;> decide +kernel
theorem test_witness_pulse :
    (let s : State := { base with flu.pulseA := { high := false, inPulse := false, width := 0, lowTime := 2000, counted := false, waitLow := false }, flu.pulseR := { high := false, inPulse := false, width := 0, lowTime := 2000, counted := false, waitLow := false } };
      s.power = .running ∧ pulseLine .a s = { high := false, inPulse := false, width := 0, lowTime := 2000, counted := false, waitLow := false } ∧ pulseLine .r s = { high := false, inPulse := false, width := 0, lowTime := 2000, counted := false, waitLow := false } ∧ PulseInput.a ≠ .r ∧ s.circ.state.lagCarrying = false ∧
        s.circ.vp + (s.circ.pumpedResidue + s.circ.pumpA.displacement * s.circ.pumpA.efficiency) / 1000000 ≤ 4000000000 ∧
        s.circ.vr + (s.circ.returnResidue + s.circ.meterWeight * 1000) / 1000000 ≤ 4000000000) ∧
    ((2000 : Nat) ≤ 2000 ∧ 1999 < 2000) := by
  refine ⟨?_, ?_⟩ <;> decide +kernel
/-- The litres at the ends of their ranges: the last that fits a counter, the bin's last, the one that completes the prime
volume and the one that reaches the flow check. -/
theorem test_witness_litres :
    (let s : State := { inCirc .circulating with circ.vp := 3999999999, circ.vl := 4000000000, circ.openBin.pumped := 65535 };
      s.circ.state.pumping = true ∧ s.circ.state.lagCarrying = true ∧ s.circ.vp < 4000000000 ∧
        (pumpedLitre s).circ.vp = 4000000000 ∧ (pumpedLitre s).circ.vl = 4000000000 ∧
        (pumpedLitre s).circ.openBin.pumped = 65535 ∧ slotPending (pumpedLitre s) 0 = true) ∧
    ((inCirc .totalLoss).circ.state.lagCarrying = false ∧ (pumpedLitre (inCirc .totalLoss)).circ.vl = 0) ∧
    (let s : State := { inCirc .priming with circ.primeCount := 49 };
      s.circ.limits.primeVolume ≤ s.circ.primeCount + 1 ∧ (returnedLitre s).circ.state = .circulating ∧
        0 + 1 < s.circ.limits.primeVolume) ∧
    (let s : State := { inCirc .stopped with circ.staticCount := 19 };
      s.circ.limits.flowCheck ≤ 20 ∧ 19 < s.circ.limits.flowCheck ∧ s.circ.staticFlag = false ∧
        (returnedLitre s).circ.staticFlag = true ∧ (returnedLitre s).circ.staticCount = 20) ∧
    (base.flu.pumpAEnable = false ∧ slotPending (acceptPulse .a base) 0 = true) := by
  refine ⟨?_, ?_, ?_, ?_, ?_⟩ <;> decide +kernel
theorem test_witness_reader :
    (base.power = .running ∧ base.flu.reader = []) ∧
    (let c : Byte → ReaderChar := fun b => { octet := b, framingError := false };
      (c 2#8).octet = 0x02#8 ∧ (c 1#8).octet = (c 0#8).octet ^^^ (c 1#8).octet ∧ (c 3#8).octet = 0x03#8 ∧ (c 0#8).octet.toNat * 256 + (c 1#8).octet.toNat ≠ 0) := by
  refine ⟨?_, ?_⟩ <;> decide +kernel
theorem test_witness_secondTick :
    base.power = .running := by
  decide +kernel
theorem test_witness_circulationSettings :
    (ready .own base) ∧
    (1 ≤ 1 ∧ (500 ≤ 30000 ∧ 30000 ≤ 30000) ∧ 500 ≤ 1000 ∧ 1000 ≤ 1000) ∧
    (base.flu.pumpAEnable = false ∧ base.flu.pumpBEnable = false) ∧
    (ready .own { base with flu.pumpAEnable := true, flu.pumpBEnable := true }) := by
  refine ⟨?_, ?_, ?_, ?_⟩ <;> decide +kernel
theorem test_witness_startAndPumpTest :
    (let s : State := { base with circ.pumpA.displacement := 500, circ.pumpB.displacement := 30000 };
      ready .own s ∧ s.circ.pumpA.displacement ≠ 0 ∧ s.circ.pumpB.displacement ≠ 0 ∧ s.circ.state = .still ∧ s.circ.state ≠ .pumpTest ∧ s.joint.state = .ready) ∧
    (ready .own base ∧ base.circ.pumpA.displacement = 0 ∧ (1 : Nat).testBit 0 = true) ∧
    (ready .own { inJoint .held with circ.pumpA.displacement := 500 }) ∧
    (ready .own { inCirc .pumpTest with circ.pumpA.displacement := 500 }) := by
  refine ⟨?_, ?_, ?_, ?_⟩ <;> decide +kernel
theorem test_witness_stopAndConfirm :
    (∀ c ∈ [CircState.priming, .circulating, .partialLoss, .totalLoss, .pumpTest], ready .own (inCirc c) ∧ (inCirc c).circ.state.pumping = true) ∧
    (∀ c ∈ [CircState.still, .stopping, .stopped], ready .own (inCirc c)) := by
  refine ⟨?_, ?_⟩ <;> decide +kernel
theorem test_witness_resetCirculation :
    (ready .own base) ∧
    (ready .own (inCirc .circulating)) := by
  refine ⟨?_, ?_⟩ <;> decide +kernel
theorem test_witness_circulationChange :
    (base.circ.state = .still) ∧
    (¬ base.circ.state = .totalLoss) ∧
    ((inCirc .totalLoss).circ.state = .totalLoss) := by
  refine ⟨?_, ?_, ?_⟩ <;> decide +kernel
/-- Entering TOTAL_LOSS with a centimetre of span lays it sighted and reopens blind; without length it takes the flag alone. -/
theorem test_witness_totalLoss :
    (let s : State := { marked with circ.state := .totalLoss, lag.spanTop := 49, lag.spanSeconds := 7 };
      s.jobs.state = .opened ∧ s.lag.spanTop < s.rods.holeDepth ∧ s.lag.queue.length < 256 ∧
        (totalLossChange s).lag.queue.map (·.blind) = [false, false] ∧ (totalLossChange s).lag.spanBlind = true) ∧
    (let s : State := { marked with circ.state := .totalLoss, lag.spanSeconds := 7 };
      s.rods.holeDepth ≤ s.lag.spanTop ∧ (totalLossChange s).lag.queue.length = 1 ∧
        (totalLossChange s).lag.spanSeconds = 7 ∧ (totalLossChange s).lag.spanBlind = true) ∧
    (let s : State := { marked with lag.spanTop := 49, lag.queue := List.replicate 256 (mark 0 1 10) };
      s.jobs.state = .opened ∧ s.lag.spanTop < s.rods.holeDepth ∧ 256 ≤ s.lag.queue.length) ∧
    (base.jobs.state ≠ .opened) ∧
    (¬ ((inCirc .circulating).circ.state = .totalLoss ↔ CircState.totalLoss = .totalLoss) ∧
      (base.circ.state = .totalLoss ↔ CircState.still = .totalLoss)) := by
  refine ⟨?_, ?_, ?_, ?_, ?_⟩ <;> decide +kernel
theorem test_witness_counted :
    (let s : State := { inCirc .priming with circ.primeCount := 50, circ.primeTimer := 599 };
      s.power = .running ∧ s.circ.state = .priming ∧ s.circ.limits.primeVolume ≤ s.circ.primeCount ∧ s.circ.primeTimer < s.circ.limits.primeTimeout) ∧
    (let s : State := { inCirc .priming with circ.primeCount := 49, circ.primeTimer := 600 };
      s.circ.primeCount < s.circ.limits.primeVolume ∧ s.circ.limits.primeTimeout ≤ s.circ.primeTimer) ∧
    (let s : State := { inCirc .stopping with circ.bleedCount := 10, circ.stopTimer := 119 };
      s.circ.state = .stopping ∧ 10 ≤ s.circ.bleedCount ∧ s.circ.stopTimer < s.circ.limits.stopTimeout) ∧
    (let s : State := { inCirc .stopping with circ.bleedCount := 9, circ.stopTimer := 120 };
      s.circ.bleedCount < 10 ∧ s.circ.limits.stopTimeout ≤ s.circ.stopTimer) ∧
    (let s : State := { inCirc .stopped with circ.staticCount := 20 };
      s.circ.limits.flowCheck ≤ s.circ.staticCount ∧ s.circ.staticFlag = false) ∧
    (({ base with circ.staticFlag := true } : State).circ.staticFlag = true) ∧
    (base.circ.staticCount < base.circ.limits.flowCheck) ∧
    ((inCirc .priming).circ.state ≠ .still ∧ (inCirc .priming).circ.state ≠ .stopped ∧ (inCirc .priming).circ.state ≠ .stopping) ∧
    (({ inJoint .breakPermit with joint.timer := 120 } : State).joint.limits.timeout ≤ 120) ∧
    ((inJoint .breakPermit).joint.timer < 120 ∧ base.joint.state ≠ .breakPermit) := by
  refine ⟨?_, ?_, ?_, ?_, ?_, ?_, ?_, ?_, ?_, ?_⟩ <;> decide +kernel
theorem test_witness_binTick :
    (base.flu.binPhase ≠ 4 ∧ ({ atBin .still 0 with flu.binTickTaken := true } : State).flu.binTickTaken = true) ∧
    (∀ c ∈ [CircState.still, .stopping, .stopped], (atBin c 0).circ.state.binsRun = false ∧ (atBin c 0).power = .running ∧
      (atBin c 0).flu.binPhase = 4 ∧ (atBin c 0).flu.binTickTaken = false) ∧
    ((atBin .priming 12).circ.state = .priming ∧ (atBin .pumpTest 0).circ.state = .pumpTest) ∧
    (∀ c ∈ [CircState.circulating, .partialLoss, .totalLoss], (atBin c 0).circ.state.evaluating = true) ∧
    ((atBin .circulating 10).circ.window.length = 10 ∧ (atBin .circulating 11).circ.window.length = 11 ∧
      (atBin .circulating 12).circ.window.length = 12) := by
  refine ⟨?_, ?_, ?_, ?_, ?_⟩ <;> decide +kernel
/-- Twelve bins of 60 L pumped and 1 L returned: a verdict under which all four runs move, at the ends of the runs' ranges. -/
theorem test_witness_evaluation :
    (atBin .circulating 12).circ.balance.minVolume ≤ sumPumped (atBin .circulating 12).circ.window ∧
      sumPumped (atBin .circulating 0).circ.window < base.circ.balance.minVolume ∧
      runAfter true 1 = 2 ∧ runAfter true 0 = 1 ∧ runAfter true 3 = 3 ∧ runAfter true 2 = 3 ∧ runAfter false 3 = 0 ∧
      totalCondition base.circ.balance 720 12 = true ∧ totalCondition base.circ.balance 720 72 = false := by
  decide +kernel
/-- The second evaluation of a total loss enters TOTAL_LOSS and records it. -/
theorem test_total_loss_at_the_second_run :
    ∃ t, exec .binTick { atBin .circulating 12 with circ.totalRun := 1, circ.openBin := { pumped := 60, returned := 0 } } =
        .next t ∧ t.circ.state = .totalLoss ∧ t.inc.order = [0] ∧ slotPending t 0 = true :=
  ⟨_, rfl, by decide +kernel⟩
theorem test_witness_lagRequests :
    (ready .own base) ∧
    (7 ≤ 7 ∧ (200000 : Nat) ≤ 200000) ∧
    (let s : State := { base with lag.sections := { top := 0, bottom := 100, capacity := 1 } :: List.replicate 7 { top := 1, bottom := 0, capacity := 0 } };
      ready .own s ∧ (50 ≤ 150 ∧ ∃ f ∈ s.lag.sections.eraseIdx 1, f.top ≤ f.bottom ∧ 50 < f.bottom ∧ f.top < 150) ∧
        ¬ (100 ≤ 150 ∧ ∃ f ∈ s.lag.sections.eraseIdx 1, f.top ≤ f.bottom ∧ 100 < f.bottom ∧ f.top < 150)) := by
  refine ⟨?_, ?_, ?_⟩ <;> decide +kernel
theorem test_witness_laying :
    (0 < base.lag.spacing ∧ ([0, 100] : List Nat).Pairwise (· < ·) ∧ ([0, 100] : List Nat).head? = some 0) ∧
    (50 ≤ marked.lag.spanTop ∧ marked.lag.spanTop < 51 ∧ marked.lag.queue.length < 256) ∧
    (let s : State := { marked with lag.queue := List.replicate 256 (mark 0 1 10) };
      s.lag.queue = mark 0 1 10 :: List.replicate 255 (mark 0 1 10) ∧ 256 ≤ s.lag.queue.length) ∧
    (marked.lag.spanTop ≤ 305 ∧ marked.lag.queue.length + (305 - marked.lag.spanTop) ≤ 256) ∧
    ((lagAdvance 305 marked).lag.queue.map (·.bottom) = [50, 100, 150, 200, 250, 300]) := by
  refine ⟨?_, ?_, ?_, ?_, ?_⟩ <;> decide +kernel
/-- An advance onto a boundary lays it, one short of it does not; one that meets a full queue is the other case. -/
theorem test_witness_advance :
    (0 < marked.lag.spacing ∧ (activeFloors marked).Pairwise (· < ·)) ∧
    ((List.range 101).filter (fun d => decide (marked.lag.spanTop < d ∧
      (d % marked.lag.spacing = 0 ∨ d ∈ (activeFloors marked).drop 1))) = [100]) ∧
    ((List.range 100).filter (fun d => decide (marked.lag.spanTop < d ∧
      (d % marked.lag.spacing = 0 ∨ d ∈ (activeFloors marked).drop 1))) = []) ∧
    (let s : State := { marked with lag.queue := List.replicate 256 (mark 0 1 10) };
      256 < s.lag.queue.length + [100].length ∧ marked.lag.queue.length + [100].length ≤ 256) := by
  refine ⟨?_, ?_, ?_, ?_⟩ <;> decide +kernel
theorem test_witness_lagClockAdvance :
    (marked.jobs.state = .opened ∧ frontierLawful marked ∧ generationsLawful marked) ∧
    ((lagClockAdvance marked).lag.queue = mark 0 50 10 :: []) ∧
    ((mark 0 50 10).arrival ≤ 10 ∧ 9 < (mark 0 50 10).arrival) := by
  refine ⟨?_, ?_, ?_⟩ <;> decide +kernel
theorem test_witness_staging :
    (ready .own base ∧ base.price.stage = .editing) ∧
    (ready .own (staged (.armed .nextDay) openBase) ∧ (staged (.armed .nextDay) openBase).price.stage ≠ .editing) ∧
    (1 ≤ 2 ∧ 2 ≤ 6 ∧ [0, 200000].length = 2 ∧ [0, 200000].head? = some 0 ∧ ∀ f ∈ [0, 200000], f ≤ 200000) ∧
    (15 ≤ 15 ∧ (List.replicate 6 9999999).length = 6 ∧ ∀ r ∈ List.replicate 6 9999999, r ≤ 9999999) ∧
    ((List.replicate 7 9999999).length = 7) ∧
    (31 ≤ 31 ∧ MaterialUnit.metre.code = 5 ∧ MaterialUnit.kg.code = 1) := by
  refine ⟨?_, ?_, ?_, ?_, ?_, ?_⟩ <;> decide +kernel
theorem test_witness_staging_floors :
    ∀ k a b, ([0, 200000] : List Nat)[k]? = some a → ([0, 200000] : List Nat)[k + 1]? = some b → a < b := by
  intro k a b h h'
  match k with
  | 0 => simp_all; omega
  | k + 1 => simp at h'
theorem test_witness_commit :
    (ready .own openBase ∧ openBase.price.stage = .editing ∧ openBase.jobs.state = .opened ∧ openBase.price.staging.valid = true) ∧
    (ready .own base ∧ base.jobs.state ≠ .opened) ∧
    (ready .own { openBase with price.staging := .empty }) ∧
    (({ openBase with price.staging := .empty } : State).price.staging.valid = false) ∧
    (ready .own (staged (.due .immediate) openBase) ∧ (staged (.due .immediate) openBase).price.stage ≠ .editing) := by
  refine ⟨?_, ?_, ?_, ?_, ?_⟩ <;> decide +kernel
theorem test_witness_trigger :
    ((staged (.armed .nextConnection) openBase).price.stage = .armed .nextConnection ∧
      (takeTrigger .nextConnection (staged (.armed .nextConnection) openBase)).price.stage = .editing) ∧
    ((staged (.armed .nextConnection) openBase).price.stage ≠ .armed .nextDay ∧ openBase.price.stage ≠ .armed .nextDay) := by
  refine ⟨?_, ?_⟩ <;> decide +kernel
theorem test_witness_swap :
    (let s := staged (.due .immediate) { marked with price.previous := some (flatSet 1 100 [0]), price.active := some (flatSet 2 100 [0]) };
      s.price.stage = .due .immediate ∧ ∃ m ∈ s.lag.queue, s.price.previous.map (·.generation) = some m.generation) ∧
    (let s := staged (.due .nextDay) { marked with price.active := some (flatSet 65535 100 [0]) };
      s.price.stage = .due .nextDay ∧ (∀ m ∈ s.lag.queue, s.price.previous.map (·.generation) ≠ some m.generation) ∧
        s.price.active = some (flatSet 65535 100 [0]) ∧ s.lag.spanTop ≤ s.rods.holeDepth) := by
  refine ⟨?_, ?_⟩ <;> decide +kernel
/-- A swap with a centimetre of span lays it under the old generation. -/
theorem test_witness_swap_span :
    let s := staged (.due .immediate) { marked with lag.spanTop := 49, lag.queue := [] }
    s.price.stage = .due .immediate ∧ s.price.active = some (flatSet 1 100 [0]) ∧ s.lag.spanTop < s.rods.holeDepth ∧
      (swapCheck s).lag.queue.map (·.generation) = [1] ∧ activeGeneration (swapCheck s) = 2 ∧
      (∀ trigger, openBase.price.stage ≠ .due trigger) := by
  refine ⟨?_, ?_, ?_, ?_, ?_, fun t => ?_⟩
  · decide +kernel
  · decide +kernel
  · decide +kernel
  · decide +kernel
  · decide +kernel
  · cases t <;> decide +kernel
theorem test_witness_pricing :
    ((lineAt 0 false).price.lines[0]?.map (·.saturated) = some false ∧ 0 + (99 + 99999999900) / 100 ≤ 999999999) ∧
    (999999999 < 999999999 + (99 + 1) / 100) ∧
    ((lineAt 999999999 true).price.lines[0]?.map (·.saturated) = some true) := by
  refine ⟨?_, ?_, ?_⟩ <;> decide +kernel
theorem test_witness_lines :
    (let k : LineKey := { generation := 1, a := 3, b := 0 };
      let s : State := { base with price.lines := consolidatedLines ++ [.fresh .time (some k)] };
      s.price.lines[3]? = some (.fresh .time (some k)) ∧ (ChargeLine.fresh .time (some k)).key = some k ∧
        lineFor .time k s = 3 ∧ lineFor .footage k s = 4 ∧
        (∀ l ∈ s.price.lines, ¬ (l.kind = .footage ∧ l.key = some k)) ∧
        (s.price.lines.countP fun l => decide (l.kind = .footage ∧ l.key.isSome = true)) < 160) ∧
    (32 ≤ (List.replicate 32 (ChargeLine.fresh .time (some { generation := 2, a := 0, b := 0 }))).countP
      fun l => decide (l.kind = .time ∧ l.key.isSome = true)) ∧
    ((flatSet 1 100 [0]).generation = (mark 0 50 10).generation ∧ openBase.price.active = some (flatSet 1 100 [0])) ∧
    ((flatSet 1 100 [0]).rows[15]? = some (List.replicate 6 100) ∧ (List.replicate 6 100)[5]? = some 100) ∧
    (some (flatSet 2 100 [0]) |>.map (·.generation)) ≠ some (mark 0 50 10).generation := by
  refine ⟨?_, ?_, ?_, ?_, ?_⟩ <;> decide +kernel
theorem test_witness_registry :
    (ready .own base) ∧
    ((1 ≤ 65535 ∧ 65535 ≤ 65535) ∧ (100 ≤ 1000 ∧ 1000 ≤ 1000) ∧ 2 ≤ 2) ∧
    (∃ r ∈ (withRod (rodAt 9 .yard) base).rods.registry, r.id = 9) ∧
    (¬ ∃ r ∈ (withRod (rodAt 9 .yard) base).rods.registry, r.id = 8) ∧
    (448 ≤ ({ base with rods.registry := List.replicate 448 (rodAt 9 .yard) } : State).rods.registry.length) ∧
    (base.rods.registry.length < 448) ∧
    (RodStatus.retired.code = 2) ∧
    (findRod 9 base = none ∧ findRod 9 (withRod (rodAt 9 .yard) base) = some (rodAt 9 .yard)) ∧
    (ready .own (withRod (rodAt 9 .arm) base) ∧ (rodAt 9 .arm).location ≠ .yard) := by
  refine ⟨?_, ?_, ?_, ?_, ?_, ?_, ?_, ?_, ?_⟩ <;> decide +kernel
theorem test_witness_placing :
    (ready .own (withRod (rodAt 9 .yard) base) ∧ findRod 9 (withRod (rodAt 9 .yard) base) = some (rodAt 9 .yard)) ∧
    (96 ≤ 254 ∧ 254 ≠ 255) ∧
    ((rodAt 9 (.string 0)).location = .string 0 ∧ (rodAt 9 .arm).location = .arm) ∧
    (let s := withRod { rodAt 9 .yard with status := .retired } base;
      ready .own s ∧ findRod 9 s = some { rodAt 9 .yard with status := .retired }) ∧
    (let s : State := { withRod (rodAt 9 .yard) base with rods.magazine := some 8 :: List.replicate 95 none };
      ready .own s ∧ (s.rods.magazine[0]?).getD none ≠ some 9 ∧ (s.rods.magazine[0]?).getD none ≠ none ∧ (s.rods.magazine[95]?).getD none = none ∧ reservedSlot s = none) ∧
    (ready .own (withString [9] base) ∧ (withString [9] base).rods.string ≠ []) := by
  refine ⟨?_, ?_, ?_, ?_, ?_, ?_⟩ <;> decide +kernel
theorem test_witness_tagRead :
    (base.joint.state = .ready ∧ findRod 9 base = none) ∧
    (findRod 9 (withRod (rodAt 9 (.string 0)) base) = some (rodAt 9 (.string 0))) ∧
    (findRod 9 (withRod { rodAt 9 .yard with status := .inspect } base) = some { rodAt 9 .yard with status := .inspect }) ∧
    (400 ≤ (withString (List.replicate 400 1) (withRod (rodAt 9 .yard) base)).rods.string.length) ∧
    ((withString (List.replicate 399 1) (withRod (rodAt 9 .yard) base)).rods.string.length < 400) ∧
    (findRod 9 (withRod (rodAt 9 (.magazine 95)) base) = some (rodAt 9 (.magazine 95)) ∧ 95 < base.rods.magazine.length) := by
  refine ⟨?_, ?_, ?_, ?_, ?_, ?_⟩ <;> decide +kernel
theorem test_witness_tagRead_elsewhere :
    withPopped.joint.state = .unloaded ∧ withPopped.joint.arm = some { rod := 9, source := .string } ∧
      withLoaded.joint.state = .loaded ∧ (inJoint .breakPermit).joint.state = .breakPermit ∧
      (inJoint .held).joint.state = .held ∧ readTag 9 withPopped = withPopped ∧
      readTag 8 withPopped = record .rodMismatch 8 9 withPopped := by
  decide +kernel
theorem test_witness_episode :
    (let s := inEpisode ({ peak := 10500, permitLow := false }) withLoaded;
      s.joint.episode = some ({ peak := 10500, permitLow := false }) ∧ s.joint.state = .loaded ∧ s.joint.arm = some { rod := 9, source := .yard } ∧
        s.joint.limits.target - s.joint.limits.tolerance ≤ 10500 ∧ 16000 ≤ s.joint.limits.maximum) ∧
    (withLoaded.joint.limits.maximum < 16001 ∧ 10499 < withLoaded.joint.limits.target - withLoaded.joint.limits.tolerance) ∧
    ((inEpisode ({ peak := 500, permitLow := true }) withLoaded).joint.episode = some ({ peak := 500, permitLow := true })) ∧
    ((inEpisode ({ peak := 500, permitLow := false }) base).joint.state = .ready) ∧
    ((inEpisode ({ peak := 500, permitLow := false }) withPopped).joint.state = .unloaded ∧ (inEpisode ({ peak := 500, permitLow := false }) (inJoint .held)).joint.state = .held) ∧
    (let s := inEpisode ({ peak := 2000, permitLow := false }) (withString [8, 9] (inJoint .breakPermit));
      s.joint.state = .breakPermit ∧ s.joint.limits.detect ≤ 2000 ∧ 1999 < s.joint.limits.detect ∧ s.rods.string = [8] ++ [9]) := by
  refine ⟨?_, ?_, ?_, ?_, ?_, ?_⟩ <;> decide +kernel
theorem test_witness_jointRequests :
    (ready .own base) ∧
    ((500 ≤ 90000 ∧ 90000 ≤ 90000) ∧ (20000 ≤ 20000 ∧ 20000 < 90000) ∧ (90000 ≤ 100000 ∧ 100000 ≤ 100000)) ∧
    (ready .own withPopped ∧ withPopped.joint.state ≠ .ready) ∧
    (base.joint.state = .ready ∧ base.rods.string = []) ∧
    (let s := withString [9] (atPressure .stopped false 300 base);
      ready .own s ∧ s.joint.state = .ready ∧ s.rods.string ≠ [] ∧ (s.circ.state = .still ∨ s.circ.state = .stopped) ∧ s.flu.pressure.fault = false ∧
        s.flu.pressure.value ≤ s.circ.limits.bleedLimit) ∧
    (let s := withString [9] (atPressure .stopped false 301 base);
      ready .own s ∧ ¬ s.flu.pressure.value ≤ s.circ.limits.bleedLimit) ∧
    (ready .own withLoaded ∧ withLoaded.joint.state = .loaded ∧ withLoaded.joint.arm = some { rod := 9, source := .yard } ∧ findRod 9 withLoaded = some (rodAt 9 .arm)) ∧
    (ready .own (inJoint .breakPermit) ∧ (inJoint .breakPermit).joint.state = .breakPermit) ∧
    (let s := withIncident .overtorque { inJoint .held with joint.heldRef := some 0 };
      ready .own s ∧ s.joint.state = .held ∧ s.joint.heldRef = some 0 ∧ slotPending s 0 = true) ∧
    (ready .own (inJoint .held) ∧ (inJoint .held).joint.heldRef = none) := by
  refine ⟨?_, ?_, ?_, ?_, ?_, ?_, ?_, ?_, ?_, ?_⟩ <;> decide +kernel
theorem test_witness_jointChange :
    (base.flu.height.fault = true) ∧
    (let s : State := { withLoaded with flu.height.fault := false, flu.height.value := 0, rods.bhaLength := 1 };
      s.flu.height.fault = false ∧ (enterReady s).rods.bitDepth = 1 ∧ (enterReady s).inc.flags.joint = true) ∧
    (let s := inEpisode { peak := 1, permitLow := false } (inJoint .ready);
      (enterJoint .held s).joint.episode = some { peak := 1, permitLow := true } ∧
        (enterJoint .loaded s).joint.episode = some { peak := 1, permitLow := false }) := by
  refine ⟨?_, ?_, ?_⟩ <;> decide +kernel
theorem test_witness_rackRod :
    (ready .own withPopped ∧ withPopped.joint.state = .unloaded ∧ withPopped.joint.arm = some { rod := 9, source := .string } ∧ findRod 9 withPopped = some (rodAt 9 .arm)) ∧
    (ready .own base ∧ base.joint.state ≠ .unloaded) ∧
    (96 ≤ 254 ∧ 254 ≠ 255) ∧
    (95 < 96 ∧ (withPopped.rods.magazine[95]?).getD none = none ∧ reservedSlot withPopped ≠ some 95 ∧ 95 < withPopped.rods.magazine.length) ∧
    (let s : State := { withPopped with rods.magazine := some 8 :: List.replicate 95 none };
      ready .own s ∧ (s.rods.magazine[0]?).getD none ≠ some 9 ∧ (s.rods.magazine[0]?).getD none ≠ none) ∧
    (let s : State := withRod { rodAt 9 .arm with status := .retired } withPopped;
      ready .own s ∧ findRod 9 s = some { rodAt 9 .arm with status := .retired }) := by
  refine ⟨?_, ?_, ?_, ?_, ?_, ?_⟩ <;> decide +kernel
theorem test_witness_formation :
    (ready .own base ∧ base.jobs.state ≠ .opened) ∧
    (13 ≤ 13 ∧ 13 < 14) ∧
    (let s := atFrontier [openInterval 0 .blind];
      ready .own s ∧ s.jobs.state = .opened ∧ s.strata.intervals = [] ++ [openInterval 0 .blind]) ∧
    (let s := atFrontier [openInterval 50 .unobserved];
      ready .own s ∧ s.lag.frontier ≤ (openInterval 50 .unobserved).top) ∧
    (let s := atFrontier [openInterval 49 .observed];
      ready .own s ∧ (openInterval 49 .observed).top < s.lag.frontier ∧ s.strata.intervals.length < 320) ∧
    (let s := atFrontier (List.replicate 319 (openInterval 0 .observed) ++ [openInterval 49 .observed]);
      s.jobs.state = .opened ∧ s.link.holding = [] ∧ 320 ≤ s.strata.intervals.length) := by
  refine ⟨?_, ?_, ?_, ?_, ?_, ?_⟩ <;> decide +kernel
theorem test_witness_placeMark :
    (let s := atFrontier [openInterval 0 .observed];
      s.strata.intervals = [] ++ [openInterval 0 .observed] ∧ s.strata.drain = false ∧
        (openInterval 0 .observed).top < (mark 1 50 10).top ∧ (mark 0 50 10).top ≤ (openInterval 0 .observed).top ∧
        (mark 0 50 10).blind = decide ((openInterval 0 .observed).origin = .blind)) ∧
    (({ mark 0 50 10 with blind := true } : Mark).blind = true ∧ (openInterval 0 .blind).origin = .blind) ∧
    (({ openBase with strata.drain := true } : State).strata.drain = true) := by
  refine ⟨?_, ?_, ?_⟩ <;> decide +kernel
theorem test_witness_strikes :
    (ready .own openBase ∧ openBase.jobs.state = .opened) ∧
    (openBase.jobs.context = some (newContext 40117 2208 (List.replicate 12 0x41#8) 0 0)) ∧
    ((5000 : Nat) ≤ 5000) ∧
    ((newContext 40117 2208 (List.replicate 12 0x41#8) 0 0).startDepth ≤ 0 ∧ 0 ≤ openBase.rods.holeDepth ∧ ¬ 1 ≤ openBase.rods.holeDepth) ∧
    (openBase.strata.strikes.length < 32 ∧ 32 ≤ ({ openBase with strata.strikes := List.replicate 32 strike } : State).strata.strikes.length) ∧
    (ready .own base ∧ base.jobs.state ≠ .opened) ∧
    (0 < openBase.strata.intervals.length ∧ openBase.strata.intervals.length ≤ 1) := by
  refine ⟨?_, ?_, ?_, ?_, ?_, ?_, ?_⟩ <;> decide +kernel
theorem test_witness_second :
    (base.power = .running ∧ base.circ.state ≠ .priming ∧ base.circ.state ≠ .stopping ∧ base.joint.state ≠ .breakPermit ∧ secondsLawful base ∧ base.jobs.state ≠ .opened) ∧
    (let s : State := { openBase with bill.residues := List.replicate 7 35 };
      s.power = .running ∧ s.circ.state ≠ .priming ∧ s.circ.state ≠ .stopping ∧ s.joint.state ≠ .breakPermit ∧ secondsLawful s ∧ s.jobs.state = .opened) := by
  refine ⟨?_, ?_⟩ <;> decide +kernel
theorem test_witness_second_parts :
    (let s : State := { inCirc .priming with circ.primeTimer := 598 };
      s.circ.primeTimer + 1 < s.circ.limits.primeTimeout ∧ s.circ.limits.primeTimeout ≤ 599 + 1) ∧
    (let s : State := { inCirc .stopping with circ.stopTimer := 119, circ.bleedHolding := true, circ.bleedCount := 9 };
      s.circ.limits.stopTimeout ≤ s.circ.stopTimer + 1 ∧ 118 + 1 < s.circ.limits.stopTimeout ∧
        10 ≤ min (s.circ.bleedCount + 1) 10) ∧
    (let s : State := { inJoint .breakPermit with joint.timer := 119 };
      s.joint.limits.timeout ≤ s.joint.timer + 1 ∧ 118 + 1 < s.joint.limits.timeout) ∧
    (let s : State := { openBase with bill.residues := [34, 35, 0, 0, 0, 0, 0] };
      s.jobs.state = .opened ∧ s.bill.residues[categoryCode .standbyClient]? = some 34 ∧
        s.bill.residues[categoryCode .nonBillable]? = some 35 ∧ s.price.active = some (flatSet 1 100 [0])) ∧
    ((atBin .still 0).flu.binPhase = 4 ∧ base.flu.binPhase ≠ 4) := by
  refine ⟨?_, ?_, ?_, ?_, ?_⟩ <;> decide +kernel
/-- A DRILLING second whose residue reaches 36 prices one unit on a new TIME line, and the span takes the second (R153,
R154). -/
theorem test_drilling_second_priced :
    ∃ t, exec .secondTick { openBase with bill.drillTimer := 2, bill.residues := List.replicate 7 35 } = .next t ∧
      t.price.lines.length = 4 ∧ (t.price.lines[3]?).map (·.amount) = some 1 ∧ t.lag.spanSeconds = 1 ∧
      t.bill.last = some .drilling ∧ t.bill.residues[3]? = some 0 := ⟨_, rfl, by decide +kernel⟩
theorem test_witness_categories :
    (ready .own base ∧ base.jobs.state ≠ .opened) ∧
    ((2 : Nat) < 3) ∧
    (let s : State := { openBase with price.active := some bagSet };
      ready .own s ∧ 31 ≤ 31 ∧ 1 ≤ 99999 ∧ s.jobs.state = .opened ∧ s.price.active = some bagSet ∧ bagSet.materials[0]? = some (some { unit := .bag, price := 5 }) ∧
        activeMaterial 31 s = none) ∧
    (let s : State := { openBase with bill.residues := [35, 36, 0, 0, 0, 0, 0] };
      s.power = .running ∧ s.bill.residues[categoryCode .standbyClient]? = some 35 ∧ s.bill.residues[categoryCode .nonBillable]? = some 36 ∧ s.price.active = some (flatSet 1 100 [0])) := by
  refine ⟨?_, ?_, ?_, ?_⟩ <;> decide +kernel
theorem test_witness_recording :
    (let s := withIncident .overtorque base;
      incidentsLawful s ∧ s.inc.slots[0]? = some (some (pendingIncident .overtorque)) ∧ s.inc.overflow = false ∧ slotPending s 1 = false ∧ slotPending s 0 = true) ∧
    (let s : State := { base with inc.overflow := true };
      incidentsLawful s ∧ s.inc.overflow = true) ∧
    (incidentsLawful base ∧ slotPending base 0 = false) ∧
    (incidentsLawful fullTable ∧ ∀ n < 16, slotPending fullTable n = true) := by
  refine ⟨?_, ?_, ?_, ?_⟩ <;> decide +kernel
theorem test_witness_incidentRequests :
    (ready .own base ∧ slotPending base 15 = false) ∧
    (15 < 16 ∧ 63 < 64) ∧
    (let s := withIncident .overpull base;
      ready .own s ∧ slotPending s 0 = true ∧ ¬ (s.joint.state = .held ∧ s.joint.heldRef = some 0)) ∧
    (let s := withIncident .overtorque { inJoint .held with joint.heldRef := some 0 };
      ready .own s ∧ slotPending s 0 = true ∧ s.joint.state = .held ∧ s.joint.heldRef = some 0) ∧
    (ownAddress base ≠ none) := by
  refine ⟨?_, ?_, ?_, ?_, ?_⟩ <;> decide +kernel
/-- A notice is handed on at the change from clear to set alone: not when set, masked, without an address or already waiting. -/
theorem test_witness_notify :
    (({ base with inc.flags := .all true } : State).inc.flags.get .store = true) ∧
    (base.inc.flags.get .joint = false ∧ base.inc.masks.get .joint = true) ∧
    (let s : State := { base with inc.masks := .all false };
      s.inc.flags.get .joint = false ∧ s.inc.masks.get .joint = false ∧ ownAddress s ≠ none ∧ .joint ∉ s.link.notices ∧
        (notify .joint s).link.notices = [.joint]) ∧
    (let s : State := { base with inc.masks := .all false, link.notices := [.joint] };
      s.inc.flags.get .joint = false ∧ .joint ∈ s.link.notices ∧ (notify .joint s).link.notices = [.joint]) ∧
    (let s : State := { base with inc.masks := .all false, flu.straps := 31 };
      s.inc.flags.get .joint = false ∧ ownAddress s = none ∧ (notify .joint s).inc.flags.joint = true) := by
  refine ⟨?_, ?_, ?_, ?_, ?_⟩ <;> decide +kernel
theorem test_witness_reading :
    (ready .own base) ∧
    (lagVolumeRaw base.rods.holeDepth base.lag ≤ 999999) ∧
    (let s : State := { base with rods.holeDepth := 200000, lag.capacity := 500000 };
      ready .own s ∧ 999999 < lagVolumeRaw s.rods.holeDepth s.lag) ∧
    ((7 : Nat) < 8) ∧
    (collection 11 0 0 base = none ∧ (collection 8 0 0 base).map (·.length) = some 16) := by
  refine ⟨?_, ?_, ?_, ?_, ?_⟩ <;> decide +kernel
theorem test_witness_reading_records :
    (let s : State := withSlot (.filed ticket) base;
      s.jobs.slots[0]? = some (.filed ticket) ∧ s.jobs.op ≠ some (.erase 0) ∧
        (collection 10 0 0 s).map (·.length) = some 1 ∧ (∀ t, s.jobs.slots[15]? ≠ some (.filed t))) ∧
    (let s : State := { withSlot (.filed ticket) base with jobs.op := some (.erase 0) };
      s.jobs.op = some (.erase 0) ∧ collection 10 0 5 s = some []) ∧
    (10 < 11 ∧ 8 ≤ 8 ∧ 2 < 3 ∧ 16 < 17 ∧ 5 < 6) := by
  refine ⟨⟨?_, ?_, ?_, fun t h => ?_⟩, ?_, ?_⟩
  · decide +kernel
  · decide +kernel
  · decide +kernel
  · cases h
  · decide +kernel
  · decide
theorem test_witness_snapshot :
    (let s := withIncident .overpull base; s.inc.slots[s.inc.lastWritten]? = some (some (pendingIncident .overpull))) ∧
    (base.inc.slots[base.inc.lastWritten]? = some none) := by
  refine ⟨?_, ?_⟩ <;> decide +kernel
theorem test_witness_openJob :
    (ready .own base ∧ base.jobs.state = .noJob ∧ base.flu.clockUnset = true) ∧
    ((1 ≤ 999999 ∧ 999999 ≤ 999999) ∧ (1 ≤ 65535 ∧ 65535 ≤ 65535) ∧ (List.replicate 12 (0x7E#8 : Byte)).length = 12 ∧
      ∀ c ∈ List.replicate 12 (0x7E#8 : Byte), 0x20 ≤ c.toNat ∧ c.toNat ≤ 0x7E) ∧
    (ready .own (inJob .unfiled) ∧ ready .own (inJob .closing) ∧ ready .own openBase) ∧
    (let s : State := { base with flu.clockUnset := false };
      ready .own s ∧ s.rods.string = [] ∧ s.price.staging.valid = false ∧ (withString [9] s).rods.string ≠ []) ∧
    (let s : State := staged .editing { base with flu.clockUnset := false };
      ready .own s ∧ s.jobs.state = .noJob ∧ s.rods.string = [] ∧ s.price.staging.valid = true) := by
  refine ⟨?_, ?_, ?_, ?_, ?_⟩ <;> decide +kernel
theorem test_witness_closeJob :
    (ready .own base ∧ base.jobs.state = .noJob) ∧
    (ready .own (inJob .closing) ∧ ready .own (inJob .unfiled)) ∧
    (ready .own { openBase with jobs.op := some (.erase 0) }) ∧
    (ready .own marked ∧ marked.jobs.op = none ∧ (closeSpan (taking (.closeJob .own false) marked)).lag.queue = mark 0 50 10 :: []) ∧
    (frontierLawful marked ∧ storeLawful marked) ∧
    (ready .own openBase ∧ (closeSpan (taking (.closeJob .own false) openBase)).lag.queue = [] ∧ frontierLawful openBase ∧ storeLawful openBase ∧ openBase.jobs.isProtected = false ∧
      openBase.jobs.slots[0]? = some .erased) ∧
    (let s : State := { openBase with jobs.isProtected := true };
      ready .own s ∧ (closeSpan (taking (.closeJob .own false) s)).lag.queue = [] ∧ frontierLawful s ∧ storeLawful s ∧ s.jobs.isProtected = true) ∧
    (let s : State := { openBase with jobs.slots := List.replicate 16 .torn };
      ready .own s ∧ (closeSpan (taking (.closeJob .own false) s)).lag.queue = [] ∧ frontierLawful s ∧ storeLawful s ∧ ∀ k ∈ s.jobs.slots, k ≠ .erased) ∧
    (let s : State := { openBase with jobs.slots := List.replicate 15 .torn ++ [.erased] };
      ready .own s ∧ storeLawful s ∧ s.jobs.slots[15]? = some .erased ∧ ∀ m < 15, s.jobs.slots[m]? ≠ some .erased) := by
  refine ⟨?_, ?_, ?_, ?_, ?_, ?_, ?_, ?_, ?_⟩ <;> decide +kernel
/-- CLOSE JOB's span: a centimetre is laid to the hole depth, none is left alone, a full queue gives up its oldest mark. -/
theorem test_witness_closeSpan :
    (marked.rods.holeDepth ≤ marked.lag.spanTop) ∧
    (let s : State := { marked with lag.spanTop := 49, lag.spanSeconds := 7 };
      s.lag.spanTop < s.rods.holeDepth ∧ s.lag.queue.length < 256 ∧
        (closeSpan s).lag.queue.map (·.seconds) = [0, 7] ∧ (closeSpan s).lag.spanSeconds = 0) ∧
    (let s : State := { marked with lag.spanTop := 49, lag.queue := List.replicate 256 (mark 0 1 10) };
      s.lag.spanTop < s.rods.holeDepth ∧ 256 ≤ s.lag.queue.length) := by
  refine ⟨?_, ?_, ?_⟩ <;> decide +kernel
theorem test_witness_completions :
    (writing.power = .running ∧ writing.jobs.op = some (.write 0) ∧ writing.jobs.buffer = some ticket) ∧
    (({ base with jobs.op := some (.erase 15) } : State).jobs.op = some (.erase 15)) ∧
    (base.jobs.op = none) := by
  refine ⟨?_, ?_, ?_⟩ <;> decide +kernel
theorem test_witness_storeRequests :
    (ready .own base ∧ base.jobs.state ≠ .unfiled) ∧
    (ready .own (inJob .unfiled)) ∧
    (ready .own { inJob .unfiled with jobs.op := some (.erase 0) }) ∧
    (ready .own { inJob .unfiled with jobs.isProtected := true }) ∧
    (ready .own { inJob .unfiled with jobs.slots := List.replicate 16 .torn } ∧ ∀ k ∈ List.replicate 16 StoreSlot.torn, k ≠ .erased) ∧
    ((inJob .unfiled).jobs.slots[0]? = some .erased) ∧
    (let s : State := { inJob .unfiled with jobs.slots := List.replicate 15 .torn ++ [.erased] };
      ready .own s ∧ s.jobs.slots[15]? = some .erased ∧ ∀ m < 15, s.jobs.slots[m]? ≠ some .erased) ∧
    (15 ≤ 15 ∧ 15 < 16) ∧
    (base.jobs.slots[15]? = some .erased) ∧
    (writing.jobs.slots[0]? = some .writing) ∧
    (∀ k ∈ [StoreSlot.defective, .torn, .filed ticket], ready .own (withSlot k base) ∧ (withSlot k base).jobs.op = none ∧ (withSlot k base).jobs.isProtected = false ∧ (withSlot k base).jobs.slots[0]? = some k) := by
  refine ⟨?_, ?_, ?_, ?_, ?_, ?_, ?_, ?_, ?_, ?_, ?_⟩ <;> decide +kernel
theorem test_witness_laws :
    (interlockLawful base) ∧
    (storeLawful base) ∧
    (frontierLawful base) ∧
    (generationsLawful base) ∧
    (linkLawful base) ∧
    (incidentsLawful base) ∧
    (depthLawful base) ∧
    (jointLawful base) ∧
    (secondsLawful base) ∧
    (interlockLawful { withLoaded with flu.makeUpPermit := true }) ∧
    (storeLawful writing) ∧
    (frontierLawful marked ∧ generationsLawful marked) ∧
    (incidentsLawful fullTable) ∧
    (jointLawful withPopped) ∧
    (linkLawful restarting) ∧
    (countsLawful base ∧ countsLawful (atBin .circulating 12)) ∧
    (strataLawful base ∧ strataLawful openBase ∧
      strataLawful
        { atFrontier [{ openInterval 0 .blind with bottom := some 20 }, openInterval 20 .observed] with
          rods.holeDepth := 50 }) := by
  refine ⟨?_, ?_, ?_, ?_, ?_, ?_, ?_, ?_, ?_, ?_, ?_, ?_, ?_, ?_, ?_, ?_, ?_⟩ <;> decide +kernel
theorem test_witness_rodsLaw_base : rodsLawful base := by
  have no_slot : ∀ k id : Nat, base.rods.magazine[k]? ≠ some (some id) := by
    intro k id h
    simp [State.reset, State.cold, Rods.cold, List.getElem?_replicate] at h
  exact ⟨by decide, by decide, by decide, by decide, by simp [State.reset, State.cold, Rods.cold],
    fun k id h => absurd h (no_slot k id), fun i id h => by simp [State.reset, State.cold, Rods.cold] at h,
    fun a h => by simp [State.reset, State.cold, Joint.cold] at h,
    fun k h => by simp [reservedSlot, State.reset, State.cold, Joint.cold] at h, by decide⟩
theorem test_witness_rodsLaw_loaded : rodsLawful withLoaded ∧ jointLawful withLoaded := by
  have no_slot : ∀ k id : Nat, withLoaded.rods.magazine[k]? ≠ some (some id) := by
    intro k id h
    simp [State.reset, State.cold, Rods.cold, List.getElem?_replicate] at h
  exact ⟨⟨by decide, by decide, by decide, by decide, by decide, fun k id h => absurd h (no_slot k id),
    fun i id h => by simp [State.reset, State.cold, Rods.cold] at h, fun a h => by
      obtain rfl : { rod := 9, source := .yard } = a := by simpa using h
      exact ⟨rodAt 9 .arm, by simp⟩,
    fun k h => by simp [reservedSlot] at h, by decide⟩, by decide⟩
theorem test_witness_idleStep :
    step base = .next base ∧ carriesOctets .secondTick = false := by
  exact ⟨rfl, rfl⟩

end Sys2Proof.Tests
end

