-- ==== Sys2Proof/Proofs/Steps.lean ====
section
/-! PROOFS. What a step can do, said once: a command of a running part is a field event, a request, an arrival on the line or
the end of a frame; what each of these keeps, every step keeps. -/

namespace Sys2Proof.Machine

/-! ## The commands by what they do -/

/-- The operation of a command that is a field event, a tick, a count's condition or a store completion. -/
def eventOp : Instr → Option (State → State)
  | .analogSample ch current => some (sample ch current)
  | .pulseAccepted input spans => some (pulseActivity input spans)
  | .primeComplete => some completePrime
  | .flowWhileStill => some checkStaticFlow
  | .tagRead chars => some (readerChars chars)
  | .tagFrameTimeout => some readerTimeout
  | .secondTick => some secondTick
  | .billingUnit c => some (billUnit c)
  | .binTick => some earlyBinTick
  | .primeTimeout => some expirePrime
  | .bleedConfirmed => some confirmBleed
  | .stopTimeout => some expireStop
  | .breakPermitTimeout => some expireBreakPermit
  | .writeSucceeds => some writeSucceeds
  | .writeProgramFailure => some writeFailure
  | .eraseCompletion success => some (eraseCompletion success)
  | _ => none

/-- The operation of a command that acts through the line. -/
def lineOp : Instr → Option (State → State)
  | .restartWarmStart lines => some fun t => if sendingRestart t then warmStart lines 0 t else t
  | .frameReceived octs => some (receiveOctets octs)
  | .rxFrameTimeout => some receiverHunts
  | .rxFramingError octs => some fun t => receiverHunts (receiveOctets octs t)
  | .rxLengthAbove240 length => some (receiveOctet length)
  | .transmitComplete => some transmitComplete
  | .unknownKind who kind payload => some (arriveKind who kind payload)
  | _ => none

/-- A command that is no event, no request and does not act through the line is a power command. -/
theorem isPower_of_no_operation {c : Instr} (hev : eventOp c = none) (hl : lineOp c = none)
    (hr : receivedRequest c = none) : isPower c = true := by
  cases c <;> simp [eventOp, lineOp, receivedRequest, requestWire] at hev hl hr <;> rfl

/-- A command starts or stops the part, or is an operation of a running part: an event's, the line's or a request's. -/
theorem exec_cases (c : Instr) (s : State) :
    isPower c = true ∨ ∃ f, exec c s = whileRunning f s ∧
      (eventOp c = some f ∨ lineOp c = some f ∨ (receivedRequest c).isSome = true ∧ f = arriveRequest c) := by
  cases hev : eventOp c with
  | some f =>
    refine .inr ⟨f, ?_, .inl rfl⟩
    cases c <;> simp only [eventOp, Option.some.injEq, reduceCtorEq] at hev <;> subst hev <;> rfl
  | none =>
    cases hl : lineOp c with
    | some f =>
      refine .inr ⟨f, ?_, .inr (.inl rfl)⟩
      cases c <;> simp only [lineOp, Option.some.injEq, reduceCtorEq] at hl <;> subst hl <;> rfl
    | none =>
      cases hr : receivedRequest c with
      | some r => exact .inr ⟨_, exec_request hr s, .inr (.inr ⟨rfl, rfl⟩)⟩
      | none => exact .inl (isPower_of_no_operation hev hl hr)

/-- A part without its supply or in reset takes nothing but its power commands (R1, log 11). -/
theorem exec_of_not_running {c : Instr} {s : State} (hp : s.power ≠ .running) (hc : isPower c = false) :
    exec c s = .next s := by
  obtain h | ⟨f, h, -⟩ := exec_cases c s
  · simp [h] at hc
  · rw [h, whileRunning, if_neg hp]

theorem whileRunning_of_running {s : State} (f : State → State) (h : s.power = .running) :
    whileRunning f s = .next (transmit (f s)) := by rw [whileRunning, if_pos h]

/-- The command whose operation is an event's comes to that operation in a running part. -/
theorem comesTo_event {c : Instr} {f : State → State} {s : State} (h : eventOp c = some f) (hp : s.power = .running) :
    comesTo c s (f s) := by
  cases c <;> simp only [eventOp, Option.some.injEq, reduceCtorEq] at h <;> subst h <;>
    exact whileRunning_of_running _ hp

/-! ## What one command of a running part takes where -/

/-- One request, one warm start or one event takes a state with the first property to one with the second, and neither the line
nor the queue bears on either. -/
structure Takes (P Q : State → Prop) : Prop where
  line : ∀ {s : State} (l : Link) (q : List Instr), P s → P { s with link := l, pending := q }
  answer : ∀ {s : State} (l : Link), Q s → Q { s with link := l }
  idle : ∀ {s : State}, P s → Q s
  request : ∀ {s : State} (i : Instr), P s → Q (takeRequest i s).1
  warm : ∀ {s : State} (lines : StartLines) (seconds : Nat), P s → Q (warmStart lines seconds s)
  event : ∀ {s : State} {c : Instr} {f : State → State}, eventOp c = some f → P s → Q (f s)

/-- A RESTART changes nothing as it is taken (R205). -/
theorem takeForm_of_isRestart {f : RequestForm} (h : f.isRestart = true) (s : State) : (takeForm f s).1 = s := by
  unfold RequestForm.isRestart at h
  split at h
  · rfl
  all_goals cases h

section
variable {P Q : State → Prop} {s : State}

theorem Takes.link (h : Takes P Q) (l : Link) (hs : P s) : P { s with link := l } := h.line l s.pending hs

theorem Takes.transmit (h : Takes P Q) (hs : Q s) : Q (transmit s) := by
  unfold Machine.transmit
  split
  · exact hs
  · split
    · exact h.answer _ hs
    · split
      · exact h.answer _ hs
      · exact hs

theorem Takes.form (h : Takes P Q) (f : RequestForm) (hs : P s) : Q (takeForm f s).1 := by
  cases f with
  | request i => exact h.request i hs
  | unknownKind | badLength | badOctet => exact h.idle hs

theorem Takes.takeInProgress (h : Takes P Q) (r : Received) (hs : P s) : Q (takeInProgress r s) := by
  unfold Machine.takeInProgress conclude
  split
  · exact h.answer _ (h.form r.form hs)
  · split
    · next hrestart =>
      rw [takeForm_of_isRestart hrestart]
      exact h.warm _ _ hs
    · exact h.answer _ (h.form r.form hs)

theorem Takes.arrive (h : Takes P Q) (r : Received) (hs : P s) : Q (arrive r s) := by
  unfold Machine.arrive
  split
  · unfold holdRequest
    split
    · exact h.takeInProgress r (h.link _ hs)
    · exact h.idle (h.link _ hs)
    · exact h.idle (h.link _ hs)
  · exact h.idle hs

theorem Takes.arriveRequest (h : Takes P Q) (i : Instr) (hs : P s) : Q (arriveRequest i s) := by
  unfold Machine.arriveRequest
  split
  · exact h.arrive _ hs
  · exact h.idle hs

theorem Takes.receiveOctet (h : Takes P Q) (b : Byte) (hs : P s) : Q (receiveOctet b s) := by
  unfold Machine.receiveOctet
  dsimp only
  split
  · exact h.idle hs
  · split
    · exact h.idle (h.link _ hs)
    · split
      · split
        · exact h.transmit (h.arrive _ (h.link _ hs))
        · exact h.idle (h.link _ hs)
      · exact h.idle (h.link _ hs)

theorem Takes.transmitComplete (h : Takes P Q) (hs : P s) : Q (transmitComplete s) := by
  unfold Machine.transmitComplete
  split
  · exact h.idle hs
  · dsimp only
    split
    · split
      · exact h.warm _ _ (h.link _ hs)
      · unfold endInProgress
        dsimp only
        split
        · exact h.idle (h.link _ (h.link _ hs))
        · exact h.takeInProgress _ (h.link _ (h.link _ hs))
    · exact h.idle (h.link _ hs)

theorem Takes.lineOp (h : Takes P Q) {c : Instr} {f : State → State} (hone : carriesOctets c = false)
    (hc : lineOp c = some f) (hs : P s) : Q (f s) := by
  cases c <;> simp only [Machine.lineOp, Option.some.injEq, reduceCtorEq] at hc <;> subst hc
  case restartWarmStart lines =>
    dsimp only
    split
    · exact h.warm _ _ hs
    · exact h.idle hs
  case rxFrameTimeout => exact h.idle (h.link _ hs)
  case transmitComplete => exact h.transmitComplete hs
  case unknownKind who kind payload =>
    unfold arriveKind
    split
    · exact h.arrive _ hs
    · exact h.idle hs
  case rxLengthAbove240 length => exact h.receiveOctet length hs
  all_goals cases hone

/-- A command that brings one request at most takes the first property to the second. -/
theorem Takes.exec (h : Takes P Q) {c : Instr} {t : State} (hc : isPower c = false) (hone : carriesOctets c = false)
    (hs : P s) (he : exec c s = .next t) : Q t := by
  obtain hpow | ⟨f, hf, hop⟩ := exec_cases c s
  · simp [hpow] at hc
  · rw [hf] at he
    injection he with he
    subst he
    split
    · refine h.transmit ?_
      obtain hev | hl | ⟨-, rfl⟩ := hop
      · exact h.event hev hs
      · exact h.lineOp hone hl hs
      · exact h.arriveRequest c hs
    · exact h.idle hs

end

/-! ## What a running part keeps -/

/-- A property that neither the line nor the queue bears on, and that requests, warm starts and events keep. -/
structure Kept (P : State → Prop) : Prop where
  line : ∀ {s : State} (l : Link) (q : List Instr), P s → P { s with link := l, pending := q }
  request : ∀ {s : State} (i : Instr), P s → P (takeRequest i s).1
  warm : ∀ {s : State} (lines : StartLines) (seconds : Nat), P s → P (warmStart lines seconds s)
  event : ∀ {s : State} {c : Instr} {f : State → State}, eventOp c = some f → P s → P (f s)

section
variable {P : State → Prop} {s : State}

theorem Kept.takes (h : Kept P) : Takes P P :=
  ⟨h.line, fun l hs => h.line l _ hs, id, h.request, h.warm, h.event⟩

theorem Kept.receiveOctets (h : Kept P) (bs : List Byte) (hs : P s) : P (receiveOctets bs s) := by
  induction bs generalizing s with
  | nil => exact hs
  | cons b rest ih => exact ih (h.takes.receiveOctet b hs)

/-- What a running part keeps, every command but the power commands keeps. -/
theorem Kept.exec (h : Kept P) {c : Instr} {t : State} (hc : isPower c = false) (hs : P s)
    (he : exec c s = .next t) : P t := by
  cases hone : carriesOctets c with
  | false => exact h.takes.exec hc hone hs he
  | true =>
    by_cases hp : s.power = .running
    · cases c <;> simp only [carriesOctets, Bool.false_eq_true] at hone
      case frameReceived octs =>
        have hrun : comesTo (.frameReceived octs) s (Machine.receiveOctets octs s) := whileRunning_of_running _ hp
        obtain rfl := Host.Outcome.next.inj (hrun.symm.trans he)
        exact h.takes.transmit (h.receiveOctets octs hs)
      case rxFramingError octs =>
        have hrun : comesTo (.rxFramingError octs) s (receiverHunts (Machine.receiveOctets octs s)) :=
          whileRunning_of_running (fun u => receiverHunts (Machine.receiveOctets octs u)) hp
        obtain rfl := Host.Outcome.next.inj (hrun.symm.trans he)
        exact h.takes.transmit (h.line _ _ (h.receiveOctets octs hs))
    · rw [exec_of_not_running hp hc] at he
      exact Host.Outcome.next.inj he ▸ hs

end

/-- A property kept by a running part that the supply, the reset input and the four outputs' fall do not bear on. -/
structure KeptThrough (P : State → Prop) : Prop extends Kept P where
  silence : ∀ {s : State} (p : Power), P s → P (silence p s)
  powered : ∀ {s : State} (p : Power) (intact : Bool), P s → P { s with power := p, flu.backupIntact := intact }
  cold : ∀ {s : State} (lines : StartLines), P s → P (coldStart lines s)

theorem KeptThrough.power {P : State → Prop} {s : State} (h : KeptThrough P) (p : Power) (hs : P s) :
    P { s with power := p } := h.powered p s.flu.backupIntact hs

/-- What the starts and a running part keep, every command keeps. -/
theorem KeptThrough.exec {P : State → Prop} {c : Instr} {s t : State} (h : KeptThrough P) (hs : P s)
    (he : exec c s = .next t) : P t := by
  have running : ∀ {u : State}, P u → P (transmitRunning u) := by
    intro u hu
    unfold transmitRunning
    split
    · exact h.takes.transmit hu
    · exact hu
  by_cases hc : isPower c = false
  · exact h.toKept.exec hc hs he
  cases c with
  | powerApplied intact n lines =>
    injection he with he
    subst he
    refine running ?_
    cases intact with
    | true => exact h.warm _ _ (h.powered (s := s) { s.power with supply := true } true hs)
    | false => exact h.cold _ (h.power { s.power with supply := true } hs)
  | resetAsserted =>
    injection he with he
    exact he ▸ h.silence _ hs
  | resetReleased n lines =>
    injection he with he
    subst he
    refine running ?_
    unfold releaseReset
    split
    · exact h.warm _ _ (h.power .running hs)
    · exact h.power { s.power with resetLine := false } hs
  | powerFails =>
    injection he with he
    exact he ▸ h.silence _ hs
  | _ => exact absurd rfl hc

/-- What every command keeps, every step keeps. -/
theorem KeptThrough.step {P : State → Prop} {s t : State} (h : KeptThrough P) (hs : P s) (he : step s = .next t) :
    P t := by
  unfold Machine.step at he
  split at he
  · injection he with he
    exact he ▸ hs
  · exact h.exec (h.line _ _ hs) he

end Sys2Proof.Machine
end

