-- ==== Sys2Proof/Proofs/Keeps.lean ====
section
/-! PROOFS. The relation Keeps: the laws of O55 and O60 that hold of one state hold of another. It is reflexive and transitive, so
that each operation's lemma is put together from those of its parts. -/

namespace Sys2Proof.Machine

/-! ## What the changes of state write -/

theorem commandPermits_flu (s : State) :
    (commandPermits s).flu =
      { s.flu with makeUpPermit := decide (s.joint.state = .loaded) && s.circ.state.resting,
                   breakPermit := decide (s.joint.state = .breakPermit) } := rfl

theorem commandEnables_flu (s : State) :
    (commandEnables s).flu =
      { s.flu with pumpAEnable := s.circ.state.pumping && s.circ.mask.a,
                   pumpBEnable := s.circ.state.pumping && s.circ.mask.b } := rfl

/-- A change of circulation state writes the four outputs and no other field line (R28, R87). -/
theorem enterCirc_flu (new : CircState) (mask : PumpMask) (s : State) :
    (enterCirc new mask s).flu =
      { s.flu with pumpAEnable := new.pumping && mask.a, pumpBEnable := new.pumping && mask.b,
                   makeUpPermit := decide (s.joint.state = .loaded) && new.resting,
                   breakPermit := decide (s.joint.state = .breakPermit) } := by
  unfold enterCirc
  dsimp only
  split <;> simp [commandPermits_flu, commandEnables_flu]

/-- A change of circulation state touches the episode's permit-low flag only of the joint controller (R92). -/
@[simp] theorem enterCirc_joint (new : CircState) (mask : PumpMask) (s : State) :
    (enterCirc new mask s).joint.arm = s.joint.arm ∧ (enterCirc new mask s).joint.timer = s.joint.timer ∧
      (enterCirc new mask s).joint.heldRef = s.joint.heldRef ∧ (enterCirc new mask s).joint.last = s.joint.last ∧
      (enterCirc new mask s).joint.limits = s.joint.limits := by
  unfold enterCirc
  dsimp only
  split <;> simp

/-- A change of joint state writes the two permits and no other field line (R86). -/
theorem enterJoint_flu (j : JointState) (s : State) :
    (enterJoint j s).flu =
      { s.flu with makeUpPermit := decide (j = .loaded) && s.circ.state.resting,
                   breakPermit := decide (j = .breakPermit) } := by
  simp [enterJoint, commandPermits_flu]

theorem enterReady_flu (s : State) :
    (enterReady s).flu = { s.flu with makeUpPermit := false, breakPermit := false } := by
  simp [enterReady, enterJoint_flu]

@[simp] theorem enterReady_state (s : State) : (enterReady s).joint.state = .ready := by simp [enterReady]
@[simp] theorem enterReady_arm (s : State) : (enterReady s).joint.arm = s.joint.arm := by simp [enterReady]
@[simp] theorem enterReady_timer (s : State) : (enterReady s).joint.timer = s.joint.timer := by simp [enterReady]
@[simp] theorem enterReady_heldRef (s : State) : (enterReady s).joint.heldRef = none := by simp [enterReady]

/-! ## The laws of a running part -/

/-- Each output line stands as its owner's state commands, and BREAK_PERMIT as R88 has it. -/
def commandsStand (s : State) : Prop :=
  s.flu.pumpAEnable = (s.circ.state.pumping && s.circ.mask.a) ∧
    s.flu.pumpBEnable = (s.circ.state.pumping && s.circ.mask.b) ∧
    s.flu.makeUpPermit = (decide (s.joint.state = .loaded) && s.circ.state.resting) ∧
    s.flu.breakPermit = decide (s.joint.state = .breakPermit) ∧ breakLawful s

/-- The laws of the depths, the joint, the seconds, the counts and the rods that hold of the first state hold of the second;
the places of the rods with the law of the joint. -/
structure KeepsBooks (s t : State) : Prop where
  depth : depthLawful s → depthLawful t
  joint : jointLawful s → jointLawful t
  seconds : secondsLawful s → secondsLawful t
  counts : countsLawful s → countsLawful t
  rods : jointLawful s → rodsLawful s → rodsLawful t

/-- The laws that hold of the first state hold of the second, those of the outputs with them. -/
structure Keeps (s t : State) : Prop extends KeepsBooks s t where
  outputs : commandsStand s → commandsStand t

theorem KeepsBooks.refl (s : State) : KeepsBooks s s := ⟨id, id, id, id, fun _ => id⟩

theorem KeepsBooks.trans {s t u : State} (h : KeepsBooks s t) (k : KeepsBooks t u) : KeepsBooks s u where
  depth hs := k.depth (h.depth hs)
  joint hs := k.joint (h.joint hs)
  seconds hs := k.seconds (h.seconds hs)
  counts hs := k.counts (h.counts hs)
  rods hj hr := k.rods (h.joint hj) (h.rods hj hr)

theorem Keeps.refl (s : State) : Keeps s s := ⟨.refl s, id⟩

theorem Keeps.trans {s t u : State} (h : Keeps s t) (k : Keeps t u) : Keeps s u :=
  ⟨h.toKeepsBooks.trans k.toKeepsBooks, fun hs => k.outputs (h.outputs hs)⟩

/-! ## What each law sees of a state -/

/-- What the laws of the outputs see. -/
@[simp] def outputsView (s : State) : (Bool × Bool × Bool × Bool) × Bool × Nat × CircState × PumpMask × Nat × JointState :=
  ((s.flu.pumpAEnable, s.flu.pumpBEnable, s.flu.makeUpPermit, s.flu.breakPermit), s.flu.pressure.fault,
    s.flu.pressure.value, s.circ.state, s.circ.mask, s.circ.limits.bleedLimit, s.joint.state)

/-- What the law of the depths sees. -/
@[simp] def depthView (s : State) : Nat × Nat := (s.rods.bitDepth, s.rods.holeDepth)

/-- What the law of the joint sees. -/
@[simp] def jointView (s : State) : JointState × Option Arm × Nat × Option Nat :=
  (s.joint.state, s.joint.arm, s.joint.timer, s.joint.heldRef)

/-- What the law of the seconds sees. -/
@[simp] def secondsView (s : State) : List Nat × List Nat × Nat := (s.bill.totals, s.bill.residues, s.bill.running)

/-- What the law of the counts sees. -/
@[simp] def countsView (s : State) : List Bin × (Nat × Nat × Nat × Nat) × Nat × Nat :=
  (s.circ.window, (s.circ.totalRun, s.circ.partialRun, s.circ.recoveryRun, s.circ.clearRun), s.circ.bleedCount,
    s.flu.binPhase)

/-- What the law of the rods' places sees. -/
@[simp] def rodsView (s : State) : (List Rod × List (Option Nat) × List Nat) × JointState × Option Arm :=
  ((s.rods.registry, s.rods.magazine, s.rods.string), s.joint.state, s.joint.arm)

theorem commandsStand_congr {s t : State} (h : outputsView t = outputsView s) (hs : commandsStand s) :
    commandsStand t := by
  simp only [outputsView, Prod.mk.injEq] at h
  unfold commandsStand breakLawful at *
  simpa only [h] using hs

theorem depthLawful_congr {s t : State}
    (h : depthView t = depthView s) (hs : depthLawful s) : depthLawful t := by
  simp only [depthView, Prod.mk.injEq] at h
  unfold depthLawful at *
  simpa only [h] using hs

theorem jointLawful_congr {s t : State} (h : jointView t = jointView s) (hs : jointLawful s) : jointLawful t := by
  simp only [jointView, Prod.mk.injEq] at h
  unfold jointLawful at *
  simpa only [h] using hs

theorem secondsLawful_congr {s t : State} (h : secondsView t = secondsView s) (hs : secondsLawful s) :
    secondsLawful t := by
  simp only [secondsView, Prod.mk.injEq] at h
  unfold secondsLawful at *
  simpa only [h] using hs

theorem countsLawful_congr {s t : State} (h : countsView t = countsView s) (hs : countsLawful s) : countsLawful t := by
  simp only [countsView, Prod.mk.injEq] at h
  unfold countsLawful at *
  simpa only [h] using hs

theorem rodsLawful_congr {s t : State} (h : rodsView t = rodsView s) (hs : rodsLawful s) : rodsLawful t := by
  simp only [rodsView, Prod.mk.injEq] at h
  unfold rodsLawful inPlace reservedSlot at *
  simpa only [h] using hs

/-- What all the laws see. -/
@[simp] def lawsView (s : State) :=
  (outputsView s, depthView s, jointView s, secondsView s, countsView s, rodsView s)

/-- A change that no law sees. -/
theorem Keeps.unseen {s t : State} (hview : lawsView t = lawsView s) : Keeps s t := by
  simp only [lawsView, Prod.mk.injEq (outputsView t), Prod.mk.injEq (depthView t), Prod.mk.injEq (jointView t),
    Prod.mk.injEq (secondsView t), Prod.mk.injEq (countsView t)] at hview
  obtain ⟨hOutputs, hDepth, hJoint, hSeconds, hCounts, hRods⟩ := hview
  exact ⟨⟨depthLawful_congr hDepth, jointLawful_congr hJoint, secondsLawful_congr hSeconds, countsLawful_congr hCounts,
    fun _ => rodsLawful_congr hRods⟩, commandsStand_congr hOutputs⟩

/-- A change that no law sees, and then one that keeps them. -/
theorem Keeps.after_unseen {s t u : State} (h : Keeps t u) (hview : lawsView t = lawsView s) : Keeps s u :=
  (Keeps.unseen hview).trans h

/-- A change that the laws of the outputs and of the counts see. -/
theorem Keeps.of_circulation {s t : State}
    (hview : (depthView t, jointView t, secondsView t, rodsView t) =
      (depthView s, jointView s, secondsView s, rodsView s))
    (hOutputs : commandsStand s → commandsStand t)
    (hCounts : countsLawful s → countsLawful t) : Keeps s t := by
  simp only [Prod.mk.injEq] at hview
  obtain ⟨hDepth, hJoint, hSeconds, hRods⟩ := hview
  exact ⟨⟨depthLawful_congr hDepth, jointLawful_congr hJoint, secondsLawful_congr hSeconds, hCounts,
    fun _ => rodsLawful_congr hRods⟩, hOutputs⟩

/-- A change that the law of the depths sees. -/
theorem Keeps.of_depth {s t : State}
    (hview : (outputsView t, jointView t, secondsView t, countsView t, rodsView t) =
      (outputsView s, jointView s, secondsView s, countsView s, rodsView s))
    (hDepth : depthLawful s → depthLawful t) : Keeps s t := by
  simp only [Prod.mk.injEq] at hview
  obtain ⟨hOutputs, hJoint, hSeconds, hCounts, hRods⟩ := hview
  exact ⟨⟨hDepth, jointLawful_congr hJoint, secondsLawful_congr hSeconds, countsLawful_congr hCounts,
    fun _ => rodsLawful_congr hRods⟩, commandsStand_congr hOutputs⟩

/-- A change that the law of the joint sees. -/
theorem Keeps.of_joint {s t : State}
    (hview : (outputsView t, depthView t, secondsView t, countsView t, rodsView t) =
      (outputsView s, depthView s, secondsView s, countsView s, rodsView s))
    (hJoint : jointLawful s → jointLawful t) : Keeps s t := by
  simp only [Prod.mk.injEq] at hview
  obtain ⟨hOutputs, hDepth, hSeconds, hCounts, hRods⟩ := hview
  exact ⟨⟨depthLawful_congr hDepth, hJoint, secondsLawful_congr hSeconds, countsLawful_congr hCounts,
    fun _ => rodsLawful_congr hRods⟩, commandsStand_congr hOutputs⟩

/-- A change that the law of the seconds sees. -/
theorem Keeps.of_seconds {s t : State}
    (hview : (outputsView t, depthView t, jointView t, countsView t, rodsView t) =
      (outputsView s, depthView s, jointView s, countsView s, rodsView s))
    (hSeconds : secondsLawful s → secondsLawful t) : Keeps s t := by
  simp only [Prod.mk.injEq] at hview
  obtain ⟨hOutputs, hDepth, hJoint, hCounts, hRods⟩ := hview
  exact ⟨⟨depthLawful_congr hDepth, jointLawful_congr hJoint, hSeconds, countsLawful_congr hCounts,
    fun _ => rodsLawful_congr hRods⟩, commandsStand_congr hOutputs⟩

/-- A change that the law of the counts sees. -/
theorem Keeps.of_counts {s t : State}
    (hview : (outputsView t, depthView t, jointView t, secondsView t, rodsView t) =
      (outputsView s, depthView s, jointView s, secondsView s, rodsView s))
    (hCounts : countsLawful s → countsLawful t) : Keeps s t := by
  simp only [Prod.mk.injEq] at hview
  obtain ⟨hOutputs, hDepth, hJoint, hSeconds, hRods⟩ := hview
  exact ⟨⟨depthLawful_congr hDepth, jointLawful_congr hJoint, secondsLawful_congr hSeconds, hCounts,
    fun _ => rodsLawful_congr hRods⟩, commandsStand_congr hOutputs⟩

/-- A change that the law of the rods' places sees. -/
theorem Keeps.of_rods {s t : State}
    (hview : (outputsView t, depthView t, jointView t, secondsView t, countsView t) =
      (outputsView s, depthView s, jointView s, secondsView s, countsView s))
    (hRods : jointLawful s → rodsLawful s → rodsLawful t) : Keeps s t := by
  simp only [Prod.mk.injEq] at hview
  obtain ⟨hOutputs, hDepth, hJoint, hSeconds, hCounts⟩ := hview
  exact ⟨⟨depthLawful_congr hDepth, jointLawful_congr hJoint, secondsLawful_congr hSeconds, countsLawful_congr hCounts,
    hRods⟩, commandsStand_congr hOutputs⟩

end Sys2Proof.Machine
end

