-- ==== Sys2Proof/Proofs/Places.lean ====
section
/-! PROOFS. Rods in their places (R65, R66): the law of the rods as an agreement between the registry and what stands at each
place, and what a rod's move from one place to another does to it. -/

namespace Sys2Proof.Machine

/-- What stands at a place; the yard names no rod. -/
def occupant (magazine : List (Option Nat)) (string : List Nat) (arm : Option Nat) : RodLocation → Option Nat
  | .yard => none
  | .magazine k => (magazine[k]?).getD none
  | .arm => arm
  | .string i => string[i]?

/-- The registry and the places name each other. -/
structure Agrees (registry : List Rod) (occ : RodLocation → Option Nat) : Prop where
  placed : ∀ r ∈ registry, r.location ≠ .yard → occ r.location = some r.id
  held : ∀ loc id, occ loc = some id → ∃ r ∈ registry, r.id = id ∧ r.location = loc

/-- The law of the rods but for the room a loaded rod needs. -/
structure Places (rods : Rods) (arm : Option Arm) : Prop where
  sorted : (rods.registry.map (·.id)).Pairwise (· < ·)
  registered : rods.registry.length ≤ 448
  slots : rods.magazine.length = 96
  stacked : rods.string.length ≤ 400
  agrees : Agrees rods.registry (occupant rods.magazine rods.string (arm.map (·.rod)))
  reserved : ∀ a k, arm = some a → a.source = .slot k → rods.magazine[k]? = some none

theorem reservedSlot_eq_some {s : State} {k : Nat} :
    reservedSlot s = some k ↔ ∃ a, s.joint.arm = some a ∧ a.source = .slot k := by
  unfold reservedSlot
  rcases s.joint.arm with _ | ⟨_, _ | _ | _⟩ <;> simp

theorem getD_none_eq_some {l : List (Option Nat)} {k id : Nat} :
    (l[k]?).getD none = some id ↔ l[k]? = some (some id) := by
  cases l[k]? <;> simp

theorem agrees_iff (s : State) :
    Agrees s.rods.registry (occupant s.rods.magazine s.rods.string (s.joint.arm.map (·.rod))) ↔
      (∀ r ∈ s.rods.registry, inPlace s r = true) ∧
        (∀ k id, s.rods.magazine[k]? = some (some id) →
          ∃ r ∈ s.rods.registry, r.id = id ∧ r.location = .magazine k) ∧
        (∀ i id, s.rods.string[i]? = some id → ∃ r ∈ s.rods.registry, r.id = id ∧ r.location = .string i) ∧
        ∀ a, s.joint.arm = some a → ∃ r ∈ s.rods.registry, r.id = a.rod ∧ r.location = .arm := by
  have inPlace_iff : ∀ r : Rod, inPlace s r = true ↔ (r.location ≠ .yard →
      occupant s.rods.magazine s.rods.string (s.joint.arm.map (·.rod)) r.location = some r.id) := by
    intro r
    unfold inPlace
    rcases r.location with _ | k | _ | i <;> simp [occupant, getD_none_eq_some]
  constructor
  · intro h
    refine ⟨fun r hr => (inPlace_iff r).2 (h.placed r hr), fun k id hk => h.held (.magazine k) id ?_,
      fun i id hi => h.held (.string i) id hi, fun a ha => h.held .arm a.rod ?_⟩
    · exact getD_none_eq_some.2 hk
    · simp [occupant, ha]
  · rintro ⟨hplaced, hmag, hstr, harm⟩
    refine ⟨fun r hr => (inPlace_iff r).1 (hplaced r hr), ?_⟩
    rintro (_ | k | _ | i) id h
    · cases h
    · exact hmag k id (getD_none_eq_some.1 h)
    · obtain ⟨a, ha, rfl⟩ := Option.map_eq_some_iff.1 h
      exact harm a ha
    · exact hstr i id h

/-- The law of the rods is the law of their places, with room on the string for a loaded rod. -/
theorem rodsLawful_iff (s : State) :
    rodsLawful s ↔ Places s.rods s.joint.arm ∧ (s.joint.state = .loaded → s.rods.string.length < 400) := by
  constructor
  · rintro ⟨hsort, hreg, hmag, hstr, h1, h2, h3, h4, hres, hroom⟩
    exact ⟨⟨hsort, hreg, hmag, hstr, (agrees_iff s).2 ⟨h1, h2, h3, h4⟩,
      fun a k ha hk => hres k (reservedSlot_eq_some.2 ⟨a, ha, hk⟩)⟩, hroom⟩
  · rintro ⟨h, hroom⟩
    obtain ⟨h1, h2, h3, h4⟩ := (agrees_iff s).1 h.agrees
    refine ⟨h.sorted, h.registered, h.slots, h.stacked, h1, h2, h3, h4, fun k hk => ?_, hroom⟩
    obtain ⟨a, ha, hs⟩ := reservedSlot_eq_some.1 hk
    exact h.reserved a k ha hs

/-! ## A registered rod is known by its id -/

section
variable {rods : Rods} {arm : Option Arm}

theorem Places.eq_of_id (h : Places rods arm) {q r : Rod} (hq : q ∈ rods.registry) (hr : r ∈ rods.registry)
    (hid : q.id = r.id) : q = r :=
  List.inj_on_of_nodup_map (h.sorted.imp fun hlt => Nat.ne_of_lt hlt) hq hr hid

theorem findRod_mem {id : Nat} {r : Rod} {s : State} (h : findRod id s = some r) : r ∈ s.rods.registry ∧ r.id = id :=
  ⟨List.mem_of_find?_eq_some h, by simpa using List.find?_some h⟩

theorem Places.findRod_eq {s : State} (h : Places s.rods arm) {r : Rod} (hr : r ∈ s.rods.registry) :
    findRod r.id s = some r := by
  cases hf : findRod r.id s with
  | none => simpa using List.find?_eq_none.1 hf r hr
  | some q => rw [h.eq_of_id (findRod_mem hf).1 hr (findRod_mem hf).2]

/-- Two rods do not stand at one place. -/
theorem Places.eq_of_location (h : Places rods arm) {q r : Rod} (hq : q ∈ rods.registry) (hr : r ∈ rods.registry)
    (hloc : q.location = r.location) (hy : r.location ≠ .yard) : q = r := by
  have hqo := h.agrees.placed q hq (hloc ▸ hy)
  have hro := h.agrees.placed r hr hy
  rw [hloc, hro] at hqo
  exact h.eq_of_id hq hr (Option.some.inj hqo).symm

/-- The rod that stands at a place. -/
theorem Places.at_place (h : Places rods arm) {loc : RodLocation} {id : Nat}
    (ho : occupant rods.magazine rods.string (arm.map (·.rod)) loc = some id) :
    ∃ r ∈ rods.registry, r.id = id ∧ r.location = loc := h.agrees.held loc id ho

/-! ## A rod moves -/

/-- What stands at each place after a rod has gone from one to another. -/
def occupantAfter (occ : RodLocation → Option Nat) (id : Nat) (old new loc : RodLocation) : Option Nat :=
  if loc = new then (if new = .yard then none else some id) else if loc = old then none else occ loc

theorem Places.agrees_move (h : Places rods arm) {r : Rod} (hr : r ∈ rods.registry) {f : Rod → Rod}
    {new : RodLocation} (hf : ∀ q, (f q).id = q.id ∧ (f q).location = new)
    (hfree : new = r.location ∨ occupant rods.magazine rods.string (arm.map (·.rod)) new = none) :
    Agrees (rods.registry.map fun q => if q.id = r.id then f q else q)
      (occupantAfter (occupant rods.magazine rods.string (arm.map (·.rod))) r.id r.location new) := by
  constructor
  · intro q' hq' hy
    obtain ⟨q, hq, rfl⟩ := List.mem_map.1 hq'
    by_cases hid : q.id = r.id
    · rw [if_pos hid, (hf q).2] at hy
      rw [if_pos hid, (hf q).1, (hf q).2, occupantAfter, if_pos rfl, if_neg hy, hid]
    · rw [if_neg hid] at hy ⊢
      have hold : q.location ≠ r.location := fun hl => hid (by rw [h.eq_of_location hq hr hl (hl ▸ hy)])
      have hnew : q.location ≠ new := by
        rintro rfl
        obtain hn | hn := hfree
        · exact hold hn
        · rw [h.agrees.placed q hq hy] at hn
          cases hn
      rw [occupantAfter, if_neg hnew, if_neg hold, h.agrees.placed q hq hy]
  · intro loc id ho
    unfold occupantAfter at ho
    split at ho
    · next hl =>
      split at ho
      · cases ho
      · obtain rfl : r.id = id := Option.some.inj ho
        exact ⟨f r, List.mem_map.2 ⟨r, hr, if_pos rfl⟩, (hf r).1, (hf r).2.trans hl.symm⟩
    · split at ho
      · cases ho
      · next hold =>
        obtain ⟨q, hq, rfl, rfl⟩ := h.agrees.held loc id ho
        have hid : q.id ≠ r.id := fun hid => hold (by rw [h.eq_of_id hq hr hid])
        exact ⟨q, List.mem_map.2 ⟨q, hq, if_neg hid⟩, rfl, rfl⟩

/-- A change of records that keeps their ids keeps their order. -/
theorem Places.sorted_map (h : Places rods arm) {f : Rod → Rod} (hf : ∀ q, (f q).id = q.id) (id : Nat) :
    ((rods.registry.map fun q => if q.id = id then f q else q).map (·.id)).Pairwise (· < ·) := by
  have hcongr : (rods.registry.map fun q => if q.id = id then f q else q).map (·.id) = rods.registry.map (·.id) := by
    rw [List.map_map]
    refine List.map_congr_left fun q _ => ?_
    dsimp only [Function.comp]
    split
    · exact hf q
    · rfl
  rw [hcongr]
  exact h.sorted

/-- A rod goes from its place to a free one, and the places keep their law. -/
theorem Places.move (h : Places rods arm) {r : Rod} (hr : r ∈ rods.registry) {f : Rod → Rod} {new : RodLocation}
    (hf : ∀ q, (f q).id = q.id ∧ (f q).location = new)
    (hfree : new = r.location ∨ occupant rods.magazine rods.string (arm.map (·.rod)) new = none)
    {rods' : Rods} {arm' : Option Arm}
    (hreg : rods'.registry = rods.registry.map fun q => if q.id = r.id then f q else q)
    (hmag : rods'.magazine.length = 96) (hstr : rods'.string.length ≤ 400)
    (hocc : ∀ loc, occupant rods'.magazine rods'.string (arm'.map (·.rod)) loc =
      occupantAfter (occupant rods.magazine rods.string (arm.map (·.rod))) r.id r.location new loc)
    (hres : ∀ a k, arm' = some a → a.source = .slot k → rods'.magazine[k]? = some none) : Places rods' arm' where
  sorted := hreg ▸ h.sorted_map (fun q => (hf q).1) r.id
  registered := by rw [hreg, List.length_map]; exact h.registered
  slots := hmag
  stacked := hstr
  agrees := by rw [hreg, funext hocc]; exact h.agrees_move hr hf hfree
  reserved := hres

/-- A record's change that keeps ids and locations keeps the law. -/
theorem Places.update (h : Places rods arm) {f : Rod → Rod} (id : Nat)
    (hf : ∀ q, (f q).id = q.id ∧ (f q).location = q.location) {rods' : Rods}
    (hreg : rods'.registry = rods.registry.map fun q => if q.id = id then f q else q)
    (hmag : rods'.magazine = rods.magazine) (hstr : rods'.string = rods.string) : Places rods' arm where
  sorted := hreg ▸ h.sorted_map (fun q => (hf q).1) id
  registered := by rw [hreg, List.length_map]; exact h.registered
  slots := hmag ▸ h.slots
  stacked := hstr ▸ h.stacked
  agrees := by
    have same : ∀ q, (if q.id = id then f q else q).id = q.id ∧ (if q.id = id then f q else q).location = q.location := by
      intro q
      split
      · exact hf q
      · exact ⟨rfl, rfl⟩
    rw [hreg, hmag, hstr]
    constructor
    · intro q' hq' hy
      obtain ⟨q, hq, rfl⟩ := List.mem_map.1 hq'
      rw [(same q).2] at hy ⊢
      rw [(same q).1]
      exact h.agrees.placed q hq hy
    · intro loc i ho
      obtain ⟨q, hq, rfl, rfl⟩ := h.agrees.held loc i ho
      exact ⟨_, List.mem_map.2 ⟨q, hq, rfl⟩, (same q).1, (same q).2⟩
  reserved := hmag ▸ h.reserved

end

end Sys2Proof.Machine
end

