-- ==== Sys2Proof/Proofs/Rods.lean ====
section
/-! PROOFS. The depths and the rods: what recomputing, moving, pushing and popping write, and that the rod requests keep the laws
(R65 to R81). -/

namespace Sys2Proof.Machine

theorem record_keeps (k : IncidentKind) (a b : Nat) (s : State) : Keeps s (record k a b s) := .unseen (by simp)

/-! ## Depth (R77 to R79) -/

@[simp] theorem addFootage_rods (n : Nat) (s : State) :
    (addFootage n s).rods = { s.rods with footage := min (s.rods.footage + n) 4000000000 } := by
  simp [addFootage, satAdd, Config.counterMax]

/-- An advance handed on moves the drilling timer only of the billing clock (R156). -/
@[simp] theorem handAdvance_bill (s : State) :
    (handAdvance s).bill.totals = s.bill.totals ∧ (handAdvance s).bill.residues = s.bill.residues ∧
      (handAdvance s).bill.running = s.bill.running ∧ (handAdvance s).bill.override = s.bill.override ∧
      (handAdvance s).bill.tripTimer = s.bill.tripTimer ∧ (handAdvance s).bill.last = s.bill.last := by
  unfold handAdvance
  split <;> simp [drillingActivity]

/-- A bit depth beyond the hole raises it, and the footage by as much (R74, R79). -/
theorem holeAdvance_rods (s : State) :
    (holeAdvance s).rods =
      { s.rods with holeDepth := max s.rods.holeDepth s.rods.bitDepth, footage := (holeAdvance s).rods.footage } := by
  unfold holeAdvance
  split
  · next h => simp [Nat.max_eq_right h.le]
  · next h => rw [Nat.max_eq_left (by omega)]

@[simp] theorem holeAdvance_bill (s : State) :
    (holeAdvance s).bill.totals = s.bill.totals ∧ (holeAdvance s).bill.residues = s.bill.residues ∧
      (holeAdvance s).bill.running = s.bill.running ∧ (holeAdvance s).bill.override = s.bill.override ∧
      (holeAdvance s).bill.tripTimer = s.bill.tripTimer ∧ (holeAdvance s).bill.last = s.bill.last := by
  unfold holeAdvance
  split <;> simp

/-- A recomputation writes the depths and the footage (R77, R79). -/
@[simp] theorem recompute_rods (v : Nat) (s : State) :
    (recompute v s).rods.registry = s.rods.registry ∧ (recompute v s).rods.magazine = s.rods.magazine ∧
      (recompute v s).rods.string = s.rods.string ∧ (recompute v s).rods.bitDepth = clampDepth (depthSum v s) ∧
      (recompute v s).rods.holeDepth = max s.rods.holeDepth (clampDepth (depthSum v s)) := by
  unfold recompute
  dsimp only
  rw [holeAdvance_rods]
  simp

@[simp] theorem recompute_bill (v : Nat) (s : State) :
    (recompute v s).bill.totals = s.bill.totals ∧ (recompute v s).bill.residues = s.bill.residues ∧
      (recompute v s).bill.running = s.bill.running ∧ (recompute v s).bill.override = s.bill.override ∧
      (recompute v s).bill.tripTimer = s.bill.tripTimer ∧ (recompute v s).bill.last = s.bill.last := by
  simp [recompute]

theorem clampDepth_le (d : Int) : clampDepth d ≤ 200000 := Nat.min_le_right _ _

theorem recompute_keeps (v : Nat) (s : State) : Keeps s (recompute v s) :=
  .of_depth (by simp) fun hs => by simpa [depthLawful] using ⟨hs.2, clampDepth_le _⟩

theorem heightSample_keeps (good : Option Nat) (s : State) : Keeps s (heightSample good s) := by
  unfold heightSample
  split
  · split
    · exact recompute_keeps _ s
    · exact .refl s
  · exact .refl s

theorem loadSample_keeps (good : Option Nat) (s : State) : Keeps s (loadSample good s) := by
  unfold loadSample
  split
  · exact .refl s
  · split
    · split
      · split
        · exact .refl s
        · exact .unseen (by simp)
      · exact .unseen rfl
    · exact .unseen rfl

theorem recomputeAtReady_keeps (s : State) : Keeps s (recomputeAtReady s) := by
  unfold recomputeAtReady
  split
  · exact .refl s
  · exact recompute_keeps _ s

/-! ## A rod's move among yard, magazine and arm (R69, R75) -/

/-- A magazine after one of its slots takes or loses a rod; at another place nothing is written. -/
def setSlot (loc : RodLocation) (held : Option Nat) (magazine : List (Option Nat)) : List (Option Nat) :=
  match loc with
  | .magazine k => setAt magazine k fun _ => held
  | .yard | .arm | .string _ => magazine

@[simp] theorem length_setSlot (loc : RodLocation) (held : Option Nat) (m : List (Option Nat)) :
    (setSlot loc held m).length = m.length := by
  cases loc <;> simp [setSlot]

theorem setSlot_getElem? (loc : RodLocation) (held : Option Nat) (m : List (Option Nat)) (k : Nat) :
    (setSlot loc held m)[k]? = if loc = .magazine k then m[k]?.map fun _ => held else m[k]? := by
  cases loc <;> simp [setSlot]

theorem leaveSlot_rods (loc : RodLocation) (s : State) :
    (leaveSlot loc s).rods = { s.rods with magazine := setSlot loc none s.rods.magazine } := by
  cases loc <;> rfl

theorem takeSlot_rods (id : Nat) (loc : RodLocation) (s : State) :
    (takeSlot id loc s).rods = { s.rods with magazine := setSlot loc (some id) s.rods.magazine } := by
  cases loc <;> rfl

/-- What a move writes: the rod's location, its old slot and its new one. -/
theorem moveRod_rods {id : Nat} {r : Rod} {s : State} (loc : RodLocation) (h : findRod id s = some r) :
    (moveRod id loc s).rods =
      { s.rods with
        registry := s.rods.registry.map fun q => if q.id = id then { q with location := loc } else q,
        magazine := setSlot loc (some id) (setSlot r.location none s.rods.magazine) } := by
  simp [moveRod, h, takeSlot_rods, leaveSlot_rods, updateRod]

/-- A move writes the registry and the magazine only. -/
@[simp] theorem moveRod_keeps_rods (id : Nat) (loc : RodLocation) (s : State) :
    (moveRod id loc s).rods.string = s.rods.string ∧ (moveRod id loc s).rods.bitDepth = s.rods.bitDepth ∧
      (moveRod id loc s).rods.holeDepth = s.rods.holeDepth ∧
      (moveRod id loc s).rods.bhaLength = s.rods.bhaLength ∧
      (moveRod id loc s).rods.stringLength = s.rods.stringLength ∧
      (moveRod id loc s).rods.headOffset = s.rods.headOffset ∧
      (moveRod id loc s).rods.footage = s.rods.footage ∧
      (moveRod id loc s).rods.rotatingLimit = s.rods.rotatingLimit ∧
      (moveRod id loc s).rods.makeUpLimit = s.rods.makeUpLimit ∧
      (moveRod id loc s).rods.depthClamp = s.rods.depthClamp ∧
      (moveRod id loc s).rods.unclamped = s.rods.unclamped ∧
      (moveRod id loc s).rods.overpullLimit = s.rods.overpullLimit ∧
      (moveRod id loc s).rods.overpull = s.rods.overpull := by
  cases h : findRod id s with
  | none => simp [moveRod, h]
  | some r => simp [moveRod_rods loc h]

/-- What a slot holds after a move. -/
theorem occupant_setSlots {m : List (Option Nat)} {id k : Nat} {old new : RodLocation} {str : List Nat}
    {arm arm' : Option Nat} (hnew : ∀ k, new = .magazine k → k < m.length) :
    occupant (setSlot new (some id) (setSlot old none m)) str arm' (.magazine k) =
      occupantAfter (occupant m str arm) id old new (.magazine k) := by
  simp only [occupant, occupantAfter, setSlot_getElem?, eq_comm (a := RodLocation.magazine k)]
  by_cases h1 : new = .magazine k
  · have hk := hnew k h1
    simp only [h1, reduceCtorEq, if_false, if_true]
    split <;> simp [hk]
  · simp only [h1, if_false]
    by_cases h2 : old = .magazine k
    · simp only [h2, if_true]
      cases m[k]? <;> rfl
    · simp only [h2, if_false]

/-- A rod in the yard or the magazine is loaded into the empty arm; its slot stays reserved (R66, R75). -/
theorem Places.load {s : State} (h : Places s.rods none) {r : Rod} (hr : findRod r.id s = some r)
    (hloc : r.location = .yard ∨ ∃ k, r.location = .magazine k) {source : ArmSource}
    (hsource : ∀ k, source = .slot k → r.location = .magazine k) :
    Places (moveRod r.id .arm s).rods (some { rod := r.id, source := source }) := by
  have hmem := (findRod_mem hr).1
  refine h.move hmem (new := .arm) (f := fun q => { q with location := .arm }) (fun q => ⟨rfl, rfl⟩) (.inr rfl)
    (by rw [moveRod_rods .arm hr]) (by simp [moveRod_rods .arm hr, h.slots]) (by simpa using h.stacked) ?_ ?_
  · rintro (_ | k | _ | i)
    · simp [occupant, occupantAfter]
    · rw [moveRod_rods .arm hr]
      exact occupant_setSlots (new := .arm) fun _ hk => by cases hk
    · simp [occupant, occupantAfter]
    · obtain hl | ⟨k, hl⟩ := hloc <;> simp [moveRod_rods .arm hr, occupant, occupantAfter, hl]
  · rintro a k ha hk
    obtain rfl := Option.some.inj ha
    have hl := hsource k hk
    have hocc := h.agrees.placed r hmem (by simp [hl])
    rw [hl] at hocc
    simp [moveRod_rods .arm hr, setSlot_getElem?, hl, getD_none_eq_some.1 hocc]

/-- The rod in the arm goes to the yard or to an empty slot, and the arm is empty (R75, R101). -/
theorem Places.unload {s : State} {a : Arm} (h : Places s.rods (some a)) {loc : RodLocation}
    (hloc : loc = .yard ∨ ∃ k, loc = .magazine k ∧ s.rods.magazine[k]? = some none) :
    Places (moveRod a.rod loc s).rods none := by
  obtain ⟨r, hr, hid, harm⟩ := h.at_place (loc := .arm) (id := a.rod) rfl
  have hfind : findRod a.rod s = some r := hid ▸ h.findRod_eq hr
  have hslot : ∀ k, loc = .magazine k → k < s.rods.magazine.length := by
    rintro k rfl
    obtain hl | ⟨k', hl, hm⟩ := hloc
    · cases hl
    · cases hl
      exact (List.getElem?_eq_some_iff.1 hm).1
  refine h.move hr (new := loc) (f := fun q => { q with location := loc }) (fun q => ⟨rfl, rfl⟩) ?_
    (by rw [moveRod_rods loc hfind, hid]) (by simp [moveRod_rods loc hfind, h.slots])
    (by simpa using h.stacked) ?_ (by simp)
  · obtain rfl | ⟨k, rfl, hm⟩ := hloc
    · exact .inr rfl
    · exact .inr (by simp [occupant, hm])
  · rw [hid, harm]
    rintro (_ | k | _ | i)
    · simp [occupant, occupantAfter, eq_comm (a := RodLocation.yard)]
    · rw [moveRod_rods loc hfind, harm]
      exact occupant_setSlots hslot
    · obtain rfl | ⟨k, rfl, -⟩ := hloc <;> simp [occupant, occupantAfter]
    · obtain rfl | ⟨k, rfl, -⟩ := hloc <;> simp [moveRod_rods _ hfind, occupant, occupantAfter]

/-- A rod in the yard or the magazine goes to the yard or to a slot it may take (R69). -/
theorem Places.place {s : State} (h : Places s.rods s.joint.arm) {r : Rod} (hr : findRod r.id s = some r)
    (hold : r.location = .yard ∨ ∃ k, r.location = .magazine k) {loc : RodLocation}
    (hloc : loc = .yard ∨ ∃ k, loc = .magazine k ∧ k < 96) (hfree : slotBlocked r.id loc s = false) :
    Places (moveRod r.id loc s).rods s.joint.arm := by
  have hmem := (findRod_mem hr).1
  have hslot : ∀ k, loc = .magazine k → k < s.rods.magazine.length := by
    rintro k rfl
    obtain hl | ⟨k', hl, hk⟩ := hloc
    · cases hl
    · cases hl
      exact h.slots ▸ hk
  have hown : ∀ k, loc = .magazine k → slotRod k s = some r.id → loc = r.location := by
    rintro k rfl hk
    obtain ⟨q, hq, hid, hl⟩ := h.at_place (loc := .magazine k) (id := r.id) hk
    rw [← hl, h.eq_of_id hq hmem hid]
  have hopen : ∀ k, loc = .magazine k → slotRod k s = some r.id ∨ (slotRod k s = none ∧ reservedSlot s ≠ some k) := by
    rintro k rfl
    simpa [slotBlocked, slotOpen, or_iff_not_imp_left] using hfree
  refine h.move hmem (new := loc) (f := fun q => { q with location := loc }) (fun q => ⟨rfl, rfl⟩) ?_
    (by rw [moveRod_rods loc hr]) (by simp [moveRod_rods loc hr, h.slots]) (by simpa using h.stacked) ?_ ?_
  · obtain rfl | ⟨k, rfl, -⟩ := hloc
    · exact .inr rfl
    · obtain hk | ⟨hk, -⟩ := hopen k rfl
      · exact .inl (hown k rfl hk)
      · exact .inr hk
  · rintro (_ | k | _ | i)
    · simp [occupant, occupantAfter, eq_comm (a := RodLocation.yard)]
    · rw [moveRod_rods loc hr]
      exact occupant_setSlots hslot
    · obtain rfl | ⟨k, rfl, -⟩ := hloc <;> obtain hl | ⟨k', hl⟩ := hold <;> simp [occupant, occupantAfter, hl]
    · obtain rfl | ⟨k, rfl, -⟩ := hloc <;> obtain hl | ⟨k', hl⟩ := hold <;>
        simp [moveRod_rods _ hr, occupant, occupantAfter, hl]
  · intro a k ha hk
    have hnone := h.reserved a k ha hk
    have hne : loc ≠ .magazine k := by
      intro hl
      obtain hs | ⟨-, hs⟩ := hopen k hl
      · simp [slotRod, hnone] at hs
      · exact hs (reservedSlot_eq_some.2 ⟨a, ha, hk⟩)
    rw [moveRod_rods loc hr]
    simp only [setSlot_getElem?, hne, if_false]
    split <;> simp [hnone]

/-! ## Push and pop (R72, R73) -/

@[simp] theorem pushRod_keeps_rods (id peak : Nat) (s : State) :
    (pushRod id peak s).rods.magazine = s.rods.magazine ∧ (pushRod id peak s).rods.bitDepth = s.rods.bitDepth ∧
      (pushRod id peak s).rods.holeDepth = s.rods.holeDepth ∧
      (pushRod id peak s).rods.string = s.rods.string ++ [id] := ⟨rfl, rfl, rfl, rfl⟩

@[simp] theorem popRod_keeps_rods (id peak : Nat) (s : State) :
    (popRod id peak s).rods.magazine = s.rods.magazine ∧ (popRod id peak s).rods.bitDepth = s.rods.bitDepth ∧
      (popRod id peak s).rods.holeDepth = s.rods.holeDepth ∧
      (popRod id peak s).rods.string = s.rods.string.dropLast := ⟨rfl, rfl, rfl, rfl⟩

@[simp] theorem Rod.popped_id (peak footage rl ml : Nat) (r : Rod) : (r.popped peak footage rl ml).id = r.id := by
  unfold Rod.popped
  dsimp only
  split <;> rfl

@[simp] theorem Rod.popped_location (peak footage rl ml : Nat) (r : Rod) :
    (r.popped peak footage rl ml).location = .arm := by
  unfold Rod.popped
  dsimp only
  split <;> rfl

/-- The rod in the arm goes onto a string with room for it, and the arm is empty (R72). -/
theorem Places.push {s : State} {a : Arm} (h : Places s.rods (some a)) (hroom : s.rods.string.length < 400)
    (peak : Nat) : Places (pushRod a.rod peak s).rods none := by
  obtain ⟨r, hr, hid, harm⟩ := h.at_place (loc := .arm) (id := a.rod) rfl
  refine h.move hr (new := .string s.rods.string.length)
    (f := fun q => { q with location := .string s.rods.string.length, makeUps := satAdd Config.wordMax q.makeUps 1,
                            entryFootage := some s.rods.footage, makeUpPeak := some peak })
    (fun q => ⟨rfl, rfl⟩) (.inr (by simp [occupant])) (hid ▸ rfl)
    h.slots (by simp; omega) ?_ (by simp)
  rw [harm, hid]
  rintro (_ | k | _ | i)
  · simp [occupant, occupantAfter]
  · simp [occupant, occupantAfter]
  · simp [occupant, occupantAfter]
  · simp only [pushRod_keeps_rods, occupant, occupantAfter, RodLocation.string.injEq, reduceCtorEq, if_false]
    split
    · next hi => simp [hi]
    · next hi => simp only [List.getElem?_append, List.getElem?_singleton]; grind

/-- The top rod leaves the string for the empty arm (R73). -/
theorem Places.pop {s : State} {id : Nat} (h : Places s.rods none) (htop : s.rods.string.getLast? = some id)
    (peak : Nat) : Places (popRod id peak s).rods (some { rod := id, source := .string }) := by
  have hlast : s.rods.string[s.rods.string.length - 1]? = some id := by rw [← List.getLast?_eq_getElem?, htop]
  obtain ⟨r, hr, hid, hloc⟩ := h.at_place (loc := .string (s.rods.string.length - 1)) (id := id) hlast
  refine h.move hr (new := .arm) (f := Rod.popped peak s.rods.footage s.rods.rotatingLimit s.rods.makeUpLimit)
    (fun q => by simp) (.inr rfl) (hid ▸ rfl) h.slots (by simpa using Nat.le_succ_of_le h.stacked) ?_
    (by rintro _ k ⟨⟩ hk; cases hk)
  rw [hloc, hid]
  rintro (_ | k | _ | i)
  · simp [occupant, occupantAfter]
  · simp [occupant, occupantAfter]
  · simp [occupant, occupantAfter]
  · have hlen : 0 < s.rods.string.length := by
      have := (List.getElem?_eq_some_iff.1 hlast).1
      omega
    simp only [popRod_keeps_rods, occupant, occupantAfter, RodLocation.string.injEq, reduceCtorEq, if_false,
      List.getElem?_dropLast]
    grind

end Sys2Proof.Machine
end

