-- ==== Sys2Proof/Proofs/Joint.lean ====
section
/-! PROOFS. The joint controller keeps the laws: each of its changes of state, from a tag read to the end of a connection (spec
05). -/

namespace Sys2Proof.Machine

/-! ## A change of joint state -/

theorem jointLawful_enterJoint {j : JointState} {u : State}
    (harm : u.joint.arm.isSome = (decide (j = .loaded) || decide (j = .unloaded)))
    (htimer : j ≠ .breakPermit → u.joint.timer = 0) : jointLawful (enterJoint j u) := by
  refine ⟨by simpa using harm, ?_, by simpa using htimer⟩
  simp only [enterJoint_state, enterJoint_heldRef]
  intro hj
  rw [if_neg hj]

/-- A change of joint state keeps the laws where the arm, the timer and the rods' places suit the new state, and BREAK_PERMIT is
entered on a bled rest only; what the pressure was before does not matter. -/
theorem enterJoint_keeps_of_lines {j : JointState} {s u : State}
    (hlines : (u.flu.pumpAEnable, u.flu.pumpBEnable, u.circ.state, u.circ.mask) =
      (s.flu.pumpAEnable, s.flu.pumpBEnable, s.circ.state, s.circ.mask))
    (hcounts : countsLawful s → countsLawful u) (hbill : u.bill = s.bill)
    (hdepth : (u.rods.bitDepth, u.rods.holeDepth) = (s.rods.bitDepth, s.rods.holeDepth))
    (hbreak : j = .breakPermit → u.circ.state.resting = true ∧ bled u = true)
    (hjoint : jointLawful s → u.joint.arm.isSome = (decide (j = .loaded) || decide (j = .unloaded)) ∧
      (j ≠ .breakPermit → u.joint.timer = 0))
    (hrods : jointLawful s → rodsLawful s →
      Places u.rods u.joint.arm ∧ (j = .loaded → u.rods.string.length < 400)) : Keeps s (enterJoint j u) where
  outputs := by
    simp only [Prod.mk.injEq] at hlines
    obtain ⟨hpumpA, hpumpB, hstate, hmask⟩ := hlines
    rintro ⟨hA, hB, -, -, -⟩
    refine ⟨by simp [hpumpA, hstate, hmask, hA], by simp [hpumpB, hstate, hmask, hB], by simp, by simp, ?_⟩
    intro hj
    obtain ⟨hrest, hbled⟩ := hbreak (by simpa using hj)
    simpa [hrest, enterJoint_flu, bled] using hbled
  depth := depthLawful_congr (by simpa using hdepth)
  joint hs := jointLawful_enterJoint (hjoint hs).1 (hjoint hs).2
  seconds := secondsLawful_congr (by simp [secondsView, hbill])
  counts hs := countsLawful_congr (by simp [countsView, enterJoint_flu]) (hcounts hs)
  rods hj hr := (rodsLawful_iff _).2 (by simpa using hrods hj hr)

/-- The same for a change before which no field line and nothing of circulation has changed. -/
theorem enterJoint_keeps {j : JointState} {s u : State} (hflu : u.flu = s.flu) (hcirc : u.circ = s.circ)
    (hbill : u.bill = s.bill)
    (hdepth : (u.rods.bitDepth, u.rods.holeDepth) = (s.rods.bitDepth, s.rods.holeDepth))
    (hbreak : j = .breakPermit → s.circ.state.resting = true ∧ bled s = true)
    (hjoint : jointLawful s → u.joint.arm.isSome = (decide (j = .loaded) || decide (j = .unloaded)) ∧
      (j ≠ .breakPermit → u.joint.timer = 0))
    (hrods : jointLawful s → rodsLawful s →
      Places u.rods u.joint.arm ∧ (j = .loaded → u.rods.string.length < 400)) : Keeps s (enterJoint j u) :=
  enterJoint_keeps_of_lines (by rw [hflu, hcirc]) (countsLawful_congr (by rw [countsView, hflu, hcirc]; rfl)) hbill
    hdepth (by rw [bled, hflu, hcirc]; exact hbreak) hjoint hrods

/-- A change into READY and its recomputation. -/
theorem enterReady_keeps {s u : State} (h : Keeps s (enterJoint .ready u)) : Keeps s (enterReady u) :=
  h.trans (recomputeAtReady_keeps _)

/-- Where the arm law has the arm empty. -/
theorem jointLawful.arm_none {s : State} (h : jointLawful s) (hl : s.joint.state ≠ .loaded)
    (hu : s.joint.state ≠ .unloaded) : s.joint.arm = none := by
  obtain ⟨harm, -, -⟩ := h
  simpa [hl, hu] using harm

/-- BREAK_PERMIT or HELD is left for READY: the arm is empty there, and the timer is or becomes 0. -/
theorem enterReady_keeps_of_armless {s : State} {j : Joint} (harm : j.arm = s.joint.arm)
    (hl : s.joint.state ≠ .loaded) (hu : s.joint.state ≠ .unloaded) (htimer : jointLawful s → j.timer = 0) :
    Keeps s (enterReady { s with joint := j }) :=
  enterReady_keeps (enterJoint_keeps rfl rfl rfl rfl (fun h => by cases h)
    (fun hs => ⟨by simp [harm, jointLawful.arm_none hs hl hu], fun _ => htimer hs⟩)
    (fun _ hr => ⟨harm ▸ ((rodsLawful_iff s).1 hr).1, fun h => by cases h⟩))

theorem endBreakPermit_keeps {s : State} (h : s.joint.state = .breakPermit) : Keeps s (endBreakPermit s) :=
  enterReady_keeps_of_armless rfl (by simp [h]) (by simp [h]) fun _ => rfl

theorem enterReady_of_held_keeps {s : State} (h : s.joint.state = .held) : Keeps s (enterReady s) :=
  enterReady_keeps_of_armless rfl (by simp [h]) (by simp [h]) fun hs => hs.2.2 (by simp [h])

theorem expireBreakPermit_keeps (s : State) : Keeps s (expireBreakPermit s) := by
  unfold expireBreakPermit
  split
  · next h => exact endBreakPermit_keeps h.1
  · exact .refl s

theorem jointTick_keeps (s : State) : Keeps s (jointTick s) := by
  unfold jointTick
  split
  · next h =>
    have tick : Keeps s { s with joint.timer := s.joint.timer + 1 } :=
      .of_joint rfl fun hs => ⟨hs.1, hs.2.1, fun hne => absurd h hne⟩
    exact tick.trans (expireBreakPermit_keeps _)
  · exact .refl s

theorem heldSlotCleared_keeps (n : Nat) (s : State) : Keeps s (heldSlotCleared n s) := by
  unfold heldSlotCleared
  split
  · next h => exact enterReady_of_held_keeps h.1
  · exact .refl s

/-! ## Tag reads (R90, R91) -/

theorem loadRod_keeps {r : Rod} {s : State} (hready : s.joint.state = .ready) (hr : findRod r.id s = some r)
    (hloc : ∀ i, r.location ≠ .string i) (hroom : s.rods.string.length < 400) : Keeps s (loadRod r s) := by
  have armless : jointLawful s → s.joint.arm = none := fun hs =>
    jointLawful.arm_none hs (by simp [hready]) (by simp [hready])
  refine enterJoint_keeps (by simp) (by simp) (by simp) (by simp) (fun h => by cases h)
    (fun hs => ⟨by simp, fun _ => ?_⟩) (fun hs hrods => ⟨?_, fun _ => by simpa using hroom⟩)
  · simpa using hs.2.2 (by simp [hready])
  · have hp : Places s.rods none := armless hs ▸ ((rodsLawful_iff s).1 hrods).1
    refine hp.load hr ?_ ?_
    · rcases hl : r.location with _ | k | _ | i
      · exact .inl rfl
      · exact .inr ⟨k, rfl⟩
      · have hocc := hp.agrees.placed r (findRod_mem hr).1 (by simp [hl])
        rw [hl] at hocc
        cases hocc
      · exact absurd hl (hloc i)
    · intro k
      rcases r.location with _ | k' | _ | i <;> simp

theorem readTagReady_keeps (id : Nat) {s : State} (hready : s.joint.state = .ready) :
    Keeps s (readTagReady id s) := by
  unfold readTagReady
  split
  · exact .unseen (by simp)
  · next r hr =>
    obtain rfl := (findRod_mem hr).2
    have load : (∀ i, r.location ≠ .string i) → Keeps s
        (if r.status ≠ .serviceable then record .rodNotServiceable r.id r.status.code s
          else if Config.stringMax ≤ s.rods.string.length then record .stringFull r.id s.rods.string.length s
          else loadRod r s) := by
      intro hloc
      split
      · exact .unseen (by simp)
      · split
        · exact .unseen (by simp)
        · next hfull => exact loadRod_keeps hready hr hloc (Nat.lt_of_not_le hfull)
    split
    · exact .unseen (by simp)
    · next hl => exact load (by simp [hl])
    · next hl => exact load (by simp [hl])
    · next hl => exact load (by simp [hl])

theorem readTag_keeps (id : Nat) (s : State) : Keeps s (readTag id s) := by
  unfold readTag
  split
  · next h => exact readTagReady_keeps id h
  · split
    · split
      · exact .refl s
      · exact .unseen (by simp)
    · exact .refl s
  all_goals exact .refl s

/-! ## The end of an episode (R93 to R98) -/

@[simp] theorem pushArm_depth (peak : Nat) (s : State) :
    (pushArm peak s).rods.bitDepth = s.rods.bitDepth ∧ (pushArm peak s).rods.holeDepth = s.rods.holeDepth := by
  unfold pushArm
  split <;> simp

@[simp] theorem inspectArm_rods (s : State) :
    (inspectArm s).rods.magazine = s.rods.magazine ∧ (inspectArm s).rods.string = s.rods.string ∧
      (inspectArm s).rods.bitDepth = s.rods.bitDepth ∧ (inspectArm s).rods.holeDepth = s.rods.holeDepth := by
  unfold inspectArm
  split <;> simp [updateRod]

/-- In LOADED the arm holds a rod. -/
theorem jointLawful.arm_some {s : State} (h : jointLawful s)
    (hs : s.joint.state = .loaded ∨ s.joint.state = .unloaded) : ∃ a, s.joint.arm = some a := by
  obtain ⟨harm, -, -⟩ := h
  exact Option.isSome_iff_exists.1 (by obtain h | h := hs <;> simpa [h] using harm)

/-- A push out of LOADED leaves the rods in their places, the arm empty. -/
theorem pushArm_places {s : State} (peak : Nat) (h : s.joint.state = .loaded) (hj : jointLawful s)
    (hr : rodsLawful s) : Places (pushArm peak s).rods none := by
  obtain ⟨a, ha⟩ := hj.arm_some (.inl h)
  obtain ⟨hp, hroom⟩ := (rodsLawful_iff s).1 hr
  simpa [pushArm, ha] using (ha ▸ hp).push (hroom h) peak

theorem inspectArm_places {s : State} {arm : Option Arm} (h : Places s.rods arm) : Places (inspectArm s).rods arm := by
  unfold inspectArm
  split
  · exact h.update _ (f := fun r => { r with status := .inspect }) (fun q => ⟨rfl, rfl⟩) rfl rfl rfl
  · exact h

/-- A connection made or failed in LOADED ends with the rod on the string and the arm empty. -/
theorem enterJoint_of_pushed {s u : State} {j : JointState} (h : s.joint.state = .loaded) (hflu : u.flu = s.flu)
    (hcirc : u.circ = s.circ) (hbill : u.bill = s.bill)
    (hdepth : (u.rods.bitDepth, u.rods.holeDepth) = (s.rods.bitDepth, s.rods.holeDepth))
    (hj : j = .ready ∨ j = .held) (harm : u.joint.arm = none) (htimer : u.joint.timer = s.joint.timer)
    (hplaces : jointLawful s → rodsLawful s → Places u.rods none) : Keeps s (enterJoint j u) := by
  have hne : j ≠ .loaded ∧ j ≠ .unloaded ∧ j ≠ .breakPermit := by rcases hj with rfl | rfl <;> simp
  refine enterJoint_keeps hflu hcirc hbill hdepth (fun hb => absurd hb hne.2.2)
    (fun hs => ⟨by simp [harm, hne.1, hne.2.1], fun _ => htimer.trans (hs.2.2 (by simp [h]))⟩)
    (fun hs hr => ⟨harm ▸ hplaces hs hr, fun hl => absurd hl hne.1⟩)

theorem jointActivity_keeps (s : State) : Keeps s (jointActivity s) := .unseen rfl

theorem handJointMade_keeps (s : State) : Keeps s (handJointMade s) := by
  have trigger : Keeps s (takeTrigger .nextConnection s) := .unseen (by simp)
  exact trigger.trans (jointActivity_keeps _)

theorem jointMade_keeps (peak : Nat) {s : State} (h : s.joint.state = .loaded) : Keeps s (jointMade peak s) := by
  refine Keeps.trans (enterReady_keeps ?_) (handJointMade_keeps _)
  exact enterJoint_of_pushed h (by simp) (by simp) (by simp) (by simp) (.inl rfl) rfl (by simp)
    (pushArm_places peak h)

theorem jointOvertorque_keeps (peak : Nat) {s : State} (h : s.joint.state = .loaded) :
    Keeps s (jointOvertorque peak s) := by
  refine Keeps.trans ?_ (handJointMade_keeps _)
  exact enterJoint_of_pushed h (by simp) (by simp) (by simp) (by simp) (.inr rfl) rfl (by simp)
    fun hj hr => by simpa using inspectArm_places (pushArm_places peak h hj hr)

theorem jointBypass_keeps (peak : Nat) {s : State} (h : s.joint.state = .loaded) :
    Keeps s (jointBypass peak s) := by
  unfold jointBypass
  refine Keeps.trans ?_ (handJointMade_keeps _)
  split
  · exact enterJoint_of_pushed h (by simp) (by simp) (by simp) (by simp) (.inr rfl) rfl (by simp)
      fun hj hr => by simpa using inspectArm_places (pushArm_places peak h hj hr)
  · exact enterJoint_of_pushed h (by simp) (by simp) (by simp) (by simp) (.inr rfl) rfl (by simp)
      fun hj hr => by simpa using pushArm_places peak h hj hr

theorem jointBroken_keeps (peak : Nat) {s : State} (h : s.joint.state = .breakPermit) :
    Keeps s (jointBroken peak s) := by
  unfold jointBroken
  split
  · next id htop =>
    refine Keeps.trans ?_ (jointActivity_keeps _)
    refine enterJoint_keeps (by simp) (by simp) (by simp) (by simp) (fun hb => by cases hb)
      (fun _ => ⟨rfl, fun _ => rfl⟩) (fun hj hr => ⟨?_, fun hl => by cases hl⟩)
    have harm : s.joint.arm = none := hj.arm_none (by simp [h]) (by simp [h])
    exact (harm ▸ ((rodsLawful_iff s).1 hr).1).pop htop peak
  · exact .refl s

/-- An episode is judged a made joint, an overtorque or a bypass in LOADED only (R93 to R96). -/
theorem loaded_of_judged {e : Episode} {s : State}
    (h : judgeEpisode e s = .made ∨ judgeEpisode e s = .overtorque ∨ judgeEpisode e s = .bypass) :
    s.joint.state = .loaded := by
  unfold judgeEpisode at h
  cases hs : s.joint.state with
  | loaded => rfl
  | breakPermit =>
    simp only [hs] at h
    split at h <;> simp at h
  | ready | unloaded | held => simp [hs] at h

/-- An episode is judged a break in BREAK_PERMIT only (R98). -/
theorem breakPermit_of_judged {e : Episode} {s : State} (h : judgeEpisode e s = .broken) :
    s.joint.state = .breakPermit := by
  unfold judgeEpisode at h
  cases hs : s.joint.state with
  | breakPermit => rfl
  | loaded =>
    simp only [hs] at h
    repeat' split at h
    all_goals cases h
  | ready | unloaded | held => simp [hs] at h

theorem applyOutcome_keeps {o : EpisodeOutcome} (peak : Nat) {s : State}
    (hloaded : o = .made ∨ o = .overtorque ∨ o = .bypass → s.joint.state = .loaded)
    (hbroken : o = .broken → s.joint.state = .breakPermit) : Keeps s (applyOutcome o peak s) := by
  cases o with
  | made => exact jointMade_keeps _ (hloaded (by simp))
  | overtorque => exact jointOvertorque_keeps _ (hloaded (by simp))
  | bypass => exact jointBypass_keeps _ (hloaded (by simp))
  | broken => exact jointBroken_keeps _ (hbroken rfl)
  | short | stray => exact record_keeps _ _ _ s
  | ignored => exact .refl s

theorem endEpisode_keeps (e : Episode) (s : State) : Keeps s (endEpisode e s) := by
  have ended : Keeps s { s with
    joint.episode := none, joint.last := some { peak := e.peak, outcome := judgeEpisode e s } } := .unseen rfl
  exact ended.trans (applyOutcome_keeps e.peak loaded_of_judged breakPermit_of_judged)

theorem torqueSample_keeps (good : Option Nat) (s : State) : Keeps s (torqueSample good s) := by
  unfold torqueSample
  split
  · exact .refl s
  · split
    · split
      · exact .unseen rfl
      · exact .refl s
    · split
      · exact .unseen rfl
      · split
        · exact endEpisode_keeps _ s
        · exact .refl s

/-! ## Requests (R89, R99 to R104) -/

theorem takeSetJointLimits_keeps (a b c d e : Nat) (s : State) : Keeps s (takeSetJointLimits a b c d e s).1 := by
  unfold takeSetJointLimits
  split
  · exact .unseen rfl
  · exact .refl s

theorem takeRequestBreak_keeps (s : State) : Keeps s (takeRequestBreak s).1 := by
  unfold takeRequestBreak
  split
  · exact .refl s
  · next hready =>
    split
    · exact .refl s
    · split
      · exact .refl s
      · next hrest =>
        have hstate : s.joint.state = .ready := not_not.1 hready
        have armless : jointLawful s → s.joint.arm = none := fun hs =>
          jointLawful.arm_none hs (by simp [hstate]) (by simp [hstate])
        exact enterJoint_keeps rfl rfl rfl rfl (fun _ => by simpa using hrest)
          (fun hs => ⟨by simp [armless hs], fun hne => absurd rfl hne⟩)
          (fun _ hr => ⟨((rodsLawful_iff s).1 hr).1, fun hl => by cases hl⟩)

/-- The rod in the arm goes to the yard or to an empty slot, and READY follows with the arm empty (R101, R102, R107). -/
theorem clearArm_keeps {s : State} {a : Arm} {loc : RodLocation} (harm : s.joint.arm = some a)
    (hstate : s.joint.state = .loaded ∨ s.joint.state = .unloaded)
    (hloc : rodsLawful s → loc = .yard ∨ ∃ k, loc = .magazine k ∧ s.rods.magazine[k]? = some none) :
    Keeps s (clearArmToReady (moveRod a.rod loc s)) := by
  refine enterReady_keeps (enterJoint_keeps (by simp) (by simp) (by simp) (by simp) (fun hb => by cases hb)
    (fun hs => ⟨rfl, fun _ => ?_⟩) (fun _ hr => ⟨?_, fun hl => by cases hl⟩))
  · simpa using hs.2.2 (by obtain h | h := hstate <;> simp [h])
  · exact (harm ▸ ((rodsLawful_iff s).1 hr).1).unload (hloc hr)

/-- READY follows with the arm empty where no rod was in it. -/
theorem clearArm_keeps_of_none {s : State} (harm : s.joint.arm = none)
    (hstate : s.joint.state = .loaded ∨ s.joint.state = .unloaded) : Keeps s (clearArmToReady s) := by
  have no : ¬ jointLawful s := fun hs => by
    obtain ⟨a, ha⟩ := hs.arm_some hstate
    rw [harm] at ha
    cases ha
  exact enterReady_keeps (enterJoint_keeps rfl rfl rfl rfl (fun hb => by cases hb) (fun hs => absurd hs no)
    (fun hs => absurd hs no))

theorem clearArm_returnRod_keeps {s : State} (h : s.joint.state = .loaded) :
    Keeps s (clearArmToReady (returnRod s)) := by
  unfold returnRod
  split
  · next a ha =>
    refine clearArm_keeps ha (.inl h) fun hr => ?_
    cases hsrc : a.source with
    | slot k => exact .inr ⟨k, rfl, ((rodsLawful_iff s).1 hr).1.reserved a k ha hsrc⟩
    | yard | string => exact .inl rfl
  · next ha => exact clearArm_keeps_of_none ha (.inl h)

theorem destinationOf_cases {code : Nat} {loc : RodLocation} (h : destinationOf code = some loc) :
    loc = .yard ∨ ∃ k, loc = .magazine k ∧ k < 96 := by
  unfold destinationOf at h
  split at h
  · next hc => exact .inr ⟨code, (Option.some.inj h).symm, hc⟩
  · split at h
    · exact .inl (Option.some.inj h).symm
    · cases h

theorem takeRackRod_keeps (d : Nat) (s : State) : Keeps s (takeRackRod d s).1 := by
  unfold takeRackRod
  split
  · exact .refl s
  · next hun =>
    have hstate : s.joint.state = .unloaded := not_not.1 hun
    split
    · exact .refl s
    · next loc hdest =>
      split
      · exact .refl s
      · next a ha =>
        split
        · exact .refl s
        · split
          · exact .refl s
          · next hblocked =>
            refine clearArm_keeps ha (.inr hstate) fun hr => ?_
            have hp := ((rodsLawful_iff s).1 hr).1
            obtain rfl | ⟨k, rfl, hk⟩ := destinationOf_cases hdest
            · exact .inl rfl
            · refine .inr ⟨k, rfl, ?_⟩
              have hnot : slotRod k s ≠ some a.rod := by
                intro hs
                obtain ⟨q, hq, hqid, hqloc⟩ := hp.at_place (loc := .magazine k) (id := a.rod) hs
                obtain ⟨r, hr', hrid, hrloc⟩ := hp.at_place (loc := .arm) (id := a.rod) (by simp [ha, occupant])
                rw [hp.eq_of_id hq hr' (hqid.trans hrid.symm), hrloc] at hqloc
                cases hqloc
              have hopen : slotRod k s = none := by
                have h2 : slotBlocked a.rod (.magazine k) s = false := by simpa using hblocked
                simp only [slotBlocked, hnot, ne_eq, not_false_eq_true, decide_true, Bool.true_and,
                  Bool.not_eq_false'] at h2
                simp only [slotOpen, Bool.and_eq_true, Option.isNone_iff_eq_none] at h2
                exact h2.1
              obtain ⟨v, hv⟩ : ∃ v, s.rods.magazine[k]? = some v :=
                ⟨_, List.getElem?_eq_getElem (by rw [hp.slots]; exact hk)⟩
              rw [slotRod, hv] at hopen
              rw [hv, show v = none from hopen]

theorem takeCancelJoint_keeps (s : State) : Keeps s (takeCancelJoint s).1 := by
  unfold takeCancelJoint
  split
  · next h => exact clearArm_returnRod_keeps h
  · next h => exact endBreakPermit_keeps h
  all_goals exact .refl s

theorem takeReleaseJoint_keeps (s : State) : Keeps s (takeReleaseJoint s).1 := by
  unfold takeReleaseJoint
  split
  · exact .refl s
  · next h =>
    split
    · exact .refl s
    · exact enterReady_of_held_keeps (not_not.1 h)

end Sys2Proof.Machine
end

