-- ==== Sys2Proof/Proofs/Circulation.lean ====
section
/-! PROOFS. The circulation monitor keeps the laws: its changes of state, its pulses, the window, stopping and its requests (spec
02). -/

namespace Sys2Proof.Machine

/-! ## Changes of circulation state (R28, R29) -/

/-- A change of circulation state keeps the laws unless it ends the rest that BREAK_PERMIT stands on. -/
theorem enterCirc_keeps {new : CircState} {mask : PumpMask} {s : State}
    (h : s.joint.state = .breakPermit → s.circ.state.resting = true → new.resting = true) :
    Keeps s (enterCirc new mask s) :=
  .of_circulation (by simp)
    (by
      rintro ⟨-, -, -, -, hbreak⟩
      refine ⟨by simp, by simp, by simp, by simp, fun hj => ?_⟩
      rw [enterCirc_jointState] at hj
      obtain ⟨hrest, hpressure⟩ := hbreak hj
      exact ⟨by simpa using h hj hrest, by simpa [enterCirc_flu] using hpressure⟩)
    (by
      rintro ⟨hw, -, -, -, -, hb, hphase⟩
      refine ⟨?_, by simp [Circulation.entered], by simp [Circulation.entered], by simp [Circulation.entered],
        by simp [Circulation.entered], by simpa [Circulation.entered] using hb, by simpa [enterCirc_flu] using hphase⟩
      simp only [enterCirc_circ, Circulation.entered]
      split
      · exact Nat.zero_le _
      · exact hw)

theorem enterCirc_keeps_of_not_resting {new : CircState} {mask : PumpMask} {s : State}
    (h : s.circ.state.resting = false) : Keeps s (enterCirc new mask s) :=
  enterCirc_keeps fun _ hr => by rw [h] at hr; cases hr

theorem enterCirc_keeps_of_ready {new : CircState} {mask : PumpMask} {s : State} (h : s.joint.state = .ready) :
    Keeps s (enterCirc new mask s) :=
  enterCirc_keeps fun hj => by rw [h] at hj; cases hj

/-! ## Strokes and return pulses (R20 to R23, R31, R42) -/

theorem repeatTimes_keeps {f : State → State} (h : ∀ s, Keeps s (f s)) (n : Nat) (s : State) :
    Keeps s (repeatTimes f n s) := by
  induction n generalizing s with
  | zero => exact .refl s
  | succ n ih => exact (h s).trans (ih (f s))

theorem lagLitre_keeps (s : State) : Keeps s (lagLitre s) := by
  have counted : Keeps s (recordSaturation 2 s.circ.vl (litre s.circ.vl) { s with circ.vl := litre s.circ.vl }) := .unseen (by simp)
  exact counted.trans (.unseen (t := lagClockAdvance _) (by simp))

theorem pumpedLitre_keeps (s : State) : Keeps s (pumpedLitre s) := by
  have counted : Keeps s (recordSaturation 0 s.circ.vp (litre s.circ.vp) { s with circ.vp := litre s.circ.vp }) := .unseen (by simp)
  unfold pumpedLitre
  dsimp only
  refine counted.trans ?_
  split
  · split
    · exact .after_unseen (lagLitre_keeps _) rfl
    · exact .unseen rfl
  · split
    · exact lagLitre_keeps _
    · exact .refl _

theorem completePrime_keeps (s : State) : Keeps s (completePrime s) := by
  unfold completePrime
  split
  · next h => exact enterCirc_keeps_of_not_resting (by simp [h.1, CircState.resting])
  · exact .refl s

theorem checkStaticFlow_keeps (s : State) : Keeps s (checkStaticFlow s) := by
  unfold checkStaticFlow
  split
  · exact .unseen (by simp)
  · exact .refl s

theorem returnedEffects_keeps (s : State) : Keeps s (returnedEffects s) := by
  unfold returnedEffects
  split
  · exact .after_unseen (completePrime_keeps _) rfl
  · split
    · exact .after_unseen (checkStaticFlow_keeps _) rfl
    · exact .refl s

theorem returnedLitre_keeps (s : State) : Keeps s (returnedLitre s) := by
  have counted : Keeps s (recordSaturation 1 s.circ.vr (litre s.circ.vr) { s with circ.vr := litre s.circ.vr }) := .unseen (by simp)
  unfold returnedLitre
  dsimp only
  refine counted.trans (Keeps.trans ?_ (returnedEffects_keeps _))
  split
  · exact .unseen rfl
  · exact .refl _

theorem stroke_keeps (p : Pump) (s : State) : Keeps s (stroke p s) := by
  have checked : Keeps s (checkEnable p s) := .unseen (by simp)
  exact checked.trans (.after_unseen (repeatTimes_keeps pumpedLitre_keeps _ _) rfl)

theorem returnPulse_keeps (s : State) : Keeps s (returnPulse s) :=
  .after_unseen (repeatTimes_keeps returnedLitre_keeps _ _) rfl

theorem acceptPulse_keeps (i : PulseInput) (s : State) : Keeps s (acceptPulse i s) := by
  cases i with
  | a | b => exact stroke_keeps _ s
  | r => exact returnPulse_keeps s

theorem setPulseLine_keeps (i : PulseInput) (l : PulseLine) (s : State) : Keeps s (setPulseLine i l s) := by
  cases i <;> exact .unseen rfl

theorem pulseActivity_keeps (i : PulseInput) (spans : List LineSpan) (s : State) :
    Keeps s (pulseActivity i spans s) :=
  (setPulseLine_keeps i _ s).trans (repeatTimes_keeps (acceptPulse_keeps i) _ _)

/-! ## The flow-balance window (R24 to R26, R32 to R34, R41) -/

theorem length_pushBin {w : List Bin} (h : w.length ≤ 12) (b : Bin) : (pushBin w b).length ≤ 12 := by
  unfold pushBin Config.windowBins
  split <;> simp <;> omega

theorem closeBin_keeps (s : State) : Keeps s (closeBin s) :=
  .of_counts rfl fun hs => ⟨length_pushBin hs.1 _, hs.2⟩

theorem handLoss_keeps (b : Bin) (s : State) : Keeps s (handLoss b s) := by
  unfold handLoss
  split
  · exact .unseen (by simp)
  · exact .refl s

theorem runAfter_le (holds : Bool) (run : Nat) : runAfter holds run ≤ 3 := by
  unfold runAfter
  split
  · exact Nat.min_le_right _ _
  · exact Nat.zero_le _

theorem updateRuns_keeps (p r : Nat) (s : State) : Keeps s (updateRuns p r s) :=
  .of_counts rfl (by
    rintro ⟨hw, -, -, -, -, hrest⟩
    exact ⟨hw, runAfter_le _ _, runAfter_le _ _, runAfter_le _ _, runAfter_le _ _, hrest⟩)

theorem checkGain_keeps (p r : Nat) (s : State) : Keeps s (checkGain p r s) := by
  unfold checkGain
  split
  · split
    · exact .refl s
    · dsimp only
      split <;> exact .unseen (by simp)
  · split
    · exact .unseen rfl
    · exact .refl s

theorem enterTotalLoss_keeps (p r : Nat) {s : State} (h : s.circ.state.resting = false) :
    Keeps s (enterTotalLoss p r s) :=
  (enterCirc_keeps_of_not_resting h).trans (record_keeps _ _ _ _)

theorem testRuns_keeps (p r : Nat) (s : State) : Keeps s (testRuns p r s) := by
  unfold testRuns
  split
  · next h =>
    have pumping : s.circ.state.resting = false := by simp [h, CircState.resting]
    split
    · exact enterTotalLoss_keeps p r pumping
    · split
      · exact (enterCirc_keeps_of_not_resting pumping).trans (record_keeps _ _ _ _)
      · exact .refl s
  · next h =>
    have pumping : s.circ.state.resting = false := by simp [h, CircState.resting]
    split
    · exact enterTotalLoss_keeps p r pumping
    · split
      · exact enterCirc_keeps_of_not_resting pumping
      · exact .refl s
  · next h =>
    have pumping : s.circ.state.resting = false := by simp [h, CircState.resting]
    split
    · split <;> exact enterCirc_keeps_of_not_resting pumping
    · exact .refl s
  all_goals exact .refl s

theorem evaluate_keeps (s : State) : Keeps s (evaluate s) := by
  unfold evaluate
  dsimp only
  split
  · exact .after_unseen ((updateRuns_keeps _ _ _).trans ((checkGain_keeps _ _ _).trans (testRuns_keeps _ _ _))) rfl
  · refine .of_counts rfl ?_
    rintro ⟨hw, -, -, -, -, hrest⟩
    exact ⟨hw, Nat.zero_le _, Nat.zero_le _, Nat.zero_le _, Nat.zero_le _, hrest⟩

theorem takeBinTick_keeps (s : State) : Keeps s (takeBinTick s) := by
  have closed : Keeps s (handLoss s.circ.openBin (closeBin s)) := (closeBin_keeps s).trans (handLoss_keeps _ _)
  unfold takeBinTick
  split
  · dsimp only
    split
    · exact closed.trans (evaluate_keeps _)
    · exact closed
  · exact .refl s

/-! ## Stopping and priming (R31, R35, R36) -/

/-- A change of the bleed hold to a count within its range. -/
theorem bleedHold_keeps {s : State} (holding : Bool) (timer : Nat) {count : Nat}
    (h : s.circ.bleedCount ≤ 10 → count ≤ 10) :
    Keeps s { s with circ.bleedHolding := holding, circ.stopTimer := timer, circ.bleedCount := count } :=
  .of_counts rfl (by
    rintro ⟨hw, h1, h2, h3, h4, hb, hphase⟩
    exact ⟨hw, h1, h2, h3, h4, h hb, hphase⟩)

theorem bleedSample_keeps (good : Option Nat) (s : State) : Keeps s (bleedSample good s) := by
  unfold bleedSample
  split
  · split
    · split
      · split
        · exact .refl s
        · exact bleedHold_keeps true s.circ.stopTimer fun _ => Nat.zero_le _
      · exact bleedHold_keeps false s.circ.stopTimer fun _ => Nat.zero_le _
    · exact bleedHold_keeps false s.circ.stopTimer fun _ => Nat.zero_le _
  · exact .refl s

theorem confirmBleed_keeps (s : State) : Keeps s (confirmBleed s) := by
  unfold confirmBleed
  split
  · exact enterCirc_keeps fun _ _ => rfl
  · exact .refl s

theorem expireStop_keeps (s : State) : Keeps s (expireStop s) := by
  unfold expireStop
  split
  · exact (enterCirc_keeps fun _ _ => rfl).trans (record_keeps _ _ _ _)
  · exact .refl s

theorem stoppingTick_keeps (s : State) : Keeps s (stoppingTick s) := by
  refine Keeps.trans (bleedHold_keeps s.circ.bleedHolding (s.circ.stopTimer + 1) fun h => ?_)
    ((confirmBleed_keeps _).trans (expireStop_keeps _))
  split
  · exact Nat.min_le_right _ _
  · exact h

theorem expirePrime_keeps (s : State) : Keeps s (expirePrime s) := by
  unfold expirePrime
  split
  · next h =>
    exact (enterCirc_keeps_of_not_resting (by simp [h.1, CircState.resting])).trans (record_keeps _ _ _ _)
  · exact .refl s

theorem circulationTick_keeps (s : State) : Keeps s (circulationTick s) := by
  unfold circulationTick
  split
  · exact .after_unseen (expirePrime_keeps _) rfl
  · exact stoppingTick_keeps s
  all_goals exact .refl s

/-! ## Requests (R18, R19, R27, R30, R35 to R40) -/

theorem takeSetPump_keeps (a b c : Nat) (s : State) : Keeps s (takeSetPump a b c s).1 := by
  unfold takeSetPump
  split
  · exact .refl s
  · split
    · exact .refl s
    · split
      · exact .refl s
      · dsimp only
        split <;> exact .unseen rfl

theorem takeSetReturnMeter_keeps (w : Nat) (s : State) : Keeps s (takeSetReturnMeter w s).1 := by
  unfold takeSetReturnMeter
  split
  · exact .unseen rfl
  · exact .refl s

theorem takeSetFlowBalance_keeps (a b c d e : Nat) (s : State) : Keeps s (takeSetFlowBalance a b c d e s).1 := by
  unfold takeSetFlowBalance
  split
  · exact .unseen rfl
  · exact .refl s

theorem takeStartCirculation_keeps (mask : Nat) (s : State) : Keeps s (takeStartCirculation mask s).1 := by
  unfold takeStartCirculation
  split
  · exact .refl s
  · split
    · exact .refl s
    · split
      · exact .refl s
      · next h => exact .after_unseen (enterCirc_keeps_of_ready (not_not.1 h)) rfl

theorem takeStopCirculation_keeps (s : State) : Keeps s (takeStopCirculation s).1 := by
  unfold takeStopCirculation
  split
  · next h =>
    refine (bleedHold_keeps false 0 fun _ => Nat.zero_le _).trans (enterCirc_keeps_of_not_resting ?_)
    cases hs : s.circ.state <;> simp_all [CircState.resting, CircState.pumping]
  · exact .refl s

theorem takeConfirmStop_keeps (s : State) : Keeps s (takeConfirmStop s).1 := by
  unfold takeConfirmStop
  split
  · exact enterCirc_keeps fun _ _ => rfl
  · exact .refl s

theorem takeResetCirculation_keeps (s : State) : Keeps s (takeResetCirculation s).1 := by
  have still : Keeps s (enterCirc .still .empty
      { s with circ.primeCount := 0, circ.primeTimer := 0, circ.stopTimer := 0, circ.bleedHolding := false,
               circ.bleedCount := 0 }) :=
    (bleedHold_keeps false 0 fun _ => Nat.zero_le _).trans (.after_unseen (enterCirc_keeps fun _ _ => rfl) rfl)
  unfold takeResetCirculation
  dsimp only
  split
  · exact still
  · exact still.trans (record_keeps _ _ _ _)

theorem takePumpTest_keeps (p : Nat) (s : State) : Keeps s (takePumpTest p s).1 := by
  unfold takePumpTest
  split
  · exact .refl s
  · split
    · exact .refl s
    · split
      · exact .refl s
      · split
        · exact .refl s
        · next h => exact .after_unseen (enterCirc_keeps_of_ready (not_not.1 h)) rfl

end Sys2Proof.Machine
end

