-- ==== Sys2Proof/Proofs/Billing.lean ====
section
/-! PROOFS. The billing clock, the field lines, the registry, the job and the starts keep the laws (specs 01, 04, 08, 10). -/

namespace Sys2Proof.Machine

/-! ## The count of a second (R153, R154) -/

theorem sum_modify_succ {l : List Nat} {i : Nat} (h : i < l.length) : (l.modify i (· + 1)).sum = l.sum + 1 := by
  induction l generalizing i with
  | nil => simp at h
  | cons x rest ih =>
    cases i with
    | zero => simp; omega
    | succ i => simp [ih (by simpa using h)]; omega

theorem getElem_le_sum {l : List Nat} {i n : Nat} (h : l[i]? = some n) : n ≤ l.sum :=
  List.le_sum_of_mem (List.mem_of_getElem? h)

/-- A saturating count of an entry below the limit is a count. -/
theorem modify_satAdd_eq {l : List Nat} {i : Nat} (h : l.sum < Config.counterMax) :
    (setAt l i fun n => satAdd Config.counterMax n 1) = l.modify i (· + 1) := by
  refine List.ext_getElem? fun k => ?_
  rw [getElem?_setAt, List.getElem?_modify]
  split
  · cases hk : l[k]? with
    | none => rfl
    | some n =>
      have hle := getElem_le_sum hk
      simp [satAdd_of_le (limit := Config.counterMax) (a := n) (b := 1) (by omega)]
  · simp

theorem categoryCode_lt (c : Category) : categoryCode c < 7 := by cases c <;> decide

/-- A unit takes 36 off its residue and nothing else off the billing clock (R154). -/
theorem billUnit_bill (c : Category) (s : State) :
    (billUnit c s).bill =
      { s.bill with
        residues := if 36 ≤ residueOf c s then setAt s.bill.residues (categoryCode c) fun r => r - 36
          else s.bill.residues } := by
  unfold billUnit Config.unitSeconds
  split <;> simp

/-- What a second's count does to the residue of its category. -/
def residueAfter (n : Nat) : Nat := if n = 35 then 0 else n + 1

/-- A second counted: its total, the running seconds and its residue, which goes over at 36 (R153, R154). -/
theorem countSecond_bill {c : Category} {s : State} (h : ∀ r ∈ s.bill.residues, r < 36) :
    (countSecond c s).bill =
      { s.bill with
        totals := setAt s.bill.totals (categoryCode c) fun n => satAdd Config.counterMax n 1,
        running := satAdd Config.counterMax s.bill.running 1,
        residues := setAt s.bill.residues (categoryCode c) residueAfter,
        last := some c } := by
  have residues : (billUnit c (countCategory c s)).bill.residues =
      setAt s.bill.residues (categoryCode c) residueAfter := by
    have hof : residueOf c (countCategory c s) = (s.bill.residues[categoryCode c]?.map (· + 1)).getD 0 := by
      simp [residueOf, countCategory]
    rw [billUnit_bill, hof]
    cases hc : s.bill.residues[categoryCode c]? with
    | none =>
      have same : ∀ f, setAt s.bill.residues (categoryCode c) f = s.bill.residues := fun f =>
        List.ext_getElem? fun k => by
          rw [getElem?_setAt]
          split
          · next hk => rw [← hk, hc, Option.map_none]
          · rfl
      simp [countCategory, same]
    | some n =>
      have hn : n < 36 := h n (List.mem_of_getElem? hc)
      simp only [Option.map_some, Option.getD_some, countCategory]
      refine List.ext_getElem? fun k => ?_
      by_cases h35 : n = 35
      · rw [if_pos (by omega), getElem?_setAt, getElem?_setAt, getElem?_setAt]
        split
        · next hk => simp [← hk, hc, h35, residueAfter]
        · rfl
      · rw [if_neg (by omega), getElem?_setAt, getElem?_setAt]
        split
        · next hk => simp [← hk, hc, h35, residueAfter]
        · rfl
  have fields : (countSecond c s).bill = { (billUnit c (countCategory c s)).bill with last := some c } := by
    unfold countSecond
    dsimp only
    split <;> simp
  calc (countSecond c s).bill
      = { (countCategory c s).bill with residues := (billUnit c (countCategory c s)).bill.residues, last := some c } := by
        rw [fields, billUnit_bill]
    _ = _ := by
        rw [residues]
        rfl

theorem countSecond_keeps (c : Category) (s : State) : Keeps s (countSecond c s) := by
  refine .of_seconds (by simp) ?_
  rintro ⟨htot, hres, hlt, hsum⟩
  have hbill := countSecond_bill (c := c) hlt
  refine ⟨by simp [hbill, htot], by simp [hbill, hres], ?_, ?_⟩
  · rw [hbill]
    intro r hr
    obtain ⟨k, hk⟩ := List.mem_iff_getElem?.1 hr
    rw [getElem?_setAt] at hk
    split at hk
    · obtain ⟨n, hn, rfl⟩ := Option.map_eq_some_iff.1 hk
      have := hlt n (List.mem_of_getElem? hn)
      unfold residueAfter
      split <;> omega
    · exact hlt r (List.mem_of_getElem? hk)
  · rw [hbill]
    dsimp only
    intro hrun
    have hbelow : s.bill.running + 1 < Config.counterMax := by
      unfold satAdd at hrun
      omega
    have htotal := hsum (by omega)
    rw [modify_satAdd_eq (by omega), sum_modify_succ (htot ▸ categoryCode_lt c), htotal, satAdd_of_le (by omega)]

theorem billingTick_keeps (s : State) : Keeps s (billingTick s) := by
  unfold billingTick
  dsimp only
  split
  · exact (countSecond_keeps _ s).trans (.unseen rfl)
  · exact .unseen rfl

theorem billUnit_keeps (c : Category) (s : State) : Keeps s (billUnit c s) := by
  refine .of_seconds (by simp) ?_
  rintro ⟨htot, hres, hlt, hsum⟩
  rw [secondsLawful, billUnit_bill]
  refine ⟨htot, ?_, ?_, hsum⟩ <;> dsimp only <;> split
  · simpa using hres
  · exact hres
  · intro r hr
    obtain ⟨k, hk⟩ := List.mem_iff_getElem?.1 hr
    rw [getElem?_setAt] at hk
    split at hk
    · obtain ⟨n, hn, rfl⟩ := Option.map_eq_some_iff.1 hk
      exact Nat.lt_of_le_of_lt (Nat.sub_le _ _) (hlt n (List.mem_of_getElem? hn))
    · exact hlt r (List.mem_of_getElem? hk)
  · exact hlt

/-! ## The pressure and the break permit (R88, R100) -/

/-- BREAK_PERMIT is left for READY, whatever the pressure has become. -/
theorem endBreakPermit_keeps_of_lines {s u : State} (h : s.joint.state = .breakPermit)
    (hlines : (u.flu.pumpAEnable, u.flu.pumpBEnable, u.circ.state, u.circ.mask) =
      (s.flu.pumpAEnable, s.flu.pumpBEnable, s.circ.state, s.circ.mask))
    (hcounts : countsLawful s → countsLawful u) (hrods : u.rods = s.rods) (hjoint : u.joint = s.joint)
    (hbill : u.bill = s.bill) : Keeps s (endBreakPermit u) := by
  have armless : jointLawful s → s.joint.arm = none := fun hs => hs.arm_none (by simp [h]) (by simp [h])
  refine enterReady_keeps (enterJoint_keeps_of_lines hlines hcounts hbill (by simp [hrods]) (fun hb => by cases hb)
    (fun hs => ⟨by simp [hjoint, armless hs], fun _ => rfl⟩) (fun hs hr => ⟨?_, fun hl => by cases hl⟩))
  simpa [hrods, hjoint] using ((rodsLawful_iff s).1 hr).1

/-- A change of the pressure or of the bleed limit that leaves BREAK_PERMIT on a bled standpipe. -/
theorem keeps_of_bled {s u : State}
    (hlines : ((u.flu.pumpAEnable, u.flu.pumpBEnable, u.flu.makeUpPermit, u.flu.breakPermit), u.circ.state,
        u.circ.mask) =
      ((s.flu.pumpAEnable, s.flu.pumpBEnable, s.flu.makeUpPermit, s.flu.breakPermit), s.circ.state, s.circ.mask))
    (hcounts : countsLawful s → countsLawful u) (hrods : u.rods = s.rods) (hjoint : u.joint = s.joint)
    (hbill : u.bill = s.bill) (hbled : s.joint.state = .breakPermit → breakLawful s →
      u.flu.pressure.fault = false ∧ u.flu.pressure.value ≤ u.circ.limits.bleedLimit) : Keeps s u := by
  refine .of_circulation (by simp [hrods, hjoint, hbill]) ?_ hcounts
  simp only [Prod.mk.injEq] at hlines
  obtain ⟨⟨hA, hB, hM, hP⟩, hstate, hmask⟩ := hlines
  unfold commandsStand
  rw [hA, hB, hM, hP, hstate, hmask, hjoint]
  rintro ⟨h1, h2, h3, h4, hbreak⟩
  refine ⟨h1, h2, h3, h4, fun hj => ?_⟩
  rw [hjoint] at hj
  exact ⟨hstate ▸ (hbreak hj).1, hbled hj hbreak⟩

theorem checkBleedLimit_keeps (l : CircLimits) (s : State) :
    Keeps s (checkBleedLimit { s with circ.limits := l }) := by
  unfold checkBleedLimit
  split
  · next h => exact endBreakPermit_keeps_of_lines h.1 rfl id rfl rfl rfl
  · next h =>
    refine keeps_of_bled rfl id rfl rfl rfl fun hj hbreak => ⟨(hbreak hj).2.1, ?_⟩
    exact Nat.le_of_not_lt fun hlt => h ⟨hj, hlt⟩

theorem takeSetCirculationLimits_keeps (a b c d e : Nat) (s : State) :
    Keeps s (takeSetCirculationLimits a b c d e s).1 := by
  unfold takeSetCirculationLimits
  split
  · exact checkBleedLimit_keeps _ s
  · exact .refl s

/-- A pressure sample: BREAK_PERMIT stays only on a good value at or below the bleed limit (R100). -/
theorem pressureSample_keeps (current : Nat) (s : State) : Keeps s (sample .pressure current s) := by
  unfold sample
  dsimp only [deliverSample, channelState, setChannelState]
  generalize hnow : ChannelState.sampled current s.flu.pressure = now
  have hrec := recordFault_frame .pressure current s.flu.pressure { s with flu.pressure := now }
  generalize recordFault .pressure current s.flu.pressure { s with flu.pressure := now } = w at hrec
  obtain ⟨-, hflu, hcirc, -, hrods, hjoint, -, -, hbill, -⟩ := hrec
  have hb := bleedSample_frame now.handedOn w
  have hstay : (bleedSample now.handedOn w).circ.state = s.circ.state ∧
      (bleedSample now.handedOn w).circ.mask = s.circ.mask ∧
      (bleedSample now.handedOn w).circ.limits = s.circ.limits := by
    unfold bleedSample
    repeat' split
    all_goals simp [hcirc]
  have hcounts : countsLawful s → countsLawful (bleedSample now.handedOn w) := fun hs =>
    (bleedSample_keeps now.handedOn w).counts (countsLawful_congr (by simp [countsView, hflu, hcirc]) hs)
  generalize bleedSample now.handedOn w = u at hb hstay hcounts
  obtain ⟨-, hflu', -, hrods', hjoint', -, -, hbill', -⟩ := hb
  have fl : u.flu = { s.flu with pressure := now } := hflu'.trans hflu
  have rd : u.rods = s.rods := hrods'.trans hrods
  have jt : u.joint = s.joint := hjoint'.trans hjoint
  have bl : u.bill = s.bill := hbill'.trans hbill
  unfold jointPressure
  split
  · next h =>
    have hs : s.joint.state = .breakPermit := jt ▸ h
    have ended : Keeps s (endBreakPermit u) :=
      endBreakPermit_keeps_of_lines hs (by simp [fl, hstay.1, hstay.2.1]) hcounts rd jt bl
    split
    · next v hv =>
      split
      · exact ended
      · next hle =>
        have hgood : now.fault = false ∧ now.value = v := by
          unfold ChannelState.handedOn at hv
          split at hv
          · cases hv
          · next hf => exact ⟨by simpa using hf, Option.some.inj hv⟩
        refine keeps_of_bled (by simp [fl, hstay.1, hstay.2.1]) hcounts rd jt bl fun _ _ => ?_
        simp only [fl]
        exact ⟨hgood.1, by rw [hgood.2]; omega⟩
    · exact ended
  · next h =>
    exact keeps_of_bled (by simp [fl, hstay.1, hstay.2.1]) hcounts rd jt bl fun hj => absurd (jt ▸ hj) h

/-! ## Field lines (spec 01) -/

/-- A change of a channel other than the pressure, and of the pressure's full scale or good count. -/
theorem setChannelState_keeps {ch : Channel} {c : ChannelState} {s : State}
    (h : ch = .pressure → c.fault = s.flu.pressure.fault ∧ c.value = s.flu.pressure.value) :
    Keeps s (setChannelState ch c s) := by
  cases ch with
  | pressure =>
    obtain ⟨hf, hv⟩ := h rfl
    exact .unseen (by simp [setChannelState, hf, hv])
  | load | height | torque => exact .unseen rfl

theorem recordFault_keeps (ch : Channel) (current : Nat) (was : ChannelState) (s : State) :
    Keeps s (recordFault ch current was s) := .unseen (by simp)

theorem sample_keeps (ch : Channel) (current : Nat) (s : State) : Keeps s (sample ch current s) := by
  cases ch with
  | pressure => exact pressureSample_keeps current s
  | load =>
    exact (setChannelState_keeps (ch := .load) nofun).trans ((recordFault_keeps _ _ _ _).trans (loadSample_keeps _ _))
  | height =>
    exact (setChannelState_keeps (ch := .height) nofun).trans ((recordFault_keeps _ _ _ _).trans (heightSample_keeps _ _))
  | torque =>
    exact (setChannelState_keeps (ch := .torque) nofun).trans ((recordFault_keeps _ _ _ _).trans (torqueSample_keeps _ _))

theorem readerChar_keeps (c : ReaderChar) (s : State) : Keeps s (readerChar c s) := by
  unfold readerChar
  split
  · split
    · exact .unseen rfl
    · exact .refl s
  · split
    · exact .unseen rfl
    · dsimp only
      split
      · exact .after_unseen (readTag_keeps _ _) rfl
      · exact .unseen rfl

theorem readerChars_keeps (chars : List ReaderChar) (s : State) : Keeps s (readerChars chars s) := by
  induction chars generalizing s with
  | nil => exact .refl s
  | cons c rest ih => exact (readerChar_keeps c s).trans (ih _)

theorem dayBoundary_keeps (s : State) : Keeps s (dayBoundary s) := .unseen (by simp)

theorem clockTick_keeps (s : State) : Keeps s (clockTick s) := by
  unfold clockTick
  dsimp only
  split
  · split
    · exact .unseen rfl
    · exact .after_unseen (dayBoundary_keeps _) rfl
  · exact .unseen rfl

theorem phaseTick_keeps (s : State) : Keeps s (phaseTick s) := by
  unfold phaseTick
  split
  · have back : Keeps s { s with flu.binPhase := 0, flu.binTickTaken := false } :=
      .of_counts rfl (by
        rintro ⟨hw, h1, h2, h3, h4, hb, -⟩
        exact ⟨hw, h1, h2, h3, h4, hb, Nat.zero_le _⟩)
    dsimp only
    split
    · exact back
    · exact back.trans (takeBinTick_keeps _)
  · next h =>
    refine .of_counts rfl ?_
    rintro ⟨hw, h1, h2, h3, h4, hb, hphase⟩
    exact ⟨hw, h1, h2, h3, h4, hb, Nat.lt_of_le_of_ne hphase h⟩

theorem secondTick_keeps (s : State) : Keeps s (secondTick s) :=
  (clockTick_keeps s).trans ((circulationTick_keeps _).trans ((jointTick_keeps _).trans
    ((billingTick_keeps _).trans (phaseTick_keeps _))))

theorem earlyBinTick_keeps (s : State) : Keeps s (earlyBinTick s) := by
  unfold earlyBinTick
  split
  · exact .after_unseen (takeBinTick_keeps _) rfl
  · exact .refl s

theorem takeSetChannel_keeps (channel fs : Nat) (s : State) : Keeps s (takeSetChannel channel fs s).1 := by
  unfold takeSetChannel
  split
  · exact .refl s
  · next ch _ =>
    split
    · refine setChannelState_keeps ?_
      rintro rfl
      exact ⟨rfl, rfl⟩
    · exact .refl s

theorem takeSetClock_keeps (time : Nat) (s : State) : Keeps s (takeSetClock time s).1 := by
  unfold takeSetClock applySetClock
  dsimp only
  split
  · dsimp only
    split
    · exact (dayBoundary_keeps s).trans (.unseen rfl)
    · exact .unseen rfl
  · exact .refl s

/-! ## The rods' requests (R67 to R71, R76, R81) -/

/-- A change of the rods that only the law of their places sees. -/
theorem keeps_of_places {s : State} {rods : Rods}
    (hdepth : (rods.bitDepth, rods.holeDepth) = (s.rods.bitDepth, s.rods.holeDepth))
    (hstring : rods.string = s.rods.string)
    (h : Places s.rods s.joint.arm → Places rods s.joint.arm) : Keeps s { s with rods := rods } :=
  .of_rods (by simpa using hdepth) fun _ hr => (rodsLawful_iff _).2
    (by simpa [hstring] using ((rodsLawful_iff s).1 hr).imp_left h)

theorem mem_insertRod {r q : Rod} {l : List Rod} : q ∈ insertRod r l ↔ q = r ∨ q ∈ l := by
  induction l with
  | nil => simp [insertRod]
  | cons x rest ih =>
    unfold insertRod
    split
    · simp
    · simp only [List.mem_cons, ih]
      tauto

theorem length_insertRod (r : Rod) (l : List Rod) : (insertRod r l).length = l.length + 1 := by
  induction l with
  | nil => rfl
  | cons x rest ih =>
    unfold insertRod
    split <;> simp [ih]

/-- A new id joins a registry in its order. -/
theorem sorted_insertRod {r : Rod} {l : List Rod} (h : (l.map (·.id)).Pairwise (· < ·))
    (hnew : ∀ q ∈ l, q.id ≠ r.id) : ((insertRod r l).map (·.id)).Pairwise (· < ·) := by
  induction l with
  | nil => simp [insertRod]
  | cons x rest ih =>
    rw [List.map_cons, List.pairwise_cons] at h
    obtain ⟨hx, hrest⟩ := h
    unfold insertRod
    split
    · next hlt =>
      rw [List.map_cons, List.pairwise_cons, List.map_cons, List.pairwise_cons]
      refine ⟨fun i hi => ?_, hx, hrest⟩
      obtain rfl | hi := List.mem_cons.1 hi
      · exact hlt
      · exact hlt.trans (hx i hi)
    · next hle =>
      rw [List.map_cons, List.pairwise_cons]
      refine ⟨fun i hi => ?_, ih hrest fun q hq => hnew q (List.mem_cons_of_mem _ hq)⟩
      obtain ⟨q, hq, rfl⟩ := List.mem_map.1 hi
      obtain rfl | hq := mem_insertRod.1 hq
      · have := hnew x (List.mem_cons_self ..)
        omega
      · exact hx _ (List.mem_map.2 ⟨q, hq, rfl⟩)

theorem Places.register {rods : Rods} {arm : Option Arm} (h : Places rods arm) {r : Rod} (hy : r.location = .yard)
    (hnew : ∀ q ∈ rods.registry, q.id ≠ r.id) (hfull : rods.registry.length < 448) :
    Places { rods with registry := insertRod r rods.registry } arm where
  sorted := sorted_insertRod h.sorted hnew
  registered := by
    rw [length_insertRod]
    omega
  slots := h.slots
  stacked := h.stacked
  agrees := by
    refine ⟨fun q hq hne => ?_, fun loc id ho => ?_⟩
    · obtain rfl | hq := mem_insertRod.1 hq
      · exact absurd hy hne
      · exact h.agrees.placed q hq hne
    · obtain ⟨q, hq, hid, hloc⟩ := h.agrees.held loc id ho
      exact ⟨q, mem_insertRod.2 (.inr hq), hid, hloc⟩
  reserved := h.reserved

theorem takeRegisterRod_keeps (a b c d e : Nat) (s : State) : Keeps s (takeRegisterRod a b c d e s).1 := by
  unfold takeRegisterRod
  split
  · exact .refl s
  · split
    · exact .refl s
    · split
      · exact .refl s
      · next hnew =>
        split
        · exact .refl s
        · next hfull =>
          refine keeps_of_places rfl rfl fun h => h.register rfl (fun q hq hid => hnew ?_) (Nat.lt_of_not_le hfull)
          obtain rfl : q.id = a := hid
          rw [h.findRod_eq hq]
          rfl

theorem Places.delist {rods : Rods} {arm : Option Arm} (h : Places rods arm) {r : Rod} (hr : r ∈ rods.registry)
    (hy : r.location = .yard) :
    Places { rods with registry := rods.registry.filter fun q => decide (q.id ≠ r.id) } arm where
  sorted := h.sorted.sublist (List.filter_sublist.map _)
  registered := (List.length_filter_le _ _).trans h.registered
  slots := h.slots
  stacked := h.stacked
  agrees := by
    refine ⟨fun q hq hne => h.agrees.placed q (List.mem_of_mem_filter hq) hne, fun loc id ho => ?_⟩
    obtain ⟨q, hq, rfl, rfl⟩ := h.agrees.held loc id ho
    refine ⟨q, List.mem_filter.2 ⟨hq, decide_eq_true fun hid => ?_⟩, rfl, rfl⟩
    rw [h.eq_of_id hq hr hid, hy] at ho
    cases ho
  reserved := h.reserved

theorem takeDelistRod_keeps (id : Nat) (s : State) : Keeps s (takeDelistRod id s).1 := by
  unfold takeDelistRod
  split
  · exact .refl s
  · next r hr =>
    split
    · exact .refl s
    · next hy =>
      obtain ⟨hmem, rfl⟩ := findRod_mem hr
      exact keeps_of_places rfl rfl fun h => h.delist hmem (not_not.1 hy)

theorem takePlaceRod_keeps (id d : Nat) (s : State) : Keeps s (takePlaceRod id d s).1 := by
  unfold takePlaceRod
  split
  · exact .refl s
  · next loc hdest =>
    split
    · exact .refl s
    · next r hr =>
      split
      · exact .refl s
      · next hloose =>
        split
        · exact .refl s
        · split
          · exact .refl s
          · next hfree =>
            obtain rfl := (findRod_mem hr).2
            have hold : r.location = .yard ∨ ∃ k, r.location = .magazine k := by
              rcases hl : r.location with _ | k | _ | i <;> simp [hl, RodLocation.handled] at hloose ⊢
            refine .of_rods (by simp) fun _ hrods => (rodsLawful_iff _).2 ?_
            simpa using ((rodsLawful_iff s).1 hrods).imp_left fun h =>
              h.place hr hold (destinationOf_cases hdest) (by simpa using hfree)

theorem takeSetRodStatus_keeps (id st : Nat) (s : State) : Keeps s (takeSetRodStatus id st s).1 := by
  unfold takeSetRodStatus
  split
  · exact .refl s
  · next status _ =>
    split
    · exact .refl s
    · exact keeps_of_places rfl rfl fun h =>
        h.update id (f := fun r => { r with status := status }) (fun q => ⟨rfl, rfl⟩) rfl rfl rfl

theorem takeSetRodLimits_keeps (a b : Nat) (s : State) : Keeps s (takeSetRodLimits a b s).1 := by
  unfold takeSetRodLimits
  split
  · exact .unseen rfl
  · exact .refl s

theorem takeSetDepthReference_keeps (a b : Nat) (s : State) : Keeps s (takeSetDepthReference a b s).1 := by
  unfold takeSetDepthReference
  split
  · exact .refl s
  · split
    · exact .refl s
    · exact .unseen rfl

theorem takeSetOverpullLimit_keeps (a : Nat) (s : State) : Keeps s (takeSetOverpullLimit a s).1 := by
  unfold takeSetOverpullLimit
  split
  · exact .unseen rfl
  · exact .refl s

/-! ## The remaining requests -/

theorem takeSetCategory_keeps (a : Nat) (s : State) : Keeps s (takeSetCategory a s).1 := by
  unfold takeSetCategory
  split
  · exact .unseen rfl
  · exact .refl s

theorem takeClearIncident_keeps (n : Nat) (s : State) : Keeps s (takeClearIncident n s).1 := by
  unfold takeClearIncident
  split
  · exact .refl s
  · dsimp only
    split
    · exact .after_unseen (heldSlotCleared_keeps n _) rfl
    · exact .refl s

theorem applyOpenJob_keeps (number client : Nat) (well : List Byte) (s : State) :
    Keeps s (applyOpenJob number client well s) := by
  have depth : Keeps s (openDepth s) :=
    .of_depth rfl fun hs => ⟨Nat.le_refl _, hs.1.trans hs.2⟩
  have circ : ∀ u, Keeps u (openCirculation u) := fun u => .unseen rfl
  have lag : ∀ u d, Keeps u (openLag d u) := fun u d => .unseen (by simp)
  have strata : ∀ u d, Keeps u (openStrata d u) := fun u d => .unseen (by simp)
  have pricing : ∀ u, Keeps u (openPricing u) := fun u => .unseen (by simp)
  have billing : ∀ u, Keeps u (openBilling u) := fun u =>
    .of_seconds (by simp) fun _ => ⟨rfl, rfl, by simp [openBilling], fun _ => rfl⟩
  have job : ∀ u : State, ∀ c, Keeps u (enterJob .opened { u with jobs.context := c }) := fun u c => .unseen (by simp)
  exact depth.trans ((circ _).trans ((lag _ _).trans ((strata _ _).trans ((pricing _).trans
    ((billing _).trans (job _ _))))))

theorem takeOpenJob_keeps (a b : Nat) (w : List Byte) (s : State) : Keeps s (takeOpenJob a b w s).1 := by
  unfold takeOpenJob
  repeat' split
  all_goals first
    | exact .refl s
    | exact applyOpenJob_keeps a b w s

theorem takeRequest_keeps (i : Instr) (s : State) : Keeps s (takeRequest i s).1 := by
  cases i
  case setChannel w a b => exact takeSetChannel_keeps a b s
  case setClock w a => exact takeSetClock_keeps a s
  case setPump w a b c => exact takeSetPump_keeps a b c s
  case setReturnMeter w a => exact takeSetReturnMeter_keeps a s
  case setFlowBalance w a b c d e => exact takeSetFlowBalance_keeps a b c d e s
  case setCirculationLimits w a b c d e => exact takeSetCirculationLimits_keeps a b c d e s
  case startCirculation w a => exact takeStartCirculation_keeps a s
  case stopCirculation w => exact takeStopCirculation_keeps s
  case confirmStop w => exact takeConfirmStop_keeps s
  case resetCirculation w => exact takeResetCirculation_keeps s
  case pumpTest w a => exact takePumpTest_keeps a s
  case registerRod w a b c d e => exact takeRegisterRod_keeps a b c d e s
  case delistRod w a => exact takeDelistRod_keeps a s
  case placeRod w a b => exact takePlaceRod_keeps a b s
  case setRodStatus w a b => exact takeSetRodStatus_keeps a b s
  case setRodLimits w a b => exact takeSetRodLimits_keeps a b s
  case setDepthReference w a b => exact takeSetDepthReference_keeps a b s
  case setOverpullLimit w a => exact takeSetOverpullLimit_keeps a s
  case setJointLimits w a b c d e => exact takeSetJointLimits_keeps a b c d e s
  case requestBreak w => exact takeRequestBreak_keeps s
  case rackRod w a => exact takeRackRod_keeps a s
  case cancelJoint w => exact takeCancelJoint_keeps s
  case releaseJoint w => exact takeReleaseJoint_keeps s
  case setCategory w a => exact takeSetCategory_keeps a s
  case clearIncident w a => exact takeClearIncident_keeps a s
  case openJob w a b c => exact takeOpenJob_keeps a b c s
  all_goals
    dsimp only [takeRequest]
    exact .unseen (by simp)

theorem eventOp_keeps {c : Instr} {f : State → State} (h : eventOp c = some f) (s : State) : Keeps s (f s) := by
  cases c <;> simp only [eventOp, Option.some.injEq, reduceCtorEq] at h <;> subst h
  case analogSample ch current => exact sample_keeps ch current s
  case pulseAccepted input spans => exact pulseActivity_keeps input spans s
  case primeComplete => exact completePrime_keeps s
  case flowWhileStill => exact checkStaticFlow_keeps s
  case tagRead chars => exact readerChars_keeps chars s
  case tagFrameTimeout => exact .unseen rfl
  case secondTick => exact secondTick_keeps s
  case billingUnit c => exact billUnit_keeps c s
  case binTick => exact earlyBinTick_keeps s
  case primeTimeout => exact expirePrime_keeps s
  case bleedConfirmed => exact confirmBleed_keeps s
  case stopTimeout => exact expireStop_keeps s
  case breakPermitTimeout => exact expireBreakPermit_keeps s
  all_goals exact .unseen (by simp)

end Sys2Proof.Machine
end

