-- ==== Sys2Proof/Proofs/Interlock.lean ====
section
/-! PROOFS. The starts, and the laws every step keeps: the interlock (O55) and the depths, the joint, the seconds, the counts and
the rods (O60). -/

namespace Sys2Proof.Machine

/-! ## The warm start (R206, log 9) -/

/-- The four outputs are low (R11). -/
def linesLow (f : FieldLines) : Prop :=
  f.pumpAEnable = false ∧ f.pumpBEnable = false ∧ f.makeUpPermit = false ∧ f.breakPermit = false

theorem settleCirculation_state (s : State) : (settleCirculation s).circ.state = .still := by
  unfold settleCirculation
  split
  · next h => exact h
  · simp [Circulation.settled]

/-- With the outputs low, settling circulation raises at most a permit that the joint state it finds commands (R46, R87). -/
theorem settleCirculation_flu {s : State} (h : linesLow s.flu) : ∃ makeUp break_ : Bool,
    (settleCirculation s).flu = { s.flu with makeUpPermit := makeUp, breakPermit := break_ } ∧
      (makeUp = true → s.joint.state = .loaded) ∧ (break_ = true → s.joint.state = .breakPermit) := by
  obtain ⟨hA, hB, hM, hP⟩ := h
  unfold settleCirculation
  split
  · exact ⟨s.flu.makeUpPermit, s.flu.breakPermit, rfl, by simp [hM], by simp [hP]⟩
  · refine ⟨decide (s.joint.state = .loaded), decide (s.joint.state = .breakPermit), ?_, by simp, by simp⟩
    simp [enterCirc_flu, CircState.pumping, CircState.resting, hA, hB]

theorem settleCirculation_joint (s : State) :
    (settleCirculation s).joint.state = s.joint.state ∧ (settleCirculation s).joint.arm = s.joint.arm := by
  unfold settleCirculation
  split <;> simp

theorem settleCirculation_keeps (s : State) : Keeps s (settleCirculation s) := by
  unfold settleCirculation
  split
  · next h =>
    refine .of_circulation rfl ?_ ?_
    · rintro ⟨hA, hB, hM, hP, hbreak⟩
      have hstate : s.circ.settled.state = s.circ.state := rfl
      exact ⟨by simpa [h, hstate, CircState.pumping] using hA, by simpa [h, hstate, CircState.pumping] using hB, hM, hP, hbreak⟩
    · rintro ⟨-, -, -, -, -, -, hphase⟩
      exact ⟨Nat.zero_le _, Nat.zero_le _, Nat.zero_le _, Nat.zero_le _, Nat.zero_le _, Nat.zero_le _, hphase⟩
  · have still : Keeps s (enterCirc .still .empty s) := enterCirc_keeps fun _ _ => rfl
    have cleared : ∀ u : State, Keeps u { u with circ := u.circ.settled } := fun u =>
      .of_counts rfl (by
        rintro ⟨-, -, -, -, -, -, hphase⟩
        exact ⟨Nat.zero_le _, Nat.zero_le _, Nat.zero_le _, Nat.zero_le _, Nat.zero_le _, Nat.zero_le _, hphase⟩)
    exact still.trans ((cleared _).trans (record_keeps _ _ _ _))

theorem orphanRod_keeps {a : Arm} {s : State} (harm : s.joint.arm = some a) (h : s.joint.state = .unloaded) :
    Keeps s (orphanRod a s) :=
  (clearArm_keeps harm (.inr h) fun _ => .inl rfl).trans (record_keeps _ _ _ _)

theorem settleJoint_keeps (s : State) : Keeps s (settleJoint s) := by
  have quiet : Keeps s { s with joint.episode := none, joint.timer := 0 } :=
    .of_joint rfl fun hs => ⟨hs.1, hs.2.1, fun _ => rfl⟩
  unfold settleJoint
  refine quiet.trans ?_
  split
  · exact .refl _
  · next h => exact clearArm_returnRod_keeps h
  · next h => exact enterReady_keeps_of_armless rfl (by simp [h]) (by simp [h]) fun _ => rfl
  · next h =>
    split
    · next a ha => exact orphanRod_keeps ha h
    · next ha =>
      have no : ¬ jointLawful { s with joint.episode := none, joint.timer := 0 } := fun hs => by
        obtain ⟨a, ha'⟩ := hs.arm_some (.inr h)
        rw [show s.joint.arm = some a from ha'] at ha
        cases ha
      exact enterReady_keeps (enterJoint_keeps rfl rfl rfl rfl (fun hb => by cases hb) (fun hs => absurd hs no)
        (fun hs => absurd hs no))
  · next h =>
    dsimp only
    split
    · exact .refl _
    · exact enterReady_of_held_keeps h

theorem clearArmToReady_flu (s : State) :
    (clearArmToReady s).flu = { s.flu with makeUpPermit := false, breakPermit := false } := enterReady_flu _

/-- Settling the joint leaves READY or a pending HELD, with both permits low (R87, R107). -/
theorem settleJoint_lines {s : State} (hmakeUp : s.flu.makeUpPermit = true → s.joint.state = .loaded)
    (hbreak : s.flu.breakPermit = true → s.joint.state = .breakPermit) :
    (settleJoint s).flu = { s.flu with makeUpPermit := false, breakPermit := false } ∧
      ((settleJoint s).joint.state = .ready ∨ (settleJoint s).joint.state = .held) := by
  have low : s.joint.state ≠ .loaded → s.joint.state ≠ .breakPermit →
      s.flu = { s.flu with makeUpPermit := false, breakPermit := false } := by
    intro h1 h2
    have hM := Bool.eq_false_iff.2 (mt hmakeUp h1)
    have hP := Bool.eq_false_iff.2 (mt hbreak h2)
    ext <;> simp [hM, hP]
  unfold settleJoint
  dsimp only
  split
  · next h => exact ⟨low (by simp [h]) (by simp [h]), .inl h⟩
  · exact ⟨by simp [clearArmToReady_flu], .inl (enterReady_state _)⟩
  · exact ⟨by simp [enterReady_flu], .inl (enterReady_state _)⟩
  · split
    · exact ⟨by simp [orphanRod, clearArmToReady_flu], .inl (by simp [orphanRod, clearArmToReady])⟩
    · exact ⟨by simp [enterReady_flu], .inl (enterReady_state _)⟩
  · next h =>
    split
    · exact ⟨low (by simp [h]) (by simp [h]), .inr h⟩
    · exact ⟨by simp [enterReady_flu], .inl (enterReady_state _)⟩

/-- The day mark follows the clock over the midnights passed while the clock was set (R15). -/
theorem startDayBoundary_flu (s : State) :
    (startDayBoundary s).flu =
      { s.flu with
        dayMark := if s.flu.clockUnset = false ∧ s.flu.dayMark < dayNumber s.flu.clock then dayNumber s.flu.clock
          else s.flu.dayMark } := by
  unfold startDayBoundary
  split <;> simp

/-- The fields of the field lines that a warm start of them leaves, with the day boundary that follows (R2, R15). -/
def FieldLines.restarted (lines : StartLines) (seconds : Nat) (f : FieldLines) : FieldLines :=
  { f.warmed lines seconds with
    dayMark := if f.clockUnset = false ∧ f.dayMark < dayNumber (min (f.clock + seconds) Config.clockMax) then
      dayNumber (min (f.clock + seconds) Config.clockMax) else f.dayMark }

/-- The last parts of a warm start change the field lines by the day boundary alone. -/
theorem warmStart_end {lines : StartLines} {seconds : Nat} {f : FieldLines} {v : State}
    (hflu : v.flu = f.warmed lines seconds) :
    (startDayBoundary (settleJob { v with bill.drillTimer := 0, bill.tripTimer := 0 })).flu =
        f.restarted lines seconds ∧
      (startDayBoundary (settleJob { v with bill.drillTimer := 0, bill.tripTimer := 0 })).circ.state = v.circ.state ∧
      (startDayBoundary (settleJob { v with bill.drillTimer := 0, bill.tripTimer := 0 })).joint.state =
        v.joint.state := by
  rw [startDayBoundary_flu]
  simp [hflu, FieldLines.restarted, FieldLines.warmed]

/-- The state between the circulation monitor's part of a warm start and the joint controller's. -/
def warmCirculation (lines : StartLines) (seconds : Nat) (s : State) : State :=
  settleCirculation (scanStore { s with link := .atStart, flu := s.flu.warmed lines seconds })

/-- The state between the joint controller's part of a warm start and the job controller's. -/
def warmJoint (lines : StartLines) (seconds : Nat) (s : State) : State :=
  settleJoint { warmCirculation lines seconds s with rods.overpull := false }

theorem warmStart_eq (lines : StartLines) (seconds : Nat) (s : State) :
    warmStart lines seconds s =
      startDayBoundary (settleJob { warmJoint lines seconds s with bill.drillTimer := 0, bill.tripTimer := 0 }) := rfl

theorem warmJoint_lines (lines : StartLines) (seconds : Nat) (s : State) :
    (warmJoint lines seconds s).flu = s.flu.warmed lines seconds ∧ (warmJoint lines seconds s).circ.state = .still ∧
      ((warmJoint lines seconds s).joint.state = .ready ∨ (warmJoint lines seconds s).joint.state = .held) := by
  have hstore : (scanStore { s with link := .atStart, flu := s.flu.warmed lines seconds }).flu =
      s.flu.warmed lines seconds := by simp
  unfold warmJoint warmCirculation
  generalize scanStore { s with link := .atStart, flu := s.flu.warmed lines seconds } = u at hstore
  have hlow : linesLow u.flu := hstore ▸ ⟨rfl, rfl, rfl, rfl⟩
  obtain ⟨m, b, hc, hm, hb⟩ := settleCirculation_flu hlow
  obtain ⟨hflu, hready⟩ := settleJoint_lines (s := { settleCirculation u with rods.overpull := false })
    (by simpa [hc, (settleCirculation_joint u).1] using hm) (by simpa [hc, (settleCirculation_joint u).1] using hb)
  refine ⟨?_, by simp [settleCirculation_state], hready⟩
  rw [hflu]
  simp [hc, hstore, FieldLines.warmed]

/-- What a warm start makes of the field lines, circulation and the joint: the outputs low, STILL, and READY or a pending
HELD. -/
theorem warmStart_lines (lines : StartLines) (seconds : Nat) (s : State) :
    (warmStart lines seconds s).flu = s.flu.restarted lines seconds ∧
      (warmStart lines seconds s).circ.state = .still ∧
      ((warmStart lines seconds s).joint.state = .ready ∨ (warmStart lines seconds s).joint.state = .held) := by
  obtain ⟨hflu, hcirc, hready⟩ := warmJoint_lines lines seconds s
  obtain ⟨h1, h2, h3⟩ := warmStart_end hflu
  exact ⟨h1, h2.trans hcirc, hready.imp h3.trans h3.trans⟩

theorem linesLow_warmStart (lines : StartLines) (seconds : Nat) (s : State) :
    linesLow (warmStart lines seconds s).flu := by
  rw [(warmStart_lines lines seconds s).1]
  exact ⟨rfl, rfl, rfl, rfl⟩

/-- Low outputs stand as STILL and READY or HELD command. -/
theorem commandsStand_of_low {s : State} (hlow : linesLow s.flu) (hcirc : s.circ.state = .still)
    (hjoint : s.joint.state = .ready ∨ s.joint.state = .held) : commandsStand s := by
  obtain ⟨hA, hB, hM, hP⟩ := hlow
  have hne : s.joint.state ≠ .loaded ∧ s.joint.state ≠ .breakPermit := by
    obtain h | h := hjoint <;> simp [h]
  exact ⟨by simp [hA, hcirc, CircState.pumping], by simp [hB, hcirc, CircState.pumping], by simp [hM, hne.1],
    by simp [hP, hne.2], fun h => absurd h hne.2⟩

theorem commandsStand_warmStart (lines : StartLines) (seconds : Nat) (s : State) :
    commandsStand (warmStart lines seconds s) :=
  commandsStand_of_low (linesLow_warmStart lines seconds s) (warmStart_lines lines seconds s).2.1
    (warmStart_lines lines seconds s).2.2

theorem warmStart_books (lines : StartLines) (seconds : Nat) (s : State) :
    KeepsBooks s (warmStart lines seconds s) := by
  have warmed : KeepsBooks s { s with link := .atStart, flu := s.flu.warmed lines seconds } :=
    ⟨depthLawful_congr rfl, jointLawful_congr rfl, secondsLawful_congr rfl,
      fun ⟨hw, h1, h2, h3, h4, hb, _⟩ => ⟨hw, h1, h2, h3, h4, hb, Nat.zero_le _⟩, fun _ => rodsLawful_congr rfl⟩
  have store : ∀ u : State, Keeps u (scanStore u) := fun u => .unseen (by simp)
  have overpull : ∀ u : State, Keeps u { u with rods.overpull := false } := fun u => .unseen rfl
  have timers : ∀ u : State, Keeps u { u with bill.drillTimer := 0, bill.tripTimer := 0 } := fun u => .unseen rfl
  have job : ∀ u : State, Keeps u (settleJob u) := fun u => .unseen (by simp)
  have day : ∀ u : State, Keeps u (startDayBoundary u) := fun u => by
    unfold startDayBoundary
    split
    · exact .after_unseen (dayBoundary_keeps _) rfl
    · exact .refl u
  exact warmed.trans ((store _).trans ((settleCirculation_keeps _).trans ((overpull _).trans
    ((settleJoint_keeps _).trans ((timers _).trans ((job _).trans (day _))))))).toKeepsBooks

/-! ## The cold start -/

/-- A cold start writes the cold values of every block but the incident table and the store (R1). -/
theorem coldStart_blocks (lines : StartLines) (s : State) :
    (coldStart lines s).flu = .cold lines ∧ (coldStart lines s).circ = .cold ∧ (coldStart lines s).lag = .cold ∧
      (coldStart lines s).rods = .cold ∧ (coldStart lines s).joint = .cold ∧ (coldStart lines s).strata = .cold ∧
      (coldStart lines s).price = .cold ∧ (coldStart lines s).bill = .cold ∧
      (coldStart lines s).jobs = .cold (scannedSlots s) := by
  simp [coldStart, State.cold]

theorem coldStart_books {s : State} (lines : StartLines) (u : State) : KeepsBooks s (coldStart lines u) := by
  obtain ⟨hflu, hcirc, -, hrods, hjoint, -, -, hbill, -⟩ := coldStart_blocks lines u
  refine ⟨fun _ => ?_, fun _ => ?_, fun _ => ?_, fun _ => ?_, fun _ _ => ?_⟩
  · simp [depthLawful, hrods, Rods.cold]
  · simp [jointLawful, hjoint, Joint.cold]
  · simp [secondsLawful, hbill, Billing.cold]
  · simp [countsLawful, hcirc, hflu, Circulation.cold, FieldLines.cold]
  · rw [rodsLawful_iff, hrods, hjoint]
    refine ⟨⟨List.Pairwise.nil, Nat.zero_le _, rfl, Nat.zero_le _, ⟨fun _ hr => absurd hr List.not_mem_nil, ?_⟩, fun a k ha => nomatch ha⟩,
      fun h => by cases h⟩
    rintro (_ | k | _ | i) id ho
    · cases ho
    · rw [occupant, getD_none_eq_some, Rods.cold, List.getElem?_replicate] at ho
      split at ho <;> simp at ho
    · cases ho
    · cases ho

theorem commandsStand_coldStart (lines : StartLines) (s : State) :
    linesLow (coldStart lines s).flu ∧ commandsStand (coldStart lines s) := by
  obtain ⟨hflu, hcirc, -, -, hjoint, -⟩ := coldStart_blocks lines s
  have hlow : linesLow (coldStart lines s).flu := hflu ▸ ⟨rfl, rfl, rfl, rfl⟩
  exact ⟨hlow, commandsStand_of_low hlow (by rw [hcirc]; rfl) (.inl (by rw [hjoint]; rfl))⟩

/-! ## The laws of O60 -/

theorem keptThrough_keepsBooks (s : State) : KeptThrough (KeepsBooks s) where
  line _ _ hs := ⟨hs.depth, hs.joint, hs.seconds, hs.counts, hs.rods⟩
  request i hs := hs.trans (takeRequest_keeps i _).toKeepsBooks
  warm lines n hs := hs.trans (warmStart_books lines n _)
  event he hs := hs.trans (eventOp_keeps he _).toKeepsBooks
  silence _ hs := ⟨hs.depth, hs.joint, hs.seconds, hs.counts, hs.rods⟩
  powered _ _ hs := ⟨hs.depth, hs.joint, hs.seconds, hs.counts, hs.rods⟩
  cold lines _ := coldStart_books lines _

/-- Settles O60: a step keeps each law, since every operation does (Keeps) and the starts do. -/
theorem everyStepKeepsDepthJointAndSeconds : Obligations.EveryStepKeepsDepthJointAndSeconds := by
  have key : ∀ {s t : State}, step s = .next t → KeepsBooks s t := fun he =>
    (keptThrough_keepsBooks _).step (.refl _) he
  exact ⟨fun s t hs he => (key he).depth hs, fun s t hs he => (key he).joint hs, fun s t hs he => (key he).seconds hs,
    fun s t hs he => (key he).counts hs, fun s t hj hr he => (key he).rods hj hr⟩

/-! ## The interlock (O55) -/

theorem kept_commandsStand : Kept commandsStand where
  line _ _ hs := hs
  request i hs := (takeRequest_keeps i _).outputs hs
  warm lines n _ := commandsStand_warmStart lines n _
  event he hs := (eventOp_keeps he _).outputs hs

theorem eventOp_power {c : Instr} {f : State → State} (h : eventOp c = some f) (s : State) :
    (f s).power = s.power := by
  cases c <;> simp only [eventOp, Option.some.injEq, reduceCtorEq] at h <;> subst h <;> simp

theorem kept_power (p : Power) : Kept fun s => s.power = p where
  line _ _ hs := hs
  request i hs := by simpa using hs
  warm lines n hs := by simpa using hs
  event he hs := (eventOp_power he _).trans hs

/-- Low outputs that stand as commanded are lawful whether or not the part runs. -/
theorem interlockLawful_of_low {s : State} (hlow : linesLow s.flu) (hstand : commandsStand s) : interlockLawful s := by
  obtain ⟨hA, hB, hM, hP, hbreak⟩ := hstand
  refine ⟨?_, hbreak⟩
  unfold outputsLawful
  split
  · exact ⟨hA, hB, hM, hP⟩
  · exact hlow

theorem interlockLawful_iff_of_running {s : State} (h : s.power = .running) : interlockLawful s ↔ commandsStand s := by
  unfold interlockLawful outputsLawful commandsStand
  rw [if_pos h]
  tauto

theorem interlockLawful_iff_of_not_running {s : State} (h : s.power ≠ .running) :
    interlockLawful s ↔ linesLow s.flu ∧ breakLawful s := by
  unfold interlockLawful outputsLawful linesLow
  rw [if_neg h]

theorem interlockLawful_transmitRunning {s : State} (h : interlockLawful s) : interlockLawful (transmitRunning s) := by
  unfold interlockLawful outputsLawful breakLawful at *
  simpa using h

/-- A part whose supply or reset has silenced it has its outputs low, and BREAK_PERMIT as before (R1, R11, R88). -/
theorem interlockLawful_silence {p : Power} {s : State} (hp : p ≠ .running) (h : interlockLawful s) :
    interlockLawful (silence p s) :=
  (interlockLawful_iff_of_not_running (by simpa using hp)).2 ⟨⟨rfl, rfl, rfl, rfl⟩, h.2⟩

theorem interlockLawful_warmStart (lines : StartLines) (seconds : Nat) (s : State) :
    interlockLawful (warmStart lines seconds s) :=
  interlockLawful_of_low (linesLow_warmStart _ _ _) (commandsStand_warmStart _ _ _)

theorem exec_keeps_interlock {c : Instr} {s t : State} (hs : interlockLawful s) (he : exec c s = .next t) :
    interlockLawful t := by
  by_cases hc : isPower c = false
  · by_cases hp : s.power = .running
    · have ht : t.power = .running := (kept_power .running).exec hc hp he
      rw [interlockLawful_iff_of_running hp] at hs
      exact (interlockLawful_iff_of_running ht).2 (kept_commandsStand.exec hc hs he)
    · rw [exec_of_not_running hp hc] at he
      exact Host.Outcome.next.inj he ▸ hs
  · cases c with
    | powerApplied intact n lines =>
      obtain rfl := Host.Outcome.next.inj he
      refine interlockLawful_transmitRunning ?_
      cases intact with
      | true => exact interlockLawful_warmStart _ _ _
      | false =>
        exact interlockLawful_of_low (commandsStand_coldStart lines _).1 (commandsStand_coldStart lines _).2
    | resetAsserted =>
      obtain rfl := Host.Outcome.next.inj he
      exact interlockLawful_silence (by simp [Power.eq_running]) hs
    | resetReleased n lines =>
      obtain rfl := Host.Outcome.next.inj he
      refine interlockLawful_transmitRunning ?_
      unfold releaseReset
      split
      · exact interlockLawful_warmStart _ _ _
      · next hsupply =>
        have hoff : s.power ≠ .running := fun h => hsupply (by rw [h]; rfl)
        rw [interlockLawful_iff_of_not_running hoff] at hs
        exact (interlockLawful_iff_of_not_running (s := { s with power.resetLine := false })
          fun h => hsupply ((Power.eq_running _).1 h).1).2 hs
    | powerFails =>
      obtain rfl := Host.Outcome.next.inj he
      exact interlockLawful_silence (by simp [Power.eq_running]) hs
    | _ => exact absurd rfl hc

theorem applyOpenJob_circState (number client : Nat) (well : List Byte) (s : State) :
    (applyOpenJob number client well s).circ.state = s.circ.state := by
  simp [applyOpenJob, openCirculation]

/-- A request takes circulation out of STILL in READY only (R30, R39). -/
theorem takeRequest_still {i : Instr} {s : State} (hcirc : s.circ.state = .still) (hjoint : s.joint.state ≠ .ready) :
    (takeRequest i s).1.circ.state = .still := by
  cases i <;> dsimp only [takeRequest]
  case setPump => unfold takeSetPump; grind
  case setReturnMeter => unfold takeSetReturnMeter; grind
  case setFlowBalance => unfold takeSetFlowBalance; grind
  case setCirculationLimits => unfold takeSetCirculationLimits; split <;> simp [hcirc]
  case startCirculation =>
    unfold takeStartCirculation
    split
    · exact hcirc
    · rw [if_neg (not_not_intro hcirc)]
      exact hcirc
  case stopCirculation => simp [takeStopCirculation, hcirc, CircState.pumping]
  case confirmStop => simp [takeConfirmStop, hcirc]
  case resetCirculation => unfold takeResetCirculation; dsimp only; split <;> simp
  case pumpTest =>
    unfold takePumpTest
    split
    · exact hcirc
    · split
      · exact hcirc
      · rw [if_neg (by simp [hcirc])]
        exact hcirc
  case openJob =>
    unfold takeOpenJob
    iterate 6 (split; exact hcirc)
    exact (applyOpenJob_circState _ _ _ _).trans hcirc
  all_goals simp [hcirc]

/-- A pulse accepted in STILL counts litres and may record a static flow; it changes no state (R21, R22, R42). -/
theorem repeatTimes_still {f : State → State} (hf : ∀ {u : State}, u.circ.state = .still → (f u).circ.state = .still)
    (n : Nat) {s : State} (hs : s.circ.state = .still) : (repeatTimes f n s).circ.state = .still := by
  induction n generalizing s with
  | zero => exact hs
  | succ n ih => exact ih (hf hs)

theorem pumpedLitre_circState (s : State) : (pumpedLitre s).circ.state = s.circ.state := by
  unfold pumpedLitre lagLitre
  dsimp only
  repeat' split
  all_goals simp

theorem returnedLitre_still {s : State} (hs : s.circ.state = .still) : (returnedLitre s).circ.state = .still := by
  unfold returnedLitre returnedEffects checkStaticFlow
  dsimp only
  repeat' split
  all_goals simp_all

theorem pulseActivity_still (i : PulseInput) (spans : List LineSpan) {s : State} (hs : s.circ.state = .still) :
    (pulseActivity i spans s).circ.state = .still := by
  have hstroke : ∀ (p : Pump) {u : State}, u.circ.state = .still → (stroke p u).circ.state = .still := fun p u hu =>
    repeatTimes_still (fun hv => (pumpedLitre_circState _).trans hv) _ (by simpa using hu)
  have haccept : ∀ {u : State}, u.circ.state = .still → (acceptPulse i u).circ.state = .still := by
    intro u hu
    cases i with
    | a => exact hstroke .a hu
    | b => exact hstroke .b hu
    | r => exact repeatTimes_still returnedLitre_still _ hu
  refine repeatTimes_still haccept _ ?_
  cases i <;> exact hs

theorem circulationTick_of_still {s : State} (hs : s.circ.state = .still) : circulationTick s = s := by
  unfold circulationTick
  rw [hs]

theorem takeBinTick_of_not_binsRun {s : State} (hs : s.circ.state.binsRun = false) : takeBinTick s = s := by
  rw [takeBinTick, if_neg (by simp [hs])]

theorem secondTick_still {s : State} (hs : s.circ.state = .still) : (secondTick s).circ.state = .still := by
  have hclock : (clockTick s).circ.state = .still := by simpa using hs
  have hbill : (billingTick (jointTick (circulationTick (clockTick s)))).circ.state = .still := by
    rw [circulationTick_of_still hclock]
    simpa using hs
  unfold secondTick phaseTick
  dsimp only
  split
  · split
    · exact hbill
    · rw [takeBinTick_of_not_binsRun (by rw [show State.circ _ = _ from rfl, hbill]; rfl)]
      exact hbill
  · exact hbill

theorem sample_still (ch : Channel) (current : Nat) {s : State} (hs : s.circ.state = .still) :
    (sample ch current s).circ.state = .still := by
  cases ch <;> simp [sample, deliverSample, bleedSample, hs]

/-- No event takes circulation out of STILL. -/
theorem eventOp_still {c : Instr} {f : State → State} {s : State} (h : eventOp c = some f)
    (hs : s.circ.state = .still) : (f s).circ.state = .still := by
  cases c <;> simp only [eventOp, Option.some.injEq, reduceCtorEq] at h <;> subst h
  case analogSample => exact sample_still _ _ hs
  case pulseAccepted => exact pulseActivity_still _ _ hs
  case secondTick => exact secondTick_still hs
  case primeComplete => simp [completePrime, hs]
  case flowWhileStill => unfold checkStaticFlow; split <;> simp [hs]
  case binTick =>
    unfold earlyBinTick
    split
    · rw [takeBinTick_of_not_binsRun (by rw [hs]; rfl)]
      exact hs
    · exact hs
  case primeTimeout => simp [expirePrime, hs]
  case bleedConfirmed => simp [confirmBleed, hs]
  case stopTimeout => simp [expireStop, hs]
  all_goals simp [hs]

/-- Outside READY every command that brings one request at most leaves circulation in STILL. -/
theorem takes_still :
    Takes (fun s => s.circ.state = .still ∧ s.joint.state ≠ .ready) (fun s => s.circ.state = .still) where
  line _ _ hs := hs
  answer _ hs := hs
  idle hs := hs.1
  request _ hs := takeRequest_still hs.1 hs.2
  warm lines n _ := (warmStart_lines lines n _).2.1
  event he hs := eventOp_still he hs.1

/-- The power commands leave circulation in STILL (R1, R43). -/
theorem power_still {c : Instr} {s t : State} (hc : isPower c = true) (hs : s.circ.state = .still)
    (he : exec c s = .next t) : t.circ.state = .still := by
  have running : ∀ {u : State}, u.circ.state = .still → (transmitRunning u).circ.state = .still := by
    intro u hu
    simpa using hu
  cases c with
  | powerApplied intact n lines =>
    obtain rfl := Host.Outcome.next.inj he
    refine running ?_
    cases intact with
    | true => exact (warmStart_lines _ _ _).2.1
    | false => exact congrArg Circulation.state (coldStart_blocks _ _).2.1
  | resetAsserted =>
    obtain rfl := Host.Outcome.next.inj he
    exact hs
  | resetReleased n lines =>
    obtain rfl := Host.Outcome.next.inj he
    refine running ?_
    unfold releaseReset
    split
    · exact (warmStart_lines _ _ _).2.1
    · exact hs
  | powerFails =>
    obtain rfl := Host.Outcome.next.inj he
    exact hs
  | _ => cases hc

theorem ready_of_leaves_still {c : Instr} {s t : State} (hone : carriesOctets c = false) (he : exec c s = .next t)
    (hs : s.circ.state = .still) (ht : t.circ.state ≠ .still) : s.joint.state = .ready := by
  by_contra hjoint
  cases hc : isPower c with
  | true => exact ht (power_still hc hs he)
  | false => exact ht (takes_still.exec hc hone ⟨hs, hjoint⟩ he)

theorem step_keeps_interlock {s t : State} (hs : interlockLawful s) (he : step s = .next t) : interlockLawful t := by
  unfold step at he
  split at he
  · exact Host.Outcome.next.inj he ▸ hs
  · next rest _ => exact exec_keeps_interlock (s := { s with pending := rest }) hs he

/-- Settles O55: the outputs stand after every operation (Keeps) and fall where the part stops; only READY lets a request take
circulation out of STILL. -/
theorem everyStepKeepsTheInterlock : Obligations.EveryStepKeepsTheInterlock :=
  ⟨fun _ _ hs he => step_keeps_interlock hs he, fun _ _ _ hone he hs ht => ready_of_leaves_still hone he hs ht⟩

end Sys2Proof.Machine
end

