-- ==== Sys2Proof/Proofs/Starts.lean ====
section
/-! PROOFS. What a command answers: every command a next state (O2), the starts (O11, O12, O13), and how a request is answered by
a ready part. -/

namespace Sys2Proof.Machine

/-! ## Every command answers a next state (O2) -/

theorem eventOp_pending {c : Instr} {f : State → State} (h : eventOp c = some f) (s : State) :
    (f s).pending = s.pending := by
  cases c <;> simp only [eventOp, Option.some.injEq, reduceCtorEq] at h <;> subst h <;> simp

theorem lineOp_pending {c : Instr} {f : State → State} (h : lineOp c = some f) (s : State) :
    (f s).pending = s.pending := by
  cases c <;> simp only [lineOp, Option.some.injEq, reduceCtorEq] at h <;> subst h
  case restartWarmStart => dsimp only; split <;> simp
  all_goals simp

theorem power_answers {c : Instr} (hc : isPower c = true) (s : State) :
    ∃ t, exec c s = .next t ∧ t.pending = s.pending := by
  cases c with
  | powerApplied intact n lines => exact ⟨_, rfl, by cases intact <;> simp [applyPower]⟩
  | resetAsserted => exact ⟨_, rfl, rfl⟩
  | resetReleased n lines =>
    refine ⟨_, rfl, ?_⟩
    unfold releaseReset
    split <;> simp
  | powerFails => exact ⟨_, rfl, rfl⟩
  | _ => cases hc

/-- Settles O2: a power command answers its start or its silence, every other command its operation in a running part. -/
theorem everyCommandAnswersANextStateAndKeepsTheQueue :
    Obligations.EveryCommandAnswersANextStateAndKeepsTheQueue := by
  intro c s
  obtain hpow | ⟨f, hf, hop⟩ := exec_cases c s
  · exact power_answers hpow s
  · have pending : (f s).pending = s.pending := by
      obtain hev | hl | ⟨-, rfl⟩ := hop
      · exact eventOp_pending hev s
      · exact lineOp_pending hl s
      · simp
    refine ⟨_, hf, ?_⟩
    split
    · simpa using pending
    · rfl

/-! ## A request at a ready part (R200, R201) -/

/-- A ready part takes a request at once and hands its answer to the line. -/
theorem isAnswered_of_take {who : Addressee} {i : Instr} {r : Received} {s : State} {f : State → State} {rep : Reply}
    (h : ready who s) (hr : receivedRequest i = some r) (hwho : r.who = who)
    (ht : takeRequest i (taking i s) = (f (taking i s), rep)) : isAnswered i s rep f := by
  obtain ⟨hrun, hempty, hanswers⟩ := h
  have htaking : taking i s = { s with link.holding := [r] } := by rw [taking, hr, Option.toList_some]
  have hform : takeForm r.form (taking i s) = (f (taking i s), rep) := by
    rw [form_of_receivedRequest hr]
    exact ht
  unfold isAnswered answered
  rw [exec_request hr, whileRunning_of_running _ hrun, hr]
  simp only [arriveRequest, hr, arrive, hwho, hanswers, if_true, holdRequest, hempty, takeInProgress, ← htaking, hform]

/-! ## The starts (O11) -/

theorem transmitRunning_of_running {s : State} (h : s.power = .running) : transmitRunning s = transmit s := if_pos h

theorem transmitRunning_of_not_running {s : State} (h : s.power ≠ .running) : transmitRunning s = s := if_neg h

theorem Power.ne_running_of_reset {p : Power} (h : p.resetLine = true) : p ≠ .running := by
  rintro rfl
  cases h

theorem Power.ne_running_of_no_supply {p : Power} (h : p.supply = false) : p ≠ .running := by
  rintro rfl
  cases h

/-- A group RESTART is a warm start as it is taken, on the lines as they then stand (R199, R205). -/
theorem restart_group_comesTo {s : State} (h : ready .group s) :
    comesTo (.restart .group) s (warmStart (presentLines s) 0 (taking (.restart .group) s)) :=
  isAnswered_of_take (f := fun u => u) (rep := .ok) h rfl rfl rfl

theorem restartWarmStart_comesTo {s : State} (lines : StartLines) (hrun : s.power = .running)
    (hsend : sendingRestart s = true) : comesTo (.restartWarmStart lines) s (warmStart lines 0 s) := by
  have hexec : exec (.restartWarmStart lines) s =
      .next (transmit (if sendingRestart s then warmStart lines 0 s else s)) := whileRunning_of_running _ hrun
  rwa [if_pos hsend] at hexec

/-- Settles O11. -/
theorem supplyResetAndRestartDecideTheStart : Obligations.SupplyResetAndRestartDecideTheStart := by
  refine ⟨fun c s hp hc => exec_of_not_running hp hc, fun seconds lines s => ?_⟩
  have warmed : ∀ u : State, u.power = .running →
      transmitRunning (warmStart lines seconds u) = transmit (warmStart lines seconds u) := fun u hu =>
    transmitRunning_of_running (by simpa using hu)
  refine ⟨fun hline => ⟨?_, ?_⟩, fun hline => ⟨?_, ?_⟩, fun hsupply => ?_, fun hsupply => ?_, rfl, rfl,
    fun h => isAnswered_of_take h rfl rfl rfl, restart_group_comesTo, restartWarmStart_comesTo lines⟩
  · have hrun : ({ s.power with supply := true } : Power) = .running := by rw [Power.eq_running]; exact ⟨rfl, hline⟩
    exact congrArg _ (warmed _ hrun)
  · have hrun : ({ s.power with supply := true } : Power) = .running := by rw [Power.eq_running]; exact ⟨rfl, hline⟩
    exact congrArg _ (transmitRunning_of_running (by simpa using hrun))
  · exact congrArg _ (transmitRunning_of_not_running (by
      simpa using Power.ne_running_of_reset (p := { s.power with supply := true }) hline))
  · exact congrArg _ (transmitRunning_of_not_running (by
      simpa using Power.ne_running_of_reset (p := { s.power with supply := true }) hline))
  · have hexec : exec (.resetReleased seconds lines) s = .next (transmitRunning (releaseReset seconds lines s)) := rfl
    rw [releaseReset, if_pos hsupply] at hexec
    exact hexec.trans (congrArg _ (warmed _ rfl))
  · have hexec : exec (.resetReleased seconds lines) s = .next (transmitRunning (releaseReset seconds lines s)) := rfl
    rw [releaseReset, if_neg (by simp [hsupply])] at hexec
    exact hexec.trans (congrArg _ (transmitRunning_of_not_running (Power.ne_running_of_no_supply hsupply)))

/-! ## The cold start (O12) -/

/-- The incident table with one merged TORN_TICKET on cold values (R167, R178, R196). -/
def tornTable (first repeats : Nat) : Incidents :=
  { slots :=
      some
        { kind := .tornTicket, first := 0, last := 0, hole := 0, detail1 := first, detail2 := 0,
          repeats := repeats, pending := true } :: List.replicate 15 none,
    order := [0], lastWritten := 0, overflow := false,
    flags :=
      { circulation := false, joint := false, strata := false, billing := false, incident := true, store := true },
    masks := .all true }

/-- A table without records, every class masked, and a clock and a hole at 0, as a cold start leaves them. -/
def onColdTable (s : State) : Prop := s.flu.clock = 0 ∧ s.rods.holeDepth = 0 ∧ s.link = .atStart

theorem record_torn_first {s : State} (n : Nat) (hcold : onColdTable s)
    (hinc : s.inc = { Incidents.cold with flags := ClassFlags.set (.all false) .store true }) :
    (record .tornTicket n 0 s).inc = tornTable n 1 ∧ onColdTable (record .tornTicket n 0 s) := by
  obtain ⟨hclock, hhole, hlink⟩ := hcold
  have hfirst : s.inc.slots.findIdx? (pendingOfKind .tornTicket) = none := by rw [hinc]; rfl
  have hfree : freeSlot? s = some 0 := by rw [freeSlot?, hinc]; rfl
  have hover : s.inc.overflow = false := by rw [hinc]; rfl
  have hrec : record .tornTicket n 0 s = writeIncident .tornTicket n 0 0 s := by
    simp [record, recordIncident, hfirst, hfree, hover]
  have hquiet : writeIncident .tornTicket n 0 0 s = { s with inc := tornTable n 1 } := by
    rw [writeIncident, notify_quiet (by simp [hinc]; rfl) (.inl (by simp [hinc]; rfl))]
    simp only [hinc, hclock, hhole, tornTable, setAt]
    rfl
  rw [hrec, hquiet]
  exact ⟨rfl, hclock, hhole, hlink⟩

theorem record_torn_again {s : State} (n : Nat) {first repeats : Nat} (hcold : onColdTable s)
    (hinc : s.inc = tornTable first repeats) :
    (record .tornTicket n 0 s).inc = tornTable first (min (repeats + 1) 255) ∧
      onColdTable (record .tornTicket n 0 s) := by
  obtain ⟨hclock, hhole, hlink⟩ := hcold
  have hfind : s.inc.slots.findIdx? (pendingOfKind .tornTicket) = some 0 := by rw [hinc]; rfl
  have hrec : record .tornTicket n 0 s = mergeIncident 0 s := by simp [record, recordIncident, hfind]
  rw [hrec]
  refine ⟨?_, hclock, hhole, hlink⟩
  simp [mergeIncident, hinc, hclock, tornTable, setAt]

theorem fold_torn (cut : List Nat) {s : State} {first repeats : Nat} (hcold : onColdTable s)
    (hinc : s.inc = tornTable first (min repeats 255)) :
    (cut.foldl (fun t n => record .tornTicket n 0 t) s).inc = tornTable first (min (repeats + cut.length) 255) ∧
      onColdTable (cut.foldl (fun t n => record .tornTicket n 0 t) s) := by
  induction cut generalizing s repeats with
  | nil => exact ⟨hinc, hcold⟩
  | cons n rest ih =>
    obtain ⟨hnext, hcold'⟩ := record_torn_again n hcold hinc
    have hmin : min (min repeats 255 + 1) 255 = min (repeats + 1) 255 := by omega
    rw [hmin] at hnext
    simpa [Nat.add_assoc, Nat.add_comm 1] using ih hcold' hnext

theorem reportTorn_nil (s : State) : reportTorn [] (decide (([] : List Nat) ≠ [])) s = s := rfl

/-- On the cold table the torn slots are one merged record of the first of them. -/
theorem reportTorn_cold {s : State} {first : Nat} (rest : List Nat) (hcold : onColdTable s) (hinc : s.inc = .cold) :
    (reportTorn (first :: rest) (decide (first :: rest ≠ [])) s).inc =
        tornTable first (min (first :: rest).length 255) ∧
      (reportTorn (first :: rest) (decide (first :: rest ≠ [])) s).link = .atStart := by
  have hquiet : notify .store s = { s with inc.flags := s.inc.flags.set .store true } :=
    notify_quiet (by rw [hinc]; rfl) (.inl (by rw [hinc]; rfl))
  obtain ⟨h1, hcold1⟩ := record_torn_first (s := notify .store s) first
    (by rw [hquiet]; exact hcold) (by rw [hquiet, hinc]; rfl)
  obtain ⟨h2, -, -, hlink⟩ := fold_torn rest (repeats := 1) hcold1 h1
  refine ⟨?_, hlink⟩
  rw [List.length_cons, Nat.add_comm]
  exact h2

theorem mem_cutSlots {s : State} {n : Nat} :
    n ∈ cutSlots s ↔ ∃ k, s.jobs.slots[n]? = some k ∧ cutShort s n k = true := by
  simp only [cutSlots, List.mem_filter, List.mem_range, Option.any_eq_true]
  constructor
  · rintro ⟨-, k, hk, hcut⟩
    exact ⟨k, hk, hcut⟩
  · rintro ⟨k, hk, hcut⟩
    exact ⟨(List.getElem?_eq_some_iff.1 hk).1, k, hk, hcut⟩

theorem isCut_cutSlots (s : State) : isCut s (cutSlots s) := by
  refine ⟨List.Pairwise.filter _ List.pairwise_lt_range, fun n hn => mem_cutSlots.2 ⟨_, hn, rfl⟩, fun n hn => ?_⟩
  obtain ⟨k, hk, hcut⟩ := mem_cutSlots.1 hn
  cases k with
  | writing => exact .inl hk
  | filed t =>
    simp only [cutShort, Bool.and_eq_true, decide_eq_true_eq] at hcut
    exact .inr ⟨⟨t, hk⟩, hcut.1⟩
  | erased | defective | torn => cases hcut

theorem getElem?_scannedSlots {s : State} {n : Nat} {k : StoreSlot} (h : s.jobs.slots[n]? = some k) :
    (scannedSlots s)[n]? = some (if n ∈ cutSlots s then .torn else k) := by
  have hmem : n ∈ cutSlots s ↔ cutShort s n k = true := by simp [mem_cutSlots, h]
  simp [scannedSlots, h, hmem]

theorem coldStart_of_no_cut {lines : StartLines} {s : State} (h : cutSlots s = []) :
    (coldStart lines s).inc = .cold ∧ (coldStart lines s).link = .atStart := by
  rw [coldStart, h]
  exact ⟨rfl, rfl⟩

theorem coldStart_of_cut {lines : StartLines} {s : State} {first : Nat} {rest : List Nat}
    (h : cutSlots s = first :: rest) :
    (coldStart lines s).inc = tornTable first (min (cutSlots s).length 255) ∧
      (coldStart lines s).link = .atStart := by
  rw [coldStart, h]
  exact reportTorn_cold rest ⟨rfl, rfl, rfl⟩ rfl

/-- Nothing waits on the line after a cold start: every class is masked (R178). -/
theorem coldStart_link (lines : StartLines) (s : State) : (coldStart lines s).link = .atStart := by
  cases h : cutSlots s with
  | nil => exact (coldStart_of_no_cut h).2
  | cons first rest => exact (coldStart_of_cut h).2

theorem transmitRunning_of_quiet {s : State} (h : s.link = .atStart) : transmitRunning s = s := by
  unfold transmitRunning transmit
  simp [h, Link.atStart]

/-- Settles O12. -/
theorem aColdStartClearsWorkingMemory : Obligations.AColdStartClearsWorkingMemory := by
  intro seconds lines s
  let u : State := { s with power.supply := true }
  obtain ⟨hflu, hcirc, hlag, hrods, hjoint, hstrata, hprice, hbill, hjobs⟩ := coldStart_blocks lines u
  have hslots : (coldStart lines u).jobs.slots = scannedSlots u := by rw [hjobs]; rfl
  refine ⟨coldStart lines u, cutSlots u, ?_, isCut_cutSlots u, by simp [u], hflu, hcirc, hlag, hrods, hjoint, hstrata,
    hprice, hbill, coldStart_link lines u, by rw [hslots, hjobs], fun hcut => (coldStart_of_no_cut hcut).1,
    fun first rest hcut => (coldStart_of_cut hcut).1, by rw [hslots]; simp [scannedSlots, u], fun n k hk => ?_⟩
  · exact congrArg _ (transmitRunning_of_quiet (coldStart_link lines u))
  · rw [hslots]
    exact getElem?_scannedSlots (s := u) hk

/-- Settles O13: the values stand by evaluation. -/
theorem resetHoldsTheColdValues : Obligations.ResetHoldsTheColdValues := by
  refine ⟨?_, ?_, ?_, ?_, ?_, ?_, ?_, ?_, ?_, ?_, ?_⟩ <;> decide

end Sys2Proof.Machine
end

