-- ==== Sys2Proof/Proofs/WarmStart.lean ====
section
/-! PROOFS. What a warm start keeps (O17): the masks, the set flags, a set overflow flag, the geometry, and where nothing is laid or
recorded the lag tracker, the strata log, the pricing unit and the incident table. -/

namespace Sys2Proof.Machine

/-! ## What the operations of a start sustain -/

/-- The section table and the geometry (R47, R48). -/
@[simp] def lagGeometry (s : State) : List Section × Nat × Nat × Nat :=
  (s.lag.sections, s.lag.surface, s.lag.capacity, s.lag.spacing)

/-- The masks, a set overflow flag, every set flag, the geometry and all of the link but the waiting notices are kept. -/
structure Sustains (s t : State) : Prop where
  masks : t.inc.masks = s.inc.masks
  overflow : s.inc.overflow = true → t.inc.overflow = true
  flags : ∀ c, s.inc.flags.get c = true → t.inc.flags.get c = true
  link : { t.link with notices := [] } = { s.link with notices := [] }
  geometry : lagGeometry t = lagGeometry s

theorem Sustains.refl (s : State) : Sustains s s := ⟨rfl, id, fun _ => id, rfl, rfl⟩

theorem Sustains.trans {s t u : State} (h : Sustains s t) (k : Sustains t u) : Sustains s u where
  masks := k.masks.trans h.masks
  overflow ho := k.overflow (h.overflow ho)
  flags c hc := k.flags c (h.flags c hc)
  link := k.link.trans h.link
  geometry := k.geometry.trans h.geometry

/-- A change of neither the notice unit nor the link nor the geometry. -/
theorem Sustains.of_eq {s t : State} (h : (t.inc, t.link, lagGeometry t) = (s.inc, s.link, lagGeometry s)) :
    Sustains s t := by
  simp only [Prod.mk.injEq (t.inc), Prod.mk.injEq (t.link)] at h
  obtain ⟨hinc, hlink, hgeometry⟩ := h
  exact ⟨by rw [hinc], by rw [hinc]; exact id, by rw [hinc]; exact fun _ => id, by rw [hlink], hgeometry⟩

theorem Sustains.after_eq {s t u : State} (k : Sustains t u)
    (h : (t.inc, t.link, lagGeometry t) = (s.inc, s.link, lagGeometry s)) : Sustains s u := (Sustains.of_eq h).trans k

theorem notify_sustains (c : NoticeClass) (s : State) : Sustains s (notify c s) where
  masks := notify_masks c s
  overflow h := by simpa using h
  flags _ h := notify_keepsFlag c h
  link := by rw [notify_link]
  geometry := by simp

theorem record_sustains (k : IncidentKind) (a b : Nat) (s : State) : Sustains s (record k a b s) := by
  have full : Sustains s { s with inc.overflow := true } := ⟨rfl, fun _ => rfl, fun _ => id, rfl, rfl⟩
  have written : ∀ n, Sustains s (writeIncident k a b n s) := fun n => by
    refine Sustains.trans ?_ (notify_sustains .incident _)
    exact ⟨rfl, id, fun _ => id, rfl, rfl⟩
  obtain ⟨n, -, h⟩ | ⟨-, ⟨-, h⟩ | ⟨-, -, h⟩ | ⟨n, -, -, h⟩⟩ := recordIncident_cases k a b s <;> rw [record, h]
  · exact ⟨rfl, id, fun _ => id, rfl, rfl⟩
  · exact .refl s
  · exact full.trans (notify_sustains _ _)
  · exact written n

/-! ## The strata log and the pricing unit -/

theorem appendInterval_sustains (d cls : Nat) (o : Origin) (s : State) : Sustains s (appendInterval d cls o s) :=
  .after_eq (notify_sustains _ _) rfl

theorem nextInterval_sustains (d cls : Nat) (o : Origin) (s : State) : Sustains s (nextInterval d cls o s) := by
  unfold nextInterval
  split
  · exact (record_sustains _ _ _ _).trans (.of_eq rfl)
  · exact .after_eq (appendInterval_sustains _ _ _ _) rfl

theorem classAt_sustains (d cls : Nat) (o : Origin) (s : State) : Sustains s (classAt d cls o s) := by
  unfold classAt
  split
  · split
    · exact nextInterval_sustains _ _ _ _
    · exact .after_eq (notify_sustains _ _) rfl
  · exact .refl s

theorem blindRunBegin_sustains (m : Mark) (s : State) : Sustains s (blindRunBegin m s) := by
  unfold blindRunBegin
  split
  · exact classAt_sustains _ _ _ _
  · exact .refl s

theorem blindRunEnd_sustains (m : Mark) (s : State) : Sustains s (blindRunEnd m s) := by
  unfold blindRunEnd
  split
  · exact nextInterval_sustains _ _ _ _
  · exact .refl s

theorem drainBegin_sustains (m : Mark) (s : State) : Sustains s (drainBegin m s) := by
  unfold drainBegin
  split
  · exact .refl s
  · exact .after_eq (classAt_sustains _ _ _ _) rfl

theorem placeMark_sustains (k : RetireCause) (m : Mark) (s : State) : Sustains s (placeMark k m s) := by
  have added : ∀ u : State, Sustains u (addMark m u) := fun u => .of_eq rfl
  have sighted : Sustains s (if s.strata.drain then addMark m s else addMark m (blindRunEnd m (blindRunBegin m s))) := by
    split
    · exact added s
    · exact (blindRunBegin_sustains m s).trans ((blindRunEnd_sustains m _).trans (added _))
  cases k with
  | close => exact (drainBegin_sustains m s).trans (added _)
  | arrived | overrun => exact sighted

theorem priceInto_sustains (i v q : Nat) (s : State) : Sustains s (priceInto i v q s) := by
  unfold priceInto
  dsimp only
  split
  · exact .after_eq ((record_sustains _ _ _ _).trans (.of_eq rfl)) rfl
  · exact .of_eq rfl

theorem priceUnder_sustains (k : LineKind) (key : LineKey) (v q : Nat) (s : State) :
    Sustains s (priceUnder k key v q s) := by
  unfold priceUnder
  split
  · exact priceInto_sustains _ _ _ _
  · split
    · exact .after_eq (priceInto_sustains _ _ _ _) rfl
    · exact (priceInto_sustains _ _ _ _).trans (record_sustains _ _ _ _)

theorem priceMark_sustains (m : Mark) (cls : Nat) (s : State) : Sustains s (priceMark m cls s) := by
  unfold priceMark
  split
  · exact priceUnder_sustains _ _ _ _ _
  · exact .refl s

/-! ## The lag tracker and the swap -/

theorem retireUnchecked_sustains (k : RetireCause) (m : Mark) (rest : List Mark) (s : State) :
    Sustains s (retireUnchecked k m rest s) :=
  .after_eq ((placeMark_sustains k m (removeOldest m rest s)).trans (priceMark_sustains _ _ _)) rfl

theorem forceOldest_sustains (s : State) : Sustains s (forceOldest s) := by
  unfold forceOldest
  split
  · exact .refl s
  · have marked : ∀ u : State, Sustains u (markOverrunSeen u) := fun u => .of_eq (by simp)
    exact (retireUnchecked_sustains _ _ _ s).trans ((record_sustains _ _ _ _).trans (marked _))

theorem appendMark_sustains (d : Nat) (s : State) : Sustains s (appendMark d s) := by
  have clamped : Sustains s (recordLagClamp d s) := by
    unfold recordLagClamp
    split
    · exact record_sustains _ _ _ _
    · exact .refl s
  exact clamped.trans (.of_eq rfl)

theorem layMark_sustains (d : Nat) (s : State) : Sustains s (layMark d s) := by
  unfold layMark
  split
  · split
    · exact (forceOldest_sustains s).trans (appendMark_sustains d _)
    · exact appendMark_sustains d s
  · exact .refl s

theorem swapCheck_sustains (s : State) : Sustains s (swapCheck s) := by
  have rotated : ∀ u : State, Sustains u (rotateSets u) := fun u => .after_eq (notify_sustains _ _) rfl
  unfold swapCheck
  split
  · exact (layMark_sustains _ s).trans (rotated _)
  · exact .refl s

theorem totalLossChange_sustains (s : State) : Sustains s (totalLossChange s) := by
  unfold totalLossChange closeSpan
  split
  · split
    · split
      · exact (layMark_sustains _ s).trans (swapCheck_sustains _)
      · exact layMark_sustains _ s
    · exact .of_eq rfl
  · exact .refl s

theorem dayBoundary_sustains (s : State) : Sustains s (dayBoundary s) := by
  have trigger : Sustains s (takeTrigger .nextDay s) := by
    unfold takeTrigger
    split
    · exact .after_eq (swapCheck_sustains _) rfl
    · exact .refl s
  exact trigger.trans (notify_sustains _ _)

/-! ## The parts of a warm start -/

theorem fold_record_sustains (cut : List Nat) (s : State) :
    Sustains s (cut.foldl (fun t n => record .tornTicket n 0 t) s) := by
  induction cut generalizing s with
  | nil => exact .refl s
  | cons n rest ih => exact (record_sustains _ _ _ _).trans (ih _)

theorem scanStore_sustains (s : State) : Sustains s (scanStore s) := by
  have scanned : Sustains s { s with jobs.slots := scannedSlots s, jobs.op := none, free := s.free + 1 } := .of_eq rfl
  unfold scanStore reportTorn
  refine scanned.trans (Sustains.trans ?_ (fold_record_sustains _ _))
  split
  · exact notify_sustains _ _
  · exact .refl _

theorem enterCirc_sustains (new : CircState) (mask : PumpMask) (s : State) : Sustains s (enterCirc new mask s) := by
  have changed : Sustains s (notify .circulation (commandEnables { s with circ := s.circ.entered new mask })) :=
    .after_eq (notify_sustains _ _) rfl
  have permitted : ∀ u : State, Sustains u (commandPermits u) := fun u => .of_eq rfl
  unfold enterCirc
  dsimp only
  split
  · exact changed.trans ((totalLossChange_sustains _).trans (permitted _))
  · exact changed.trans (permitted _)

theorem settleCirculation_sustains (s : State) : Sustains s (settleCirculation s) := by
  have cleared : ∀ u : State, Sustains u { u with circ := u.circ.settled } := fun u => .of_eq rfl
  unfold settleCirculation
  split
  · exact .of_eq rfl
  · exact (enterCirc_sustains _ _ _).trans ((cleared _).trans (record_sustains _ _ _ _))

theorem enterJoint_sustains (j : JointState) (s : State) : Sustains s (enterJoint j s) :=
  .after_eq (notify_sustains _ _) rfl

/-- While the hook height is faulted READY is entered without a recomputation (R78). -/
theorem enterReady_of_faulted {s : State} (h : s.flu.height.fault = true) : enterReady s = enterJoint .ready s := by
  unfold enterReady recomputeAtReady
  rw [if_pos (by simpa [enterJoint, commandPermits] using h)]

/-- The rods but for where they stand. -/
@[simp] def rodReadings (r : Rods) : Rods := { r with registry := [], magazine := [] }

/-- What a joint that settles with a faulted hook height leaves: everything but the joint, the permits, the places of the rods
and the notice unit. -/
structure SettlesJoint (s t : State) : Prop extends Sustains s t where
  lag : t.lag = s.lag
  strata : t.strata = s.strata
  price : t.price = s.price
  bill : t.bill = s.bill
  jobs : t.jobs = s.jobs
  rods : rodReadings t.rods = rodReadings s.rods

theorem SettlesJoint.refl (s : State) : SettlesJoint s s := ⟨.refl s, rfl, rfl, rfl, rfl, rfl, rfl⟩

theorem SettlesJoint.trans {s t u : State} (h : SettlesJoint s t) (k : SettlesJoint t u) : SettlesJoint s u where
  toSustains := h.toSustains.trans k.toSustains
  lag := k.lag.trans h.lag
  strata := k.strata.trans h.strata
  price := k.price.trans h.price
  bill := k.bill.trans h.bill
  jobs := k.jobs.trans h.jobs
  rods := k.rods.trans h.rods

theorem enterReady_settles {s : State} (h : s.flu.height.fault = true) : SettlesJoint s (enterReady s) := by
  rw [enterReady_of_faulted h]
  exact ⟨enterJoint_sustains _ s, by simp, by simp, by simp, by simp, by simp, by simp⟩

theorem clearArmToReady_settles {s : State} (h : s.flu.height.fault = true) : SettlesJoint s (clearArmToReady s) := by
  have cleared : SettlesJoint s { s with joint.arm := none } := ⟨.of_eq rfl, rfl, rfl, rfl, rfl, rfl, rfl⟩
  exact cleared.trans (enterReady_settles h)

theorem moveRod_settles (id : Nat) (loc : RodLocation) (s : State) : SettlesJoint s (moveRod id loc s) :=
  ⟨.of_eq (by simp), by simp, by simp, by simp, by simp, by simp, by simp⟩

theorem returnRod_settles (s : State) : SettlesJoint s (returnRod s) := by
  unfold returnRod
  split
  · exact moveRod_settles _ _ s
  · exact .refl s

theorem record_settles (k : IncidentKind) (a b : Nat) (s : State) : SettlesJoint s (record k a b s) :=
  ⟨record_sustains k a b s, by simp, by simp, by simp, by simp, by simp, by simp⟩

theorem settleJoint_settles {s : State} (h : s.flu.height.fault = true) : SettlesJoint s (settleJoint s) := by
  have quiet : SettlesJoint s { s with joint.episode := none, joint.timer := 0 } :=
    ⟨.of_eq rfl, rfl, rfl, rfl, rfl, rfl, rfl⟩
  unfold settleJoint
  refine quiet.trans ?_
  split
  · exact .refl _
  · exact (returnRod_settles _).trans (clearArmToReady_settles (by simpa using h))
  · exact enterReady_settles h
  · split
    · exact (moveRod_settles _ _ _).trans ((clearArmToReady_settles (by simpa using h)).trans (record_settles _ _ _ _))
    · exact enterReady_settles h
  · dsimp only
    split
    · exact .refl _
    · exact enterReady_settles h

theorem settleJob_sustains (s : State) : Sustains s (settleJob s) := by
  unfold settleJob
  split
  · exact .after_eq (notify_sustains _ _) rfl
  · exact .refl s

theorem startDayBoundary_sustains (s : State) : Sustains s (startDayBoundary s) := by
  unfold startDayBoundary
  split
  · exact .after_eq (dayBoundary_sustains _) rfl
  · exact .refl s

/-! ## Where nothing is laid and nothing recorded -/

theorem takeTrigger_of_not_armed {k : Trigger} {s : State} (h : s.price.stage ≠ .armed k) : takeTrigger k s = s :=
  if_neg h

/-- A day boundary swaps nothing unless a stage is armed for it (R138, R161). -/
theorem dayBoundary_of_not_armed {s : State} (h : s.price.stage ≠ .armed .nextDay) :
    dayBoundary s = notify .billing s := by rw [dayBoundary, takeTrigger_of_not_armed h]

theorem startDayBoundary_whole {s : State} (h : s.price.stage ≠ .armed .nextDay) :
    (startDayBoundary s).lag = s.lag ∧ (startDayBoundary s).strata = s.strata ∧
      (startDayBoundary s).price = s.price := by
  unfold startDayBoundary
  split
  · rw [dayBoundary_of_not_armed (by exact h)]
    simp
  · exact ⟨rfl, rfl, rfl⟩

theorem totalLossChange_of_no_job {s : State} (h : s.jobs.state ≠ .opened) : totalLossChange s = s := if_neg h

/-- A change to STILL outside TOTAL_LOSS or outside an OPEN job hands the lag tracker nothing (R29, R54). -/
theorem settleCirculation_whole {s : State} (h : s.circ.state ≠ .totalLoss ∨ s.jobs.state ≠ .opened) :
    (settleCirculation s).lag = s.lag ∧ (settleCirculation s).strata = s.strata ∧
      (settleCirculation s).price = s.price := by
  have entered : (enterCirc .still .empty s).lag = s.lag ∧ (enterCirc .still .empty s).strata = s.strata ∧
      (enterCirc .still .empty s).price = s.price := by
    unfold enterCirc
    dsimp only
    split
    · next hcross =>
      have hjob : s.jobs.state ≠ .opened := h.resolve_left fun hn => by simp [crossesTotalLoss, hn] at hcross
      rw [totalLossChange_of_no_job (by simpa using hjob)]
      simp
    · simp
  unfold settleCirculation
  split
  · exact ⟨rfl, rfl, rfl⟩
  · simpa using entered

/-- The records of the incident table. -/
@[simp] def incidentTable (s : State) : List (Option Incident) × List Nat × Nat × Bool :=
  (s.inc.slots, s.inc.order, s.inc.lastWritten, s.inc.overflow)

theorem scanStore_table {s : State} (h : cutSlots s = []) : incidentTable (scanStore s) = incidentTable s := by
  unfold scanStore reportTorn
  rw [h]
  dsimp only [List.foldl_nil]
  split <;> simp

theorem enterReady_table {s : State} (h : s.flu.height.fault = true) :
    incidentTable (enterReady s) = incidentTable s := by
  rw [enterReady_of_faulted h]
  simp [enterJoint]

theorem settleJoint_table {s : State} (hfault : s.flu.height.fault = true) (h : s.joint.state ≠ .unloaded) :
    incidentTable (settleJoint s) = incidentTable s := by
  unfold settleJoint
  dsimp only
  split
  · rfl
  · refine (enterReady_table (by simpa using hfault)).trans ?_
    simp
  · exact enterReady_table hfault
  · next hu => exact absurd hu h
  · split
    · rfl
    · exact enterReady_table hfault

theorem settleJob_table (s : State) : incidentTable (settleJob s) = incidentTable s := by
  unfold settleJob
  split
  · simp [leaveUnfiled, enterJob, setFiling]
  · rfl

theorem startDayBoundary_table {s : State} (h : s.price.stage ≠ .armed .nextDay) :
    incidentTable (startDayBoundary s) = incidentTable s := by
  unfold startDayBoundary
  split
  · rw [dayBoundary_of_not_armed (by exact h)]
    simp
  · rfl

/-! ## The warm start -/

theorem scanStore_jobState (s : State) : (scanStore s).jobs.state = s.jobs.state := by
  unfold scanStore
  simp

theorem warmCirculation_faulted (lines : StartLines) (seconds : Nat) (s : State) :
    (warmCirculation lines seconds s).flu.height.fault = true := by
  unfold warmCirculation settleCirculation
  split
  · simp [FieldLines.warmed, ChannelState.warmed]
  · simp [enterCirc_flu, FieldLines.warmed, ChannelState.warmed]

theorem warmJoint_settles (lines : StartLines) (seconds : Nat) (s : State) :
    SettlesJoint { warmCirculation lines seconds s with rods.overpull := false } (warmJoint lines seconds s) :=
  settleJoint_settles (warmCirculation_faulted lines seconds s)

theorem warmStart_sustains (lines : StartLines) (seconds : Nat) (s : State) :
    Sustains { s with link := .atStart } (warmStart lines seconds s) := by
  have restarted : Sustains { s with link := .atStart }
      { s with link := .atStart, flu := s.flu.warmed lines seconds } := .of_eq rfl
  have overpull : ∀ u : State, Sustains u { u with rods.overpull := false } := fun u => .of_eq rfl
  have timers : ∀ u : State, Sustains u { u with bill.drillTimer := 0, bill.tripTimer := 0 } := fun u => .of_eq rfl
  have monitored := restarted.trans ((scanStore_sustains _).trans (settleCirculation_sustains _))
  exact monitored.trans ((overpull _).trans ((warmJoint_settles lines seconds s).toSustains.trans
    ((timers _).trans ((settleJob_sustains _).trans (startDayBoundary_sustains _)))))

theorem warmStart_bill (lines : StartLines) (seconds : Nat) (s : State) :
    (warmStart lines seconds s).bill = { s.bill with drillTimer := 0, tripTimer := 0 } := by
  have hjoint : (warmJoint lines seconds s).bill = s.bill := by
    rw [(warmJoint_settles lines seconds s).bill]
    simp [warmCirculation]
  rw [warmStart_eq]
  simp [hjoint]

theorem warmStart_rods (lines : StartLines) (seconds : Nat) (s : State) :
    (warmStart lines seconds s).rods =
      { s.rods with
        registry := (warmStart lines seconds s).rods.registry, magazine := (warmStart lines seconds s).rods.magazine,
        overpull := false } := by
  have hjoint : rodReadings (warmJoint lines seconds s).rods = rodReadings { s.rods with overpull := false } := by
    rw [(warmJoint_settles lines seconds s).rods]
    simp [warmCirculation]
  have hstart : (warmStart lines seconds s).rods = (warmJoint lines seconds s).rods := by
    rw [warmStart_eq]
    simp
  rw [hstart]
  generalize (warmJoint lines seconds s).rods = r at hjoint
  cases r
  simp only [rodReadings, Rods.mk.injEq] at hjoint ⊢
  simpa using hjoint

theorem warmCirculation_whole (lines : StartLines) (seconds : Nat) {s : State}
    (h : s.circ.state ≠ .totalLoss ∨ s.jobs.state ≠ .opened) :
    (warmCirculation lines seconds s).lag = s.lag ∧ (warmCirculation lines seconds s).strata = s.strata ∧
      (warmCirculation lines seconds s).price = s.price := by
  have hwhole := settleCirculation_whole
    (s := scanStore { s with link := .atStart, flu := s.flu.warmed lines seconds })
    (by simpa [scanStore_jobState] using h)
  simpa [warmCirculation] using hwhole

/-- Where no span is closed and no swap follows, the lag tracker, the strata log and the pricing unit are kept whole. -/
theorem warmStart_whole (lines : StartLines) (seconds : Nat) {s : State} (hday : s.price.stage ≠ .armed .nextDay)
    (h : s.circ.state ≠ .totalLoss ∨ s.jobs.state ≠ .opened) :
    (warmStart lines seconds s).lag = s.lag ∧ (warmStart lines seconds s).strata = s.strata ∧
      (warmStart lines seconds s).price = s.price := by
  obtain ⟨hlag, hstrata, hprice⟩ := warmCirculation_whole lines seconds h
  obtain ⟨-, jlag, jstrata, jprice, -⟩ := warmJoint_settles lines seconds s
  obtain ⟨dlag, dstrata, dprice⟩ := startDayBoundary_whole
    (s := settleJob { warmJoint lines seconds s with bill.drillTimer := 0, bill.tripTimer := 0 })
    (by simpa [jprice, hprice] using hday)
  rw [warmStart_eq, dlag, dstrata, dprice]
  simp [jlag, jstrata, jprice, hlag, hstrata, hprice]

/-- Where nothing is recorded the incident table is kept. -/
theorem warmStart_table (lines : StartLines) (seconds : Nat) {s : State} (hday : s.price.stage ≠ .armed .nextDay)
    (hstill : s.circ.state = .still) (hjoint : s.joint.state ≠ .unloaded) (hcut : cutSlots s = []) :
    incidentTable (warmStart lines seconds s) = incidentTable s := by
  obtain ⟨-, -, hprice⟩ := warmCirculation_whole lines seconds (s := s) (.inl (by simp [hstill]))
  obtain ⟨-, -, -, jprice, -⟩ := warmJoint_settles lines seconds s
  have monitored : incidentTable (warmCirculation lines seconds s) = incidentTable s := by
    have hscan := scanStore_table (s := { s with link := .atStart, flu := s.flu.warmed lines seconds }) hcut
    rw [warmCirculation, settleCirculation, if_pos (by simpa using hstill)]
    exact hscan
  have joined : incidentTable (warmJoint lines seconds s) = incidentTable (warmCirculation lines seconds s) := by
    refine settleJoint_table (warmCirculation_faulted lines seconds s) ?_
    rw [warmCirculation]
    simpa [(settleCirculation_joint _).1] using hjoint
  rw [warmStart_eq]
  refine (startDayBoundary_table ?_).trans ((settleJob_table _).trans (joined.trans monitored))
  simpa [jprice, hprice] using hday

/-- A day boundary at a start sets BILLING pending (R15, R161, R165). -/
theorem warmStart_billing (lines : StartLines) (seconds : Nat) {s : State}
    (h : s.flu.clockUnset = false ∧ s.flu.dayMark < dayNumber (min (s.flu.clock + seconds) Config.clockMax)) :
    (warmStart lines seconds s).inc.flags.billing = true := by
  have hjoint := (warmJoint_lines lines seconds s).1
  rw [warmStart_eq, startDayBoundary, if_pos (by simpa [hjoint, FieldLines.warmed] using h)]
  exact notify_setsFlag .billing _

/-! ## The commands that make a warm start -/

theorem transmit_eq (s : State) : ∃ sending reply notices,
    transmit s = { s with link.sending := sending, link.reply := reply, link.notices := notices } := by
  unfold transmit
  split
  · exact ⟨_, _, _, rfl⟩
  · split
    · exact ⟨_, _, _, rfl⟩
    · split <;> exact ⟨_, _, _, rfl⟩

theorem transmitRunning_eq (s : State) : ∃ sending reply notices,
    transmitRunning s = { s with link.sending := sending, link.reply := reply, link.notices := notices } := by
  unfold transmitRunning
  split
  · exact transmit_eq s
  · exact ⟨_, _, _, rfl⟩

/-- Each of the three commands makes a warm start on its power lines and begins at most one frame (R1, R205). -/
theorem warmStarts_exec {c : Instr} {lines : StartLines} {seconds : Nat} {s : State}
    (h : warmStarts c lines seconds s) : ∃ intact sending reply notices,
    exec c s = .next
      { warmStart lines seconds { s with power := startPower c s, flu.backupIntact := intact } with
        link.sending := sending, link.reply := reply, link.notices := notices } := by
  obtain rfl | ⟨rfl, hsupply⟩ | ⟨rfl, rfl, hrun, hsend⟩ := h
  · obtain ⟨a, b, n, h⟩ := transmitRunning_eq (applyPower true seconds lines s)
    exact ⟨true, a, b, n, congrArg _ h⟩
  · obtain ⟨a, b, n, h⟩ := transmitRunning_eq (releaseReset seconds lines s)
    refine ⟨s.flu.backupIntact, a, b, n, (congrArg _ h).trans ?_⟩
    rw [releaseReset, if_pos hsupply]
    rfl
  · obtain ⟨a, b, n, h⟩ := transmit_eq (warmStart lines 0 s)
    refine ⟨s.flu.backupIntact, a, b, n, (restartWarmStart_comesTo lines hrun hsend).trans (congrArg _ (h.trans ?_))⟩
    rw [show startPower (.restartWarmStart lines) s = s.power from hrun.symm]

theorem cutSlots_nil {s : State}
    (h : ∀ n k, s.jobs.slots[n]? = some k → k ≠ .writing ∧ s.jobs.op ≠ some (.erase n)) : cutSlots s = [] := by
  refine List.eq_nil_iff_forall_not_mem.2 fun n hn => ?_
  obtain ⟨k, hk, hcut⟩ := mem_cutSlots.1 hn
  obtain ⟨hwriting, herase⟩ := h n k hk
  cases k with
  | writing => exact hwriting rfl
  | filed t => simp [cutShort, herase] at hcut
  | erased | defective | torn => cases hcut

/-- Settles O17: the state that the command reaches has the blocks of the warm start, and the link but for a frame begun. -/
theorem aWarmStartKeepsTheFieldLineMemory : Obligations.AWarmStartKeepsTheFieldLineMemory := by
  refine ⟨fun c lines seconds s hc => ?_, fun lines seconds s => rfl⟩
  obtain ⟨intact, sending, reply, notices, hexec⟩ := warmStarts_exec hc
  have hwhole := warmStart_whole lines seconds (s := { s with power := startPower c s, flu.backupIntact := intact })
  have htable := warmStart_table lines seconds (s := { s with power := startPower c s, flu.backupIntact := intact })
  have hbilling := warmStart_billing lines seconds
    (s := { s with power := startPower c s, flu.backupIntact := intact })
  have hflu := (warmStart_lines lines seconds { s with power := startPower c s, flu.backupIntact := intact }).1
  have hpower := (warmStart_frame lines seconds { s with power := startPower c s, flu.backupIntact := intact }).1
  have hbill := warmStart_bill lines seconds { s with power := startPower c s, flu.backupIntact := intact }
  have hrods := warmStart_rods lines seconds { s with power := startPower c s, flu.backupIntact := intact }
  obtain ⟨hmasks, hoverflow, hflags, hlink, hgeometry⟩ :=
    warmStart_sustains lines seconds { s with power := startPower c s, flu.backupIntact := intact }
  generalize warmStart lines seconds { s with power := startPower c s, flu.backupIntact := intact } = t at *
  simp only [lagGeometry, Prod.mk.injEq] at hgeometry
  simp only [Link.mk.injEq] at hlink
  obtain ⟨hrx, hholding, -, -, -, hoverrun⟩ := hlink
  refine ⟨_, hexec, hpower, by rw [hflu]; rfl, by rw [hflu]; rfl, by rw [hflu]; rfl, by rw [hflu]; rfl,
    by rw [hflu]; rfl, by rw [hflu]; rfl, by rw [hflu]; rfl, by rw [hflu]; rfl, by rw [hflu]; rfl, by rw [hflu]; rfl,
    hrx, hholding, hoverrun, hbill, by rw [hflu]; exact ⟨rfl, rfl, rfl, rfl⟩, ?_, hgeometry, hrods,
    ⟨hmasks, hoverflow, hflags⟩, hwhole, fun hday hstill hjoint hslots => ?_⟩
  · split
    · next hday => exact ⟨by rw [hflu]; exact if_pos hday, hbilling hday⟩
    · next hday => rw [hflu]; exact if_neg hday
  · have := htable hday hstill hjoint (cutSlots_nil hslots)
    simpa only [incidentTable, Prod.mk.injEq] using this

end Sys2Proof.Machine
end

