-- ==== Sys2Proof/Proofs/FieldLines.lean ====
section
/-! PROOFS. The field lines (spec 01): SET CHANNEL, SET CLOCK and READ FIELD LINES (O18, O19), a sample and what its consumers make
of it (O20), the tag reader (O22), and the clock and the bin phase of a second tick (O23). -/

namespace Sys2Proof.Machine

/-! ## The field lines' requests (O18, O19) -/

theorem takeSetChannel_of_good {channel fs : Nat} {ch : Channel} (hch : channelOf channel = some ch)
    (h : fullScaleGood ch fs = true) (s : State) :
    takeSetChannel channel fs s = (setChannelState ch { channelState ch s with fullScale := fs } s, .ok) := by
  simp [takeSetChannel, hch, h]

theorem takeSetChannel_of_range {channel fs : Nat} {ch : Channel} (hch : channelOf channel = some ch)
    (h : fullScaleGood ch fs = false) (s : State) : takeSetChannel channel fs s = (s, .badArgument) := by
  simp [takeSetChannel, hch, h]

theorem takeSetChannel_of_number {channel : Nat} (hch : channelOf channel = none) (fs : Nat) (s : State) :
    takeSetChannel channel fs s = (s, .badArgument) := by
  simp [takeSetChannel, hch]

theorem inRange_eq_true {lo hi n : Nat} : inRange lo hi n = true ↔ lo ≤ n ∧ n ≤ hi := by simp [inRange]

theorem inRange_eq_false {lo hi n : Nat} : inRange lo hi n = false ↔ n < lo ∨ hi < n := by
  rw [← Bool.not_eq_true, inRange_eq_true]
  omega

theorem channelOf_eq_none {channel : Nat} (h : 3 < channel) : channelOf channel = none := by
  unfold channelOf
  split
  case h_5 => rfl
  all_goals omega

/-- SET CHANNEL of a channel whose range is known: the full scale alone, or a refusal (R7). -/
theorem setChannel_answers {who : Addressee} {channel : Nat} {ch : Channel} {lo hi : Nat} {s : State} (fs : Nat)
    (h : ready who s) (hch : channelOf channel = some ch) (hrange : fullScaleGood ch fs = inRange lo hi fs) :
    (lo ≤ fs ∧ fs ≤ hi →
      isAnswered (.setChannel who channel fs) s .ok
        fun u => setChannelState ch { channelState ch u with fullScale := fs } u) ∧
      (fs < lo ∨ hi < fs → isRefused (.setChannel who channel fs) s .badArgument) := by
  refine ⟨fun hfs => isAnswered_of_take h rfl rfl (takeSetChannel_of_good hch ?_ _),
    fun hfs => isAnswered_of_take h rfl rfl (takeSetChannel_of_range hch ?_ _)⟩
  · rw [hrange]
    exact inRange_eq_true.2 hfs
  · rw [hrange]
    exact inRange_eq_false.2 hfs

/-- Settles O18. -/
theorem setChannelChangesTheFullScaleAlone : Obligations.SetChannelChangesTheFullScaleAlone := by
  intro who channel fs s h
  refine ⟨fun hch => isAnswered_of_take h rfl rfl (takeSetChannel_of_number (channelOf_eq_none hch) fs _), ?_, ?_, ?_, ?_⟩
  · rintro rfl
    exact setChannel_answers (ch := .pressure) fs h rfl rfl
  · rintro rfl
    exact setChannel_answers (ch := .load) fs h rfl rfl
  · rintro rfl
    exact setChannel_answers (ch := .height) fs h rfl rfl
  · rintro rfl
    exact setChannel_answers (ch := .torque) fs h rfl rfl

/-- The address a reply carries, as a number: 0 for the straps that give none (R2). -/
theorem ownAddress_getD (s : State) :
    (ownAddress s).getD 0 = if s.flu.straps.val = 31 then 0 else s.flu.straps.val := by
  have hlt := s.flu.straps.isLt
  unfold ownAddress
  split
  · rw [if_neg (by omega), Option.getD_some]
  · rw [Option.getD_none]
    split <;> omega

theorem StartKind.code_eq (k : StartKind) : k.code = if k = .cold then 0 else 1 := by cases k <;> rfl

theorem takeSetClock_of_good {time : Nat} (h : time ≤ 4294967295) (s : State) :
    takeSetClock time s = (applySetClock time s, .ok) := if_pos h

/-- Settles O19. -/
theorem clockAndFieldLineRequests : Obligations.ClockAndFieldLineRequests := by
  intro who time s h
  refine ⟨fun htime hsame => ?_, fun htime hset hday => ?_, fun htime => ?_, ?_⟩ <;>
    refine isAnswered_of_take h rfl rfl ?_
  · have hnew : ¬ (s.flu.clockUnset = false ∧ s.flu.dayMark < dayNumber time) := by
      rintro ⟨hset, hday⟩
      obtain hunset | hmark := hsame
      · simp [hset] at hunset
      · exact absurd hday (Nat.not_lt_of_le hmark)
    refine (takeSetClock_of_good htime _).trans ?_
    rw [applySetClock, if_neg (by exact hnew)]
    rfl
  · refine (takeSetClock_of_good htime _).trans ?_
    rw [applySetClock, if_pos (by exact ⟨hset, hday⟩)]
    rfl
  · exact if_neg (Nat.not_le_of_lt htime)
  · refine congrArg (fun data => (taking (.readFieldLines who) s, Reply.ok data)) ?_
    simp only [fieldLinesData, ownAddress_getD, StartKind.code_eq]
    rfl

/-! ## A sample (O20) -/

/-- A channel that a good sample scales (R4, R5). -/
theorem sampled_of_good {c : ChannelState} {current : Nat} (hband : 3600 ≤ current ∧ current ≤ 21000)
    (h : c.fault = false ∨ 5 ≤ min (c.good + 1) 5) :
    c.sampled current =
      { c with value := scaledValue c.fullScale current, fault := false, good := min (c.good + 1) 5 } := by
  have hrestored : (c.fault && decide (min (c.good + 1) 5 < 5)) = false := by
    obtain h | h := h
    · simp [h]
    · rw [decide_eq_false (Nat.not_lt.2 h), Bool.and_false]
  rw [ChannelState.sampled, if_pos (show inBand current = true from inRange_eq_true.2 hband)]
  exact if_neg (ne_true_of_eq_false hrestored)

/-- A faulted channel that counts toward its restore (R5). -/
theorem sampled_of_restoring {c : ChannelState} {current : Nat} (hband : 3600 ≤ current ∧ current ≤ 21000)
    (hfault : c.fault = true) (h : min (c.good + 1) 5 < 5) :
    c.sampled current = { c with good := min (c.good + 1) 5 } := by
  have hcounting : (c.fault && decide (min (c.good + 1) 5 < 5)) = true := by
    rw [hfault, decide_eq_true h, Bool.and_true]
  rw [ChannelState.sampled, if_pos (show inBand current = true from inRange_eq_true.2 hband)]
  exact if_pos hcounting

/-- A channel that an out-of-band sample faults (R6). -/
theorem sampled_of_out {c : ChannelState} {current : Nat} (hband : current < 3600 ∨ 21000 < current) :
    c.sampled current = { c with good := 0, fault := true } := by
  rw [ChannelState.sampled, inBand, inRange_eq_false.2 hband]
  rfl

theorem recordFault_of_band {ch : Channel} {current : Nat} {was : ChannelState} {s : State}
    (hband : 3600 ≤ current ∧ current ≤ 21000) : recordFault ch current was s = s := by
  rw [recordFault, inBand, inRange_eq_true.2 hband]
  rfl

theorem recordFault_of_out {ch : Channel} {current : Nat} {was : ChannelState} {s : State}
    (hband : current < 3600 ∨ 21000 < current) :
    recordFault ch current was s =
      if was.fault then s else record .channelFault (channelCode ch) current s := by
  rw [recordFault, inBand, inRange_eq_false.2 hband]
  cases was.fault <;> rfl

/-- What a sample makes of its channel, and what it hands on (R3 to R6). -/
theorem sample_cases (ch : Channel) (current : Nat) (s : State) :
    let c := channelState ch s
    (3600 ≤ current ∧ current ≤ 21000 →
      (c.fault = false ∨ 5 ≤ min (c.good + 1) 5 →
        sample ch current s =
          deliverSample ch (some (scaledValue c.fullScale current))
            (setChannelState ch
              { c with value := scaledValue c.fullScale current, fault := false, good := min (c.good + 1) 5 } s)) ∧
      (c.fault = true → min (c.good + 1) 5 < 5 →
        sample ch current s =
          deliverSample ch none (setChannelState ch { c with good := min (c.good + 1) 5 } s))) ∧
    (current < 3600 ∨ 21000 < current →
      (c.fault = true →
        sample ch current s = deliverSample ch none (setChannelState ch { c with good := 0 } s)) ∧
      (c.fault = false →
        sample ch current s =
          deliverSample ch none
            (record .channelFault (channelCode ch) current
              (setChannelState ch { c with fault := true, good := 0 } s)))) := by
  intro c
  have hsample : sample ch current s = deliverSample ch (c.sampled current).handedOn
      (recordFault ch current c (setChannelState ch (c.sampled current) s)) := rfl
  refine ⟨fun hband => ⟨fun h => ?_, fun hfault h => ?_⟩, fun hband => ⟨fun hfault => ?_, fun hfault => ?_⟩⟩
  · rw [hsample, recordFault_of_band hband, sampled_of_good hband h]
    rfl
  · rw [hsample, recordFault_of_band hband, sampled_of_restoring hband hfault h, ChannelState.handedOn,
      if_pos (by exact hfault)]
  · rw [hsample, recordFault_of_out hband, sampled_of_out hband, if_pos hfault, ← hfault]
    exact congrArg (fun good => deliverSample ch good _) (if_pos hfault)
  · rw [hsample, recordFault_of_out hband, sampled_of_out hband, if_neg (by rw [hfault]; exact Bool.false_ne_true)]
    rfl

/-! ## The consumers of a sample -/

/-- What a pressure sample makes of the bleed hold (R36). -/
theorem bleedSample_eq (good : Option Nat) (s : State) :
    bleedSample good s =
      if s.circ.state = .stopping then
        if (good.any fun v => decide (v ≤ s.circ.limits.bleedLimit)) = true then
          if s.circ.bleedHolding = true then s else { s with circ.bleedHolding := true, circ.bleedCount := 0 }
        else { s with circ.bleedHolding := false, circ.bleedCount := 0 }
      else s := by
  unfold bleedSample
  cases good <;> simp

theorem bleedSample_limits (good : Option Nat) (s : State) :
    (bleedSample good s).circ.limits = s.circ.limits := by
  rw [bleedSample_eq]
  split
  · split
    · split <;> rfl
    · rfl
  · rfl

/-- A pressure sample that is not good or not bled ends BREAK_PERMIT (R100). -/
theorem jointPressure_eq (good : Option Nat) (s : State) :
    jointPressure good s =
      if s.joint.state = .breakPermit ∧ (good.any fun v => decide (v ≤ s.circ.limits.bleedLimit)) = false then
        endBreakPermit s
      else s := by
  unfold jointPressure
  cases good <;> simp [ite_and]

theorem deliverSample_pressure (good : Option Nat) (s : State) :
    let low := good.any fun v => decide (v ≤ s.circ.limits.bleedLimit)
    (s.joint.state = .breakPermit → low = false →
      deliverSample .pressure good s = endBreakPermit (bleedSample good s)) ∧
    (s.joint.state ≠ .breakPermit ∨ low = true → deliverSample .pressure good s = bleedSample good s) := by
  have hjoint : (bleedSample good s).joint = s.joint := by simp
  intro low
  rw [deliverSample, jointPressure_eq, bleedSample_limits, hjoint]
  refine ⟨fun hj hlow => if_pos ⟨hj, hlow⟩, fun h => if_neg ?_⟩
  rintro ⟨hj, hlow⟩
  obtain h | h := h
  · exact h hj
  · exact absurd (hlow.symm.trans h) Bool.false_ne_true

theorem clampDepth_eq (d : Int) : clampDepth d = if d < 0 then 0 else if 200000 < d then 200000 else d.toNat := by
  unfold clampDepth Config.depthMax
  split
  · omega
  · split <;> omega

/-- An advance of the hole depth: the footage counter, and in an OPEN job the lag tracker and the drilling timer (R79). -/
theorem holeAdvance_of_beyond {s : State} (h : s.rods.holeDepth < s.rods.bitDepth) :
    holeAdvance s =
      handAdvance (addFootage (s.rods.bitDepth - s.rods.holeDepth) { s with rods.holeDepth := s.rods.bitDepth }) :=
  if_pos h

theorem deliverSample_load (v : Nat) (s : State) :
    let watched := s.joint.state = .ready ∧ s.rods.overpullLimit ≠ 0
    deliverSample .load none s = s ∧
    (watched → s.rods.overpullLimit < v →
      (s.rods.overpull = true → deliverSample .load (some v) s = s) ∧
      (s.rods.overpull = false →
        deliverSample .load (some v) s = record .overpull v s.rods.overpullLimit { s with rods.overpull := true })) ∧
    (¬ watched ∨ v ≤ s.rods.overpullLimit →
      deliverSample .load (some v) s = { s with rods.overpull := false }) := by
  intro watched
  refine ⟨rfl, fun hw hv => ⟨fun ho => ?_, fun ho => ?_⟩, fun h => ?_⟩
  · rw [deliverSample, loadSample, if_pos hw, if_pos hv, if_pos ho]
  · rw [deliverSample, loadSample, if_pos hw, if_pos hv, if_neg (by rw [ho]; exact Bool.false_ne_true)]
  · rw [deliverSample, loadSample]
    split
    · next hw => exact if_neg (Nat.not_lt.2 (h.resolve_left (not_not_intro hw)))
    · rfl

theorem deliverSample_height (v : Nat) (s : State) :
    let sum : Int := (s.rods.bhaLength : Int) + s.rods.stringLength - v - s.rods.headOffset
    let depth := if sum < 0 then 0 else if 200000 < sum then 200000 else sum.toNat
    let u : State :=
      { s with rods.unclamped := sum, rods.bitDepth := depth, rods.depthClamp := decide (sum < 0 ∨ 200000 < sum) }
    let footage := min (s.rods.footage + (depth - s.rods.holeDepth)) 4000000000
    let w : State := { u with rods.holeDepth := depth, rods.footage := footage }
    let x := if s.rods.footage < 4000000000 ∧ footage = 4000000000 then record .counterSaturated 4 0 w else w
    deliverSample .height none s = s ∧
    (s.joint.state ≠ .ready → deliverSample .height (some v) s = s) ∧
    (s.joint.state = .ready →
      (depth ≤ s.rods.holeDepth → deliverSample .height (some v) s = u) ∧
      (s.rods.holeDepth < depth →
        (s.jobs.state ≠ .opened → deliverSample .height (some v) s = x) ∧
        (s.jobs.state = .opened →
          deliverSample .height (some v) s = { lagAdvance depth x with bill.drillTimer := 60 }))) := by
  intro sum depth u footage w x
  have hrecompute : s.joint.state = .ready → deliverSample .height (some v) s = holeAdvance u := by
    intro hready
    have hu : ({ s with rods.unclamped := depthSum v s, rods.bitDepth := clampDepth (depthSum v s),
                        rods.depthClamp := decide (depthSum v s < 0) ||
                          decide ((Config.depthMax : Int) < depthSum v s) } : State) = u := by
      rw [clampDepth_eq, ← Bool.decide_or]
      rfl
    rw [deliverSample, heightSample, if_pos hready, recompute, hu]
  have hx : s.rods.holeDepth < depth → holeAdvance u = handAdvance x := fun h => holeAdvance_of_beyond (s := u) h
  have hjobs : x.jobs = s.jobs := by
    simp only [x]
    split
    · simp [w, u]
    · rfl
  have hhole : x.rods.holeDepth = depth := by
    simp only [x]
    split
    · simp [w, u]
    · rfl
  refine ⟨rfl, fun h => if_neg h, fun hready => ⟨fun h => ?_, fun h => ⟨fun hjob => ?_, fun hjob => ?_⟩⟩⟩
  · rw [hrecompute hready]
    exact if_neg (Nat.not_lt.2 h)
  · rw [hrecompute hready, hx h, handAdvance, if_neg (by rw [hjobs]; exact hjob)]
  · rw [hrecompute hready, hx h, handAdvance, if_pos (by rw [hjobs]; exact hjob), hhole]
    rfl

theorem deliverSample_torque (v : Nat) (s : State) :
    let threshold := s.joint.limits.target / 10
    deliverSample .torque none s = s ∧
    (s.joint.episode = none →
      (threshold < v →
        deliverSample .torque (some v) s =
          { s with joint.episode := some { peak := v, permitLow := !s.flu.makeUpPermit } }) ∧
      (v ≤ threshold → deliverSample .torque (some v) s = s)) ∧
    ∀ e, s.joint.episode = some e →
      (threshold < v →
        deliverSample .torque (some v) s = { s with joint.episode := some { e with peak := max e.peak v } }) ∧
      (v = threshold → deliverSample .torque (some v) s = s) ∧
      (v < threshold → deliverSample .torque (some v) s = endEpisode e s) := by
  intro threshold
  refine ⟨rfl, fun he => ⟨fun hv => ?_, fun hv => ?_⟩, fun e he => ⟨fun hv => ?_, fun hv => ?_, fun hv => ?_⟩⟩ <;>
    simp only [deliverSample, torqueSample, he]
  · exact if_pos hv
  · exact if_neg (Nat.not_lt.2 hv)
  · exact if_pos hv
  · exact (if_neg (Nat.not_lt.2 (Nat.le_of_eq hv))).trans (if_neg (Nat.not_lt.2 (Nat.le_of_eq hv.symm)))
  · exact (if_neg (Nat.lt_asymm hv)).trans (if_pos hv)

/-- Settles O20. -/
theorem aSampleScalesRestoresOrFaultsItsChannel : Obligations.ASampleScalesRestoresOrFaultsItsChannel := by
  refine ⟨fun ch current s hrun => ?_, fun good s => ?_, deliverSample_load, deliverSample_height, deliverSample_torque⟩
  · have hcomes : comesTo (.analogSample ch current) s (sample ch current s) := comesTo_event rfl hrun
    obtain ⟨hin, hout⟩ := sample_cases ch current s
    intro c scaled good
    refine ⟨fun hband => ⟨fun h => ?_, fun hfault h => ?_⟩, fun hband => ⟨fun hfault => ?_, fun hfault => ?_⟩⟩
    · exact (hin hband).1 h ▸ hcomes
    · exact (hin hband).2 hfault h ▸ hcomes
    · exact (hout hband).1 hfault ▸ hcomes
    · exact (hout hband).2 hfault ▸ hcomes
  · have hdelivers := deliverSample_pressure good s
    rw [bleedSample_eq] at hdelivers
    exact hdelivers

end Sys2Proof.Machine
end

