-- ==== Sys2Proof/Proofs/TimeBase.lean ====
section
/-! PROOFS. The tag reader's frame (O22), and the clock and the bin phase of a second tick (O23). -/

namespace Sys2Proof.Machine

/-! ## The tag reader (O22) -/

/-- Five characters from an empty reader, the first an STX, are judged as one frame and consumed whole (R10, log 14). -/
theorem readerChars_five {s : State} {stx : ReaderChar} (hi lo check etx : ReaderChar) (hempty : s.flu.reader = [])
    (hstx : stx.octet = 0x02#8) :
    readerChars [stx, hi, lo, check, etx] s =
      (soundFrame [stx, hi, lo, check, etx]).elim s fun id => readTag id s := by
  have hback : { s with flu.reader := [] } = s := by rw [← hempty]
  have hchars : readerChars [stx, hi, lo, check, etx] s =
      (soundFrame [stx, hi, lo, check, etx]).elim { s with flu.reader := [] }
        fun id => readTag id { s with flu.reader := [] } := by
    cases hframe : soundFrame [stx, hi, lo, check, etx] <;> simp [readerChars, readerChar, hempty, hstx, hframe]
  rw [hchars, hback]

theorem number_pair (a b : Byte) : number [a, b] = a.toNat * 256 + b.toNat := by simp [number]

theorem soundFrame_eq {stx : ReaderChar} (hi lo check etx : ReaderChar) (hstx : stx.octet = 0x02#8) :
    soundFrame [stx, hi, lo, check, etx] =
      if check.octet = hi.octet ^^^ lo.octet ∧ etx.octet = 0x03#8 ∧
          (stx.framingError || hi.framingError || lo.framingError || check.framingError || etx.framingError) = false ∧
          hi.octet.toNat * 256 + lo.octet.toNat ≠ 0 then
        some (hi.octet.toNat * 256 + lo.octet.toNat)
      else none := by
  simp only [soundFrame, number_pair, hstx]
  refine if_congr ?_ rfl rfl
  simp [and_assoc]

/-- Settles O22. -/
theorem aReaderFrameIsOneTagRead : Obligations.AReaderFrameIsOneTagRead := by
  intro s hrun
  refine ⟨show comesTo _ s (readerTimeout s) from comesTo_event rfl hrun, fun stx hi lo check etx hempty hstx => ?_⟩
  have hcomes : comesTo (.tagRead [stx, hi, lo, check, etx]) s (readerChars [stx, hi, lo, check, etx] s) :=
    comesTo_event rfl hrun
  rw [readerChars_five hi lo check etx hempty hstx, soundFrame_eq hi lo check etx hstx] at hcomes
  intro sound
  refine ⟨fun hsound => ?_, fun hsound => ?_⟩
  · rw [if_pos hsound] at hcomes
    exact hcomes
  · rw [if_neg hsound] at hcomes
    exact hcomes

/-! ## The time base (O23) -/

/-- The clock, the day mark and the bin phase with their flags. -/
@[simp] def timeBase (s : State) : Nat × Bool × Nat × Nat × Bool :=
  (s.flu.clock, s.flu.clockUnset, s.flu.dayMark, s.flu.binPhase, s.flu.binTickTaken)

theorem enterCirc_timeBase (new : CircState) (mask : PumpMask) (s : State) :
    timeBase (enterCirc new mask s) = timeBase s := by simp [enterCirc_flu]

theorem enterCircKept_timeBase (new : CircState) (s : State) : timeBase (enterCircKept new s) = timeBase s :=
  enterCirc_timeBase _ _ s

theorem circulationTick_timeBase (s : State) : timeBase (circulationTick s) = timeBase s := by
  have primed : ∀ u : State, timeBase (expirePrime u) = timeBase u := by
    intro u
    unfold expirePrime
    split
    · simpa using enterCircKept_timeBase .totalLoss u
    · rfl
  have bled : ∀ u : State, timeBase (confirmBleed u) = timeBase u := by
    intro u
    unfold confirmBleed
    split
    · exact enterCirc_timeBase _ _ u
    · rfl
  have stopped : ∀ u : State, timeBase (expireStop u) = timeBase u := by
    intro u
    unfold expireStop
    split
    · simpa using enterCirc_timeBase _ _ u
    · rfl
  unfold circulationTick
  split
  · exact primed _
  · exact (stopped _).trans (bled _)
  all_goals rfl

theorem jointTick_timeBase (s : State) : timeBase (jointTick s) = timeBase s := by
  unfold jointTick
  split
  · unfold expireBreakPermit
    split
    · simp [endBreakPermit, enterReady_flu]
    · rfl
  · rfl

theorem testRuns_timeBase (p r : Nat) (s : State) : timeBase (testRuns p r s) = timeBase s := by
  have entered := fun new : CircState => enterCircKept_timeBase new s
  have lost : timeBase (enterTotalLoss p r s) = timeBase s := by simpa [enterTotalLoss] using entered .totalLoss
  unfold testRuns
  split
  · split
    · exact lost
    · split
      · simpa using entered .partialLoss
      · rfl
  · split
    · exact lost
    · split
      · exact entered _
      · rfl
  · split
    · split <;> exact entered _
    · rfl
  all_goals rfl

theorem takeBinTick_timeBase (s : State) : timeBase (takeBinTick s) = timeBase s := by
  have evaluated : ∀ u : State, timeBase (evaluate u) = timeBase u := by
    intro u
    unfold evaluate
    dsimp only
    split
    · refine (testRuns_timeBase _ _ _).trans ?_
      simp [updateRuns]
    · rfl
  have closed : timeBase (handLoss s.circ.openBin (closeBin s)) = timeBase s := by
    unfold handLoss
    split
    · simp [closeBin]
    · rfl
  unfold takeBinTick
  split
  · dsimp only
    split
    · exact (evaluated _).trans closed
    · exact closed
  · rfl

/-- What the clock's part of a tick makes of the time base (R12, R15). -/
theorem clockTick_timeBase (s : State) :
    timeBase (clockTick s) =
      (min (s.flu.clock + 1) 4294967295, s.flu.clockUnset,
        if s.flu.dayMark < min (s.flu.clock + 1) 4294967295 / 86400 then min (s.flu.clock + 1) 4294967295 / 86400
        else s.flu.dayMark, s.flu.binPhase, s.flu.binTickTaken) := by
  unfold clockTick
  dsimp only
  by_cases h : s.flu.dayMark < dayNumber (min (s.flu.clock + 1) Config.clockMax)
  · have hday : s.flu.dayMark < min (s.flu.clock + 1) 4294967295 / 86400 := h
    rw [if_pos h, if_pos hday]
    split
    · rfl
    · simp [dayNumber, Config.clockMax, Config.daySeconds]
  · have hday : ¬ s.flu.dayMark < min (s.flu.clock + 1) 4294967295 / 86400 := h
    rw [if_neg h, if_neg hday]
    rfl

/-- What the bin phase's part of a tick makes of the time base (R13). -/
theorem phaseTick_timeBase (s : State) :
    timeBase (phaseTick s) =
      (s.flu.clock, s.flu.clockUnset, s.flu.dayMark, if s.flu.binPhase = 4 then 0 else s.flu.binPhase + 1,
        if s.flu.binPhase = 4 then false else s.flu.binTickTaken) := by
  unfold phaseTick
  split
  · dsimp only
    split
    · rfl
    · exact takeBinTick_timeBase _
  · rfl

/-- The state between the billing clock's part of a second tick and the bin phase's. -/
def tickBilled (s : State) : State := billingTick (jointTick (circulationTick (clockTick s)))

theorem tickBilled_timeBase (s : State) : timeBase (tickBilled s) = timeBase (clockTick s) := by
  have billed : ∀ u : State, timeBase (billingTick u) = timeBase u := fun u => by simp
  exact (billed _).trans ((jointTick_timeBase _).trans (circulationTick_timeBase _))

/-- A new day of a set clock sets BILLING pending (R15, R161). -/
theorem secondTick_billing {s : State} (hday : s.flu.dayMark < dayNumber (min (s.flu.clock + 1) Config.clockMax))
    (hset : s.flu.clockUnset = false) : (secondTick s).inc.flags.billing = true := by
  have hclock : (clockTick s).inc.flags.get .billing = true := by
    unfold clockTick
    dsimp only
    rw [if_pos hday, if_neg (by rw [hset]; exact Bool.false_ne_true)]
    exact notify_setsFlag .billing _
  exact phaseTick_keepsFlag (billingTick_keepsFlag (jointTick_keepsFlag (circulationTick_keepsFlag hclock)))

/-- Settles O23. -/
theorem aSecondTickMovesTheClockAndTheBinPhase : Obligations.ASecondTickMovesTheClockAndTheBinPhase := by
  intro s hrun
  refine ⟨transmit (secondTick s), comesTo_event rfl hrun, ?_⟩
  have hbase : timeBase (secondTick s) = timeBase (phaseTick (tickBilled s)) := rfl
  have hbilled := tickBilled_timeBase s
  rw [phaseTick_timeBase] at hbase
  rw [clockTick_timeBase] at hbilled
  simp only [timeBase, Prod.mk.injEq] at hbase hbilled
  obtain ⟨hclock, hunset, hmark, hphase, -⟩ := hbase
  obtain ⟨bclock, bunset, bmark, bphase, -⟩ := hbilled
  have hflu : (transmit (secondTick s)).flu = (secondTick s).flu := by simp
  have hinc : (transmit (secondTick s)).inc = (secondTick s).inc := by simp
  rw [hflu, hinc, hclock, hunset, hmark, hphase, bclock, bunset, bmark, bphase]
  refine ⟨rfl, rfl, rfl, ?_⟩
  split
  · next hday => exact ⟨rfl, fun hset => secondTick_billing hday hset⟩
  · rfl

end Sys2Proof.Machine
end

