-- ==== Sys2Proof/Proofs/Pulses.lean ====
section
/-! PROOFS. Pulses (O21): the pulse line, a stroke and a return pulse with their fractions, and the steps of one litre. -/

namespace Sys2Proof.Machine

/-! ## The pulse line (R9) -/

/-- A line that has been low long enough to end any pulse. -/
def quietLine (low : Nat) : PulseLine :=
  { high := false, inPulse := false, width := 0, lowTime := low, counted := false, waitLow := false }

/-- A line in a pulse from a quiet line. -/
def pulsedLine (micros : Nat) (counted : Bool) : PulseLine :=
  { high := true, inPulse := true, width := micros, lowTime := 0, counted := counted, waitLow := false }

theorem span_quiet_high (low micros : Nat) :
    (quietLine low).span { high := true, micros := micros } =
      (pulsedLine micros (decide (2000 ≤ micros)), decide (2000 ≤ micros)) := by
  simp [PulseLine.span, quietLine, pulsedLine, Config.pulseMicros]

theorem span_uncounted_low {low : Nat} (micros : Nat) (h : 2000 ≤ low) :
    (pulsedLine micros false).span { high := false, micros := low } = (quietLine low, false) := by
  simp [PulseLine.span, quietLine, pulsedLine, Config.pulseMicros, h]

theorem pulseActivity_wide {input : PulseInput} {low micros : Nat} {s : State}
    (hline : pulseLine input s = quietLine low) (h : 2000 ≤ micros) :
    pulseActivity input [{ high := true, micros := micros }] s =
      acceptPulse input (setPulseLine input (pulsedLine micros true) s) := by
  simp [pulseActivity, hline, PulseLine.spans, span_quiet_high, h, repeatTimes]

theorem pulseActivity_narrow {input : PulseInput} {low micros : Nat} {s : State}
    (hline : pulseLine input s = quietLine low) (hlow : 2000 ≤ low) (h : micros < 2000) :
    pulseActivity input [{ high := true, micros := micros }, { high := false, micros := low }] s = s := by
  have hnarrow : decide (2000 ≤ micros) = false := decide_eq_false (Nat.not_le.2 h)
  simp only [pulseActivity, hline, PulseLine.spans, span_quiet_high, hnarrow, span_uncounted_low micros hlow]
  exact (congrArg (fun l => setPulseLine input l s) hline.symm).trans (setPulseLine_self input s)

theorem setPulseLine_blocks (input : PulseInput) (l : PulseLine) (s : State) :
    (setPulseLine input l s).circ = s.circ ∧ (setPulseLine input l s).lag = s.lag := by
  cases input <;> exact ⟨rfl, rfl⟩

/-! ## One litre (R20 to R22, R24, R31, R42) -/

/-- The counted litre in the open bin (R24), on the state that has counted it. -/
def binPumped (s v : State) : State :=
  if s.circ.state.pumping = true then { v with circ.openBin.pumped := min (s.circ.openBin.pumped + 1) 65535 } else v

/-- The counted returned litre in the open bin (R24), on the state that has counted it. -/
def binReturned (s v : State) : State :=
  if s.circ.state.pumping = true then { v with circ.openBin.returned := min (s.circ.openBin.returned + 1) 65535 } else v

/-- The volume Vp with a litre more, a saturation recorded (R20). -/
def countPumped (s : State) : State :=
  recordSaturation 0 s.circ.vp (min (s.circ.vp + 1) 4000000000) { s with circ.vp := min (s.circ.vp + 1) 4000000000 }

/-- The volume Vr with a litre more, a saturation recorded (R20). -/
def countReturned (s : State) : State :=
  recordSaturation 1 s.circ.vr (min (s.circ.vr + 1) 4000000000) { s with circ.vr := min (s.circ.vr + 1) 4000000000 }

theorem countPumped_blocks (s : State) :
    (countPumped s).circ = { s.circ with vp := min (s.circ.vp + 1) 4000000000 } ∧ (countPumped s).lag = s.lag := by
  simp [countPumped]

theorem countReturned_circ (s : State) :
    (countReturned s).circ = { s.circ with vr := min (s.circ.vr + 1) 4000000000 } := by
  simp [countReturned]

/-- The fields of circulation but its litre counters and its open bin. -/
theorem binPumped_fields (s : State) :
    (binPumped s (countPumped s)).circ.state = s.circ.state ∧ (binPumped s (countPumped s)).circ.vl = s.circ.vl ∧
      (binPumped s (countPumped s)).circ.vr = s.circ.vr ∧
      (binPumped s (countPumped s)).circ.pumpedResidue = s.circ.pumpedResidue ∧
      (binPumped s (countPumped s)).circ.vp = min (s.circ.vp + 1) 4000000000 ∧
      (binPumped s (countPumped s)).lag = s.lag := by
  unfold binPumped
  split <;> simp [countPumped_blocks]

theorem binReturned_fields (s : State) :
    (binReturned s (countReturned s)).circ.state = s.circ.state ∧
      (binReturned s (countReturned s)).circ.mask = s.circ.mask ∧
      (binReturned s (countReturned s)).circ.limits = s.circ.limits ∧
      (binReturned s (countReturned s)).circ.primeCount = s.circ.primeCount ∧
      (binReturned s (countReturned s)).circ.staticCount = s.circ.staticCount ∧
      (binReturned s (countReturned s)).circ.staticFlag = s.circ.staticFlag ∧
      (binReturned s (countReturned s)).circ.vp = s.circ.vp ∧ (binReturned s (countReturned s)).circ.vl = s.circ.vl ∧
      (binReturned s (countReturned s)).circ.returnResidue = s.circ.returnResidue ∧
      (binReturned s (countReturned s)).circ.vr = min (s.circ.vr + 1) 4000000000 := by
  unfold binReturned
  split <;> simp [countReturned_circ]

theorem binPumped_of_counted {s v : State} (hstate : v.circ.state = s.circ.state) (hopen : v.circ.openBin = s.circ.openBin) :
    (if v.circ.state.binsRun = true then
      ({ v with circ.openBin.pumped := satAdd Config.binMax v.circ.openBin.pumped 1 } : State) else v) =
      binPumped s v := by
  rw [binPumped, ← hstate, ← hopen]
  rfl

theorem binReturned_of_counted {s v : State} (hstate : v.circ.state = s.circ.state)
    (hopen : v.circ.openBin = s.circ.openBin) :
    (if v.circ.state.binsRun = true then
      ({ v with circ.openBin.returned := satAdd Config.binMax v.circ.openBin.returned 1 } : State) else v) =
      binReturned s v := by
  rw [binReturned, ← hstate, ← hopen]
  rfl

theorem pumpedLitre_eq (s : State) :
    pumpedLitre s =
      if s.circ.state.lagCarrying = true then
        lagClockAdvance (recordSaturation 2 s.circ.vl (min (s.circ.vl + 1) 4000000000)
          { binPumped s (countPumped s) with circ.vl := min (s.circ.vl + 1) 4000000000 })
      else binPumped s (countPumped s) := by
  obtain ⟨hstate, hvl, -⟩ := binPumped_fields s
  have hbin : pumpedLitre s =
      if (binPumped s (countPumped s)).circ.state.lagCarrying = true then lagLitre (binPumped s (countPumped s))
      else binPumped s (countPumped s) :=
    congrArg (fun u : State => if u.circ.state.lagCarrying = true then lagLitre u else u)
      (binPumped_of_counted (by simp) (by simp))
  rw [hbin, hstate, lagLitre, hvl]
  rfl

theorem returnedLitre_eq (s : State) : returnedLitre s = returnedEffects (binReturned s (countReturned s)) :=
  congrArg returnedEffects (binReturned_of_counted (by simp) (by simp))

/-! ## A stroke and a return pulse -/

/-- What a pumped litre makes of circulation, and of the lag where mud is not carried (R21). -/
theorem pumpedLitre_fields (s : State) :
    (pumpedLitre s).circ.state = s.circ.state ∧ (pumpedLitre s).circ.vr = s.circ.vr ∧
      (pumpedLitre s).circ.pumpedResidue = s.circ.pumpedResidue ∧
      (pumpedLitre s).circ.vp = min (s.circ.vp + 1) 4000000000 ∧
      (s.circ.state.lagCarrying = false → (pumpedLitre s).circ.vl = s.circ.vl ∧ (pumpedLitre s).lag = s.lag) := by
  obtain ⟨hstate, hvl, hvr, hresidue, hvp, hlag⟩ := binPumped_fields s
  rw [pumpedLitre_eq]
  split
  · next h => simp [h, hstate, hvr, hresidue, hvp]
  · exact ⟨hstate, hvr, hresidue, hvp, fun _ => ⟨hvl, hlag⟩⟩

theorem pumpedLitres_fields (n : Nat) (s : State) :
    (repeatTimes pumpedLitre n s).circ.state = s.circ.state ∧ (repeatTimes pumpedLitre n s).circ.vr = s.circ.vr ∧
      (repeatTimes pumpedLitre n s).circ.pumpedResidue = s.circ.pumpedResidue ∧
      (s.circ.vp + n ≤ 4000000000 → (repeatTimes pumpedLitre n s).circ.vp = s.circ.vp + n) ∧
      (s.circ.state.lagCarrying = false →
        (repeatTimes pumpedLitre n s).circ.vl = s.circ.vl ∧ (repeatTimes pumpedLitre n s).lag = s.lag) := by
  induction n generalizing s with
  | zero => exact ⟨rfl, rfl, rfl, fun _ => rfl, fun _ => ⟨rfl, rfl⟩⟩
  | succ n ih =>
    obtain ⟨hstate, hvr, hresidue, hvp, hlag⟩ := pumpedLitre_fields s
    obtain ⟨istate, ivr, iresidue, ivp, ilag⟩ := ih (pumpedLitre s)
    refine ⟨istate.trans hstate, ivr.trans hvr, iresidue.trans hresidue, fun hle => ?_, fun hcarry => ?_⟩
    · have hone : (pumpedLitre s).circ.vp = s.circ.vp + 1 := by omega
      exact (ivp (by omega)).trans (by omega)
    · obtain ⟨hvl, hlag⟩ := hlag hcarry
      obtain ⟨ivl, ilag⟩ := ilag (by rw [hstate]; exact hcarry)
      exact ⟨ivl.trans hvl, ilag.trans hlag⟩

/-- A sum of litre units is carried into Vp, its fraction kept (R21). -/
def carryPumped (sum : Nat) (s : State) : State :=
  repeatTimes pumpedLitre (sum / 1000000) { s with circ.pumpedResidue := sum % 1000000 }

theorem carryPumped_fields (sum : Nat) (s : State) :
    (carryPumped sum s).circ.state = s.circ.state ∧ (carryPumped sum s).circ.vr = s.circ.vr ∧
      (s.circ.vp + sum / 1000000 ≤ 4000000000 →
        (carryPumped sum s).circ.pumpedResidue < 1000000 ∧
          (carryPumped sum s).circ.vp * 1000000 + (carryPumped sum s).circ.pumpedResidue =
            s.circ.vp * 1000000 + sum) ∧
      (s.circ.state.lagCarrying = false → (carryPumped sum s).circ.vl = s.circ.vl ∧ (carryPumped sum s).lag = s.lag) := by
  obtain ⟨hstate, hvr, hresidue, hvp, hlag⟩ :=
    pumpedLitres_fields (sum / 1000000) { s with circ.pumpedResidue := sum % 1000000 }
  refine ⟨hstate, hvr, fun hle => ?_, hlag⟩
  rw [carryPumped, hresidue, hvp hle]
  dsimp only
  omega

/-- A stroke carries its volume product, on the state that has recorded a low enable (R21, R23). -/
theorem stroke_carry (p : Pump) (s : State) :
    stroke p s =
      carryPumped (s.circ.pumpedResidue + (pumpConfig p s).displacement * (pumpConfig p s).efficiency)
        (checkEnable p s) := by
  have hsum : (checkEnable p s).circ.pumpedResidue + (pumpConfig p (checkEnable p s)).product =
      s.circ.pumpedResidue + (pumpConfig p s).displacement * (pumpConfig p s).efficiency := by
    cases p <;> simp [pumpConfig, PumpConfig.product]
  exact congrArg (fun sum => carryPumped sum (checkEnable p s)) hsum

/-- What a stroke makes of circulation: every fraction is kept (R21). -/
theorem stroke_fields (p : Pump) (s : State) :
    (stroke p s).circ.state = s.circ.state ∧ (stroke p s).circ.vr = s.circ.vr ∧
      (s.circ.vp +
            (s.circ.pumpedResidue + (pumpConfig p s).displacement * (pumpConfig p s).efficiency) / 1000000 ≤
          4000000000 →
        (stroke p s).circ.pumpedResidue < 1000000 ∧
          (stroke p s).circ.vp * 1000000 + (stroke p s).circ.pumpedResidue =
            s.circ.vp * 1000000 + s.circ.pumpedResidue +
              (pumpConfig p s).displacement * (pumpConfig p s).efficiency) ∧
      (s.circ.state.lagCarrying = false → (stroke p s).circ.vl = s.circ.vl ∧ (stroke p s).lag = s.lag) := by
  have hcirc : (checkEnable p s).circ = s.circ := by simp
  have hlag : (checkEnable p s).lag = s.lag := by simp
  have hcarry := carryPumped_fields
    (s.circ.pumpedResidue + (pumpConfig p s).displacement * (pumpConfig p s).efficiency) (checkEnable p s)
  rw [← stroke_carry, hcirc, hlag, ← Nat.add_assoc] at hcarry
  exact hcarry

/-- What a returned litre makes of circulation (R22). -/
theorem returnedLitre_fields (s : State) :
    (returnedLitre s).circ.vp = s.circ.vp ∧ (returnedLitre s).circ.vl = s.circ.vl ∧
      (returnedLitre s).circ.returnResidue = s.circ.returnResidue ∧
      (returnedLitre s).circ.vr = min (s.circ.vr + 1) 4000000000 := by
  obtain ⟨-, -, -, -, -, -, hvp, hvl, hresidue, hvr⟩ := binReturned_fields s
  have primed : ∀ u : State, (completePrime u).circ.vp = u.circ.vp ∧ (completePrime u).circ.vl = u.circ.vl ∧
      (completePrime u).circ.returnResidue = u.circ.returnResidue ∧ (completePrime u).circ.vr = u.circ.vr := by
    intro u
    unfold completePrime
    split <;> simp [Circulation.entered]
  have checked : ∀ u : State, (checkStaticFlow u).circ.vp = u.circ.vp ∧ (checkStaticFlow u).circ.vl = u.circ.vl ∧
      (checkStaticFlow u).circ.returnResidue = u.circ.returnResidue ∧ (checkStaticFlow u).circ.vr = u.circ.vr := by
    intro u
    unfold checkStaticFlow
    split <;> simp
  rw [returnedLitre_eq]
  unfold returnedEffects
  split
  · simp [primed, hvp, hvl, hresidue, hvr]
  · split
    · simp [checked, hvp, hvl, hresidue, hvr]
    · exact ⟨hvp, hvl, hresidue, hvr⟩

theorem returnedLitres_fields (n : Nat) (s : State) :
    (repeatTimes returnedLitre n s).circ.vp = s.circ.vp ∧ (repeatTimes returnedLitre n s).circ.vl = s.circ.vl ∧
      (repeatTimes returnedLitre n s).circ.returnResidue = s.circ.returnResidue ∧
      (s.circ.vr + n ≤ 4000000000 → (repeatTimes returnedLitre n s).circ.vr = s.circ.vr + n) := by
  induction n generalizing s with
  | zero => exact ⟨rfl, rfl, rfl, fun _ => rfl⟩
  | succ n ih =>
    obtain ⟨hvp, hvl, hresidue, hvr⟩ := returnedLitre_fields s
    obtain ⟨ivp, ivl, iresidue, ivr⟩ := ih (returnedLitre s)
    refine ⟨ivp.trans hvp, ivl.trans hvl, iresidue.trans hresidue, fun hle => ?_⟩
    have hone : (returnedLitre s).circ.vr = s.circ.vr + 1 := by omega
    exact (ivr (by omega)).trans (by omega)

/-- What a return pulse makes of circulation: every fraction is kept (R22). -/
theorem returnPulse_fields (s : State) :
    let product := s.circ.meterWeight * 1000
    (returnPulse s).circ.vp = s.circ.vp ∧ (returnPulse s).circ.vl = s.circ.vl ∧
      (s.circ.vr + (s.circ.returnResidue + product) / 1000000 ≤ 4000000000 →
        (returnPulse s).circ.returnResidue < 1000000 ∧
          (returnPulse s).circ.vr * 1000000 + (returnPulse s).circ.returnResidue =
            s.circ.vr * 1000000 + s.circ.returnResidue + product) := by
  intro product
  have hpulse : returnPulse s = repeatTimes returnedLitre ((s.circ.returnResidue + product) / 1000000)
      { s with circ.returnResidue := (s.circ.returnResidue + product) % 1000000 } := rfl
  obtain ⟨nvp, nvl, nresidue, nvr⟩ := returnedLitres_fields ((s.circ.returnResidue + product) / 1000000)
    { s with circ.returnResidue := (s.circ.returnResidue + product) % 1000000 }
  dsimp only at nvp nvl nresidue nvr
  rw [hpulse]
  refine ⟨nvp, nvl, fun hle => ?_⟩
  rw [nresidue, nvr hle]
  omega

/-! ## The steps of a returned litre -/

theorem returnedEffects_of_priming {u : State} (h : u.circ.state = .priming) :
    (u.circ.primeCount + 1 < u.circ.limits.primeVolume →
      returnedEffects u = { u with circ.primeCount := u.circ.primeCount + 1 }) ∧
    (u.circ.limits.primeVolume ≤ u.circ.primeCount + 1 →
      returnedEffects u =
        enterCirc .circulating u.circ.mask { u with circ.primeCount := u.circ.primeCount + 1 }) := by
  rw [returnedEffects, if_pos h]
  refine ⟨fun hlt => if_neg fun hfull => ?_, fun hle => if_pos ⟨h, hle⟩⟩
  exact absurd hfull.2 (Nat.not_le.2 hlt)

theorem returnedEffects_of_resting {u : State} (h : u.circ.state = .still ∨ u.circ.state = .stopped) :
    let n := min (u.circ.staticCount + 1) 4000000000
    let x : State := { u with circ.staticCount := n }
    (n < u.circ.limits.flowCheck ∨ u.circ.staticFlag = true → returnedEffects u = x) ∧
    (u.circ.limits.flowCheck ≤ n → u.circ.staticFlag = false →
      returnedEffects u = { record .flowWhileStill n u.circ.state.code x with circ.staticFlag := true }) := by
  intro n x
  have hnot : u.circ.state ≠ .priming := by obtain h | h := h <;> simp [h]
  have hrest : u.circ.state.resting = true := by obtain h | h := h <;> rw [h] <;> rfl
  rw [returnedEffects, if_neg hnot, if_pos hrest]
  refine ⟨fun hor => if_neg fun hdue => ?_, fun hle hflag => if_pos ⟨hrest, hle, hflag⟩⟩
  obtain ⟨-, hle, hflag⟩ := hdue
  obtain hlt | hset := hor
  · exact absurd hle (Nat.not_le.2 hlt)
  · exact Bool.false_ne_true (hflag.symm.trans hset)

theorem returnedEffects_of_other {u : State} (hpriming : u.circ.state ≠ .priming) (hstill : u.circ.state ≠ .still)
    (hstopped : u.circ.state ≠ .stopped) : returnedEffects u = u := by
  have hrest : ¬ u.circ.state.resting = true := by
    cases h : u.circ.state <;> simp_all [CircState.resting]
  rw [returnedEffects, if_neg hpriming, if_neg hrest]

/-! ## An accepted pulse (O21) -/

theorem stroke_eq (p : Pump) (s : State) :
    stroke p s =
      pumpedLitre^[(s.circ.pumpedResidue + (pumpConfig p s).displacement * (pumpConfig p s).efficiency) / 1000000]
        { checkEnable p s with
          circ.pumpedResidue :=
            (s.circ.pumpedResidue + (pumpConfig p s).displacement * (pumpConfig p s).efficiency) % 1000000 } := by
  rw [stroke_carry, carryPumped, repeatTimes_eq_iterate]

theorem returnPulse_eq (s : State) :
    returnPulse s =
      returnedLitre^[(s.circ.returnResidue + s.circ.meterWeight * 1000) / 1000000]
        { s with circ.returnResidue := (s.circ.returnResidue + s.circ.meterWeight * 1000) % 1000000 } :=
  repeatTimes_eq_iterate _ _ _

theorem pulse_comesTo {input : PulseInput} {spans : List LineSpan} {s u : State} (hrun : s.power = .running)
    (h : pulseActivity input spans s = u) : comesTo (.pulseAccepted input spans) s u :=
  h ▸ comesTo_event (c := .pulseAccepted input spans) rfl hrun

/-- What a returned litre does by state, on the state that has counted it (R22, R31, R42). -/
theorem returnedLitre_cases (s : State) :
    let w := binReturned s (countReturned s)
    (s.circ.state = .priming →
      let x : State := { w with circ.primeCount := s.circ.primeCount + 1 }
      (s.circ.primeCount + 1 < s.circ.limits.primeVolume → returnedLitre s = x) ∧
      (s.circ.limits.primeVolume ≤ s.circ.primeCount + 1 →
        returnedLitre s = enterCirc .circulating s.circ.mask x)) ∧
    (s.circ.state = .still ∨ s.circ.state = .stopped →
      let n := min (s.circ.staticCount + 1) 4000000000
      let x : State := { w with circ.staticCount := n }
      (n < s.circ.limits.flowCheck ∨ s.circ.staticFlag = true → returnedLitre s = x) ∧
      (s.circ.limits.flowCheck ≤ n → s.circ.staticFlag = false →
        returnedLitre s = { record .flowWhileStill n s.circ.state.code x with circ.staticFlag := true })) ∧
    (s.circ.state ≠ .priming → s.circ.state ≠ .still → s.circ.state ≠ .stopped → returnedLitre s = w) := by
  intro w
  obtain ⟨hstate, hmask, hlimits, hprime, hstatic, hflag, -⟩ := binReturned_fields s
  have hpriming := returnedEffects_of_priming (u := w)
  have hresting := returnedEffects_of_resting (u := w)
  have hother := returnedEffects_of_other (u := w)
  rw [hstate, hprime, hlimits, hmask, ← returnedLitre_eq] at hpriming
  rw [hstate, hstatic, hlimits, hflag, ← returnedLitre_eq] at hresting
  rw [hstate, ← returnedLitre_eq] at hother
  exact ⟨hpriming, hresting, hother⟩

/-- Settles O21. -/
theorem acceptedPulsesKeepEveryFraction : Obligations.AcceptedPulsesKeepEveryFraction := by
  refine ⟨fun input micros low s hrun hline hlow => ⟨fun hwide => ?_, fun hnarrow => ?_⟩,
    fun input micros s hrun hpump hwide hline => ?_, fun micros s hrun hwide hline => ?_,
    fun s => ⟨stroke_eq .a s, stroke_eq .b s, returnPulse_eq s⟩, fun s => ?_, fun s => ?_⟩
  · exact pulse_comesTo hrun (pulseActivity_wide hline hwide)
  · exact pulse_comesTo hrun (pulseActivity_narrow hline hlow hnarrow)
  · obtain ⟨hcirc, hlag⟩ := setPulseLine_blocks input (pulsedLine micros true) s
    refine ⟨_, pulse_comesTo hrun (pulseActivity_wide hline hwide), ?_⟩
    cases input with
    | a =>
      have h := stroke_fields .a (setPulseLine .a (pulsedLine micros true) s)
      simpa [acceptPulse, pumpConfig, hcirc, hlag] using h
    | b =>
      have h := stroke_fields .b (setPulseLine .b (pulsedLine micros true) s)
      simpa [acceptPulse, pumpConfig, hcirc, hlag] using h
    | r => exact absurd rfl hpump
  · obtain ⟨hcirc, -⟩ := setPulseLine_blocks .r (pulsedLine micros true) s
    refine ⟨_, pulse_comesTo hrun (pulseActivity_wide hline hwide), ?_⟩
    have h := returnPulse_fields (setPulseLine .r (pulsedLine micros true) s)
    simpa [acceptPulse, hcirc] using h
  · exact ⟨fun h => (pumpedLitre_eq s).trans (if_pos h),
      fun h => (pumpedLitre_eq s).trans (if_neg (by rw [h]; exact Bool.false_ne_true))⟩
  · obtain ⟨hpriming, hresting, hother⟩ := returnedLitre_cases s
    refine ⟨hpriming, fun h => ?_, hother⟩
    obtain ⟨hbelow, hdue⟩ := hresting h
    exact ⟨hbelow, fun hle hflag => ⟨_, rfl, hdue hle hflag⟩⟩

end Sys2Proof.Machine
end

