-- ==== Sys2Proof/Proofs/BinTick.lean ====
section
/-! PROOFS. The bin tick (O30): closing the open bin, handing on its loss, and the evaluation of a full window. -/

namespace Sys2Proof.Machine

/-! ## Closing the bin (R24, R25) -/

theorem closeBin_eq (s : State) :
    closeBin s =
      { s with
        circ.window := if s.circ.window.length < 12 then s.circ.window ++ [s.circ.openBin]
          else (s.circ.window ++ [s.circ.openBin]).drop 1,
        circ.openBin := { pumped := 0, returned := 0 } } := by
  have hpush : pushBin s.circ.window s.circ.openBin =
      if s.circ.window.length < 12 then s.circ.window ++ [s.circ.openBin]
      else (s.circ.window ++ [s.circ.openBin]).drop 1 := by
    unfold pushBin Config.windowBins
    by_cases hroom : s.circ.window.length < 12
    · rw [if_neg (Nat.not_le.2 hroom), if_pos hroom]
    · rw [if_pos (Nat.not_lt.1 hroom), if_neg hroom]
  rw [closeBin, hpush]
  rfl

/-- The positive part of a bin in the job loss volume, a saturation recorded (R20, R25). -/
def countLoss (n : Nat) (s : State) : State :=
  recordSaturation 3 s.circ.jobLoss (min (s.circ.jobLoss + n) 4000000000)
    { s with circ.jobLoss := min (s.circ.jobLoss + n) 4000000000 }

theorem handLoss_of_open {b : Bin} {s : State} (heval : s.circ.state.evaluating = true) (hjob : s.jobs.state = .opened) :
    handLoss b s =
      { countLoss (b.pumped - b.returned) s with
        lag.spanLoss :=
          min ((countLoss (b.pumped - b.returned) s).lag.spanLoss + (b.pumped - b.returned)) 4000000000 } := by
  have hjobs : (countLoss (b.pumped - b.returned) s).jobs.state = .opened := by simpa [countLoss] using hjob
  rw [handLoss, if_pos ⟨heval, hjob⟩]
  exact if_pos hjobs

theorem handLoss_of_not {b : Bin} {s : State} (h : s.circ.state.evaluating = false ∨ s.jobs.state ≠ .opened) :
    handLoss b s = s := by
  refine if_neg ?_
  rintro ⟨heval, hjob⟩
  obtain h | h := h
  · exact Bool.false_ne_true (h.symm.trans heval)
  · exact h hjob

theorem handLoss_circ (b : Bin) (s : State) :
    (handLoss b s).circ.state = s.circ.state ∧ (handLoss b s).circ.window = s.circ.window := by
  unfold handLoss
  dsimp only
  split <;> simp

/-- A bin tick while bins run: the bin is closed and handed on, and a full window in an evaluating state is evaluated. -/
theorem takeBinTick_of_binsRun {s : State} (h : s.circ.state.binsRun = true) :
    takeBinTick s =
      if s.circ.state.evaluating = true ∧ (closeBin s).circ.window.length = 12 then
        evaluate (handLoss s.circ.openBin (closeBin s))
      else handLoss s.circ.openBin (closeBin s) := by
  obtain ⟨hstate, hwindow⟩ := handLoss_circ s.circ.openBin (closeBin s)
  have hdue : evaluationDue (handLoss s.circ.openBin (closeBin s)) = true ↔
      s.circ.state.evaluating = true ∧ (closeBin s).circ.window.length = 12 := by
    rw [evaluationDue, hstate, hwindow, Bool.and_eq_true, decide_eq_true_eq]
    rfl
  rw [takeBinTick, if_pos h]
  exact if_congr hdue rfl rfl

theorem CircState.binsRun_of_evaluating {c : CircState} (h : c.evaluating = true) : c.binsRun = true := by
  revert h
  cases c <;> decide

/-! ## The gain check (R41) -/

theorem checkGain_eq (p r : Nat) (s : State) :
    checkGain p r s =
      if (s.circ.balance.gainThreshold : Int) ≤ (r : Int) - p then
        if s.circ.gainEpisode = true then s
        else if s.jobs.state = .opened then
          autoStrike (r - p) (notify .circulation (record .flowGain (r - p) p { s with circ.gainEpisode := true }))
        else notify .circulation (record .flowGain (r - p) p { s with circ.gainEpisode := true })
      else if (r : Int) - p < (s.circ.balance.gainThreshold : Int) - s.circ.balance.hysteresis then
        { s with circ.gainEpisode := false }
      else s := by
  have hjobs : (notify .circulation (record .flowGain (r - p) p { s with circ.gainEpisode := true })).jobs = s.jobs := by
    simp
  unfold checkGain gainCondition gainEnds
  dsimp only
  rw [hjobs]
  simp only [decide_eq_true_eq]

/-- The gain check changes of circulation the gain episode flag alone. -/
theorem checkGain_circ (p r : Nat) (s : State) :
    (checkGain p r s).circ = { s.circ with gainEpisode := (checkGain p r s).circ.gainEpisode } := by
  rw [checkGain_eq]
  repeat' split
  all_goals simp

/-! ## The tests on the runs (R32, R33, R34) -/

theorem testRuns_of_circulating {p r : Nat} {s : State} (h : s.circ.state = .circulating) :
    testRuns p r s =
      if 2 ≤ s.circ.totalRun then enterTotalLoss p r s
      else if 2 ≤ s.circ.partialRun then record .lossPartial (lossRate p r).toNat p (enterCircKept .partialLoss s)
      else s := by
  unfold testRuns
  rw [h]

theorem testRuns_of_partialLoss {p r : Nat} {s : State} (h : s.circ.state = .partialLoss) :
    testRuns p r s =
      if 2 ≤ s.circ.totalRun then enterTotalLoss p r s
      else if 3 ≤ s.circ.recoveryRun then enterCircKept .circulating s
      else s := by
  unfold testRuns
  rw [h]

theorem testRuns_of_totalLoss {p r : Nat} {s : State} (h : s.circ.state = .totalLoss) :
    testRuns p r s =
      if 2 ≤ s.circ.clearRun then
        enterCircKept (if recoveryCondition s.circ.balance p r = true then .circulating else .partialLoss) s
      else s := by
  unfold testRuns
  rw [h]
  dsimp only
  split
  · split <;> rfl
  · rfl

/-- What the tests on the runs decide in the evaluating states. -/
theorem testRuns_cases {p r : Nat} {s : State} (heval : s.circ.state.evaluating = true) :
    (s.circ.state ≠ .totalLoss → 2 ≤ s.circ.totalRun →
      testRuns p r s = record .lossTotal r p (enterCirc .totalLoss s.circ.mask s)) ∧
    (s.circ.state = .circulating → s.circ.totalRun < 2 →
      (2 ≤ s.circ.partialRun →
        testRuns p r s = record .lossPartial (lossRate p r).toNat p (enterCirc .partialLoss s.circ.mask s)) ∧
      (s.circ.partialRun < 2 → testRuns p r s = s)) ∧
    (s.circ.state = .partialLoss → s.circ.totalRun < 2 →
      (3 ≤ s.circ.recoveryRun → testRuns p r s = enterCirc .circulating s.circ.mask s) ∧
      (s.circ.recoveryRun < 3 → testRuns p r s = s)) ∧
    (s.circ.state = .totalLoss →
      (2 ≤ s.circ.clearRun →
        testRuns p r s =
          enterCirc (if recoveryCondition s.circ.balance p r = true then .circulating else .partialLoss) s.circ.mask s) ∧
      (s.circ.clearRun < 2 → testRuns p r s = s)) := by
  refine ⟨fun hnot htotal => ?_, fun hc htotal => ⟨fun hp => ?_, fun hp => ?_⟩,
    fun hc htotal => ⟨fun hr => ?_, fun hr => ?_⟩, fun hc => ⟨fun hclear => ?_, fun hclear => ?_⟩⟩
  · cases hc : s.circ.state with
    | circulating => exact (testRuns_of_circulating hc).trans (if_pos htotal)
    | partialLoss => exact (testRuns_of_partialLoss hc).trans (if_pos htotal)
    | totalLoss => exact absurd hc hnot
    | still | priming | stopping | stopped | pumpTest =>
      rw [hc] at heval
      cases heval
  · exact (testRuns_of_circulating hc).trans ((if_neg (Nat.not_le.2 htotal)).trans (if_pos hp))
  · exact (testRuns_of_circulating hc).trans ((if_neg (Nat.not_le.2 htotal)).trans (if_neg (Nat.not_le.2 hp)))
  · exact (testRuns_of_partialLoss hc).trans ((if_neg (Nat.not_le.2 htotal)).trans (if_pos hr))
  · exact (testRuns_of_partialLoss hc).trans ((if_neg (Nat.not_le.2 htotal)).trans (if_neg (Nat.not_le.2 hr)))
  · exact (testRuns_of_totalLoss hc).trans (if_pos hclear)
  · exact (testRuns_of_totalLoss hc).trans (if_neg (Nat.not_le.2 hclear))

/-! ## The evaluation (R26) -/

/-- The evaluation of the window as it stands. -/
def windowEvaluation (s : State) : Evaluation :=
  { lossRate := lossRate (sumPumped s.circ.window) (sumReturned s.circ.window), pumped := sumPumped s.circ.window,
    returned := sumReturned s.circ.window, verdict := decide (s.circ.balance.minVolume ≤ sumPumped s.circ.window) }

/-- The state that an evaluation with a verdict tests: its sums found and the four runs moved. -/
def evaluatedRuns (s : State) : State :=
  updateRuns (sumPumped s.circ.window) (sumReturned s.circ.window) { s with circ.lastEval := some (windowEvaluation s) }

theorem evaluate_of_verdict {s : State} (h : s.circ.balance.minVolume ≤ sumPumped s.circ.window) :
    evaluate s = testRuns (sumPumped s.circ.window) (sumReturned s.circ.window)
      (checkGain (sumPumped s.circ.window) (sumReturned s.circ.window) (evaluatedRuns s)) :=
  if_pos (decide_eq_true h)

theorem evaluate_of_no_verdict {s : State} (h : sumPumped s.circ.window < s.circ.balance.minVolume) :
    evaluate s =
      { s with
        circ.lastEval := some (windowEvaluation s), circ.totalRun := 0, circ.partialRun := 0, circ.recoveryRun := 0,
        circ.clearRun := 0 } :=
  if_neg (by simpa using h)

/-- What an evaluation with a verdict decides, on the state the gain check leaves. -/
theorem evaluate_cases {s : State} (heval : s.circ.state.evaluating = true)
    (hverdict : s.circ.balance.minVolume ≤ sumPumped s.circ.window) :
    let p := sumPumped s.circ.window
    let r := sumReturned s.circ.window
    let x := evaluatedRuns s
    let y := checkGain p r x
    (s.circ.state ≠ .totalLoss → 2 ≤ x.circ.totalRun →
      evaluate s = record .lossTotal r p (enterCirc .totalLoss s.circ.mask y)) ∧
    (s.circ.state = .circulating → x.circ.totalRun < 2 →
      (2 ≤ x.circ.partialRun →
        evaluate s = record .lossPartial (lossRate p r).toNat p (enterCirc .partialLoss s.circ.mask y)) ∧
      (x.circ.partialRun < 2 → evaluate s = y)) ∧
    (s.circ.state = .partialLoss → x.circ.totalRun < 2 →
      (3 ≤ x.circ.recoveryRun → evaluate s = enterCirc .circulating s.circ.mask y) ∧
      (x.circ.recoveryRun < 3 → evaluate s = y)) ∧
    (s.circ.state = .totalLoss →
      (2 ≤ x.circ.clearRun →
        evaluate s =
          enterCirc (if recoveryCondition s.circ.balance p r = true then .circulating else .partialLoss) s.circ.mask y) ∧
      (x.circ.clearRun < 2 → evaluate s = y)) := by
  intro p r x y
  have hcirc : y.circ = { x.circ with gainEpisode := y.circ.gainEpisode } := checkGain_circ p r x
  have hstate : y.circ.state = s.circ.state := by rw [hcirc]; rfl
  have hmask : y.circ.mask = s.circ.mask := by rw [hcirc]; rfl
  have hbalance : y.circ.balance = s.circ.balance := by rw [hcirc]; rfl
  have htotal : y.circ.totalRun = x.circ.totalRun := by rw [hcirc]
  have hpartial : y.circ.partialRun = x.circ.partialRun := by rw [hcirc]
  have hrecovery : y.circ.recoveryRun = x.circ.recoveryRun := by rw [hcirc]
  have hclear : y.circ.clearRun = x.circ.clearRun := by rw [hcirc]
  have hcases := testRuns_cases (p := p) (r := r) (s := y) (by rw [hstate]; exact heval)
  rw [hstate, hmask, hbalance, htotal, hpartial, hrecovery, hclear, ← evaluate_of_verdict hverdict] at hcases
  exact hcases

/-! ## The bin tick -/

theorem binTick_comesTo {s : State} (hrun : s.power = .running) :
    (s.flu.binPhase ≠ 4 ∨ s.flu.binTickTaken = true → comesTo .binTick s s) ∧
      (s.flu.binPhase = 4 → s.flu.binTickTaken = false →
        comesTo .binTick s (takeBinTick { s with flu.binTickTaken := true })) := by
  have hcomes : comesTo .binTick s (earlyBinTick s) := comesTo_event rfl hrun
  refine ⟨fun h => ?_, fun hphase htaken => ?_⟩
  · have hnot : ¬ (s.flu.binPhase = 4 ∧ s.flu.binTickTaken = false) := by
      rintro ⟨hphase, htaken⟩
      obtain h | h := h
      · exact h hphase
      · exact Bool.false_ne_true (htaken.symm.trans h)
    rwa [earlyBinTick, if_neg hnot] at hcomes
  · rwa [earlyBinTick, if_pos ⟨hphase, htaken⟩] at hcomes

/-- Settles O30. -/
theorem aBinTickClosesTheBinAndEvaluatesAFullWindow : Obligations.ABinTickClosesTheBinAndEvaluatesAFullWindow := by
  refine ⟨fun s hrun => binTick_comesTo hrun, fun s => ?_, fun s heval => ?_⟩
  · intro w closed n loss u v handed
    have hclosed : closeBin s = closed := closeBin_eq s
    refine ⟨takeBinTick_of_not_binsRun, fun h => ?_, fun heval => ?_⟩
    · have hbins : s.circ.state.binsRun = true := by obtain h | h := h <;> rw [h] <;> rfl
      have hnot : s.circ.state.evaluating = false := by obtain h | h := h <;> rw [h] <;> rfl
      rw [takeBinTick_of_binsRun hbins, if_neg (by simp [hnot]), hclosed]
      exact handLoss_of_not (.inl hnot)
    · have hhanded : handLoss s.circ.openBin (closeBin s) = handed := by
        rw [hclosed]
        by_cases hjob : s.jobs.state = .opened
        · exact (handLoss_of_open (s := closed) heval hjob).trans (if_pos hjob).symm
        · exact (handLoss_of_not (s := closed) (.inr hjob)).trans (if_neg hjob).symm
      have htick := takeBinTick_of_binsRun (CircState.binsRun_of_evaluating heval)
      rw [hhanded, hclosed] at htick
      exact ⟨fun hw => htick.trans (if_neg fun h => hw h.2), fun hw => htick.trans (if_pos ⟨heval, hw⟩)⟩
  · intro p r rate b total recovered gains run found e x g y
    have hy : checkGain (sumPumped s.circ.window) (sumReturned s.circ.window) (evaluatedRuns s) = y := checkGain_eq p r x
    refine ⟨fun hp => evaluate_of_no_verdict hp, fun hp => ?_⟩
    have hcases := evaluate_cases heval hp
    dsimp only at hcases
    rw [hy] at hcases
    exact hcases

end Sys2Proof.Machine
end

