-- ==== Sys2Proof/Proofs/Seconds.lean ====
section
/-! PROOFS. A second tick's parts, and the one category a second is counted under (O45). -/

namespace Sys2Proof.Machine

/-! ## The clock's part (R12, R15) -/

theorem clockTick_eq (s : State) :
    clockTick s =
      if s.flu.dayMark < min (s.flu.clock + 1) 4294967295 / 86400 then
        if s.flu.clockUnset = true then
          { s with flu.clock := min (s.flu.clock + 1) 4294967295,
                   flu.dayMark := min (s.flu.clock + 1) 4294967295 / 86400 }
        else
          dayBoundary
            { s with flu.clock := min (s.flu.clock + 1) 4294967295,
                     flu.dayMark := min (s.flu.clock + 1) 4294967295 / 86400 }
      else { s with flu.clock := min (s.flu.clock + 1) 4294967295 } := rfl

/-- Laying reaches the job only through its context's overrun flag (R180). -/
theorem layMark_jobState (d : Nat) (s : State) : (layMark d s).jobs.state = s.jobs.state := by
  obtain ⟨hjobs, -⟩ := layMark_jobs d s
  rw [hjobs]

theorem swapCheck_jobState (s : State) : (swapCheck s).jobs.state = s.jobs.state := by
  unfold swapCheck
  split
  · simp [swap, rotateSets, layMark_jobState]
  · rfl

theorem clockTick_jobState (s : State) : (clockTick s).jobs.state = s.jobs.state := by
  have day : ∀ u : State, (dayBoundary u).jobs.state = u.jobs.state := by
    intro u
    unfold dayBoundary takeTrigger
    split
    · simp [swapCheck_jobState]
    · simp
  unfold clockTick
  dsimp only
  split
  · split
    · rfl
    · exact day _
  · rfl

/-! ## The circulation monitor's part (R31, R36) -/

theorem circulationTick_priming {s : State} (h : s.circ.state = .priming) :
    circulationTick s = expirePrime { s with circ.primeTimer := s.circ.primeTimer + 1 } := by
  unfold circulationTick
  rw [h]

/-- The bleed hold's count after the tick (R36). -/
def bleedHeld (s : State) : Nat :=
  if s.circ.bleedHolding = true then min (s.circ.bleedCount + 1) 10 else s.circ.bleedCount

theorem circulationTick_stopping {s : State} (h : s.circ.state = .stopping) :
    circulationTick s =
      expireStop (confirmBleed { s with circ.stopTimer := s.circ.stopTimer + 1, circ.bleedCount := bleedHeld s }) := by
  unfold circulationTick
  rw [h]
  rfl

theorem circulationTick_of_no_timer {s : State} (hp : s.circ.state ≠ .priming) (hs : s.circ.state ≠ .stopping) :
    circulationTick s = s := by
  unfold circulationTick
  split
  · contradiction
  · contradiction
  all_goals rfl

theorem expireStop_of_not_stopping {s : State} (h : s.circ.state ≠ .stopping) : expireStop s = s :=
  if_neg fun hs => h hs.1

/-- A confirmed bleed ends STOPPING before the timeout's test (R36). -/
theorem expireStop_confirmBleed_of_held {u : State} (hu : u.circ.state = .stopping) (hheld : 10 ≤ u.circ.bleedCount) :
    expireStop (confirmBleed u) = enterCirc .stopped .empty u := by
  have hconfirmed : confirmBleed u = enterCirc .stopped .empty u := if_pos ⟨hu, hheld⟩
  rw [hconfirmed]
  refine expireStop_of_not_stopping ?_
  rw [enterCirc_circ]
  exact CircState.noConfusion

theorem confirmBleed_of_not_held {u : State} (hheld : u.circ.bleedCount < 10) : confirmBleed u = u :=
  if_neg fun h => absurd h.2 (Nat.not_le.2 hheld)

/-! ## The joint controller's part (R100) -/

theorem jointTick_of_not_breakPermit {s : State} (h : s.joint.state ≠ .breakPermit) : jointTick s = s := if_neg h

theorem jointTick_breakPermit {s : State} (h : s.joint.state = .breakPermit) :
    jointTick s = expireBreakPermit { s with joint.timer := s.joint.timer + 1 } := if_pos h

/-! ## The billing clock's part (R152 to R157) -/

/-- The category of a second as the first of R152's tests that holds. -/
theorem chooseCategory_eq (s : State) :
    chooseCategory s =
      if s.bill.override = .standbyClient then .standbyClient
      else if s.bill.override = .nonBillable then .nonBillable
      else if s.circ.state = .totalLoss then .lossControl
      else if 0 < s.bill.drillTimer then .drilling
      else if s.joint.state ≠ .ready ∨ 0 < s.bill.tripTimer then .tripping
      else if s.circ.state.lagCarrying = true then .circulating
      else .idleOnSite := by
  unfold chooseCategory
  cases s.bill.override <;> rfl

/-- Outside PRIMING the lag clock moves in three states. -/
theorem lagCarrying_iff {c : CircState} (h : c ≠ .priming) :
    c.lagCarrying = true ↔ c = .circulating ∨ c = .partialLoss ∨ c = .pumpTest := by
  cases c <;> simp [CircState.lagCarrying] at h ⊢

theorem billingTick_of_not_opened {s : State} (h : s.jobs.state ≠ .opened) :
    billingTick s = { s with bill.drillTimer := s.bill.drillTimer - 1, bill.tripTimer := s.bill.tripTimer - 1 } := by
  unfold billingTick
  rw [if_neg h]

theorem billingTick_opened {s : State} (h : s.jobs.state = .opened) :
    billingTick s =
      { countSecond (chooseCategory s) s with
        bill.drillTimer := (countSecond (chooseCategory s) s).bill.drillTimer - 1,
        bill.tripTimer := (countSecond (chooseCategory s) s).bill.tripTimer - 1 } := by
  unfold billingTick
  rw [if_pos h]

theorem residueOf_countCategory {c : Category} {s : State} {n : Nat} (h : s.bill.residues[categoryCode c]? = some n) :
    residueOf c (countCategory c s) = n + 1 := by
  simp [residueOf, countCategory, setAt, h]

theorem billUnit_of_lt {c : Category} {s : State} {n : Nat} (h : s.bill.residues[categoryCode c]? = some n)
    (hn : n < 35) : billUnit c (countCategory c s) = countCategory c s := by
  unfold billUnit Config.unitSeconds
  rw [residueOf_countCategory h, if_neg (by omega)]

theorem billUnit_of_le {c : Category} {s : State} {n : Nat} {r : RateSet}
    (h : s.bill.residues[categoryCode c]? = some n) (hn : 35 ≤ n) (hr : s.price.active = some r) :
    billUnit c (countCategory c s) =
      priceUnder .time { generation := r.generation, a := categoryCode c, b := 0 }
        (r.times[categoryCode c]?.getD 0) 1
        { countCategory c s with
          bill.residues := (countCategory c s).bill.residues.modify (categoryCode c) fun n => n - 36 } := by
  have hactive : (countCategory c s).price.active = some r := hr
  unfold billUnit Config.unitSeconds
  rw [residueOf_countCategory h, if_pos (by omega)]
  unfold priceUnit
  simp only [hactive]
  rfl

/-- The second of a drilled category joins the open span (R52, R153). -/
theorem countSecond_opened {c : Category} {s u : State} (hunit : billUnit c (countCategory c s) = u)
    (hu : u.jobs.state = .opened) :
    countSecond c s =
      { (if c = .drilling then { u with lag.spanSeconds := min (u.lag.spanSeconds + 1) 4000000000 } else u) with
        bill.last := some c } := by
  have hspan : drilledSecond u = { u with lag.spanSeconds := min (u.lag.spanSeconds + 1) 4000000000 } := if_pos hu
  unfold countSecond
  dsimp only
  rw [hunit, hspan]

/-! ## The bin phase's part (R13) -/

theorem phaseTick_of_ne {s : State} (h : s.flu.binPhase ≠ 4) :
    phaseTick s = { s with flu.binPhase := s.flu.binPhase + 1 } := if_neg h

theorem phaseTick_four {s : State} (h : s.flu.binPhase = 4) :
    phaseTick s =
      if s.flu.binTickTaken = true then { s with flu.binPhase := 0, flu.binTickTaken := false }
      else takeBinTick { s with flu.binPhase := 0, flu.binTickTaken := false } := if_pos h

/-! ## The settlement -/

/-- A tick whose circulation and joint parts change no state leaves the billing clock what its own part makes of it. -/
theorem transmit_secondTick_bill {s : State} (hp : s.circ.state ≠ .priming) (hs : s.circ.state ≠ .stopping)
    (hj : s.joint.state ≠ .breakPermit) :
    (transmit (secondTick s)).bill = (billingTick (clockTick s)).bill := by
  have hcirc : circulationTick (clockTick s) = clockTick s :=
    circulationTick_of_no_timer (by simpa using hp) (by simpa using hs)
  have hjoint : jointTick (clockTick s) = clockTick s := jointTick_of_not_breakPermit (by simpa using hj)
  simp [secondTick, hcirc, hjoint]

theorem chooseCategory_clockTick (s : State) : chooseCategory (clockTick s) = chooseCategory s := by
  simp [chooseCategory]

theorem billingTick_bill {s : State} (h : s.jobs.state = .opened) (hlt : ∀ r ∈ s.bill.residues, r < 36) :
    (billingTick s).bill =
      { s.bill with
        totals := s.bill.totals.modify (categoryCode (chooseCategory s)) fun n => min (n + 1) 4000000000,
        running := min (s.bill.running + 1) 4000000000,
        residues := s.bill.residues.modify (categoryCode (chooseCategory s)) fun n => if n = 35 then 0 else n + 1,
        last := some (chooseCategory s),
        drillTimer := s.bill.drillTimer - 1,
        tripTimer := s.bill.tripTimer - 1 } := by
  rw [billingTick_opened h]
  dsimp only
  rw [countSecond_bill hlt]
  rfl

/-- Settles O45. -/
theorem aSecondIsCountedUnderOneCategory : Obligations.ASecondIsCountedUnderOneCategory := by
  refine ⟨fun s hrun => show comesTo _ s (secondTick s) from comesTo_event rfl hrun, clockTick_eq, fun s => ?circulation,
    fun s => ?billing, fun s => ?phase, fun s hrun hp hs hj hlaw => ?counted⟩
  case circulation =>
    refine ⟨fun hp => ?priming, fun hs => ?stopping, circulationTick_of_no_timer, fun hj => ?breakPermit,
      jointTick_of_not_breakPermit⟩
    case priming =>
      rw [circulationTick_priming hp]
      exact ⟨fun hlt => if_neg fun h => absurd h.2 (Nat.not_le.2 hlt), fun hle => if_pos ⟨hp, hle⟩⟩
    case stopping =>
      rw [circulationTick_stopping hs]
      refine ⟨fun hheld => expireStop_confirmBleed_of_held hs hheld, fun hheld => ?_⟩
      rw [confirmBleed_of_not_held hheld]
      exact ⟨fun hle => if_pos ⟨hs, hle⟩, fun hlt => if_neg fun h => absurd h.2 (Nat.not_le.2 hlt)⟩
    case breakPermit =>
      rw [jointTick_breakPermit hj]
      exact ⟨fun hlt => if_neg fun h => absurd h.2 (Nat.not_le.2 hlt), fun hle => if_pos ⟨hj, hle⟩⟩
  case billing =>
    intro c counted last drilled
    refine ⟨billingTick_of_not_opened, fun hopen n hn => ?_⟩
    have hc : chooseCategory s = c := chooseCategory_eq s
    rw [billingTick_opened hopen, hc]
    clear_value c
    refine ⟨fun hlt => ?_, fun hle r hr => ?_⟩
    · rw [countSecond_opened (billUnit_of_lt hn hlt) hopen]
      rfl
    · rw [countSecond_opened (billUnit_of_le hn hle hr) (by simpa [countCategory] using hopen)]
      rfl
  case phase =>
    refine ⟨phaseTick_of_ne, fun h => ?_⟩
    rw [phaseTick_four h]
    exact ⟨fun htaken => if_pos htaken, fun hfree => if_neg (by simp [hfree])⟩
  case counted =>
    have hbill := transmit_secondTick_bill hp hs hj
    have hclock : (clockTick s).bill = s.bill := by simp
    refine ⟨transmit (secondTick s), comesTo_event rfl hrun, ?_⟩
    rw [hbill]
    by_cases hopen : s.jobs.state = .opened
    · obtain ⟨-, -, hlt, -⟩ := hlaw
      have hc := chooseCategory_eq s
      simp only [lagCarrying_iff hp] at hc
      rw [billingTick_bill ((clockTick_jobState s).trans hopen) (hclock ▸ hlt), chooseCategory_clockTick, hclock, hc]
      exact ⟨rfl, rfl, rfl, fun hno => absurd hopen hno, fun _ => ⟨rfl, rfl, rfl, rfl⟩⟩
    · rw [billingTick_of_not_opened ((clockTick_jobState s).symm ▸ hopen)]
      dsimp only
      rw [hclock]
      exact ⟨rfl, rfl, rfl, fun _ => ⟨rfl, rfl, rfl, rfl⟩, fun h => absurd h hopen⟩

end Sys2Proof.Machine
end

