-- ==== Sys2Proof/Proofs/CirculationState.lean ====
section
/-! PROOFS. Changes of circulation state (spec 02): the duties of a change and its hand-off to the lag tracker (O28), the commands
of rules whose condition is a count (O29), and what a warm start makes of circulation (O14). -/

namespace Sys2Proof.Machine

/-! ## The groups of circulation states as equations (R24, R28) -/

theorem ite_clearsWindow {α : Type} (c : CircState) (a b : α) :
    (if c.clearsWindow = true then a else b) = if c = .partialLoss ∨ c = .pumpTest then b else a := by
  cases c <;> rfl

theorem resting_eq_decide (c : CircState) : c.resting = decide (c = .still ∨ c = .stopped) := by cases c <;> rfl

theorem resting_iff {c : CircState} : c.resting = true ↔ c = .still ∨ c = .stopped := by
  rw [resting_eq_decide, decide_eq_true_eq]

theorem crossesTotalLoss_eq_true {old new : CircState} :
    crossesTotalLoss old new = true ↔ ¬ (old = .totalLoss ↔ new = .totalLoss) := by
  rw [crossesTotalLoss, bne_iff_ne, ne_eq, decide_eq_decide]

/-! ## A change of circulation state (R24, R28, R29, R42, R87) -/

/-- The monitor's fields at a change, each condition on the new state named by its states. -/
theorem entered_eq (new : CircState) (mask : PumpMask) (c : Circulation) :
    c.entered new mask =
      { c with
        state := new, mask := mask, totalRun := 0, partialRun := 0, recoveryRun := 0, clearRun := 0,
        window := if new = .partialLoss ∨ new = .pumpTest then c.window else [],
        openBin := if new = .partialLoss ∨ new = .pumpTest then c.openBin else { pumped := 0, returned := 0 },
        gainEpisode := c.gainEpisode && !(c.state.evaluating && !new.evaluating),
        staticCount := if new = .still ∨ new = .stopped then 0 else c.staticCount,
        staticFlag := if new = .still ∨ new = .stopped then false else c.staticFlag } := by
  have hflag : (c.staticFlag && !new.resting) = if new = .still ∨ new = .stopped then false else c.staticFlag := by
    rw [resting_eq_decide]
    split <;> simp [*]
  simp only [Circulation.entered, ite_clearsWindow, hflag, resting_iff]
  rfl

/-- The state a change hands on: the new fields, the enables and the pending flag, before the hand-off and the permits. -/
def changedCirc (new : CircState) (mask : PumpMask) (s : State) : State :=
  notify .circulation (commandEnables { s with circ := s.circ.entered new mask })

theorem enterCirc_of_same_side {new : CircState} {s : State} (mask : PumpMask)
    (h : s.circ.state = .totalLoss ↔ new = .totalLoss) : enterCirc new mask s = commandPermits (changedCirc new mask s) := by
  have hno : ¬ crossesTotalLoss s.circ.state new = true := fun hc => crossesTotalLoss_eq_true.1 hc h
  rw [enterCirc, if_neg hno, changedCirc]

theorem enterCirc_of_crossing {new : CircState} {s : State} (mask : PumpMask)
    (h : ¬ (s.circ.state = .totalLoss ↔ new = .totalLoss)) :
    enterCirc new mask s = commandPermits (totalLossChange (changedCirc new mask s)) := by
  rw [enterCirc, if_pos (crossesTotalLoss_eq_true.2 h), changedCirc]

/-- A change on one side of TOTAL_LOSS leaves the lag tracker, the strata log, the rate sets and the job alone. -/
theorem enterCirc_blocks_of_same_side {new : CircState} {s : State} (mask : PumpMask)
    (h : s.circ.state = .totalLoss ↔ new = .totalLoss) :
    (enterCirc new mask s).lag = s.lag ∧ (enterCirc new mask s).strata = s.strata ∧
      (enterCirc new mask s).price = s.price ∧ (enterCirc new mask s).jobs = s.jobs := by
  rw [enterCirc_of_same_side mask h]
  simp [changedCirc]

/-- A change sets CIRCULATION pending, and nothing after it clears the flag (R29). -/
theorem enterCirc_setsFlag (new : CircState) (mask : PumpMask) (s : State) :
    (enterCirc new mask s).inc.flags.circulation = true := by
  have hset : (changedCirc new mask s).inc.flags.get .circulation = true := notify_setsFlag _ _
  have kept : ∀ u : State, (commandPermits u).inc.flags.get .circulation = u.inc.flags.get .circulation := fun u => by simp
  by_cases h : s.circ.state = .totalLoss ↔ new = .totalLoss
  · rw [enterCirc_of_same_side mask h]
    exact (kept _).trans hset
  · rw [enterCirc_of_crossing mask h]
    exact (kept _).trans ((totalLossChange_sustains _).flags _ hset)

/-! ## The hand-off to the lag tracker (R29, R54) -/

theorem spanHasLength_iff {d : Nat} {s : State} : spanHasLength d s = true ↔ s.lag.spanTop < d := decide_eq_true_iff

theorem queueFull_iff {s : State} : queueFull s = true ↔ 256 ≤ s.lag.queue.length := decide_eq_true_iff

theorem totalLossChange_of_no_length {s : State} (hjob : s.jobs.state = .opened)
    (h : s.rods.holeDepth ≤ s.lag.spanTop) :
    totalLossChange s = { s with lag.spanBlind := decide (s.circ.state = .totalLoss) } := by
  rw [totalLossChange, if_pos hjob, if_neg (fun hl => absurd (spanHasLength_iff.1 hl) (Nat.not_lt.2 h))]

theorem totalLossChange_of_length {s : State} (hjob : s.jobs.state = .opened) (h : s.lag.spanTop < s.rods.holeDepth) :
    (s.lag.queue.length < 256 → totalLossChange s = layMark s.rods.holeDepth s) ∧
      (256 ≤ s.lag.queue.length → totalLossChange s = swapCheck (layMark s.rods.holeDepth s)) := by
  have hlength := spanHasLength_iff.2 h
  have hforces : layForces s.rods.holeDepth s = queueFull s := by rw [layForces, hlength, Bool.true_and]
  rw [totalLossChange, if_pos hjob, if_pos hlength, closeSpan, hforces]
  exact ⟨fun hq => if_neg fun hfull => absurd (queueFull_iff.1 hfull) (Nat.not_le.2 hq),
    fun hq => if_pos (queueFull_iff.2 hq)⟩

/-- The mark laid carries the span, and the span reopens under the state then standing (R51, R54). -/
theorem layMark_span {d : Nat} {s : State} (h : s.lag.spanTop < d) :
    (layMark d s).lag.spanTop = d ∧ (layMark d s).lag.spanSeconds = 0 ∧ (layMark d s).lag.spanLoss = 0 ∧
      (layMark d s).lag.spanBlind = decide (s.circ.state = .totalLoss) ∧
      (layMark d s).lag.queue =
        (if s.lag.queue.length < 256 then s.lag.queue else s.lag.queue.drop 1) ++ [spanMark d s] := by
  have hfull : (if queueFull s then s.lag.queue.drop 1 else s.lag.queue) =
      if s.lag.queue.length < 256 then s.lag.queue else s.lag.queue.drop 1 := by
    simp only [queueFull_iff, ← Nat.not_lt, ite_not]
  rw [layMark_lag h, hfull]
  exact ⟨rfl, rfl, rfl, rfl, rfl⟩

/-! ## The permits (R86, R87, R88, R92) -/

theorem commandPermits_eq (s : State) :
    let high := decide (s.joint.state = .loaded) && decide (s.circ.state = .still ∨ s.circ.state = .stopped)
    commandPermits s =
      { s with
        flu.makeUpPermit := high, flu.breakPermit := decide (s.joint.state = .breakPermit),
        joint.episode :=
          s.joint.episode.map fun e => { e with permitLow := if high = true then e.permitLow else true } } := by
  intro high
  have hlevel : makeUpLevel s = high := by rw [makeUpLevel, resting_eq_decide]
  have hepisode : ∀ e : Episode, (e.permitLow || !high) = if high = true then e.permitLow else true := by
    intro e
    cases high <;> simp
  simp only [commandPermits, hlevel, hepisode]

/-- Settles O28: a change is its own fields, the hand-off and the permits, each by its lemma. -/
theorem aChangeOfCirculationStateDoesItsDuties : Obligations.AChangeOfCirculationStateDoesItsDuties := by
  refine ⟨fun new mask s => ?change, fun s => ?handOff, commandPermits_eq, fun new mask s => ?fields⟩
  case change =>
    intro c v
    have hv : changedCirc new mask s = v := by
      rw [changedCirc, entered_eq]
      rfl
    rw [← hv]
    exact ⟨enterCirc_of_same_side mask, enterCirc_of_crossing mask⟩
  case handOff =>
    intro blind laid
    refine ⟨totalLossChange_of_no_job, fun hjob => ⟨totalLossChange_of_no_length hjob, fun hlength => ?_⟩⟩
    obtain ⟨hroom, hfull⟩ := totalLossChange_of_length hjob hlength
    obtain ⟨htop, hseconds, hloss, hblind, hqueue⟩ := layMark_span hlength
    exact ⟨hroom, hfull, htop, hseconds, hloss, hblind, _, _, hqueue, rfl, rfl, rfl, rfl, rfl, rfl⟩
  case fields =>
    intro u
    have hcirc : u.circ = s.circ.entered new mask := enterCirc_circ new mask s
    rw [entered_eq] at hcirc
    rw [hcirc]
    refine ⟨rfl, rfl, rfl, rfl, rfl, rfl, rfl, rfl, enterCirc_pumpA _ _ _, enterCirc_pumpB _ _ _,
      enterCirc_setsFlag _ _ _, rfl, fun hrest => ⟨if_pos hrest, if_pos hrest⟩, ?_, rfl, rfl, rfl, rfl,
      fun hside => (enterCirc_blocks_of_same_side mask hside).1⟩
    rw [enterCirc_makeUp, resting_eq_decide]

/-! ## Conditions that are counts (R31, R36, R42, R100) -/

/-- A condition that is a state and a limit reached: the operation where both stand, and nothing otherwise. -/
theorem counted_cases {state : Prop} {limit count : Nat} [Decidable state] (s t : State) :
    let f := if state ∧ limit ≤ count then t else s
    (state → (limit ≤ count → f = t) ∧ (count < limit → f = s)) ∧ (¬ state → f = s) :=
  ⟨fun hstate => ⟨fun hle => if_pos ⟨hstate, hle⟩, fun hlt => if_neg fun h => absurd h.2 (Nat.not_le.2 hlt)⟩,
    fun hstate => if_neg fun h => hstate h.1⟩

theorem checkStaticFlow_cases (s : State) :
    (s.circ.state = .still ∨ s.circ.state = .stopped →
      (s.circ.limits.flowCheck ≤ s.circ.staticCount → s.circ.staticFlag = false →
        checkStaticFlow s =
          { record .flowWhileStill s.circ.staticCount s.circ.state.code s with circ.staticFlag := true }) ∧
      (s.circ.staticCount < s.circ.limits.flowCheck ∨ s.circ.staticFlag = true → checkStaticFlow s = s)) ∧
    (s.circ.state ≠ .still → s.circ.state ≠ .stopped → checkStaticFlow s = s) := by
  refine ⟨fun hrest => ⟨fun hle hflag => if_pos ⟨resting_iff.2 hrest, hle, hflag⟩, fun hor => if_neg ?_⟩,
    fun hstill hstopped => if_neg fun hdue => (resting_iff.1 hdue.1).elim hstill hstopped⟩
  rintro ⟨-, hle, hflag⟩
  obtain hlt | hset := hor
  · exact absurd hle (Nat.not_le.2 hlt)
  · exact Bool.false_ne_true (hflag.symm.trans hset)

/-- Settles O29: each command comes to its operation, which is the two cases of its condition. -/
theorem countedConditionsActWhereTheyStand : Obligations.CountedConditionsActWhereTheyStand := by
  intro s hrun
  have comes : ∀ {c : Instr} {f : State → State} {u : State}, eventOp c = some f → f s = u → comesTo c s u :=
    fun hc hu => hu ▸ comesTo_event hc hrun
  obtain ⟨hprime, hnoPrime⟩ := counted_cases (state := s.circ.state = .priming) (limit := s.circ.limits.primeVolume)
    (count := s.circ.primeCount) s (enterCirc .circulating s.circ.mask s)
  obtain ⟨hprimeOut, hnoPrimeOut⟩ := counted_cases (state := s.circ.state = .priming)
    (limit := s.circ.limits.primeTimeout) (count := s.circ.primeTimer) s
    (record .primeNoReturns s.circ.primeCount s.circ.limits.primeTimeout (enterCirc .totalLoss s.circ.mask s))
  obtain ⟨hbleed, hnoBleed⟩ := counted_cases (state := s.circ.state = .stopping) (limit := 10)
    (count := s.circ.bleedCount) s (enterCirc .stopped { a := false, b := false } s)
  obtain ⟨hstop, hnoStop⟩ := counted_cases (state := s.circ.state = .stopping) (limit := s.circ.limits.stopTimeout)
    (count := s.circ.stopTimer) s
    (record .bleedUnconfirmed s.flu.pressure.value (if s.flu.pressure.fault = true then 1 else 0)
      (enterCirc .stopped { a := false, b := false } s))
  obtain ⟨hbreak, hnoBreak⟩ := counted_cases (state := s.joint.state = .breakPermit) (limit := s.joint.limits.timeout)
    (count := s.joint.timer) s (endBreakPermit s)
  obtain ⟨hstatic, hnoStatic⟩ := checkStaticFlow_cases s
  refine ⟨fun h => ⟨fun hle => comes rfl ((hprime h).1 hle), fun hlt => comes rfl ((hprime h).2 hlt),
      fun hle => comes rfl ((hprimeOut h).1 hle), fun hlt => comes rfl ((hprimeOut h).2 hlt)⟩,
    fun h => ⟨comes rfl (hnoPrime h), comes rfl (hnoPrimeOut h)⟩,
    fun h => ⟨fun hle => comes rfl ((hbleed h).1 hle), fun hlt => comes rfl ((hbleed h).2 hlt),
      fun hle => comes rfl ((hstop h).1 hle), fun hlt => comes rfl ((hstop h).2 hlt)⟩,
    fun h => ⟨comes rfl (hnoBleed h), comes rfl (hnoStop h)⟩,
    fun h => ⟨fun hle hflag => ⟨_, rfl, comes rfl ((hstatic h).1 hle hflag)⟩, fun hor => comes rfl ((hstatic h).2 hor)⟩,
    fun hstill hstopped => comes rfl (hnoStatic hstill hstopped), fun h hle => comes rfl ((hbreak h).1 hle), ?_⟩
  rintro (h | hlt)
  · exact comes rfl (hnoBreak h)
  · exact comes rfl (if_neg fun hdue => absurd hdue.2 (Nat.not_le.2 hlt))

/-! ## The warm start (R46) -/

/-- Circulation as a warm start leaves it: STILL with an empty mask, cleared as R46 lists. -/
def Circulation.rested (c : Circulation) : Circulation := { c.settled with state := .still, mask := .empty }

/-- What a change to STILL has cleared R46 clears too. -/
theorem enterCirc_still_settled (s : State) : (enterCirc .still .empty s).circ.settled = s.circ.rested := by
  rw [enterCirc_circ]
  rfl

theorem settleCirculation_of_still {s : State} (h : s.circ.state = .still) :
    settleCirculation s = { s with circ := s.circ.rested } := by
  have hstate : s.circ.settled.state = .still := h
  rw [settleCirculation, if_pos h, Circulation.rested, ← hstate]

theorem settleCirculation_of_not_still {s : State} (h : s.circ.state ≠ .still) :
    settleCirculation s =
      record .powerRestoredPumping s.circ.state.code s.circ.mask.code
        { enterCirc .still .empty s with circ := s.circ.rested } := by
  rw [settleCirculation, if_neg h, ← enterCirc_still_settled]

theorem settleCirculation_circ (s : State) : (settleCirculation s).circ = s.circ.rested := by
  by_cases h : s.circ.state = .still
  · rw [settleCirculation_of_still h]
  · rw [settleCirculation_of_not_still h]
    simp

theorem warmStart_circ (lines : StartLines) (seconds : Nat) (s : State) :
    (warmStart lines seconds s).circ = s.circ.rested := by
  have hcirc : (warmCirculation lines seconds s).circ = s.circ.rested := by
    rw [warmCirculation, settleCirculation_circ]
    simp
  rw [warmStart_eq]
  simp [warmJoint, hcirc]

/-- Settles O14. -/
theorem aWarmStartSettlesCirculation : Obligations.AWarmStartSettlesCirculation := by
  refine ⟨fun c lines seconds s hc => ?_, fun s => ⟨settleCirculation_of_still, settleCirculation_of_not_still⟩⟩
  obtain ⟨intact, sending, reply, notices, hexec⟩ := warmStarts_exec hc
  exact ⟨_, hexec, warmStart_circ lines seconds _⟩

end Sys2Proof.Machine
end

