-- ==== Sys2Proof/Proofs/CirculationRequests.lean ====
section
/-! PROOFS. The circulation requests (spec 02): the settings (O24), START CIRCULATION and PUMP TEST (O25), STOP CIRCULATION and
CONFIRM STOP (O26) and RESET CIRCULATION (O27). -/

namespace Sys2Proof.Machine

/-! ## The settings (R18, R19, R27, R40, R100) -/

/-- A pump's configuration is replaced (R18). -/
def setPumpConfig (p : Pump) (c : PumpConfig) (s : State) : State :=
  match p with
  | .a => { s with circ.pumpA := c }
  | .b => { s with circ.pumpB := c }

theorem pumpSettings_iff {displacement efficiency : Nat} :
    ((decide (displacement = 0) || inRange 500 30000 displacement) && inRange 500 1000 efficiency) = true ↔
      (displacement = 0 ∨ 500 ≤ displacement ∧ displacement ≤ 30000) ∧ 500 ≤ efficiency ∧ efficiency ≤ 1000 := by
  simp [inRange_eq_true]

theorem pumpOf_eq_none {pump : Nat} (h : 1 < pump) : pumpOf pump = none := by
  unfold pumpOf
  split
  case h_3 => rfl
  all_goals omega

/-- SET PUMP of a pump that is not one of the two, or with a setting out of range (R18). -/
theorem takeSetPump_of_bad {pump displacement efficiency : Nat}
    (h : ¬ (pump ≤ 1 ∧ (displacement = 0 ∨ 500 ≤ displacement ∧ displacement ≤ 30000) ∧
      500 ≤ efficiency ∧ efficiency ≤ 1000)) (s : State) :
    takeSetPump pump displacement efficiency s = (s, .badArgument) := by
  unfold takeSetPump
  split
  · rfl
  · next p hp =>
    have hpump : pump ≤ 1 := by
      by_contra hno
      rw [pumpOf_eq_none (by omega)] at hp
      cases hp
    have hbad := Bool.eq_false_iff.2 fun hgood => h ⟨hpump, pumpSettings_iff.1 hgood⟩
    rw [hbad]
    rfl

/-- SET PUMP with its settings in range is a matter of the pump's enable (R18). -/
theorem takeSetPump_of_good {pump displacement efficiency : Nat} {p : Pump} (hp : pumpOf pump = some p)
    (h : (displacement = 0 ∨ 500 ≤ displacement ∧ displacement ≤ 30000) ∧ 500 ≤ efficiency ∧ efficiency ≤ 1000)
    (s : State) :
    takeSetPump pump displacement efficiency s =
      if pumpEnable p s then (s, .wrongState)
      else (setPumpConfig p { displacement := displacement, efficiency := efficiency } s, .ok) := by
  unfold takeSetPump
  rw [hp]
  dsimp only
  rw [pumpSettings_iff.2 h]
  cases p <;> rfl

theorem flowBalance_iff {minVolume totalPercent partialThreshold hysteresis gainThreshold : Nat} :
    (inRange 10 10000 minVolume && inRange 1 50 totalPercent && inRange 5 2000 partialThreshold &&
        inRange 0 1000 hysteresis && inRange 5 2000 gainThreshold && decide (hysteresis < partialThreshold) &&
        decide (hysteresis < gainThreshold)) = true ↔
      (10 ≤ minVolume ∧ minVolume ≤ 10000) ∧ (1 ≤ totalPercent ∧ totalPercent ≤ 50) ∧
        (5 ≤ partialThreshold ∧ partialThreshold ≤ 2000) ∧ hysteresis ≤ 1000 ∧
        (5 ≤ gainThreshold ∧ gainThreshold ≤ 2000) ∧ hysteresis < partialThreshold ∧ hysteresis < gainThreshold := by
  simp [inRange_eq_true, and_assoc]

theorem circLimits_iff {primeVolume primeTime stopTime bleedLimit flowCheck : Nat} :
    (inRange 10 5000 primeVolume && inRange 30 1800 primeTime && inRange 30 600 stopTime &&
        inRange 50 5000 bleedLimit && inRange 5 5000 flowCheck) = true ↔
      (10 ≤ primeVolume ∧ primeVolume ≤ 5000) ∧ (30 ≤ primeTime ∧ primeTime ≤ 1800) ∧
        (30 ≤ stopTime ∧ stopTime ≤ 600) ∧ (50 ≤ bleedLimit ∧ bleedLimit ≤ 5000) ∧ 5 ≤ flowCheck ∧ flowCheck ≤ 5000 := by
  simp [inRange_eq_true, and_assoc]

/-- Settles O24: each request is its range test, and SET PUMP the test of the pump's enable after it. -/
theorem circulationSettingsAreReplacedWholeOrNotAtAll : Obligations.CirculationSettingsAreReplacedWholeOrNotAtAll := by
  intro who s h
  refine ⟨fun pump displacement efficiency => ?pump, fun weight => ?meter,
    fun minVolume totalPercent partialThreshold hysteresis gainThreshold => ?balance,
    fun primeVolume primeTime stopTime bleedLimit flowCheck => ?limits⟩
  case pump =>
    intro good
    refine ⟨fun hbad => isAnswered_of_take h rfl rfl (takeSetPump_of_bad hbad _), fun hgood hpump => ?_,
      fun hgood hpump => ?_⟩
    · subst hpump
      have htake := takeSetPump_of_good (pump := 0) rfl hgood.2
      exact ⟨fun hhigh => isAnswered_of_take h rfl rfl ((htake _).trans (if_pos hhigh)),
        fun hlow => isAnswered_of_take h rfl rfl ((htake _).trans (if_neg (ne_true_of_eq_false hlow)))⟩
    · subst hpump
      have htake := takeSetPump_of_good (pump := 1) rfl hgood.2
      exact ⟨fun hhigh => isAnswered_of_take h rfl rfl ((htake _).trans (if_pos hhigh)),
        fun hlow => isAnswered_of_take h rfl rfl ((htake _).trans (if_neg (ne_true_of_eq_false hlow)))⟩
  case meter =>
    exact ⟨fun hgood => isAnswered_of_take h rfl rfl (if_pos (inRange_eq_true.2 hgood)),
      fun hbad => isAnswered_of_take h rfl rfl (if_neg (ne_true_of_eq_false (inRange_eq_false.2 hbad)))⟩
  case balance =>
    exact ⟨fun hgood => isAnswered_of_take h rfl rfl (if_pos (flowBalance_iff.2 hgood)),
      fun hbad => isAnswered_of_take h rfl rfl (if_neg (mt flowBalance_iff.1 hbad))⟩
  case limits =>
    exact ⟨fun hgood => isAnswered_of_take h rfl rfl (if_pos (circLimits_iff.2 hgood)),
      fun hbad => isAnswered_of_take h rfl rfl (if_neg (mt circLimits_iff.1 hbad))⟩

/-! ## START CIRCULATION and PUMP TEST (R28, R30, R39) -/

theorem configured_iff {p : Pump} {s : State} : configured p s = true ↔ (pumpConfig p s).displacement ≠ 0 :=
  decide_eq_true_iff

theorem maskGood_iff {mask : Nat} {s : State} :
    maskGood mask s = true ↔
      (mask = 1 ∨ mask = 2 ∨ mask = 3) ∧ (mask.testBit 0 = true → s.circ.pumpA.displacement ≠ 0) ∧
        (mask.testBit 1 = true → s.circ.pumpB.displacement ≠ 0) := by
  have hrange : (1 ≤ mask ∧ mask ≤ 3) ↔ (mask = 1 ∨ mask = 2 ∨ mask = 3) := by omega
  simp only [maskGood, Bool.and_eq_true, inRange_eq_true, hrange, Bool.or_eq_true, Bool.not_eq_true', configured_iff,
    pumpConfig, and_assoc, ← Bool.not_eq_true, ← imp_iff_not_or]

/-- The pump a request names, configured, with its mask. -/
theorem pump_named {pump : Nat} {s : State}
    (h : (pump = 0 ∧ s.circ.pumpA.displacement ≠ 0) ∨ (pump = 1 ∧ s.circ.pumpB.displacement ≠ 0)) :
    ∃ p, pumpOf pump = some p ∧ configured p s = true ∧ p.mask = { a := decide (pump = 0), b := decide (pump = 1) } := by
  obtain ⟨rfl, hd⟩ | ⟨rfl, hd⟩ := h
  · exact ⟨.a, rfl, configured_iff.2 hd, rfl⟩
  · exact ⟨.b, rfl, configured_iff.2 hd, rfl⟩

theorem takePumpTest_of_bad {pump : Nat} {s : State}
    (h : ¬ ((pump = 0 ∧ s.circ.pumpA.displacement ≠ 0) ∨ (pump = 1 ∧ s.circ.pumpB.displacement ≠ 0))) :
    takePumpTest pump s = (s, .badArgument) := by
  unfold takePumpTest pumpOf
  match pump with
  | 0 =>
    have hno : configured .a s = false := Bool.eq_false_iff.2 fun hc => h (.inl ⟨rfl, configured_iff.1 hc⟩)
    simp only [hno, Bool.not_false, if_true]
  | 1 =>
    have hno : configured .b s = false := Bool.eq_false_iff.2 fun hc => h (.inr ⟨rfl, configured_iff.1 hc⟩)
    simp only [hno, Bool.not_false, if_true]
  | _ + 2 => rfl

/-- PUMP TEST of a configured pump: the state's test, then the interlock's (R39). -/
theorem takePumpTest_of_good {pump : Nat} {p : Pump} {s : State} (hp : pumpOf pump = some p)
    (hc : configured p s = true) :
    takePumpTest pump s =
      if s.circ.state = .pumpTest then (s, .wrongState)
      else if s.joint.state ≠ .ready then (s, .interlock)
      else (enterCirc .pumpTest p.mask { s with circ.bleedHolding := false }, .ok) := by
  unfold takePumpTest
  simp only [hp, hc, Bool.not_true, Bool.false_eq_true, if_false]

/-- START CIRCULATION of a good mask: the state's test, then the interlock's (R30). -/
theorem takeStartCirculation_of_good {mask : Nat} {s : State} (h : maskGood mask s = true) :
    takeStartCirculation mask s =
      if s.circ.state ≠ .still then (s, .wrongState)
      else if s.joint.state ≠ .ready then (s, .interlock)
      else (enterCirc .priming (maskOf mask) { s with circ.primeCount := 0, circ.primeTimer := 0 }, .ok) := by
  simp only [takeStartCirculation, h, Bool.not_true, Bool.false_eq_true, if_false]

/-- What START CIRCULATION makes of a part in STILL: the primed counters, the mask and its enables (R28, R30). -/
theorem started_fields (mask : PumpMask) {s : State} (h : s.circ.state = .still) :
    let u := enterCirc .priming mask { s with circ.primeCount := 0, circ.primeTimer := 0 }
    u.circ.state = .priming ∧ u.circ.mask = mask ∧ u.circ.primeCount = 0 ∧ u.circ.primeTimer = 0 ∧ u.circ.window = [] ∧
      u.flu.pumpAEnable = mask.a ∧ u.flu.pumpBEnable = mask.b ∧ u.circ.vp = s.circ.vp ∧ u.circ.vr = s.circ.vr ∧
      u.circ.vl = s.circ.vl ∧ u.lag = s.lag ∧ u.rods = s.rods ∧ u.strata = s.strata ∧ u.price = s.price ∧
      u.bill = s.bill ∧ u.jobs = s.jobs := by
  intro u
  obtain ⟨hlag, hstrata, hprice, hjobs⟩ := enterCirc_blocks_of_same_side (new := .priming)
    (s := { s with circ.primeCount := 0, circ.primeTimer := 0 }) mask (by simp [h])
  have hcirc : u.circ = Circulation.entered .priming mask { s.circ with primeCount := 0, primeTimer := 0 } :=
    enterCirc_circ _ _ _
  rw [hcirc]
  exact ⟨rfl, rfl, rfl, rfl, rfl, enterCirc_pumpA _ _ _, enterCirc_pumpB _ _ _, rfl, rfl, rfl, hlag, by simp [u], hstrata,
    hprice, by simp [u], hjobs⟩

/-- What PUMP TEST makes of circulation: the mask of the pump and its enable, the window and the volumes kept (R24, R39). -/
theorem tested_fields (mask : PumpMask) (s : State) :
    let u := enterCirc .pumpTest mask { s with circ.bleedHolding := false }
    u.circ.state = .pumpTest ∧ u.circ.mask = mask ∧ u.circ.window = s.circ.window ∧ u.circ.bleedHolding = false ∧
      u.flu.pumpAEnable = mask.a ∧ u.flu.pumpBEnable = mask.b ∧ u.circ.vp = s.circ.vp ∧ u.circ.vr = s.circ.vr ∧
      u.circ.vl = s.circ.vl ∧ u.rods = s.rods ∧ u.bill = s.bill := by
  intro u
  have hcirc : u.circ = Circulation.entered .pumpTest mask { s.circ with bleedHolding := false } := enterCirc_circ _ _ _
  rw [hcirc]
  exact ⟨rfl, rfl, rfl, rfl, enterCirc_pumpA _ _ _, enterCirc_pumpB _ _ _, rfl, rfl, rfl, by simp [u], by simp [u]⟩

/-- Settles O25. -/
theorem startAndPumpTestRunTheNamedPumps : Obligations.StartAndPumpTestRunTheNamedPumps := by
  intro who s h
  refine ⟨fun mask => ?start, fun pump => ?test⟩
  case start =>
    intro good
    have take := takeStartCirculation_of_good (mask := mask) (s := taking (.startCirculation who mask) s)
    refine ⟨fun hbad => isAnswered_of_take h rfl rfl (if_pos (congrArg not (Bool.eq_false_iff.2 (mt maskGood_iff.1 hbad)))),
      fun hgood hstate => ?wrongState, fun hgood hstate hjoint => ?interlock, fun hgood hstate hjoint => ?taken⟩
    case wrongState =>
      exact isAnswered_of_take h rfl rfl ((take (maskGood_iff.2 hgood)).trans (if_pos hstate))
    case interlock =>
      exact isAnswered_of_take h rfl rfl ((take (maskGood_iff.2 hgood)).trans
        ((if_neg (not_not_intro hstate)).trans (if_pos hjoint)))
    case taken =>
      have htake := (take (maskGood_iff.2 hgood)).trans
        ((if_neg (not_not_intro hstate)).trans (if_neg (not_not_intro hjoint)))
      exact ⟨_, isAnswered_of_take (f := fun _ => _) h rfl rfl htake, started_fields _ hstate⟩
  case test =>
    intro good
    refine ⟨fun hbad => isAnswered_of_take h rfl rfl (takePumpTest_of_bad hbad), fun hgood hstate => ?wrongState,
      fun hgood hstate hjoint => ?interlock, fun hgood hstate hjoint => ?taken⟩
    all_goals
      obtain ⟨p, hp, hc, hmask⟩ := pump_named hgood
      have htake := takePumpTest_of_good (s := taking (.pumpTest who pump) s) hp hc
    case wrongState => exact isAnswered_of_take h rfl rfl (htake.trans (if_pos hstate))
    case interlock => exact isAnswered_of_take h rfl rfl (htake.trans ((if_neg hstate).trans (if_pos hjoint)))
    case taken =>
      have htaken := htake.trans ((if_neg hstate).trans (if_neg (not_not_intro hjoint)))
      rw [hmask] at htaken
      exact ⟨_, isAnswered_of_take (f := fun _ => _) h rfl rfl htaken, tested_fields _ _⟩

/-! ## STOP CIRCULATION and CONFIRM STOP (R35, R37) -/

/-- What STOP CIRCULATION makes of circulation: STOPPING with an empty mask, its timer and bleed hold begun (R28, R35). -/
theorem stopped_fields (s : State) :
    let u := enterCirc .stopping .empty
      { s with circ.stopTimer := 0, circ.bleedHolding := false, circ.bleedCount := 0 }
    u.circ.state = .stopping ∧ u.circ.mask = { a := false, b := false } ∧ u.flu.pumpAEnable = false ∧
      u.flu.pumpBEnable = false ∧ u.circ.stopTimer = 0 ∧ u.circ.bleedHolding = false ∧ u.circ.bleedCount = 0 ∧
      u.circ.window = [] ∧ u.circ.vp = s.circ.vp ∧ u.circ.vr = s.circ.vr ∧ u.circ.vl = s.circ.vl ∧ u.rods = s.rods ∧
      u.bill = s.bill := by
  intro u
  have hcirc : u.circ = Circulation.entered .stopping .empty
      { s.circ with stopTimer := 0, bleedHolding := false, bleedCount := 0 } := enterCirc_circ _ _ _
  rw [hcirc]
  exact ⟨rfl, rfl, enterCirc_pumpA _ _ _, enterCirc_pumpB _ _ _, rfl, rfl, rfl, rfl, rfl, rfl, rfl, by simp [u], by simp [u]⟩

/-- What CONFIRM STOP makes of a part in STOPPED: STILL, a new stay begun, and nothing handed to the lag tracker (R29, R37). -/
theorem confirmed_fields {s : State} (h : s.circ.state = .stopped) :
    let u := enterCirc .still .empty s
    u.circ.state = .still ∧ u.circ.staticCount = 0 ∧ u.circ.staticFlag = false ∧ u.lag = s.lag ∧ u.rods = s.rods ∧
      u.price = s.price ∧ u.strata = s.strata ∧ u.bill = s.bill ∧ u.jobs = s.jobs := by
  intro u
  obtain ⟨hlag, hstrata, hprice, hjobs⟩ := enterCirc_blocks_of_same_side (new := .still) (s := s) .empty (by simp [h])
  have hcirc : u.circ = s.circ.entered .still .empty := enterCirc_circ _ _ _
  rw [hcirc]
  exact ⟨rfl, rfl, Bool.and_false _, hlag, by simp [u], hprice, hstrata, by simp [u], hjobs⟩

/-- Settles O26. -/
theorem stopAndConfirmStop : Obligations.StopAndConfirmStop := by
  intro who s h
  refine ⟨fun hpump => ?stop, fun hstate => ?noStop, fun hstate => ?confirm, fun hstate => ?noConfirm⟩
  case stop =>
    have htake : takeStopCirculation (taking (.stopCirculation who) s) = _ := if_pos hpump
    exact ⟨_, isAnswered_of_take (f := fun _ => _) h rfl rfl htake, stopped_fields _⟩
  case noStop =>
    have hno : s.circ.state.pumping = false := by obtain h | h | h := hstate <;> rw [h] <;> rfl
    exact isAnswered_of_take h rfl rfl (if_neg (ne_true_of_eq_false hno))
  case confirm =>
    have htake : takeConfirmStop (taking (.confirmStop who) s) = _ := if_pos hstate
    exact ⟨_, isAnswered_of_take (f := fun _ => _) h rfl rfl htake, confirmed_fields hstate⟩
  case noConfirm => exact isAnswered_of_take h rfl rfl (if_neg hstate)

/-! ## RESET CIRCULATION (R38, R40) -/

theorem bled_eq_false {s : State} :
    bled s = false ↔ s.flu.pressure.fault = true ∨ s.circ.limits.bleedLimit < s.flu.pressure.value := by
  simp [bled, imp_iff_not_or]

theorem takeResetCirculation_eq (s : State) :
    let v := enterCirc .still .empty
      { s with circ.primeCount := 0, circ.primeTimer := 0, circ.stopTimer := 0, circ.bleedHolding := false,
               circ.bleedCount := 0 }
    takeResetCirculation s =
      (if s.flu.pressure.fault = true ∨ s.circ.limits.bleedLimit < s.flu.pressure.value then
        record .resetUnderPressure s.flu.pressure.value s.circ.state.code v else v, .ok) := by
  intro v
  simp only [takeResetCirculation, ← bled_eq_false, v]
  cases bled s <;> rfl

/-- What RESET CIRCULATION makes of circulation and the enables (R38). -/
theorem reset_fields (s : State) :
    let v := enterCirc .still .empty
      { s with circ.primeCount := 0, circ.primeTimer := 0, circ.stopTimer := 0, circ.bleedHolding := false,
               circ.bleedCount := 0 }
    v.circ.state = .still ∧ v.circ.mask = { a := false, b := false } ∧ v.flu.pumpAEnable = false ∧
      v.flu.pumpBEnable = false ∧ v.circ.window = [] ∧ v.circ.openBin = { pumped := 0, returned := 0 } ∧
      v.circ.staticCount = 0 ∧ v.circ.vp = s.circ.vp ∧ v.circ.vl = s.circ.vl := by
  intro v
  have hcirc : v.circ = Circulation.entered .still .empty
      { s.circ with primeCount := 0, primeTimer := 0, stopTimer := 0, bleedHolding := false, bleedCount := 0 } :=
    enterCirc_circ _ _ _
  rw [hcirc]
  exact ⟨rfl, rfl, enterCirc_pumpA _ _ _, enterCirc_pumpB _ _ _, rfl, rfl, rfl, rfl, rfl⟩

/-- Settles O27: the recording after the change leaves circulation and the enables as the change has set them. -/
theorem resetCirculationStopsAtOnce : Obligations.ResetCirculationStopsAtOnce := by
  intro who s h
  have recorded : ∀ (p : Prop) [Decidable p] (a b : Nat) (v : State),
      (if p then record .resetUnderPressure a b v else v).circ = v.circ ∧
        (if p then record .resetUnderPressure a b v else v).flu = v.flu := by
    intro p _ a b v
    split <;> simp
  refine ⟨_, _, isAnswered_of_take (f := fun _ => _) h rfl rfl (takeResetCirculation_eq _), rfl, rfl, ?_⟩
  rw [(recorded _ _ _ _).1, (recorded _ _ _ _).2]
  exact reset_fields _

end Sys2Proof.Machine
end

