-- ==== Sys2Proof/Proofs/ResetLaws.lean ====
section
/-! PROOFS. The laws hold right after a cold start (O54), which is where the invariants of every step begin. -/

namespace Sys2Proof.Machine

/-- No rod is registered, and the magazine, the string and the arm are empty (R65, R66). -/
theorem reset_rodsLawful : rodsLawful State.reset := by
  refine ⟨List.Pairwise.nil, Nat.zero_le _, rfl, Nat.zero_le _, fun r hr => (List.not_mem_nil hr).elim, fun k id hk => ?slot,
    fun i id hi => ?string, fun a ha => ?arm, fun k hk => ?reserved, fun h => ?loaded⟩
  case slot =>
    have hslot : (List.replicate 96 (none : Option Nat))[k]? = some (some id) := hk
    rw [List.getElem?_replicate] at hslot
    split at hslot <;> simp at hslot
  case string => cases hi
  case arm => cases ha
  case reserved => cases hk
  case loaded => cases h

/-- Settles O54: every law but that of the rods is a finite fact of the cold values. -/
theorem everyLawHoldsAtReset : Obligations.EveryLawHoldsAtReset := by
  refine ⟨?interlock, ?store, ?frontier, ?generations, ?link, ?incidents, ?depth, ?joint, ?seconds, ?counts,
    reset_rodsLawful, ?strata⟩
  all_goals decide

end Sys2Proof.Machine
end

