-- ==== Sys2Proof/Proofs/Reports.lean ====
section
/-! PROOFS. What the part reports (specs 02 to 11): the forms of fields, the free line with its snapshots (O5), and the parts of the
statuses. -/

namespace Sys2Proof.Machine

/-! ## The forms of fields (spec 11, Payload fields) -/

theorem oct2_eq (n : Nat) : oct2 n = [BitVec.ofNat 8 (n / 256), BitVec.ofNat 8 n] := by simp [oct2, octets]

theorem oct4_eq (n : Nat) :
    oct4 n =
      [BitVec.ofNat 8 (n / 16777216), BitVec.ofNat 8 (n / 65536), BitVec.ofNat 8 (n / 256), BitVec.ofNat 8 n] := by
  simp [oct4, octets]

theorem octets_zero (w : Nat) : octets w 0 = List.replicate w 0 := by
  induction w with
  | zero => rfl
  | succ w ih => simp [octets, ih, List.replicate_succ]

theorem octOpt_none (w : Nat) : octOpt w none = 0 :: List.replicate w 0 := congrArg (oct1 0 ++ ·) (octets_zero w)

theorem octInt_two (i : Int) : octInt 2 i = oct2 (i % 65536).toNat := by
  rw [octInt, show ((256 ^ 2 : Nat) : Int) = 65536 by norm_num, oct2]

theorem octInt_four (i : Int) : octInt 4 i = oct4 (i % 4294967296).toNat := by
  rw [octInt, show ((256 ^ 4 : Nat) : Int) = 4294967296 by norm_num, oct4]

theorem octOptInt_some (i : Int) : octOptInt 2 (some i) = [1] ++ oct2 (i % 65536).toNat :=
  congrArg ([1] ++ ·) (octInt_two i)

theorem mul_flagCode (k : Nat) (b : Bool) : k * flagCode b = if b = true then k else 0 := by
  cases b
  · exact Nat.mul_zero k
  · exact Nat.mul_one k

theorem octFlag_eq (b : Bool) : octFlag b = if b = true then [1] else [0] := by cases b <;> rfl

/-- The operation in flight is one presence octet with its kind and slot (log 18). -/
theorem octStoreOp_eq (o : Option StoreOp) :
    octStoreOp o = octBlock 2 (o.map fun
      | .write n => [0] ++ oct1 n
      | .erase n => [1] ++ oct1 n) := by
  cases o with
  | none => rfl
  | some op => cases op <;> rfl

/-! ## The open interval (R108, R126) -/

theorem openInterval_eq (s : State) :
    openInterval s = s.strata.intervals.getLast?.filter fun v => v.bottom.isNone := by
  unfold openInterval
  cases s.strata.intervals.getLast? <;> rfl

theorem openIndex_eq (s : State) :
    openIndex s = (openInterval s).map fun _ => s.strata.intervals.length - 1 := by
  unfold openIndex
  cases openInterval s <;> rfl

/-! ## The free line (R202) -/

theorem transmit_of_sending {f : Frame} {s : State} (h : s.link.sending = some f) : transmit s = s := by
  unfold transmit
  rw [h]

theorem transmit_of_reply {f : Frame} {s : State} (hfree : s.link.sending = none) (h : s.link.reply = some f) :
    transmit s = { s with link.sending := some f, link.reply := none } := by
  unfold transmit
  rw [hfree, h]

theorem transmit_of_notice {c : NoticeClass} {rest : List NoticeClass} {s : State} (hfree : s.link.sending = none)
    (hreply : s.link.reply = none) (h : s.link.notices = c :: rest) :
    transmit s = { s with link.sending := some (noticeFrame c s), link.notices := rest } := by
  unfold transmit
  rw [hfree, hreply, h]

theorem transmit_of_idle {s : State} (hfree : s.link.sending = none) (hreply : s.link.reply = none)
    (h : s.link.notices = []) : transmit s = s := by
  unfold transmit
  rw [hfree, hreply, h]

/-! ## The snapshots (R43, R105, R126, R150, R163, R173, R194) -/

theorem strataSnapshot_eq (s : State) :
    let v := s.strata.intervals.getLast?.filter fun v => v.bottom.isNone
    strataSnapshot s =
      octOpt 2 (v.map fun _ => s.strata.intervals.length - 1) ++ octOpt 1 (v.map (·.cls)) ++
        octOpt 1 (v.map (·.origin.code)) ++ oct4 s.lag.frontier ++ oct1 s.strata.strikes.length := by
  simp only [strataSnapshot, openIndex_eq, openInterval_eq]

theorem incidentSnapshot_of_record {r : Incident} {s : State} (h : s.inc.slots[s.inc.lastWritten]? = some (some r)) :
    incidentSnapshot s =
      oct1 1 ++ oct1 s.inc.lastWritten ++ oct1 1 ++ oct1 r.kind.code ++ oct1 s.inc.order.length ++
        octFlag s.inc.overflow := by
  unfold incidentSnapshot
  rw [h]
  rfl

theorem incidentSnapshot_of_empty {s : State} (h : ∀ r, s.inc.slots[s.inc.lastWritten]? ≠ some (some r)) :
    incidentSnapshot s = [0, 0, 0, 0] ++ oct1 s.inc.order.length ++ octFlag s.inc.overflow := by
  have hnone : (s.inc.slots[s.inc.lastWritten]?).getD none = none := by
    match hslot : s.inc.slots[s.inc.lastWritten]? with
    | none => rfl
    | some none => rfl
    | some (some r) => exact absurd hslot (h r)
  unfold incidentSnapshot
  rw [hnone]
  rfl

/-- Settles O5. -/
theorem theFreeLineBeginsTheReplyBeforeTheOldestNotice : Obligations.TheFreeLineBeginsTheReplyBeforeTheOldestNotice := by
  intro s
  refine ⟨fun f hf => transmit_of_sending hf, fun hfree => ⟨fun f hf => transmit_of_reply hfree hf,
    fun hreply hn => transmit_of_idle hfree hreply hn, fun c rest hreply hn => transmit_of_notice hfree hreply hn⟩, ?_⟩
  intro v erased
  refine ⟨rfl, rfl, strataSnapshot_eq s, rfl, fun r hr => incidentSnapshot_of_record hr,
    fun hr => incidentSnapshot_of_empty hr, ?_⟩
  exact congrArg (fun op => oct1 s.jobs.state.code ++ op ++ octOpt 1 ((s.jobs.context.bind (·.filing)).map (·.code)) ++
    erased) (octStoreOp_eq s.jobs.op)

/-! ## The parts of the statuses (R43, R62, R82, R105, R126, R150, R163, R173, R194) -/

theorem strataStatus_eq (s : State) :
    let v := s.strata.intervals.getLast?.filter fun v => v.bottom.isNone
    strataStatus s =
      oct2 s.strata.intervals.length ++ octOpt 2 (v.map fun _ => s.strata.intervals.length - 1) ++
        octOpt 4 (v.map (·.top)) ++ octOpt 1 (v.map (·.cls)) ++ octOpt 1 (v.map (·.origin.code)) ++
        oct4 s.lag.frontier ++ oct1 s.strata.resumeClass ++ octFlag s.strata.drain ++ octFlag s.strata.fullSeen ++
        oct1 s.strata.strikes.length := by
  simp only [strataStatus, openIndex_eq, openInterval_eq]

/-- The source in the arm record takes the form of a rod location, without an index for the string (log 18). -/
theorem octSource_eq (x : ArmSource) :
    octSource x =
      match x with
      | .yard => octLocation .yard
      | .slot k => octLocation (.magazine k)
      | .string => octLocation (.string 0) := by
  cases x <;> rfl

/-- The trigger is reported in ARMED and DUE (R150). -/
theorem triggerCode_eq (x : StageState) :
    x.trigger.map (·.code) =
      match x with
      | .editing => none
      | .armed t | .due t => some t.code := by
  cases x <;> rfl

/-- The marks of the previous generation are reported in DUE only (R150). -/
theorem ite_isDue (x : StageState) (n : Nat) :
    (if x.isDue = true then some n else none) =
      match x with
      | .due _ => some n
      | .editing | .armed _ => none := by
  cases x <;> rfl

theorem octTotals_eq (totals residues : List Nat) :
    octTotals totals residues = (totals.zip residues).flatMap fun x => oct4 x.1 ++ oct1 x.2 := by
  rw [octTotals, List.flatMap_def, List.zip, List.map_zipWith]

/-- A slot of the store: its code, and number and close time of a FILED ticket (R187, R194). -/
theorem octSlot_eq (k : StoreSlot) :
    octSlot k =
      oct1 k.code ++
        match k with
        | .filed t => [1] ++ oct4 t.header.number ++ [1] ++ oct4 t.header.closeTime
        | .erased | .writing | .defective | .torn => List.replicate 10 0 := by
  cases k <;> rfl

/-- The slot reserved to the rod in the arm is its source (R66). -/
theorem reservedSlot_eq (s : State) :
    reservedSlot s = s.joint.arm.bind fun a =>
      match a.source with
      | .slot k => some k
      | .yard | .string => none := by
  unfold reservedSlot
  rcases s.joint.arm with _ | ⟨_, _ | _ | _⟩ <;> rfl

theorem reservedSlot_eq_some_iff (s : State) (k : Nat) :
    decide (reservedSlot s = some k) = decide (s.joint.arm.map (·.source) = some (.slot k)) := by
  refine decide_eq_decide.2 ?_
  rw [reservedSlot_eq_some, Option.map_eq_some_iff]

theorem previousMarks_eq (s : State) :
    previousMarks s =
      s.price.previous.elim 0 fun old => s.lag.queue.countP fun m => decide (m.generation = old.generation) := by
  unfold previousMarks
  cases s.price.previous <;> rfl

theorem octFlag_depthLive (s : State) :
    octFlag (!depthLive s) = if s.joint.state = .ready ∧ s.flu.height.fault = false then [0] else [1] := by
  rw [octFlag_eq, depthLive]
  cases s.flu.height.fault <;> simp

theorem reportedBoundary_spacing (d : Nat) (s : State) :
    reportedBoundary (some d) s = if s.price.active.isSome && decide (d ≤ 200000) then some d else none := by
  unfold reportedBoundary
  cases s.price.active <;> rfl

theorem reportedBoundary_floor (s : State) :
    reportedBoundary (nextFloor (activeFloors s) s.lag.spanTop) s =
      s.price.active.bind fun a =>
        ((a.floors.drop 1).find? fun f => decide (s.lag.spanTop < f)).filter fun f => decide (f ≤ 200000) := by
  unfold reportedBoundary activeFloors
  cases s.price.active <;> rfl

end Sys2Proof.Machine
end

