-- ==== Sys2Proof/Proofs/Reading.lean ====
section
/-! PROOFS. Reading (spec 11, R203, R204): the records of the collections, READ STATUS and READ RECORDS (O49). -/

namespace Sys2Proof.Machine

/-! ## The records (R63, R65, R83, R121, R127, R150, R166, R185, R195) -/

/-- A slot is shown reserved where it is the source of the rod in the arm (R66, R83). -/
theorem octMagazine_eq (s : State) (k : Nat) (held : Option Nat) :
    octMagazine s k held =
      oct1 k ++ octOpt 2 held ++ octFlag (decide (s.joint.arm.map (·.source) = some (.slot k))) := by
  rw [octMagazine, reservedSlot_eq_some_iff]

theorem octSection_eq (e : Section) :
    octSection e = oct4 e.top ++ oct4 e.bottom ++ oct4 e.capacity ++ octFlag (decide (e.bottom < e.top)) := by
  rw [octSection, Section.enabled, ← decide_not]
  simp only [Nat.not_le]

theorem octMark_eq (head i : Nat) (m : Mark) :
    octMark head i m =
      oct1 ((head + i) % 256) ++ oct4 m.top ++ oct4 m.bottom ++ oct4 m.laid ++ oct4 m.arrival ++ oct2 m.generation ++
        oct1 m.band ++ oct1 ((if m.blind then 1 else 0) + (if m.forced then 2 else 0)) ++ oct4 m.seconds ++
        oct4 m.loss := by
  rw [octMark, mul_flagCode]
  rfl

theorem octInterval_eq (i : Nat) (v : Interval) :
    octInterval i v =
      oct2 i ++ oct4 v.top ++ oct4 (v.bottom.getD 0) ++ oct1 v.cls ++ oct1 v.origin.code ++ oct4 v.opened ++
        oct4 v.seconds ++ oct4 v.loss ++ oct2 v.marks ++ oct2 (v.rate.getD 0) ++
        oct1 ((if v.bottom.isSome then 1 else 0) + (if v.rate.isSome then 2 else 0) +
          (if v.waterBearing then 4 else 0) + (if v.forced then 8 else 0)) ++ oct1 v.note := by
  rw [octInterval, mul_flagCode, mul_flagCode, mul_flagCode]
  rfl

/-- A line's key, four octets of 0 where it has none (R145). -/
def octKey (k : Option LineKey) : List Byte :=
  match k with
  | none => [0, 0, 0, 0]
  | some k => oct2 k.generation ++ oct1 k.a ++ oct1 k.b

theorem octLine_eq (i : Nat) (l : ChargeLine) :
    octLine i l =
      oct2 i ++ oct1 l.kind.code ++ oct1 ((if l.key.isNone then 1 else 0) + (if l.saturated then 2 else 0)) ++
        octKey l.key ++ oct4 l.amount ++ oct1 l.residue ++ oct4 l.quantity := by
  rw [octLine, mul_flagCode]
  cases hkey : l.key with
  | none => rfl
  | some k =>
    simp only [octKey, Option.map_some, Option.getD_some, ← List.append_assoc]
    rfl

theorem octIncident_eq (n : Nat) (slot : Option Incident) :
    octIncident n slot =
      oct1 n ++
        match slot with
        | none => List.replicate 23 0
        | some r =>
          oct1 r.kind.code ++ oct4 r.first ++ oct4 r.last ++ oct4 r.hole ++ oct4 r.detail1 ++ oct4 r.detail2 ++
            oct1 r.repeats ++ oct1 (if r.pending then 1 else 0) := by
  cases slot with
  | none => rfl
  | some r =>
    simp only [octIncident, flagCode, ← List.append_assoc]

/-- A set's parts: the band table, the rows, the time rates and the materials (R150). -/
theorem rateParts_eq (generation : Option Nat) (t : Staging) :
    rateParts generation t =
      [octOpt 2 generation ++
          (match t.floors with
            | none => [0, 0]
            | some f => [1] ++ oct1 f.length ++ f.flatMap oct4)] ++
        (t.rows.map fun row => octBlock 24 (row.map fun x => x.flatMap oct4)) ++
        [octBlock 28 (t.times.map fun x => x.flatMap oct4)] ++ t.materials.map octMaterial := by
  unfold rateParts octBands
  cases t.floors <;> simp only [List.append_assoc, List.singleton_append] <;> rfl

/-- What is absent has no record. -/
theorem getD_map_nil {α : Type} (o : Option α) (f : α → List (List Byte)) : (o.map f).getD [] = o.elim [] f := by
  cases o <;> rfl

theorem collection_of_invalid {code sel1 sel2 : Nat} {s : State}
    (h : 10 < code ∨ (code ≤ 8 ∧ (sel1 ≠ 0 ∨ sel2 ≠ 0)) ∨ (code = 9 ∧ (2 < sel1 ∨ sel2 ≠ 0)) ∨
      (code = 10 ∧ (16 < sel1 ∨ 5 < sel2))) : collection code sel1 sel2 s = none := by
  unfold collection
  split
  · exact if_neg (by omega)
  · split
    · exact if_neg (by omega)
    · split
      · rfl
      · split
        case h_10 => rfl
        all_goals omega

/-- A part of a ticket is read from the ticket its source names (R195). -/
theorem collection_ticket {source part : Nat} (hsource : source ≤ 16) (hpart : part ≤ 5) (s : State) :
    collection 10 source part s = some (((ticketSource source s).map (ticketRecords · part)).getD []) := by
  have hticket : collection 10 source part s =
      if source ≤ 16 ∧ part ≤ 5 then some (((ticketSource source s).map (ticketRecords · part)).getD []) else none := rfl
  rw [hticket, if_pos ⟨hsource, hpart⟩]

theorem ticketSource_of_filed {n : Nat} {t : Ticket} {s : State} (hn : n ≤ 15) (h : s.jobs.slots[n]? = some (.filed t))
    (hop : s.jobs.op ≠ some (.erase n)) : ticketSource n s = some t := by
  rw [ticketSource, if_neg (by omega), if_neg hop, h]
  rfl

theorem ticketSource_of_none {n : Nat} {s : State} (hn : n ≤ 15)
    (h : (∀ t, s.jobs.slots[n]? ≠ some (.filed t)) ∨ s.jobs.op = some (.erase n)) : ticketSource n s = none := by
  rw [ticketSource, if_neg (by omega)]
  split
  · rfl
  · next hop =>
    have hnot := h.resolve_right hop
    match hslot : s.jobs.slots[n]? with
    | none => rfl
    | some (.filed t) => exact absurd hslot (hnot t)
    | some .erased | some .writing | some .defective | some .torn => rfl

/-! ## READ STATUS (R62, R176, R203) -/

theorem takeReadStatus_class (c : NoticeClass) (s : State) :
    takeReadStatus c.code s = (clearPending c s, .ok (classStatus c (clearPending c s))) := by
  cases c <;> rfl

/-- No status reads the link. -/
theorem classStatus_link (c : NoticeClass) (l : Link) (s : State) : classStatus c { s with link := l } = classStatus c s := by
  cases c <;> rfl

/-- What recording a clamp writes the lag status does not read (R62). -/
theorem lagStatus_recordLagClamp (d : Nat) (s : State) : lagStatus (recordLagClamp d s) = lagStatus s := by
  simp [lagStatus, reportedBoundary, activeFloors, litresToPump]

theorem takeReadStatus_lag (s : State) :
    takeReadStatus 6 s = (recordLagClamp s.rods.holeDepth s, .ok (lagStatus s)) :=
  congrArg (fun data => (recordLagClamp s.rods.holeDepth s, Reply.ok data)) (lagStatus_recordLagClamp _ s)

theorem takeReadStatus_of_bad {selector : Nat} (h : 7 < selector) (s : State) :
    takeReadStatus selector s = (s, .badArgument) := by
  have hclass : classOf selector = none := by
    unfold classOf
    split
    case h_7 => rfl
    all_goals omega
  unfold takeReadStatus
  rw [hclass]
  exact (if_neg (by omega)).trans (if_neg (by omega))

/-! ## READ RECORDS (R204) -/

theorem takeReadRecords_of_bad {code sel1 sel2 start count direction : Nat} {s : State}
    (h : collection code sel1 sel2 s = none ∨ count < 1 ∨ 6 < count ∨ 1 < direction) :
    takeReadRecords code sel1 sel2 start count direction s = (s, .badArgument) := by
  unfold takeReadRecords
  cases hrecords : collection code sel1 sel2 s with
  | none => rfl
  | some records =>
    have hrange : (inRange 1 6 count && inRange 0 1 direction) = false := by
      rw [hrecords] at h
      rw [Bool.and_eq_false_iff, inRange_eq_false, inRange_eq_false]
      have hno := h.resolve_left (by simp)
      omega
    simp only [hrange, Bool.not_false, if_true]

theorem takeReadRecords_of_range {code sel1 sel2 start count direction : Nat} {s : State} {records : List (List Byte)}
    (h : collection code sel1 sel2 s = some records) (hcount : 1 ≤ count ∧ count ≤ 6) (hdirection : direction ≤ 1) :
    takeReadRecords code sel1 sel2 start count direction s =
      if records.length ≤ start then (s, .notFound)
      else
        (s, .ok (recordsData (if direction = 0 then readUp start count records else readDown start count records))) := by
  have hrange : (inRange 1 6 count && inRange 0 1 direction) = true := by
    rw [Bool.and_eq_true, inRange_eq_true, inRange_eq_true]
    exact ⟨hcount, Nat.zero_le _, hdirection⟩
  unfold takeReadRecords
  simp only [h, hrange, Bool.not_true, Bool.false_eq_true, if_false]

theorem recordsData_eq {got : List (List Byte)} {n : Nat} (next : Option Nat) (h : got.length = n) :
    recordsData (got, next) = oct1 n ++ octOpt 2 next ++ got.flatten := by
  rw [← h]
  rfl

/-- Upward from a start, the records up to the count or the end (R204). -/
theorem recordsData_readUp (start count : Nat) (records : List (List Byte)) :
    let n := min count (records.length - start)
    recordsData (readUp start count records) =
      oct1 n ++ octOpt 2 (if start + n < records.length then some (start + n) else none) ++
        ((records.drop start).take n).flatten := by
  intro n
  have hgot : (records.drop start).take count = (records.drop start).take n := by
    rw [List.take_eq_take_min, List.length_drop]
  have hlength : ((records.drop start).take n).length = n := by simp [n]
  simp only [readUp, hgot, hlength, recordsData_eq _ hlength]

/-- Downward from a start within the collection, the records down to the count or the first (R204). -/
theorem recordsData_readDown {start : Nat} (count : Nat) {records : List (List Byte)} (h : start < records.length) :
    let n := min count (start + 1)
    recordsData (readDown start count records) =
      oct1 n ++ octOpt 2 (if n ≤ start then some (start - n) else none) ++
        (((records.drop (start + 1 - n)).take n).reverse).flatten := by
  intro n
  have htaken : (records.take (start + 1)).length = start + 1 := by
    rw [List.length_take]
    omega
  have hgot : (records.take (start + 1)).reverse.take count = ((records.drop (start + 1 - n)).take n).reverse := by
    rw [List.take_reverse, htaken, List.drop_take, show start + 1 - count = start + 1 - n by omega,
      show start + 1 - (start + 1 - n) = n by omega]
  have hlength : ((records.drop (start + 1 - n)).take n).reverse.length = n := by
    rw [List.length_reverse, List.length_take, List.length_drop]
    omega
  simp only [readDown, hgot, hlength, recordsData_eq _ hlength]

/-- A read within the collection answers the data of its direction and changes nothing (R204). -/
theorem takeReadRecords_of_within {code sel1 sel2 start count direction : Nat} {s : State} {records : List (List Byte)}
    {data : List Byte} (h : collection code sel1 sel2 s = some records) (hcount : 1 ≤ count ∧ count ≤ 6)
    (hdirection : direction ≤ 1) (hstart : start < records.length)
    (hdata : recordsData (if direction = 0 then readUp start count records else readDown start count records) = data) :
    takeReadRecords code sel1 sel2 start count direction s = (s, .ok data) := by
  rw [takeReadRecords_of_range h hcount hdirection, if_neg (Nat.not_le.2 hstart), hdata]

/-- Settles O49: the forms and codes by evaluation, each status as its parts in order, each record by its own equation, and the
requests by what their owners take. -/
theorem readingClearsNothingButThePendingFlag : Obligations.ReadingClearsNothingButThePendingFlag := by
  refine ⟨⟨?integers, ?flags, ?signed, rfl, ?absent, ?present, ?block, ?location, rfl, fun _ => rfl⟩, ?codes,
    fun s => ?statuses, fun s => ?records, fun who s h => ?requests⟩
  case integers => exact fun n => ⟨oct1_eq n, oct2_eq n, oct4_eq n⟩
  case flags => exact ⟨rfl, rfl⟩
  case signed => exact fun i => ⟨octOptInt_some i, octInt_four i⟩
  case absent => exact fun w => ⟨octOpt_none w, rfl⟩
  case present => exact fun n => ⟨rfl, rfl, rfl⟩
  case block => exact fun w bs => rfl
  case location => exact fun k => ⟨rfl, rfl, rfl, rfl⟩
  case codes =>
    refine ⟨fun a b => ?_, rfl, rfl, rfl, rfl, fun _ => rfl, rfl, rfl, rfl, rfl, rfl, fun _ => rfl, rfl, rfl⟩
    rw [PumpMask.code, mul_flagCode]
    rfl
  case statuses =>
    intro c j p l r v keyed amount carrying oldest spacing
    refine ⟨?circulation, ?joint, strataStatus_eq s, ?billing, ?incident, ?store, ?lag, ?rod⟩
    case circulation =>
      change circulationStatus s = _
      unfold circulationStatus octPump octEvaluation octCircLimits octBalance
      simp only [← List.append_assoc]
      rfl
    case joint =>
      change jointStatus s = _
      unfold jointStatus octEpisode octJointLimits
      simp only [octSource_eq, ← List.append_assoc]
      rfl
    case billing =>
      change billingStatus s = _
      unfold billingStatus pricingStatus
      simp only [octTotals_eq, previousMarks_eq, triggerCode_eq, ite_isDue]
      rfl
    case incident =>
      change incidentStatus s = _
      unfold incidentStatus
      simp only [noticeClasses, List.flatMap_cons, List.flatMap_nil, List.append_nil, ← List.append_assoc]
      rfl
    case store =>
      change storeStatus s = _
      unfold storeStatus octContext
      simp only [octStoreOp_eq, funext octSlot_eq]
      rfl
    case lag =>
      unfold lagStatus
      simp only [reportedBoundary_spacing, reportedBoundary_floor]
      rfl
    case rod =>
      unfold rodStatus
      simp only [reservedSlot_eq, octFlag_depthLive]
      rfl
  case records =>
    intro interval strike line rates set parts
    have hinterval : octInterval = interval := funext₂ octInterval_eq
    have hline : octLine = line := funext₂ octLine_eq
    have hrates : rateParts = rates := funext₂ rateParts_eq
    have hset : ∀ r : RateSet, rateParts (some r.generation) (.ofSet r) = set r := fun r => rateParts_eq _ _
    have hparts : ∀ t : Ticket, ∀ part ≤ 5, ticketRecords t part = (parts t).getD part [] := by
      intro t part hpart
      have htotals : List.zipWith (fun a r => oct4 a ++ oct1 r) t.totals t.residues =
          (t.totals.zip t.residues).map fun x => oct4 x.1 ++ oct1 x.2 := by rw [List.zip, List.map_zipWith]
      match part with
      | 0 | 2 | 5 => rfl
      | 1 => exact congrArg (fun f => t.intervals.mapIdx f) hinterval
      | 3 => exact congrArg (fun f => t.lines.mapIdx f) hline
      | 4 => exact congrArg (· ++ [oct4 t.running]) htotals
    refine ⟨fun code sel1 sel2 => collection_of_invalid, rfl, ?magazine, rfl, ?marks, ?sections, ?intervals, rfl, ?lines,
      ?incidents, ?active, ?previous, ?staged, fun part hpart => ⟨?buffer, fun n hn => ⟨fun t ht hop => ?filed,
        fun h => ?unfiled⟩⟩⟩
    case magazine => exact congrArg (fun f => some (s.rods.magazine.mapIdx f)) (funext₂ (octMagazine_eq s))
    case marks => exact congrArg (fun f => some (s.lag.queue.mapIdx f)) (funext₂ (octMark_eq s.lag.head))
    case sections => exact congrArg (fun f => some (s.lag.sections.map f)) (funext octSection_eq)
    case intervals => exact congrArg (fun f => some (s.strata.intervals.mapIdx f)) hinterval
    case lines => exact congrArg (fun f => some (s.price.lines.mapIdx f)) hline
    case incidents => exact congrArg (fun f => some (s.inc.slots.mapIdx f)) (funext₂ octIncident_eq)
    case active =>
      exact congrArg some ((getD_map_nil s.price.active _).trans (congrArg (s.price.active.elim []) (funext hset)))
    case previous =>
      exact congrArg some ((getD_map_nil s.price.previous _).trans (congrArg (s.price.previous.elim []) (funext hset)))
    case staged => exact congrArg (fun f => some (f none s.price.staging)) hrates
    case buffer =>
      have hsource : ticketSource 16 s = s.jobs.buffer := rfl
      rw [collection_ticket (Nat.le_refl _) hpart, hsource]
      exact congrArg some ((getD_map_nil s.jobs.buffer _).trans
        (congrArg (s.jobs.buffer.elim []) (funext fun t => hparts t part hpart)))
    case filed =>
      rw [collection_ticket (by omega) hpart, ticketSource_of_filed hn ht hop]
      exact congrArg some (hparts t part hpart)
    case unfiled =>
      rw [collection_ticket (by omega) hpart, ticketSource_of_none hn h]
      rfl
  case requests =>
    refine ⟨fun c => ?status, fun hlag => ?lag, fun hlag => ?lagClamped, isAnswered_of_take h rfl rfl rfl,
      fun selector hbad => isAnswered_of_take h rfl rfl (takeReadStatus_of_bad hbad _), ?collections⟩
    case status =>
      intro u
      refine isAnswered_of_take h rfl rfl ((takeReadStatus_class c _).trans ?_)
      exact congrArg (fun data => (_, Reply.ok data)) (classStatus_link c _ u)
    case lag =>
      exact isAnswered_of_take h rfl rfl ((takeReadStatus_lag _).trans (Prod.ext (if_neg (Nat.not_lt.2 hlag)) rfl))
    case lagClamped => exact isAnswered_of_take h rfl rfl ((takeReadStatus_lag _).trans (Prod.ext (if_pos hlag) rfl))
    case collections =>
      intro code sel1 sel2 start count direction i
      refine ⟨fun hbad => isAnswered_of_take h rfl rfl (takeReadRecords_of_bad hbad), fun records hrecords hlow hhigh =>
        ⟨fun hdirection hend => ?notFound, fun hstart => ⟨fun hdirection => ?up, fun hdirection => ?down⟩⟩⟩
      case notFound =>
        exact isAnswered_of_take h rfl rfl
          ((takeReadRecords_of_range (s := taking i s) hrecords ⟨hlow, hhigh⟩ hdirection).trans (if_pos hend))
      case up =>
        exact isAnswered_of_take h rfl rfl (takeReadRecords_of_within (s := taking i s) hrecords ⟨hlow, hhigh⟩
          (by omega) hstart (by rw [if_pos hdirection, recordsData_readUp]))
      case down =>
        exact isAnswered_of_take h rfl rfl (takeReadRecords_of_within (s := taking i s) hrecords ⟨hlow, hhigh⟩
          (by omega) hstart (by rw [if_neg (by omega), recordsData_readDown count hstart]))

end Sys2Proof.Machine
end

