-- ==== Sys2Proof/Proofs/LagRequests.lean ====
section
/-! PROOFS. SET SECTION and SET LAG GEOMETRY (O31): the range tests, the overlap test and what the requests write (spec 03). -/

namespace Sys2Proof.Machine

theorem Section.enabled_iff {e : Section} : e.enabled = true ↔ e.top ≤ e.bottom := decide_eq_true_iff

/-- The overlap test of SET SECTION (R47). -/
theorem overlap_iff {e : Section} {others : List Section} :
    (e.enabled && others.any fun f => f.enabled && e.overlaps f) = true ↔
      e.top ≤ e.bottom ∧ ∃ f ∈ others, f.top ≤ f.bottom ∧ e.top < f.bottom ∧ f.top < e.bottom := by
  simp [Section.enabled_iff, Section.overlaps]

/-- The range test of SET SECTION (R47). -/
theorem sectionBad_iff {entry top bottom capacity : Nat} :
    (7 < entry || 200000 < top || 200000 < bottom || 200000 < capacity) = true ↔
      ¬ (entry ≤ 7 ∧ top ≤ 200000 ∧ bottom ≤ 200000 ∧ capacity ≤ 200000) := by
  simp only [Bool.or_eq_true, decide_eq_true_eq]
  omega

/-- SET SECTION with its values in range is a matter of the overlap (R47, log 45). -/
theorem takeSetSection_of_good {entry top bottom capacity : Nat}
    (h : entry ≤ 7 ∧ top ≤ 200000 ∧ bottom ≤ 200000 ∧ capacity ≤ 200000) (s : State) :
    takeSetSection entry top bottom capacity s =
      if (Section.mk top bottom capacity).enabled &&
          (s.lag.sections.eraseIdx entry).any fun f => f.enabled && (Section.mk top bottom capacity).overlaps f then
        (s, .overlap)
      else ({ s with lag.sections := setAt s.lag.sections entry fun _ => ⟨top, bottom, capacity⟩ }, .ok) :=
  if_neg fun hbad => sectionBad_iff.1 hbad h

/-- The range test of SET LAG GEOMETRY (R48). -/
theorem geometryGood_iff {surface capacity spacing : Nat} :
    (inRange 0 20000 surface && inRange 0 200000 capacity && inRange 10 100 spacing) = true ↔
      surface ≤ 20000 ∧ capacity ≤ 200000 ∧ 10 ≤ spacing ∧ spacing ≤ 100 := by
  simp [inRange_eq_true, and_assoc]

/-- Settles O31: each request is its range test, and SET SECTION the overlap test after it. -/
theorem lagRequestsChangeTheTableOrTheGeometryAlone : Obligations.LagRequestsChangeTheTableOrTheGeometryAlone := by
  intro who s h
  refine ⟨fun entry top bottom capacity => ?sections, fun surface capacity spacing => ?geometry⟩
  case sections =>
    refine ⟨fun hbad => ?_, fun hgood hover => ?_, fun hgood hover => ?_⟩
    · exact isAnswered_of_take h rfl rfl (if_pos (sectionBad_iff.2 hbad))
    · exact isAnswered_of_take h rfl rfl ((takeSetSection_of_good hgood _).trans (if_pos (overlap_iff.2 hover)))
    · exact isAnswered_of_take h rfl rfl ((takeSetSection_of_good hgood _).trans (if_neg (mt overlap_iff.1 hover)))
  case geometry =>
    exact ⟨fun hgood => isAnswered_of_take h rfl rfl (if_pos (geometryGood_iff.2 hgood)),
      fun hbad => isAnswered_of_take h rfl rfl (if_neg (mt geometryGood_iff.1 hbad))⟩

end Sys2Proof.Machine
end

