-- ==== Sys2Proof/Proofs/Marks.lean ====
section
/-! PROOFS. The marks (O32): the boundaries and bands of a depth, what a laying and an advance make of the queue, and that no
arrived mark is left at the head (spec 03). -/

namespace Sys2Proof.Machine

/-! ## Lag volume (R49) -/

/-- L(d) before the clamp, with the covered lengths written out (R49). -/
theorem lagVolumeRaw_eq (d : Nat) (lag : Lag) {covered : Section → Nat}
    (h : ∀ e, covered e = if e.top ≤ e.bottom then min e.bottom d - e.top else 0) :
    lagVolumeRaw d lag =
      lag.surface +
        ((lag.sections.map fun e => e.capacity * covered e).sum +
            lag.capacity * (d - (lag.sections.map covered).sum) + 50000) / 100000 := by
  have hcovered : covered = Section.covered d := by
    funext e
    simp [h, Section.covered, Section.enabled]
  rw [hcovered]
  rfl

/-! ## Boundaries (R50) -/

/-- A depth is a multiple of the spacing or a floor above band 0 (R50). -/
abbrev Boundary (spacing : Nat) (floors : List Nat) (d : Nat) : Prop := d % spacing = 0 ∨ d ∈ floors.drop 1

theorem lt_nextSpacing {spacing : Nat} (h : 0 < spacing) (d : Nat) : d < nextSpacing spacing d :=
  Nat.lt_mul_of_div_lt (Nat.lt_succ_self _) h

/-- No multiple of the spacing lies before the next one. -/
theorem nextSpacing_le {spacing d x : Nat} (hx : d < x) (hmod : x % spacing = 0) : nextSpacing spacing d ≤ x := by
  obtain ⟨k, rfl⟩ := Nat.dvd_of_mod_eq_zero hmod
  rw [nextSpacing, Nat.mul_comm spacing k]
  exact Nat.mul_le_mul_right _ (Nat.div_lt_of_lt_mul hx)

theorem nextFloor_some {floors : List Nat} {d f : Nat} (h : nextFloor floors d = some f) :
    f ∈ floors.drop 1 ∧ d < f :=
  ⟨List.mem_of_find?_eq_some h, by simpa using List.find?_some h⟩

/-- No floor lies before the next one of an ascending table. -/
theorem nextFloor_le {floors : List Nat} {d f x : Nat} (hsort : floors.Pairwise (· < ·))
    (h : nextFloor floors d = some f) (hx : x ∈ floors.drop 1) (hd : d < x) : f ≤ x := by
  obtain ⟨-, before, after, heq, hbefore⟩ := List.find?_eq_some_iff_append.1 h
  have htail : (floors.drop 1).Pairwise (· < ·) := hsort.sublist (List.drop_sublist _ _)
  rw [heq] at hx htail
  obtain hx | hx := List.mem_append.1 hx
  · have := hbefore x hx
    simp [hd] at this
  · obtain rfl | hx := List.mem_cons.1 hx
    · exact Nat.le_refl _
    · exact Nat.le_of_lt ((List.pairwise_cons.1 (List.pairwise_append.1 htail).2.1).1 x hx)

section
variable {spacing : Nat} {floors : List Nat} {d x : Nat}

theorem lt_nextBoundary (h : 0 < spacing) (d : Nat) : d < nextBoundary spacing floors d := by
  unfold nextBoundary
  split
  · next f hf => exact Nat.lt_min.2 ⟨(nextFloor_some hf).2, lt_nextSpacing h d⟩
  · exact lt_nextSpacing h d

theorem boundary_nextBoundary (spacing : Nat) (floors : List Nat) (d : Nat) :
    Boundary spacing floors (nextBoundary spacing floors d) := by
  have hspacing : Boundary spacing floors (nextSpacing spacing d) := .inl (Nat.mul_mod_left _ _)
  unfold nextBoundary
  split
  · next f hf =>
    obtain h | h := min_choice f (nextSpacing spacing d) <;> rw [h]
    · exact .inr (nextFloor_some hf).1
    · exact hspacing
  · exact hspacing

/-- No boundary lies between a depth and the next one (R50). -/
theorem nextBoundary_le (hsort : floors.Pairwise (· < ·)) (hx : d < x) (hb : Boundary spacing floors x) :
    nextBoundary spacing floors d ≤ x := by
  unfold nextBoundary
  obtain hmod | hfloor := hb
  · split
    · exact (Nat.min_le_right _ _).trans (nextSpacing_le hx hmod)
    · exact nextSpacing_le hx hmod
  · split
    · next f hf => exact (Nat.min_le_left _ _).trans (nextFloor_le hsort hf hfloor hx)
    · next hf => exact absurd hx (by simpa using List.find?_eq_none.1 hf x hfloor)

end

/-! ## Bands (R131) -/

/-- The floors of an ascending table at or below a depth are its first ones. -/
theorem floor_le_iff {floors : List Nat} {d : Nat} (hsort : floors.Pairwise (· < ·)) {k g : Nat}
    (hk : floors[k]? = some g) : g ≤ d ↔ k < (floors.filter fun f => decide (f ≤ d)).length := by
  induction floors generalizing k with
  | nil => simp at hk
  | cons f rest ih =>
    obtain ⟨hf, hrest⟩ := List.pairwise_cons.1 hsort
    by_cases hd : f ≤ d
    · rw [List.filter_cons_of_pos (by simpa using hd)]
      cases k with
      | zero => simp_all
      | succ k => simpa using ih hrest hk
    · have hnone : (rest.filter fun f => decide (f ≤ d)) = [] := List.filter_eq_nil_iff.2 fun x hx => by
        have := hf x hx
        simp
        omega
      rw [List.filter_cons_of_neg (by simpa using hd), hnone]
      have hle : f ≤ g := by
        obtain rfl | hg := List.mem_cons.1 (List.mem_of_getElem? hk)
        · exact Nat.le_refl _
        · exact Nat.le_of_lt (hf g hg)
      exact iff_of_false (by omega) (Nat.not_lt_zero k)

/-- The band of a depth is the highest whose floor is at or below it (R131). -/
theorem bandOf_spec {floors : List Nat} (d : Nat) (hzero : floors.head? = some 0) (hsort : floors.Pairwise (· < ·)) :
    ∃ f, floors[bandOf floors d]? = some f ∧ f ≤ d ∧ ∀ g, floors[bandOf floors d + 1]? = some g → d < g := by
  have hpos : 0 < (floors.filter fun f => decide (f ≤ d)).length :=
    (floor_le_iff hsort (by rwa [List.head?_eq_getElem?] at hzero)).1 (Nat.zero_le d)
  have hlen := List.length_filter_le (fun f => decide (f ≤ d)) floors
  have hin : bandOf floors d < floors.length := by
    unfold bandOf
    omega
  refine ⟨_, List.getElem?_eq_getElem hin, ?_, fun g hg => ?_⟩
  · rw [floor_le_iff hsort (List.getElem?_eq_getElem hin)]
    unfold bandOf
    omega
  · by_contra hgd
    have := (floor_le_iff hsort hg).1 (Nat.le_of_not_lt hgd)
    unfold bandOf at this
    omega

/-! ## Laying (R51, R53) -/

theorem layForces_iff {d : Nat} {s : State} :
    layForces d s = true ↔ s.lag.spanTop < d ∧ 256 ≤ s.lag.queue.length := by
  rw [layForces, Bool.and_eq_true, spanHasLength_iff, queueFull_iff]

/-- A span of zero length is not laid (R51). -/
theorem layMark_of_le {d : Nat} {s : State} (h : d ≤ s.lag.spanTop) : layMark d s = s :=
  if_neg fun hlen => Nat.not_lt.2 h (spanHasLength_iff.1 hlen)

theorem layMark_of_room {d : Nat} {s : State} (h : s.lag.spanTop < d) (hroom : s.lag.queue.length < 256) :
    layMark d s = appendMark d s := by
  rw [layMark, if_pos (spanHasLength_iff.2 h), if_neg fun hfull => Nat.not_le.2 hroom (queueFull_iff.1 hfull)]

theorem layMark_of_full {d : Nat} {s : State} (h : s.lag.spanTop < d) (hfull : 256 ≤ s.lag.queue.length) :
    layMark d s = appendMark d (forceOldest s) := by
  rw [layMark, if_pos (spanHasLength_iff.2 h), if_pos (queueFull_iff.2 hfull)]

/-- The mark does not depend on LAG_CLAMPED, which is recorded before it (R49, log 43). -/
theorem spanMark_recordLagClamp (d : Nat) (s : State) : spanMark d (recordLagClamp d s) = spanMark d s := by
  simp [spanMark, activeGeneration, activeFloors]

/-- The queue's length after a laying: it grows by one, unless it was full (R53). -/
theorem layMark_queue_length {d : Nat} {s : State} (h : s.lag.spanTop < d) :
    (layMark d s).lag.queue.length = if 256 ≤ s.lag.queue.length then s.lag.queue.length else s.lag.queue.length + 1 := by
  rw [layMark_lag h]
  by_cases hfull : 256 ≤ s.lag.queue.length
  · simp [queueFull_iff.2 hfull, hfull]
    omega
  · simp [mt queueFull_iff.1 hfull, hfull]

theorem layMark_queue_length_le (d : Nat) (s : State) : (layMark d s).lag.queue.length ≤ s.lag.queue.length + 1 := by
  by_cases h : s.lag.spanTop < d
  · rw [layMark_queue_length h]
    split <;> omega
  · rw [layMark_of_le (Nat.not_lt.1 h)]
    exact Nat.le_succ _

theorem layMark_spacing (d : Nat) (s : State) : (layMark d s).lag.spacing = s.lag.spacing := by
  by_cases h : s.lag.spanTop < d
  · rw [layMark_lag h]
  · rw [layMark_of_le (Nat.not_lt.1 h)]

/-! ## The boundaries an advance reaches (R50) -/

/-- The boundaries above a depth and at or below another, ascending (R50). -/
def reached (spacing : Nat) (floors : List Nat) (top depth : Nat) : List Nat :=
  (List.range (depth + 1)).filter fun d => decide (top < d ∧ Boundary spacing floors d)

section
variable {spacing : Nat} {floors : List Nat} {top depth : Nat}

theorem mem_reached {x : Nat} :
    x ∈ reached spacing floors top depth ↔ top < x ∧ Boundary spacing floors x ∧ x ≤ depth := by
  simp only [reached, List.mem_filter, List.mem_range, decide_eq_true_eq, Nat.lt_succ_iff]
  tauto

theorem reached_sorted : (reached spacing floors top depth).Pairwise (· < ·) :=
  List.pairwise_lt_range.sublist List.filter_sublist

theorem reached_of_le (h : depth ≤ top) : reached spacing floors top depth = [] :=
  List.eq_nil_iff_forall_not_mem.2 fun x hx => by
    obtain ⟨h1, -, h2⟩ := mem_reached.1 hx
    omega

/-- Where the next boundary lies beyond the advance, none is reached. -/
theorem reached_of_lt (hsort : floors.Pairwise (· < ·)) (h : depth < nextBoundary spacing floors top) :
    reached spacing floors top depth = [] :=
  List.eq_nil_iff_forall_not_mem.2 fun x hx => by
    obtain ⟨h1, hb, h2⟩ := mem_reached.1 hx
    have := nextBoundary_le hsort h1 hb
    omega

/-- The boundaries reached are the next one and those reached from there. -/
theorem reached_cons (hspacing : 0 < spacing) (hsort : floors.Pairwise (· < ·))
    (h : nextBoundary spacing floors top ≤ depth) :
    reached spacing floors top depth =
      nextBoundary spacing floors top :: reached spacing floors (nextBoundary spacing floors top) depth := by
  have hlt := lt_nextBoundary (floors := floors) hspacing top
  have hb := boundary_nextBoundary spacing floors top
  refine List.Pairwise.eq_of_mem_iff reached_sorted
    (List.pairwise_cons.2 ⟨fun x hx => (mem_reached.1 hx).1, reached_sorted⟩) fun x => ?_
  rw [List.mem_cons, mem_reached, mem_reached]
  constructor
  · rintro ⟨h1, hx, h2⟩
    obtain h3 | h3 := Nat.eq_or_lt_of_le (nextBoundary_le hsort h1 hx)
    · exact .inl h3.symm
    · exact .inr ⟨h3, hx, h2⟩
  · rintro (rfl | ⟨h1, hx, h2⟩)
    · exact ⟨hlt, hb, h⟩
    · exact ⟨hlt.trans h1, hx, h2⟩

/-- From the next boundary fewer are reached; here the floors may stand in any order. -/
theorem length_reached_lt (hspacing : 0 < spacing) (h : nextBoundary spacing floors top ≤ depth) :
    (reached spacing floors (nextBoundary spacing floors top) depth).length <
      (reached spacing floors top depth).length := by
  have hlt := lt_nextBoundary (floors := floors) hspacing top
  have hnodup : (nextBoundary spacing floors top ::
      reached spacing floors (nextBoundary spacing floors top) depth).Nodup :=
    List.nodup_cons.2 ⟨fun hx => Nat.lt_irrefl _ (mem_reached.1 hx).1, reached_sorted.imp Nat.ne_of_lt⟩
  refine (List.subperm_of_subset hnodup fun x hx => ?_).length_le
  obtain rfl | hx := List.mem_cons.1 hx
  · exact mem_reached.2 ⟨hlt, boundary_nextBoundary _ _ _, h⟩
  · obtain ⟨h1, hb, h2⟩ := mem_reached.1 hx
    exact mem_reached.2 ⟨hlt.trans h1, hb, h2⟩

end

/-! ## An advance (R50, R53) -/

/-- The boundaries a state's span reaches at a depth. -/
abbrev spanReached (depth : Nat) (s : State) : List Nat :=
  reached s.lag.spacing (activeFloors s) s.lag.spanTop depth

/-- The next boundary below a state's span. -/
abbrev spanBoundary (s : State) : Nat := nextBoundary s.lag.spacing (activeFloors s) s.lag.spanTop

theorem layBoundaries_succ_of_reached {fuel depth : Nat} {s : State} (hspacing : 0 < s.lag.spacing)
    (h : spanBoundary s ≤ depth) :
    layBoundaries (fuel + 1) depth s =
      ((layBoundaries fuel depth (layMark (spanBoundary s) s)).1,
        layForces (spanBoundary s) s || (layBoundaries fuel depth (layMark (spanBoundary s) s)).2) := by
  rw [layBoundaries]
  exact if_pos ⟨lt_nextBoundary hspacing _, h⟩

theorem layBoundaries_of_not_reached (fuel : Nat) {depth : Nat} {s : State} (h : depth < spanBoundary s) :
    layBoundaries fuel depth s = (s, false) := by
  cases fuel with
  | zero => rfl
  | succ fuel =>
    rw [layBoundaries]
    exact if_neg fun hb => Nat.not_le.2 h hb.2

/-- After a laying at a boundary the span reaches what lies beyond it. -/
theorem spanReached_layMark {b : Nat} (depth : Nat) {s : State} (h : s.lag.spanTop < b) :
    spanReached depth (layMark b s) = reached s.lag.spacing (activeFloors s) b depth := by
  rw [spanReached, layMark_spacing, layMark_floors, layMark_spanTop, if_pos h]

/-- The layings of an advance are one at each boundary it reaches, and one of them meets a full queue where they are more than
the queue has room for (R50, R53). -/
theorem layBoundaries_eq {fuel depth : Nat} {s : State} (hspacing : 0 < s.lag.spacing)
    (hsort : (activeFloors s).Pairwise (· < ·)) (hfuel : depth ≤ s.lag.spanTop + fuel) :
    layBoundaries fuel depth s =
      ((spanReached depth s).foldl (fun u d => layMark d u) s,
        decide (spanReached depth s ≠ [] ∧ 256 < s.lag.queue.length + (spanReached depth s).length)) := by
  induction fuel generalizing s with
  | zero => simp [layBoundaries, spanReached, reached_of_le (show depth ≤ s.lag.spanTop from hfuel)]
  | succ fuel ih =>
    by_cases h : spanBoundary s ≤ depth
    · have hlt : s.lag.spanTop < spanBoundary s := lt_nextBoundary hspacing _
      have hnext := ih (s := layMark (spanBoundary s) s) (by rwa [layMark_spacing]) (by rwa [layMark_floors])
        (by rw [layMark_spanTop, if_pos hlt]; omega)
      rw [layBoundaries_succ_of_reached hspacing h, hnext, spanReached_layMark depth hlt, spanReached,
        reached_cons hspacing hsort h, layMark_queue_length hlt]
      refine Prod.ext rfl (Bool.eq_iff_iff.2 ?_)
      simp only [Bool.or_eq_true, decide_eq_true_eq, layForces_iff, hlt, true_and, List.length_cons, ne_eq,
        reduceCtorEq, not_false_eq_true]
      cases reached s.lag.spacing (activeFloors s) (spanBoundary s) depth with
      | nil => simp
      | cons x rest => simp; split <;> omega
    · rw [layBoundaries_of_not_reached _ (Nat.not_le.1 h)]
      simp [spanReached, reached_of_lt hsort (Nat.not_le.1 h)]

theorem lagAdvance_eq {depth : Nat} {s : State} (hspacing : 0 < s.lag.spacing)
    (hsort : (activeFloors s).Pairwise (· < ·)) :
    lagAdvance depth s =
      if spanReached depth s ≠ [] ∧ 256 < s.lag.queue.length + (spanReached depth s).length then
        swapCheck ((spanReached depth s).foldl (fun u d => layMark d u) s)
      else (spanReached depth s).foldl (fun u d => layMark d u) s := by
  rw [lagAdvance, layBoundaries_eq hspacing hsort (by omega)]
  simp only [decide_eq_true_eq]

/-- The marks that the layings of an advance add to the queue of one state give the queue and the span of another (R50, R51). -/
structure AddsMarks (depth : Nat) (s t : State) (marks : List Mark) : Prop where
  queue : t.lag.queue = s.lag.queue ++ marks
  chain : chained s.lag.spanTop marks t.lag.spanTop = true
  bottoms : ∀ m ∈ marks, m.bottom = nextBoundary s.lag.spacing (activeFloors s) m.top ∧ m.bottom ≤ depth
  first : ∀ m ∈ marks.take 1, m.seconds = s.lag.spanSeconds ∧ m.loss = s.lag.spanLoss
  later : ∀ m ∈ marks.drop 1, m.seconds = 0 ∧ m.loss = 0
  last : depth < nextBoundary s.lag.spacing (activeFloors s) t.lag.spanTop

theorem AddsMarks.none {depth : Nat} {s : State} (h : depth < spanBoundary s) : AddsMarks depth s s [] where
  queue := (List.append_nil _).symm
  chain := decide_eq_true rfl
  bottoms _ hm := nomatch hm
  first _ hm := nomatch hm
  later _ hm := nomatch hm
  last := h

/-- The mark at the next boundary comes before those the advance lays from there. -/
theorem AddsMarks.cons {depth : Nat} {s t : State} {marks : List Mark} (hspacing : 0 < s.lag.spacing)
    (h : spanBoundary s ≤ depth) (hroom : s.lag.queue.length < 256)
    (hrest : AddsMarks depth (layMark (spanBoundary s) s) t marks) :
    AddsMarks depth s t (spanMark (spanBoundary s) s :: marks) := by
  have hlt : s.lag.spanTop < spanBoundary s := lt_nextBoundary hspacing _
  have hlag := layMark_lag hlt
  rw [if_neg fun hfull => Nat.not_le.2 hroom (queueFull_iff.1 hfull)] at hlag
  have hfloors := layMark_floors (spanBoundary s) s
  obtain ⟨hqueue, hchain, hbottoms, hfirst, hlater, hlast⟩ := hrest
  rw [hlag] at hqueue hchain hbottoms hfirst hlast
  rw [hfloors] at hbottoms hlast
  refine ⟨by simpa using hqueue, ?_, fun m hm => ?_, fun m hm => ?_, fun m hm => ?_, hlast⟩
  · simp [chained, spanMark, hlt, hchain]
  · obtain rfl | hm := List.mem_cons.1 hm
    · exact ⟨rfl, h⟩
    · exact hbottoms m hm
  · obtain rfl : m = spanMark (spanBoundary s) s := by simpa using hm
    exact ⟨rfl, rfl⟩
  · have hsplit : m ∈ marks.take 1 ++ marks.drop 1 := by rw [List.take_append_drop]; exact hm
    exact (List.mem_append.1 hsplit).elim (hfirst m) (hlater m)

/-- The layings of an advance with room for all it reaches make no forced retirement and add their marks; the floors may stand
in any order. -/
theorem layBoundaries_addsMarks {fuel depth : Nat} {s : State} (hspacing : 0 < s.lag.spacing)
    (htop : s.lag.spanTop ≤ depth) (hfuel : depth ≤ s.lag.spanTop + fuel)
    (hroom : s.lag.queue.length + (spanReached depth s).length ≤ 256) :
    (layBoundaries fuel depth s).2 = false ∧ ∃ marks, AddsMarks depth s (layBoundaries fuel depth s).1 marks := by
  induction fuel generalizing s with
  | zero => exact ⟨rfl, [], .none (Nat.lt_of_le_of_lt hfuel (lt_nextBoundary hspacing _))⟩
  | succ fuel ih =>
    by_cases h : spanBoundary s ≤ depth
    · have hlt : s.lag.spanTop < spanBoundary s := lt_nextBoundary hspacing _
      have hfewer : (reached s.lag.spacing (activeFloors s) (spanBoundary s) depth).length <
          (spanReached depth s).length := length_reached_lt hspacing h
      have hqueue : s.lag.queue.length < 256 := by omega
      have htop' : (layMark (spanBoundary s) s).lag.spanTop = spanBoundary s := by rw [layMark_spanTop, if_pos hlt]
      obtain ⟨hforced, marks, hmarks⟩ := ih (s := layMark (spanBoundary s) s) (by rwa [layMark_spacing])
        (by rwa [htop']) (by rw [htop']; omega)
        (by
          rw [spanReached_layMark depth hlt, layMark_queue_length hlt, if_neg (Nat.not_le.2 hqueue)]
          omega)
      rw [layBoundaries_succ_of_reached hspacing h]
      refine ⟨?_, _, hmarks.cons hspacing h hqueue⟩
      rw [hforced, Bool.or_false, Bool.eq_false_iff]
      exact fun hf => Nat.not_le.2 hqueue (layForces_iff.1 hf).2
    · rw [layBoundaries_of_not_reached _ (Nat.not_le.1 h)]
      exact ⟨rfl, [], .none (Nat.not_le.1 h)⟩

theorem lagAdvance_addsMarks {depth : Nat} {s : State} (hspacing : 0 < s.lag.spacing) (htop : s.lag.spanTop ≤ depth)
    (hroom : s.lag.queue.length + (spanReached depth s).length ≤ 256) :
    ∃ marks, AddsMarks depth s (lagAdvance depth s) marks := by
  obtain ⟨hforced, hmarks⟩ := layBoundaries_addsMarks (fuel := depth - s.lag.spanTop) hspacing htop (by omega) hroom
  rw [lagAdvance, hforced]
  exact hmarks

/-! ## The retirements of a lag-clock advance (R56) -/

/-- How many marks may yet retire in one advance: those queued, and the one a swap that is due may lay (R56, R57). -/
def retirable (s : State) : Nat := s.lag.queue.length + if s.price.stage.isDue then 1 else 0

/-- A swap trades the swap that is due for the mark it lays (R140). -/
theorem swapCheck_retirable_le (s : State) : retirable (swapCheck s) ≤ retirable s := by
  by_cases hdue : s.price.stage.isDue = true
  · obtain h | ⟨hstage, hlag⟩ := swapCheck_cases s
    · rw [h]
    · have := layMark_queue_length_le s.rods.holeDepth s
      rw [retirable, retirable, hstage, hlag, hdue]
      exact this
  · rw [swapCheck_of_not_due (Bool.eq_false_iff.2 hdue)]

theorem retire_retirable_lt {k : RetireCause} {m n : Mark} {rest : List Mark} {s : State} (h : s.lag.queue = m :: rest) :
    retirable (retire k n rest s) < retirable s := by
  refine Nat.lt_of_le_of_lt (swapCheck_retirable_le _) ?_
  have hstage : (retireUnchecked k n rest s).price.stage = s.price.stage := by rw [retireUnchecked_price]
  simp [retirable, retireUnchecked_lag, hstage, h]

/-- With fuel for every mark that may retire, the retirements end at a mark that has not arrived (R56). -/
theorem retireArrived_head {fuel : Nat} {s : State} (hfuel : retirable s ≤ fuel) {m : Mark} {rest : List Mark}
    (h : (retireArrived fuel s).lag.queue = m :: rest) : s.circ.vl < m.arrival := by
  induction fuel generalizing s with
  | zero =>
    have hqueue : s.lag.queue.length ≤ 0 := (Nat.le_add_right _ _).trans hfuel
    rw [retireArrived] at h
    simp [h] at hqueue
  | succ fuel ih =>
    unfold retireArrived at h
    split at h
    · next hq =>
      rw [hq] at h
      cases h
    · next n tail hq =>
      split at h
      · have := retire_retirable_lt (k := .arrived) (n := n) hq
        simpa using ih (by omega) h
      · next harrival =>
        rw [hq] at h
        obtain ⟨rfl, rfl⟩ := List.cons.inj h
        exact Nat.not_le.1 harrival

theorem lagClockAdvance_head {s : State} {m : Mark} {rest : List Mark} (h : (lagClockAdvance s).lag.queue = m :: rest) :
    s.circ.vl < m.arrival := by
  refine retireArrived_head (fuel := s.lag.queue.length + 1) ?_ h
  unfold retirable
  split <;> omega

/-- Settles O32: each clause is the lemma of its operation; no premise on the state is needed for the last. -/
theorem noArrivedMarkWaitsAtTheHead : Obligations.NoArrivedMarkWaitsAtTheHead := by
  refine ⟨fun d lag => lagVolumeRaw_eq d lag fun _ => rfl, fun spacing d floors hspacing hsort => ?boundary,
    fun d floors hzero hsort => bandOf_spec d hzero hsort, fun bottom s => ?laying, fun depth s hspacing hsort => ?advance,
    fun depth s hspacing htop => ?marks, fun cause m rest s => ⟨rfl, rfl⟩, fun m rest s hq => ?clock,
    fun s _ _ _ m rest hq => lagClockAdvance_head hq⟩
  case boundary =>
    refine ⟨lt_nextBoundary hspacing d, boundary_nextBoundary spacing floors d, fun x hx hb => ?_⟩
    exact not_or.1 fun hbound => Nat.not_le.2 hb (nextBoundary_le hsort hx hbound)
  case laying =>
    intro laid
    have hlaid : ∀ u, appendMark bottom u = laid u := fun u => by
      have hblind : decide ((recordLagClamp bottom u).circ.state = .totalLoss) = decide (u.circ.state = .totalLoss) := by
        simp
      rw [appendMark, spanMark_recordLagClamp, hblind]
      rfl
    refine ⟨layMark_of_le, fun h => ⟨fun hroom => ?_, fun m rest hq hfull => ?_⟩⟩
    · rw [layMark_of_room h hroom, hlaid]
    · rw [layMark_of_full h hfull, hlaid, forceOldest, hq]
  case advance =>
    have hadvance := lagAdvance_eq (depth := depth) hspacing hsort
    refine ⟨fun hroom => ?_, fun hfull hne => ?_, fun hnil => ?_⟩
    · exact hadvance.trans (if_neg fun h => Nat.not_le.2 h.2 hroom)
    · exact hadvance.trans (if_pos ⟨hne, hfull⟩)
    · rw [hadvance, if_neg fun h => h.1 hnil, spanReached, show reached _ _ _ _ = [] from hnil]
      rfl
  case marks =>
    intro _ hroom
    obtain ⟨marks, hmarks⟩ := lagAdvance_addsMarks hspacing htop hroom
    exact ⟨marks, hmarks.queue, hmarks.chain, hmarks.bottoms, hmarks.first, hmarks.later, hmarks.last⟩
  case clock =>
    unfold lagClockAdvance
    rw [hq, List.length_cons, retireArrived, hq]
    exact ⟨fun harrived => if_pos harrived, fun hwaits => if_neg (Nat.not_le.2 hwaits)⟩

end Sys2Proof.Machine
end

