-- ==== Sys2Proof/Proofs/ReturnsFrontier.lean ====
section
/-! PROOFS. The returns frontier over a step (O57): the law of the frontier alone does not carry over a step, since it does not
keep a WRITE out of an OPEN job. -/

namespace Sys2Proof.Machine

/-- A mark at the head of the queue. -/
def waitingMark : Mark :=
  { top := 0, bottom := 50, laid := 0, arrival := 10, generation := 1, band := 0, blind := false, seconds := 0, loss := 0,
    forced := false }

/-- An OPEN job with a mark queued and, against the store's law (R187), a WRITE in flight, which is about to complete. -/
def openUnderWrite : State :=
  { State.reset with
    jobs.state := .opened,
    jobs.op := some (.write 0),
    jobs.buffer := some (assembleTicket false (newContext 1 1 [] 0 0) State.reset),
    lag.queue := [waitingMark],
    lag.spanTop := 50,
    rods.holeDepth := 50,
    pending := [.writeSucceeds] }

theorem frontierLawful_openUnderWrite : frontierLawful openUnderWrite := by decide

/-- The completion makes the job state NONE (R188), and the mark is still queued. -/
theorem step_openUnderWrite : ∃ t, step openUnderWrite = .next t ∧ t.jobs.state = .noJob ∧ t.lag.queue = [waitingMark] := by
  have hrun : comesTo .writeSucceeds { openUnderWrite with pending := [] } _ := comesTo_event rfl rfl
  exact ⟨_, hrun, by decide, by decide⟩

/-- Refutes O57: frontierLawful holds of openUnderWrite, whose next step leaves the OPEN job with its queue undrained. The store
law storeLawful rules that state out (a WRITE is in flight in CLOSING only), but the statement does not take it as a premise. -/
theorem not_everyStepKeepsTheReturnsFrontier : ¬ Obligations.EveryStepKeepsTheReturnsFrontier := by
  rintro ⟨hkeeps, -⟩
  obtain ⟨t, hstep, hjob, hqueue⟩ := step_openUnderWrite
  have hlaw := hkeeps openUnderWrite t frontierLawful_openUnderWrite hstep
  rw [frontierLawful, hjob, if_neg (by decide), hqueue] at hlaw
  exact absurd hlaw.1 (List.cons_ne_nil _ _)

end Sys2Proof.Machine
end

