-- ==== Sys2Proof/Proofs/OpenJob.lean ====
section
/-! PROOFS. What closing the span and draining the queue keep, from the parts they are made of (spec 03), and what they leave of
the job controller and the strata log. -/

namespace Sys2Proof.Machine

/-! ## The lag tracker's operations from their parts (R53 to R59) -/

/-- A property that the first three phases of a retirement, the laying of the span and a swap check keep. -/
structure LagKeeps (P : State → Prop) : Prop where
  retired : ∀ {s : State} (k : RetireCause) {m : Mark} (forced : Bool) {rest : List Mark}, s.lag.queue = m :: rest →
    P s → P (retireUnchecked k { m with forced := forced } rest s)
  laid : ∀ {s : State}, P s → P (layMark s.rods.holeDepth s)
  swapped : ∀ {s : State}, P s → P (swapCheck s)

section
variable {P : State → Prop} {s : State}

theorem LagKeeps.retire (h : LagKeeps P) (k : RetireCause) {m : Mark} (forced : Bool) {rest : List Mark}
    (hq : s.lag.queue = m :: rest) (hs : P s) : P (retire k { m with forced := forced } rest s) :=
  h.swapped (h.retired k forced hq hs)

theorem LagKeeps.closeSpan (h : LagKeeps P) (hs : P s) : P (closeSpan s) := by
  have hlaid : P (layMark s.rods.holeDepth s) := h.laid hs
  unfold Machine.closeSpan
  split
  · exact h.swapped hlaid
  · exact hlaid

theorem LagKeeps.drainQueue (h : LagKeeps P) {fuel : Nat} (hs : P s) : P (drainQueue fuel s) := by
  induction fuel generalizing s with
  | zero => exact hs
  | succ fuel ih =>
    unfold Machine.drainQueue
    split
    · exact hs
    · next hq => exact ih (h.retire .close true hq hs)

end

/-! ## The placement of a mark from its parts (R116 to R119) -/

/-- A property that each way in which a mark at a depth may change the strata log keeps. -/
structure PlacementKeeps (depth : Nat) (P : State → Prop) : Prop where
  next : ∀ {s : State} (cls : Nat) (o : Origin), P s → P (nextInterval depth cls o s)
  relabelled : ∀ {s : State} (cls : Nat) (o : Origin), P s → P (relabel cls o s)
  added : ∀ {s : State} (m : Mark), P s → P (addMark m s)
  drains : ∀ {s : State}, P s → P { s with strata.drain := true }

section
variable {P : State → Prop} {s : State}

theorem PlacementKeeps.classAt {d : Nat} (h : PlacementKeeps d P) (cls : Nat) (o : Origin) (hs : P s) :
    P (classAt d cls o s) := by
  unfold Machine.classAt
  split
  · split
    · exact h.next cls o hs
    · exact h.relabelled cls o hs
  · exact hs

theorem PlacementKeeps.placeMark {m : Mark} (h : PlacementKeeps m.top P) (k : RetireCause) (hs : P s) :
    P (placeMark k m s) := by
  have drained : P (drainBegin m s) := by
    unfold drainBegin
    split
    · exact hs
    · exact h.classAt _ _ (h.drains hs)
  have begun : P (blindRunBegin m s) := by
    unfold blindRunBegin
    split
    · exact h.classAt _ _ hs
    · exact hs
  have ended : P (blindRunEnd m (blindRunBegin m s)) := by
    unfold blindRunEnd
    split
    · exact h.next _ _ begun
    · exact begun
  have sighted : P (if s.strata.drain then addMark m s else addMark m (blindRunEnd m (blindRunBegin m s))) := by
    split
    · exact h.added m hs
    · exact h.added m ended
  cases k with
  | close => exact h.added m drained
  | arrived | overrun => exact sighted

end

/-! ## What the job controller sees (R53, R180) -/

/-- Between two states of an OPEN job only the overrun-seen flag of the job controller has changed, and a strata log begun is
still begun. -/
structure JobGoesOn (s t : State) : Prop where
  jobs : t.jobs = s.jobs ∨ t.jobs = { s.jobs with context := s.jobs.context.map fun c => { c with overrunSeen := true } }
  begun : s.strata.intervals ≠ [] → t.strata.intervals ≠ []

theorem JobGoesOn.refl (s : State) : JobGoesOn s s := ⟨.inl rfl, id⟩

theorem JobGoesOn.trans {s t u : State} (h : JobGoesOn s t) (k : JobGoesOn t u) : JobGoesOn s u where
  jobs := by
    obtain hk | hk := k.jobs <;> obtain hj | hj := h.jobs <;> rw [hk, hj]
    · exact .inl rfl
    · exact .inr rfl
    · exact .inr rfl
    · refine .inr ?_
      simp [Function.comp_def]
  begun hs := k.begun (h.begun hs)

/-- A change of neither the job controller nor the intervals. -/
theorem JobGoesOn.of_eq {s t : State} (hjobs : t.jobs = s.jobs) (hstrata : t.strata = s.strata) : JobGoesOn s t :=
  ⟨.inl hjobs, by rw [hstrata]; exact id⟩

/-- A reading of the job controller that the overrun-seen flag does not bear on. -/
theorem JobGoesOn.reads {s t : State} {α : Type} (h : JobGoesOn s t) (f : Jobs → α)
    (hf : ∀ j : Jobs, f { j with context := j.context.map fun c => { c with overrunSeen := true } } = f j) :
    f t.jobs = f s.jobs := by
  obtain hj | hj := h.jobs <;> rw [hj]
  exact hf s.jobs

theorem updateLast_eq_nil {α : Type} {f : α → α} {l : List α} : updateLast f l = [] ↔ l = [] := by
  rw [← List.length_eq_zero_iff, length_updateLast, List.length_eq_zero_iff]

theorem nextInterval_intervals (d cls : Nat) (o : Origin) (s : State) :
    (nextInterval d cls o s).strata.intervals =
      if logFull s then s.strata.intervals
      else (closeInterval d false s).strata.intervals ++
        [{ top := d, bottom := none, cls := cls, origin := o, opened := s.flu.clock, seconds := 0, loss := 0,
           marks := 0, rate := none, waterBearing := false, forced := false, note := 0 }] := by
  unfold nextInterval appendInterval
  split <;> simp [*]

theorem relabel_intervals (cls : Nat) (o : Origin) (s : State) :
    (relabel cls o s).strata.intervals = updateLast (fun v => { v with cls := cls, origin := o }) s.strata.intervals := by
  simp [relabel]

theorem addMark_intervals (m : Mark) (s : State) :
    (addMark m s).strata.intervals = updateLast (Interval.plusMark m) s.strata.intervals := rfl

theorem placement_keeps_begun (d : Nat) : PlacementKeeps d fun s => s.strata.intervals ≠ [] where
  next cls o hs := by
    rw [nextInterval_intervals]
    split
    · exact hs
    · exact List.append_ne_nil_of_right_ne_nil _ (List.cons_ne_nil _ _)
  relabelled cls o hs := by
    rw [relabel_intervals, ne_eq, updateLast_eq_nil]
    exact hs
  added m hs := by
    rw [addMark_intervals, ne_eq, updateLast_eq_nil]
    exact hs
  drains hs := hs

theorem JobGoesOn.retireUnchecked (k : RetireCause) (m : Mark) (rest : List Mark) (s : State) :
    JobGoesOn s (retireUnchecked k m rest s) where
  jobs := .inl (by simp)
  begun hs := by
    have hplaced : (placeMark k m (removeOldest m rest s)).strata.intervals ≠ [] :=
      (placement_keeps_begun m.top).placeMark k (by simpa using hs)
    simpa [Machine.retireUnchecked] using hplaced

theorem JobGoesOn.forceOldest (s : State) : JobGoesOn s (forceOldest s) := by
  have overrun : ∀ u : State, JobGoesOn u (markOverrunSeen u) := fun u => by
    refine ⟨?_, by simp⟩
    unfold markOverrunSeen
    split
    · exact .inr rfl
    · exact .inl rfl
  have recorded : ∀ (kind : IncidentKind) (a b : Nat) (u : State), JobGoesOn u (record kind a b u) := fun kind a b u =>
    .of_eq (by simp) (by simp)
  unfold Machine.forceOldest
  split
  · exact .refl s
  · exact (JobGoesOn.retireUnchecked _ _ _ s).trans ((recorded _ _ _ _).trans (overrun _))

theorem JobGoesOn.layMark (d : Nat) (s : State) : JobGoesOn s (layMark d s) := by
  have appended : ∀ u : State, JobGoesOn u (appendMark d u) := fun u => .of_eq (by simp) (by simp)
  unfold Machine.layMark
  split
  · split
    · exact (JobGoesOn.forceOldest s).trans (appended _)
    · exact appended s
  · exact .refl s

theorem JobGoesOn.swapCheck (s : State) : JobGoesOn s (swapCheck s) := by
  have rotated : ∀ u : State, JobGoesOn u (rotateSets u) := fun u => .of_eq (by simp) (by simp)
  unfold Machine.swapCheck
  split
  · exact (JobGoesOn.layMark _ s).trans (rotated _)
  · exact .refl s

/-- Nothing the lag tracker does ends the job it is done in. -/
theorem lagKeeps_jobGoesOn (s : State) : LagKeeps (JobGoesOn s) where
  retired k _ _ _ _ hs := hs.trans (.retireUnchecked k _ _ _)
  laid hs := hs.trans (.layMark _ _)
  swapped hs := hs.trans (.swapCheck _)

end Sys2Proof.Machine
end

