-- ==== Sys2Proof/Proofs/CloseJob.lean ====
section
/-! PROOFS. CLOSE JOB (O51): closing the span, the end of the job, the ticket and its filing (specs 03, 10). -/

namespace Sys2Proof.Machine

/-! ## Closing the span (R54) -/

theorem closeSpan_of_no_length {s : State} (h : s.rods.holeDepth ≤ s.lag.spanTop) : closeSpan s = s := by
  rw [closeSpan, if_neg fun hforces => Nat.not_lt.2 h (layForces_iff.1 hforces).1, layMark_of_le h]

theorem closeSpan_of_room {s : State} (hroom : s.lag.queue.length < 256) :
    closeSpan s = layMark s.rods.holeDepth s :=
  if_neg fun hforces => Nat.not_le.2 hroom (layForces_iff.1 hforces).2

theorem closeSpan_of_full {s : State} (h : s.lag.spanTop < s.rods.holeDepth) (hfull : 256 ≤ s.lag.queue.length) :
    closeSpan s = swapCheck (layMark s.rods.holeDepth s) :=
  if_pos (layForces_iff.2 ⟨h, hfull⟩)

/-! ## The end of the job (R184) -/

theorem endJob_lag (s : State) :
    (endJob s).lag = { (drainQueue s.lag.queue.length s).lag with spanSeconds := 0, spanLoss := 0 } := by
  simp [endJob, handResidual]

theorem endJob_stage (s : State) : (endJob s).price.stage = .editing := by simp [endJob, endPricing]

theorem endJob_jobs (s : State) :
    (endJob s).jobs =
      { (drainQueue s.lag.queue.length s).jobs with
        state := .closing,
        context := (drainQueue s.lag.queue.length s).jobs.context.map fun c =>
          { c with closeTime := some s.flu.clock } } := by
  simp [endJob]

theorem getLast?_updateLast {α : Type} (f : α → α) (l : List α) : (updateLast f l).getLast? = l.getLast?.map f := by
  obtain rfl | ⟨rest, x, rfl⟩ := List.eq_nil_or_concat l
  · rfl
  · simp

/-- The job's intervals end closed at F (R120). -/
theorem endJob_bottom (s : State) :
    (endJob s).strata.intervals.getLast?.map (·.bottom) =
      (drainQueue s.lag.queue.length s).strata.intervals.getLast?.map fun _ =>
        some (drainQueue s.lag.queue.length s).lag.frontier := by
  simp [endJob, finalClosure, closeInterval, handResidual, addResidual, getLast?_updateLast, Interval.closedAt,
    Function.comp_def]

/-- What the end of a lawful job leaves: no mark queued, F and the log at the hole depth, the job controller CLOSING with the
close time, and nothing else of it changed but the overrun-seen flag. -/
theorem endJob_of_lawful {s : State} (hrun : runLawful s) (hclosed : s.rods.holeDepth ≤ s.lag.spanTop) :
    (endJob s).lag.queue = [] ∧ (endJob s).lag.frontier = s.rods.holeDepth ∧
      (s.strata.intervals ≠ [] →
        (endJob s).strata.intervals.getLast?.map (·.bottom) = some (some s.rods.holeDepth)) := by
  obtain ⟨hchain, htop, -⟩ := hrun
  obtain ⟨hqueue, hfrontier, -⟩ := drainQueue_lag hchain hclosed (Nat.le_refl _)
  have hdepth : (drainQueue s.lag.queue.length s).lag.frontier = s.rods.holeDepth :=
    hfrontier.trans (Nat.le_antisymm htop hclosed)
  refine ⟨by rw [endJob_lag]; exact hqueue, by rw [endJob_lag]; exact hdepth, fun hbegun => ?_⟩
  have hdrained := ((lagKeeps_jobGoesOn s).drainQueue (fuel := s.lag.queue.length) (.refl s)).begun hbegun
  rw [endJob_bottom, List.getLast?_eq_some_getLast hdrained, hdepth]
  rfl

/-! ## Filing (R184 step 6, R188) -/

theorem beginFiling_of_protected {s : State} (h : s.jobs.isProtected = true) :
    beginFiling s = leaveUnfiled .storeProtected s := if_pos h

theorem beginFiling_of_full {s : State} (h : s.jobs.isProtected = false) (hfull : ∀ k ∈ s.jobs.slots, k ≠ .erased) :
    beginFiling s = leaveUnfiled .storeFull s := by
  have hnone : lowestErased s = none := List.findIdx?_eq_none_iff.2 fun k hk => decide_eq_false (hfull k hk)
  rw [beginFiling, if_neg (ne_true_of_eq_false h), hnone]

/-- The lowest ERASED slot (R188). -/
theorem lowestErased_eq {s : State} {n : Nat} (h : s.jobs.slots[n]? = some .erased)
    (hlow : ∀ m < n, s.jobs.slots[m]? ≠ some .erased) : lowestErased s = some n := by
  obtain ⟨hlt, hget⟩ := List.getElem?_eq_some_iff.1 h
  refine List.findIdx?_eq_some_iff_getElem.2 ⟨hlt, decide_eq_true hget, fun m hm => ?_⟩
  simpa [List.getElem?_eq_getElem (hm.trans hlt)] using hlow m hm

theorem beginFiling_of_erased {s : State} (h : s.jobs.isProtected = false) {n : Nat}
    (hn : s.jobs.slots[n]? = some .erased) (hlow : ∀ m < n, s.jobs.slots[m]? ≠ some .erased) :
    beginFiling s = startWrite n s := by
  rw [beginFiling, if_neg (ne_true_of_eq_false h), lowestErased_eq hn hlow]

/-- Filing leaves the ticket and the close time (R184). -/
theorem beginFiling_keeps_ticket (s : State) :
    (beginFiling s).jobs.buffer = s.jobs.buffer ∧
      (beginFiling s).jobs.context.map (·.closeTime) = s.jobs.context.map (·.closeTime) := by
  unfold beginFiling
  split
  · simp [Function.comp_def]
  · split <;> simp [Function.comp_def]

/-- What the job controller holds at the end of a job that has gone on from a state: its own fields as they were there, and
the close time (R184). -/
theorem endJob_jobs_of_goesOn {s v : State} (h : JobGoesOn s v) :
    (endJob v).jobs.slots = s.jobs.slots ∧ (endJob v).jobs.op = s.jobs.op ∧
      (endJob v).jobs.isProtected = s.jobs.isProtected ∧
      (endJob v).jobs.context.map (·.closeTime) = s.jobs.context.map fun _ => some v.flu.clock := by
  have hdrain : JobGoesOn s (drainQueue v.lag.queue.length v) := (lagKeeps_jobGoesOn s).drainQueue h
  rw [endJob_jobs]
  refine ⟨hdrain.reads (·.slots) fun _ => rfl, hdrain.reads (·.op) fun _ => rfl,
    hdrain.reads (·.isProtected) fun _ => rfl, ?_⟩
  rw [← hdrain.reads (fun j => j.context.map fun _ => some v.flu.clock) fun _ => by simp [Function.comp_def]]
  simp [Function.comp_def]

/-- The part with the ticket assembled and filing yet to begin (R184 step 5). -/
def ticketAssembled (v : State) : State :=
  { endJob v with
    jobs.buffer := (endJob v).jobs.context.map fun c => assembleTicket (decide (0 < v.lag.queue.length)) c (endJob v) }

theorem applyCloseJob_eq (v : State) : applyCloseJob v = beginFiling (ticketAssembled v) := rfl

theorem applyCloseJob_blocks (v : State) :
    (applyCloseJob v).lag = (endJob v).lag ∧ (applyCloseJob v).strata = (endJob v).strata ∧
      (applyCloseJob v).price = (endJob v).price := by simp [applyCloseJob]

/-- The two octets with which CLOSE JOB's reply says how the ticket was filed (log 19). -/
def filingReply (s : State) : List Byte := oct1 s.jobs.state.code ++ oct1 (filingOctet s)

/-- A ticket left unfiled: the reply carries UNFILED and the outcome (R184 step 6, log 19). -/
theorem leaveUnfiled_reply {s : State} {c : JobContext} (o : FilingOutcome) (hop : s.jobs.op = none)
    (hc : s.jobs.context = some c) :
    filingReply (leaveUnfiled o s) = oct1 3 ++ oct1 o.code ∧
      (leaveUnfiled o s).jobs.state = .unfiled ∧ (leaveUnfiled o s).jobs.op = none ∧
      (leaveUnfiled o s).jobs.slots = s.jobs.slots ∧
      (leaveUnfiled o s).jobs.context.map (·.filing) = some (some o) := by
  simp [filingReply, filingOctet, hop, hc, JobState.code]

/-- A WRITE begun: the reply carries CLOSING and its slot (R188, log 19). -/
theorem startWrite_reply (n : Nat) (s : State) :
    filingReply (startWrite n s) = oct1 2 ++ oct1 n ∧
      (startWrite n s).jobs.state = .closing ∧ (startWrite n s).jobs.op = some (.write n) ∧
      (startWrite n s).jobs.slots = s.jobs.slots.modify n fun _ => .writing := by
  simp [filingReply, filingOctet, JobState.code, setAt]

/-- How filing begins and what the reply says of it: the ticket stays UNFILED on a protected or a full store, and its WRITE
begins on the lowest ERASED slot otherwise. -/
theorem beginFiling_outcome {s : State} {c : JobContext} (hop : s.jobs.op = none) (hc : s.jobs.context = some c) :
    let u := beginFiling s
    (s.jobs.isProtected = true →
      filingReply u = oct1 3 ++ oct1 4 ∧ u.jobs.state = .unfiled ∧ u.jobs.op = none ∧ u.jobs.slots = s.jobs.slots ∧
        u.jobs.context.map (·.filing) = some (some .storeProtected)) ∧
    (s.jobs.isProtected = false → (∀ k ∈ s.jobs.slots, k ≠ .erased) →
      filingReply u = oct1 3 ++ oct1 3 ∧ u.jobs.state = .unfiled ∧ u.jobs.op = none ∧ u.jobs.slots = s.jobs.slots ∧
        u.jobs.context.map (·.filing) = some (some .storeFull)) ∧
    (s.jobs.isProtected = false → ∀ n, s.jobs.slots[n]? = some .erased →
      (∀ m < n, s.jobs.slots[m]? ≠ some .erased) →
      filingReply u = oct1 2 ++ oct1 n ∧ u.jobs.state = .closing ∧ u.jobs.op = some (.write n) ∧
        u.jobs.slots = s.jobs.slots.modify n fun _ => .writing) := by
  intro u
  refine ⟨fun hprot => ?_, fun hprot hfull => ?_, fun hprot n hn hlow => ?_⟩
  · have hu : u = leaveUnfiled .storeProtected s := beginFiling_of_protected hprot
    rw [hu]
    exact leaveUnfiled_reply .storeProtected hop hc
  · have hu : u = leaveUnfiled .storeFull s := beginFiling_of_full hprot hfull
    rw [hu]
    exact leaveUnfiled_reply .storeFull hop hc
  · have hu : u = startWrite n s := beginFiling_of_erased hprot hn hlow
    rw [hu]
    exact startWrite_reply n s

/-! ## The request (R183) -/

/-- CLOSE JOB in an OPEN job with no operation in flight comes to the span's closure, and then to a refusal or the close. -/
theorem takeCloseJob_of_open {s : State} (hopen : s.jobs.state = .opened) (hop : s.jobs.op = none) (force : Bool) :
    takeCloseJob force s =
      if (closeSpan s).lag.queue ≠ [] ∧ force = false then
        (closeSpan s, .returnsPending (returnsPendingData (closeSpan s)))
      else
        (applyCloseJob (closeSpan s),
          .ok (oct2 (closeSpan s).lag.queue.length ++ filingReply (applyCloseJob (closeSpan s)))) := by
  rw [takeCloseJob, if_neg (by rw [hopen]; decide), if_neg (not_not_intro hopen), if_neg (not_not_intro hop), filingReply,
    ← List.append_assoc]

/-- Settles O51: the closure is the laying of the span; the close is the drain, the end of the job, the ticket and the three
cases of filing. -/
theorem closeJobDrainsAssemblesAndFiles : Obligations.CloseJobDrainsAssemblesAndFiles := by
  refine ⟨fun s => ?closure, fun who force s h => ?request⟩
  case closure =>
    intro laid
    refine ⟨closeSpan_of_no_length, fun hlen => ⟨fun hroom => ?_, closeSpan_of_full hlen, ?_⟩⟩
    · have happend : laid = appendMark s.rods.holeDepth s := layMark_of_room hlen hroom
      rw [happend, appendMark_lag]
      exact ⟨(closeSpan_of_room hroom).trans happend, rfl, rfl⟩
    · obtain ⟨htop, hseconds, hloss, hblind, hqueue⟩ := layMark_span hlen
      exact ⟨htop, hseconds, hloss, hblind, _, _, hqueue, rfl, rfl, rfl, rfl, rfl, rfl, rfl, rfl, rfl⟩
  case request =>
    intro i
    refine ⟨fun hjob => isAnswered_of_take h rfl rfl (if_pos hjob), fun hjob => isAnswered_of_take h rfl rfl ?wrong,
      fun hopen hop => isAnswered_of_take h rfl rfl ?busy, fun hopen hop => ?taken⟩
    case wrong =>
      have hne : s.jobs.state ≠ .noJob ∧ s.jobs.state ≠ .opened := by obtain hj | hj := hjob <;> simp [hj]
      exact (if_neg hne.1).trans (if_pos hne.2)
    case busy =>
      exact (if_neg (by simp [taking, hopen])).trans ((if_neg (not_not_intro hopen)).trans (if_pos hop))
    case taken =>
      intro v
      have htake := takeCloseJob_of_open (s := taking i s) hopen hop force
      refine ⟨fun m rest hq hforce => ?pending, fun hclose hfrontier hstore => ?closed⟩
      case pending =>
        have hdata : returnsPendingData v = oct2 v.lag.queue.length ++ oct4 (m.arrival - v.circ.vl) := by
          rw [returnsPendingData, hq]
          rfl
        exact isAnswered_of_take (f := fun _ => v) h rfl rfl
          (htake.trans ((if_pos ⟨ne_of_eq_of_ne hq (List.cons_ne_nil _ _), hforce⟩).trans
            (congrArg (fun data => (v, Reply.returnsPending data)) hdata)))
      case closed =>
        have hrun : runLawful (taking i s) := (frontierLawful_of_opened hopen).1 hfrontier
        have hgoes : JobGoesOn s v := (lagKeeps_jobGoesOn s).closeSpan (.of_eq rfl rfl)
        have hframe : v.rods = s.rods ∧ v.flu = s.flu ∧ v.bill = s.bill := by simp [v, taking]
        obtain ⟨hrods, hflu, hbill⟩ := hframe
        have hspan : v.rods.holeDepth ≤ v.lag.spanTop := by
          rw [closeSpan_spanTop hrun.2.1, hrods]
          exact Nat.le_refl _
        obtain ⟨hqueue, hF, hbottom⟩ := endJob_of_lawful (s := v) (closeSpan_run hrun) hspan
        obtain ⟨hslots, hopEnd, hprotected, htime⟩ := endJob_jobs_of_goesOn hgoes
        obtain ⟨hlag, hstrata, hprice⟩ := applyCloseJob_blocks v
        obtain ⟨hbuffer, hcloseTime⟩ := beginFiling_keeps_ticket (ticketAssembled v)
        obtain ⟨-, -, -, -, -, hcontext, -⟩ := hstore
        obtain ⟨c₀, hc₀⟩ := Option.isSome_iff_exists.1 (hcontext (by rw [hopen]; decide))
        rw [hc₀, hflu] at htime
        obtain ⟨c, hc, -⟩ := Option.map_eq_some_iff.1 htime
        have hticket : (applyCloseJob v).jobs.buffer =
            some (assembleTicket (decide (0 < v.lag.queue.length)) c (endJob v)) := by
          rw [applyCloseJob_eq, hbuffer, ticketAssembled, hc]
          rfl
        have hfiling := beginFiling_outcome (s := ticketAssembled v) (hopEnd.trans hop) hc
        rw [show (ticketAssembled v).jobs.slots = s.jobs.slots from hslots,
          show (ticketAssembled v).jobs.isProtected = s.jobs.isProtected from hprotected] at hfiling
        refine ⟨applyCloseJob v, filingReply (applyCloseJob v), isAnswered_of_take (f := fun _ => applyCloseJob v) h rfl rfl
          (htake.trans (if_neg ?_)), ?_⟩
        · rintro ⟨hne, hforce⟩
          obtain hnil | hforced := hclose
          · exact hne hnil
          · cases hforce.symm.trans hforced
        rw [hlag, hstrata, hprice, hticket, hF, endJob_stage, applyCloseJob_eq, hcloseTime]
        refine ⟨hqueue, by rw [hrods], by rw [endJob_lag], by rw [endJob_lag], rfl, fun hbegun => ?_, htime, ?_, ?_, rfl, rfl,
          ?_, hfiling⟩
        · rw [hbottom (hgoes.begun hbegun), hrods]
        · simp [assembleTicket, ticketHeader, hF, hrods]
        · simp [assembleTicket, List.length_pos_iff]
        · simp [assembleTicket, hbill]

end Sys2Proof.Machine
end

