-- ==== Sys2Proof/Proofs/RodRequests.lean ====
section
/-! PROOFS. The rod and depth requests (spec 04): the registry (O37), and PLACE ROD with the depth settings (O38). -/

namespace Sys2Proof.Machine

/-! ## The registry requests (R67, R68, R70, R71) -/

theorem statusOf_code (st : RodStatus) : statusOf st.code = some st := by cases st <;> rfl

theorem statusOf_eq_none {status : Nat} (h : 2 < status) : statusOf status = none := by
  unfold statusOf
  split
  case h_4 => rfl
  all_goals omega

theorem findRod_eq_none {id : Nat} {s : State} : findRod id s = none ↔ ¬ ∃ r ∈ s.rods.registry, r.id = id := by
  simp [findRod]

/-- The ranges of a rod's fields (R67). -/
theorem rodFields_iff {id length makeUps rotating : Nat} :
    (inRange 1 65535 id && inRange 100 1000 length && inRange 0 65535 makeUps && inRange 0 65535 rotating) = true ↔
      (1 ≤ id ∧ id ≤ 65535) ∧ (100 ≤ length ∧ length ≤ 1000) ∧ makeUps ≤ 65535 ∧ rotating ≤ 65535 := by
  simp [inRange_eq_true, and_assoc]

/-- REGISTER ROD with a status or a field out of range (R67). -/
theorem takeRegisterRod_of_bad {id length status makeUps rotating : Nat}
    (h : ¬ ((1 ≤ id ∧ id ≤ 65535) ∧ (100 ≤ length ∧ length ≤ 1000) ∧ status ≤ 2 ∧ makeUps ≤ 65535 ∧ rotating ≤ 65535))
    (s : State) : takeRegisterRod id length status makeUps rotating s = (s, .badArgument) := by
  unfold takeRegisterRod
  split
  · rfl
  · next st hst =>
    have hstatus : status ≤ 2 := by
      by_contra hno
      rw [statusOf_eq_none (by omega)] at hst
      cases hst
    refine if_pos (congrArg not (Bool.eq_false_iff.2 fun hgood => h ?_))
    obtain ⟨hid, hlength, hmakeUps, hrotating⟩ := rodFields_iff.1 hgood
    exact ⟨hid, hlength, hstatus, hmakeUps, hrotating⟩

/-- REGISTER ROD with every value in range is a matter of the id and of the room (R67). -/
theorem takeRegisterRod_of_good {id length status makeUps rotating : Nat} {st : RodStatus}
    (hst : statusOf status = some st)
    (h : (1 ≤ id ∧ id ≤ 65535) ∧ (100 ≤ length ∧ length ≤ 1000) ∧ status ≤ 2 ∧ makeUps ≤ 65535 ∧ rotating ≤ 65535)
    (s : State) :
    takeRegisterRod id length status makeUps rotating s =
      if (findRod id s).isSome then (s, .wrongState)
      else if 448 ≤ s.rods.registry.length then (s, .full)
      else
        ({ s with
           rods.registry :=
             insertRod
               { id := id, length := length, status := st, makeUps := makeUps, rotating := rotating, location := .yard,
                 entryFootage := none, makeUpPeak := none, breakPeak := none }
               s.rods.registry }, .ok) := by
  obtain ⟨hid, hlength, -, hmakeUps, hrotating⟩ := h
  simp only [takeRegisterRod, hst, rodFields_iff.2 ⟨hid, hlength, hmakeUps, hrotating⟩, Bool.not_true, Bool.false_eq_true, if_false]
  rfl

theorem takeDelistRod_of_unregistered {id : Nat} {s : State} (h : findRod id s = none) :
    takeDelistRod id s = (s, .notFound) := by simp only [takeDelistRod, h]

theorem takeDelistRod_of_registered {id : Nat} {r : Rod} {s : State} (h : findRod id s = some r) :
    takeDelistRod id s =
      if r.location ≠ .yard then (s, .wrongState)
      else ({ s with rods.registry := s.rods.registry.filter fun q => decide (q.id ≠ id) }, .ok) := by
  simp only [takeDelistRod, h]

theorem takeSetRodStatus_of_bad {status : Nat} (h : 2 < status) (id : Nat) (s : State) :
    takeSetRodStatus id status s = (s, .badArgument) := by simp only [takeSetRodStatus, statusOf_eq_none h]

theorem takeSetRodStatus_of_good {status : Nat} {st : RodStatus} (h : statusOf status = some st) (id : Nat) (s : State) :
    takeSetRodStatus id status s =
      if (findRod id s).isNone then (s, .notFound)
      else (updateRod id (fun r => { r with status := st }) s, .ok) := by
  simp only [takeSetRodStatus, h]

theorem statusOf_isSome {status : Nat} (h : status ≤ 2) : ∃ st, statusOf status = some st := by
  match status, h with
  | 0, _ => exact ⟨_, rfl⟩
  | 1, _ => exact ⟨_, rfl⟩
  | 2, _ => exact ⟨_, rfl⟩

/-- Settles O37: each request is its tests in the order of its rule, and then the change of one record. -/
theorem registryRequestsChangeTheirRecordAlone : Obligations.RegistryRequestsChangeTheirRecordAlone := by
  intro who s h
  refine ⟨fun id length status makeUps rotating => ?register, fun id => ?delist, fun id status => ?status,
    fun rotating makeUps => ?limits⟩
  case register =>
    intro good
    have take (hgood : good) {st : RodStatus} (hst : statusOf status = some st) :=
      takeRegisterRod_of_good hst hgood (taking (.registerRod who id length status makeUps rotating) s)
    have named (hgood : good) : ∃ st, statusOf status = some st := by
      obtain ⟨-, -, hstatus, -⟩ := hgood
      exact statusOf_isSome hstatus
    refine ⟨fun hbad => isAnswered_of_take h rfl rfl (takeRegisterRod_of_bad hbad _), fun hgood hknown => ?known,
      fun hgood hnew hfull => ?full, fun hgood hnew hroom st hst => ?taken⟩
    case known =>
      obtain ⟨st, hst⟩ := named hgood
      refine isAnswered_of_take h rfl rfl ((take hgood hst).trans (if_pos ?_))
      exact Option.isSome_iff_ne_none.2 fun hnone => findRod_eq_none.1 hnone hknown
    case full =>
      obtain ⟨st, hst⟩ := named hgood
      refine isAnswered_of_take h rfl rfl ((take hgood hst).trans ((if_neg ?_).trans (if_pos hfull)))
      exact Option.not_isSome_iff_eq_none.2 (findRod_eq_none.2 hnew)
    case taken =>
      refine isAnswered_of_take h rfl rfl ((take hgood (hst ▸ statusOf_code st)).trans
        ((if_neg ?_).trans (if_neg (Nat.not_le_of_lt hroom))))
      exact Option.not_isSome_iff_eq_none.2 (findRod_eq_none.2 hnew)
  case delist =>
    refine ⟨fun hnone => isAnswered_of_take h rfl rfl (takeDelistRod_of_unregistered hnone), fun r hr => ?_⟩
    have take := takeDelistRod_of_registered (s := taking (.delistRod who id) s) hr
    exact ⟨fun haway => isAnswered_of_take h rfl rfl (take.trans (if_pos haway)),
      fun hyard => isAnswered_of_take h rfl rfl (take.trans (if_neg (not_not_intro hyard)))⟩
  case status =>
    refine ⟨fun hbad => isAnswered_of_take h rfl rfl (takeSetRodStatus_of_bad hbad id _), fun hgood hnone => ?_,
      fun hsome st hst => ?_⟩
    · obtain ⟨st, hst⟩ := statusOf_isSome hgood
      exact isAnswered_of_take h rfl rfl ((takeSetRodStatus_of_good hst id _).trans
        (if_pos (Option.isNone_iff_eq_none.2 hnone)))
    · exact isAnswered_of_take h rfl rfl ((takeSetRodStatus_of_good (hst ▸ statusOf_code st) id _).trans
        (if_neg (mt Option.isNone_iff_eq_none.1 hsome)))
  case limits =>
    have range : (inRange 0 65535 rotating && inRange 0 65535 makeUps) = true ↔ rotating ≤ 65535 ∧ makeUps ≤ 65535 := by
      simp [inRange_eq_true]
    exact ⟨fun hgood => isAnswered_of_take h rfl rfl (if_pos (range.2 hgood)),
      fun hbad => isAnswered_of_take h rfl rfl (if_neg (mt range.1 (by omega)))⟩

/-! ## PLACE ROD (R66, R69) -/

theorem destinationOf_eq_none {d : Nat} (h : 96 ≤ d) (h' : d ≠ 255) : destinationOf d = none :=
  (if_neg (Nat.not_lt_of_le h)).trans (if_neg h')

theorem destinationOf_of_good {d : Nat} (h : d < 96 ∨ d = 255) :
    destinationOf d = some (if d = 255 then .yard else .magazine d) := by
  obtain hslot | rfl := h
  · rw [if_neg (by omega)]
    exact if_pos hslot
  · rfl

theorem handled_iff {loc : RodLocation} : loc.handled = true ↔ loc = .arm ∨ ∃ i, loc = .string i := by
  cases loc <;> simp [RodLocation.handled]

theorem not_handled {loc : RodLocation} (h : loc = .yard ∨ ∃ k, loc = .magazine k) : loc.handled = false := by
  obtain rfl | ⟨k, rfl⟩ := h <;> rfl

/-- A destination is blocked where it is a slot that another rod holds or that is reserved (R66, R69). -/
theorem slotBlocked_destination {id d : Nat} {s : State} (h : d < 96 ∨ d = 255) :
    slotBlocked id (if d = 255 then .yard else .magazine d) s = true ↔
      d < 96 ∧ ((s.rods.magazine[d]?).getD none ≠ some id ∧
        ((s.rods.magazine[d]?).getD none ≠ none ∨ reservedSlot s = some d)) := by
  obtain hslot | rfl := h
  · rw [if_neg (by omega)]
    simp only [slotBlocked, slotOpen, slotRod, hslot, true_and, Bool.and_eq_true, Bool.not_eq_true', Bool.and_eq_false_iff,
      decide_eq_false_iff_not, not_not, Option.isNone_eq_false_iff, Option.isSome_iff_ne_none]
    exact and_congr_left' decide_eq_true_iff
  · simp [slotBlocked]

/-- PLACE ROD of a registered rod to a destination: the checks in their order, then the move (R69). -/
theorem takePlaceRod_of_registered {id d : Nat} {loc : RodLocation} {r : Rod} {s : State}
    (hdest : destinationOf d = some loc) (hr : findRod id s = some r) :
    takePlaceRod id d s =
      if r.location.handled then (s, .wrongState)
      else if loc ≠ .yard ∧ loc ≠ r.location ∧ r.status = .retired then (s, .badArgument)
      else if slotBlocked id loc s then (s, .full)
      else (moveRod id loc s, .ok) := by
  simp only [takePlaceRod, hdest, hr]

/-- A move writes the rods and no other block. -/
theorem moveRod_eq (id : Nat) (loc : RodLocation) (s : State) :
    moveRod id loc s = { s with rods := (moveRod id loc s).rods } := by
  cases h : findRod id s with
  | none => simp only [moveRod, h]
  | some r =>
    simp only [moveRod, h]
    cases r.location <;> cases loc <;> rfl

/-- A move writes the registry and the magazine only. -/
theorem moveRod_rods_eq (id : Nat) (loc : RodLocation) (s : State) :
    (moveRod id loc s).rods =
      { s.rods with registry := (moveRod id loc s).rods.registry, magazine := (moveRod id loc s).rods.magazine } := by
  cases h : findRod id s with
  | none => simp only [moveRod, h]
  | some r => rw [moveRod_rods loc h]

/-- What a slot within the magazine holds after a move (R69). -/
theorem moveRod_magazine {id k : Nat} {loc : RodLocation} {r : Rod} {s : State} (h : findRod id s = some r)
    (hk : k < s.rods.magazine.length) :
    (moveRod id loc s).rods.magazine[k]? =
      if loc = .magazine k then some (some id)
      else if r.location = .magazine k then some none else s.rods.magazine[k]? := by
  rw [moveRod_rods loc h]
  simp only [setSlot_getElem?, List.getElem?_eq_getElem hk]
  split
  · split <;> rfl
  · split <;> rfl

/-- Settles O38: PLACE ROD is its checks and then the move's three writes; the two settings are their range tests. -/
theorem placingAndDepthRequestsChangeTheirFieldsAlone : Obligations.PlacingAndDepthRequestsChangeTheirFieldsAlone := by
  intro who s h
  refine ⟨fun id d => ?place, fun bha offset => ?depth, fun limit => ?overpull⟩
  case place =>
    refine ⟨fun hd hd' => isAnswered_of_take h rfl rfl ?_, fun hd => ⟨fun hnone => isAnswered_of_take h rfl rfl ?_, ?_⟩⟩
    · simp only [takeRequest, takePlaceRod, destinationOf_eq_none hd hd']
    · have hnone' : findRod id (taking (.placeRod who id d) s) = none := hnone
      simp only [takeRequest, takePlaceRod, destinationOf_of_good hd, hnone']
    · rintro r loc hr rfl taken
      have take := takePlaceRod_of_registered (s := taking (.placeRod who id d) s) (destinationOf_of_good hd) hr
      have hblocked := slotBlocked_destination (id := id) (s := taking (.placeRod who id d) s) hd
      refine ⟨fun haway => isAnswered_of_take h rfl rfl (take.trans (if_pos (handled_iff.2 haway))), fun hhere => ?_⟩
      have takeHere := take.trans (if_neg (ne_true_of_eq_false (not_handled hhere)))
      refine ⟨fun hyard hmoves hretired => isAnswered_of_take h rfl rfl (takeHere.trans (if_pos ⟨hyard, hmoves, hretired⟩)),
        fun hfit => ?_⟩
      have takeFit := takeHere.trans (if_neg (by tauto))
      refine ⟨fun htaken => isAnswered_of_take h rfl rfl (takeFit.trans (if_pos (hblocked.2 htaken))), fun hopen => ?_⟩
      refine ⟨_, isAnswered_of_take (f := fun _ => _) h rfl rfl (takeFit.trans (if_neg (mt hblocked.1 hopen))),
        moveRod_eq _ _ _, ?_, fun k hk => moveRod_magazine hr hk, moveRod_rods_eq _ _ _⟩
      exact congrArg Rods.registry (moveRod_rods (s := taking (.placeRod who id d) s) _ hr)
  case depth =>
    have range : (inRange 0 5000 bha && inRange 0 1000 offset) = true ↔ bha ≤ 5000 ∧ offset ≤ 1000 := by
      simp [inRange_eq_true]
    refine ⟨fun hbad => isAnswered_of_take h rfl rfl (if_pos (congrArg not (Bool.eq_false_iff.2 (mt range.1 (by omega))))),
      fun hbha hoffset => ?_⟩
    have hgood : ¬ (!(inRange 0 5000 bha && inRange 0 1000 offset)) = true := by simp [range.2 ⟨hbha, hoffset⟩]
    exact ⟨fun hstring => isAnswered_of_take h rfl rfl ((if_neg hgood).trans (if_pos hstring)),
      fun hempty => isAnswered_of_take h rfl rfl ((if_neg hgood).trans (if_neg (not_not_intro hempty)))⟩
  case overpull =>
    exact ⟨fun hgood => isAnswered_of_take h rfl rfl (if_pos hgood),
      fun hbad => isAnswered_of_take h rfl rfl (if_neg (Nat.not_le_of_lt hbad))⟩

end Sys2Proof.Machine
end

