-- ==== Sys2Proof/Proofs/JointState.lean ====
section
/-! PROOFS. What a change of joint state writes (R86), and the joint requests with it: the limits, REQUEST BREAK, CANCEL
JOINT and RELEASE JOINT (O41). -/

namespace Sys2Proof.Machine

/-! ## A change of joint state (R78, R86, R87, R88, R92, R103) -/

/-- A change of joint state commands both permits, sets the flag of an episode in progress where the make-up permit is low,
keeps the HELD reference in HELD only, and sets JOINT pending (R86, R87, R88, R92, R103). -/
theorem enterJoint_eq (j : JointState) (s : State) :
    enterJoint j s =
      let high := decide (j = .loaded) && decide (s.circ.state = .still ∨ s.circ.state = .stopped)
      notify .joint
        { s with
          joint.state := j, joint.heldRef := if j = .held then s.joint.heldRef else none,
          flu.makeUpPermit := high, flu.breakPermit := decide (j = .breakPermit),
          joint.episode :=
            s.joint.episode.map fun e => { e with permitLow := if high = true then e.permitLow else true } } := by
  have flag : ∀ low high : Bool, (low || !high) = if high = true then low else true := by decide
  simp only [enterJoint, commandPermits, makeUpLevel, resting_eq_decide, flag]

theorem enterJoint_setsFlag (j : JointState) (s : State) : (enterJoint j s).inc.flags.joint = true :=
  notify_setsFlag .joint _

@[simp] theorem enterJoint_last (j : JointState) (s : State) : (enterJoint j s).joint.last = s.joint.last := by
  simp [enterJoint]

theorem enterJoint_episode (j : JointState) {s : State} (h : s.joint.episode = none) :
    (enterJoint j s).joint.episode = none := by
  simp [enterJoint_eq, h]

/-- A recomputation leaves the string's length (R77). -/
@[simp] theorem recompute_stringLength (v : Nat) (s : State) :
    (recompute v s).rods.stringLength = s.rods.stringLength := by
  unfold recompute
  dsimp only
  rw [holeAdvance_rods]

/-- The recomputation on READY moves no rod (R78). -/
@[simp] theorem enterReady_rods (s : State) :
    (enterReady s).rods.registry = s.rods.registry ∧ (enterReady s).rods.magazine = s.rods.magazine ∧
      (enterReady s).rods.string = s.rods.string ∧ (enterReady s).rods.stringLength = s.rods.stringLength := by
  unfold enterReady recomputeAtReady
  split <;> simp

@[simp] theorem enterReady_last (s : State) : (enterReady s).joint.last = s.joint.last := by simp [enterReady]

theorem enterReady_episode {s : State} (h : s.joint.episode = none) : (enterReady s).joint.episode = none := by
  simp [enterReady, enterJoint_episode .ready h]

theorem enterReady_setsFlag (s : State) : (enterReady s).inc.flags.joint = true :=
  recomputeAtReady_keepsFlag (c := .joint) (enterJoint_setsFlag .ready s)

@[simp] theorem clearArmToReady_joint (s : State) :
    (clearArmToReady s).joint.state = .ready ∧ (clearArmToReady s).joint.arm = none ∧
      (clearArmToReady s).joint.last = s.joint.last ∧ (clearArmToReady s).joint.heldRef = none ∧
      (clearArmToReady s).joint.timer = s.joint.timer := by
  simp [clearArmToReady]

@[simp] theorem clearArmToReady_rods (s : State) :
    (clearArmToReady s).rods.registry = s.rods.registry ∧ (clearArmToReady s).rods.magazine = s.rods.magazine ∧
      (clearArmToReady s).rods.string = s.rods.string ∧
      (clearArmToReady s).rods.stringLength = s.rods.stringLength :=
  enterReady_rods { s with joint.arm := none }

/-- On READY the head-height channel's value is taken as a sample is, unless the channel is faulted (R78). -/
theorem enterReady_of_unfaulted {s : State} (h : s.flu.height.fault = false) :
    enterReady s = deliverSample .height (some s.flu.height.value) (enterJoint .ready s) := by
  have hheight : (enterJoint .ready s).flu.height = s.flu.height := by rw [enterJoint_flu]
  simp [enterReady, recomputeAtReady, deliverSample, heightSample, hheight, h]

/-! ## A rod found again after a change of its record -/

/-- A change of one rod's record is what the registry then names for its id. -/
theorem findRod_of_map {id : Nat} {r : Rod} {s t : State} {f : Rod → Rod} (hf : ∀ q, (f q).id = q.id)
    (h : findRod id s = some r)
    (ht : t.rods.registry = s.rods.registry.map fun q => if q.id = id then f q else q) :
    findRod id t = some (f r) := by
  have hsame : ((fun q : Rod => decide (q.id = id)) ∘ fun q => if q.id = id then f q else q) =
      fun q => decide (q.id = id) := by
    funext q
    dsimp only [Function.comp]
    split
    · rw [hf]
    · rfl
  have hfound : s.rods.registry.find? (fun q => decide (q.id = id)) = some r := h
  rw [findRod, ht, List.find?_map, hsame, hfound, Option.map_some, if_pos (findRod_mem h).2]

theorem findRod_of_located {id : Nat} {r : Rod} {s t : State} {loc : RodLocation} (h : findRod id s = some r)
    (ht : t.rods.registry = s.rods.registry.map fun q => if q.id = id then { q with location := loc } else q) :
    findRod id t = some { r with location := loc } :=
  findRod_of_map (f := fun q => { q with location := loc }) (fun _ => rfl) h ht

theorem findRod_moveRod {id : Nat} {r : Rod} {s : State} (loc : RodLocation) (h : findRod id s = some r) :
    findRod id (moveRod id loc s) = some { r with location := loc } :=
  findRod_of_located h (by rw [moveRod_rods loc h])

theorem findRod_congr {s t : State} (h : t.rods.registry = s.rods.registry) (id : Nat) : findRod id t = findRod id s := by
  rw [findRod, h, findRod]

theorem findRod_clearArmToReady (id : Nat) (s : State) : findRod id (clearArmToReady s) = findRod id s :=
  findRod_congr (clearArmToReady_rods s).1 id

/-! ## The joint requests (R89, R99, R102, R104) -/

theorem jointLimits_iff {target tolerance maximum detect timeout : Nat} :
    (inRange 500 90000 target && inRange 0 20000 tolerance && decide (tolerance < target) &&
        inRange target 100000 maximum && inRange 500 50000 detect && inRange 10 600 timeout) = true ↔
      (500 ≤ target ∧ target ≤ 90000) ∧ (tolerance ≤ 20000 ∧ tolerance < target) ∧
        (target ≤ maximum ∧ maximum ≤ 100000) ∧ (500 ≤ detect ∧ detect ≤ 50000) ∧ 10 ≤ timeout ∧ timeout ≤ 600 := by
  simp [inRange_eq_true, and_assoc]

/-- The interlock of REQUEST BREAK: circulation at rest and the standpipe bled (R99). -/
theorem breakSafe_iff {s : State} :
    (s.circ.state.resting && bled s) = true ↔
      (s.circ.state = .still ∨ s.circ.state = .stopped) ∧ s.flu.pressure.fault = false ∧
        s.flu.pressure.value ≤ s.circ.limits.bleedLimit := by
  simp [bled, resting_iff]

/-- REQUEST BREAK in READY with a string: the interlock's test alone is left (R99). -/
theorem takeRequestBreak_of_string {s : State} (hready : s.joint.state = .ready) (hstring : s.rods.string ≠ []) :
    takeRequestBreak s =
      if !(s.circ.state.resting && bled s) then (s, .interlock)
      else (enterJoint .breakPermit { s with joint.timer := 0 }, .ok) :=
  (if_neg (not_not_intro hready)).trans (if_neg hstring)

theorem takeCancelJoint_of_loaded {a : Arm} {s : State} (h : s.joint.state = .loaded) (ha : s.joint.arm = some a) :
    takeCancelJoint s = (clearArmToReady (moveRod a.rod a.source.location s), .ok) := by
  simp only [takeCancelJoint, returnRod, h, ha]

theorem takeCancelJoint_of_breakPermit {s : State} (h : s.joint.state = .breakPermit) :
    takeCancelJoint s = (endBreakPermit s, .ok) := by simp only [takeCancelJoint, h]

theorem takeCancelJoint_of_other {s : State} (hl : s.joint.state ≠ .loaded) (hb : s.joint.state ≠ .breakPermit) :
    takeCancelJoint s = (s, .wrongState) := by
  unfold takeCancelJoint
  split
  · next h => exact absurd h hl
  · next h => exact absurd h hb
  all_goals rfl

theorem heldPending_eq_true {s : State} : heldPending s = true ↔ ∃ n, s.joint.heldRef = some n ∧ slotPending s n = true :=
  Option.any_eq_true ..

/-- Settles O41: the change of joint state in its own equation, then each request as its checks and the change after them. -/
theorem jointRequestsFollowTheirChecks : Obligations.JointRequestsFollowTheirChecks := by
  refine ⟨fun j s => ⟨enterJoint_eq j s, enterJoint_setsFlag j s⟩,
    fun s => ⟨enterReady_of_faulted, enterReady_of_unfaulted, enterReady_setsFlag s, rfl, rfl, fun _ => rfl⟩,
    fun who s h => ⟨fun target tolerance maximum detect timeout => ?limits, ?request, ?cancel, ?release⟩⟩
  case limits =>
    exact ⟨fun hgood => isAnswered_of_take h rfl rfl (if_pos (jointLimits_iff.2 hgood)),
      fun hbad => isAnswered_of_take h rfl rfl (if_neg (mt jointLimits_iff.1 hbad))⟩
  case request =>
    intro safe
    have take := takeRequestBreak_of_string (s := taking (.requestBreak who) s)
    refine ⟨fun hstate => isAnswered_of_take h rfl rfl (if_pos hstate),
      fun hready hempty => isAnswered_of_take h rfl rfl ((if_neg (not_not_intro hready)).trans (if_pos hempty)),
      fun hready hstring hunsafe => isAnswered_of_take h rfl rfl ((take hready hstring).trans (if_pos ?_)),
      fun hready hstring hsafe =>
        ⟨_, isAnswered_of_take (f := fun _ => _) h rfl rfl ((take hready hstring).trans
          (if_neg (ne_true_of_eq_false (congrArg not (breakSafe_iff.2 hsafe))))), ?_⟩⟩
    · exact congrArg not (Bool.eq_false_iff.2 (mt breakSafe_iff.1 hunsafe))
    · exact ⟨by simp, by simp, by simp, by simp, enterJoint_setsFlag _ _, by simp [taking], by simp [taking]⟩
  case cancel =>
    refine ⟨fun hloaded a r ha hr => ?_, fun hbreak => ?_,
      fun hl hb => isAnswered_of_take h rfl rfl (takeCancelJoint_of_other hl hb)⟩
    · have take := takeCancelJoint_of_loaded (s := taking (.cancelJoint who) s) hloaded ha
      refine ⟨_, isAnswered_of_take (f := fun _ => _) h rfl rfl take, by simp, by simp, by simp [clearArmToReady_flu],
        ?_, by simp [taking]⟩
      exact (findRod_clearArmToReady _ _).trans (findRod_moveRod (s := taking (.cancelJoint who) s) _ hr)
    · have take := takeCancelJoint_of_breakPermit (s := taking (.cancelJoint who) s) hbreak
      exact ⟨_, isAnswered_of_take (f := fun _ => _) h rfl rfl take, enterReady_state _, enterReady_timer _,
        by simp [endBreakPermit, enterReady_flu], by simp [endBreakPermit, taking]⟩
  case release =>
    refine ⟨fun hstate => isAnswered_of_take h rfl rfl (if_pos hstate), fun hheld n hn hpending => ?_,
      fun hheld hclear => ?_⟩
    · exact isAnswered_of_take h rfl rfl ((if_neg (not_not_intro hheld)).trans
        (if_pos (heldPending_eq_true.2 ⟨n, hn, hpending⟩)))
    · have hno : ¬ heldPending (taking (.releaseJoint who) s) = true := by
        rintro hheld
        obtain ⟨n, hn, hpending⟩ := heldPending_eq_true.1 hheld
        exact ne_true_of_eq_false (hclear n hn) hpending
      exact ⟨_, isAnswered_of_take (f := fun _ => _) h rfl rfl ((if_neg (not_not_intro hheld)).trans (if_neg hno)),
        enterReady_state _, enterReady_heldRef _, by simp [taking]⟩

end Sys2Proof.Machine
end

