-- ==== Sys2Proof/Proofs/Connections.lean ====
section
/-! PROOFS. A connection from the tag read that loads its rod (O39) to the end of the torque episode that judges it (O40). -/

namespace Sys2Proof.Machine

/-! ## Tag reads (R75, R87, R90, R91) -/

theorem readTag_of_ready {s : State} (h : s.joint.state = .ready) (id : Nat) : readTag id s = readTagReady id s := by
  simp only [readTag, h]

theorem readTagReady_of_unknown {id : Nat} {s : State} (h : findRod id s = none) :
    readTagReady id s = record .unknownRod id 0 s := by simp only [readTagReady, h]

theorem readTagReady_of_string {id i : Nat} {r : Rod} {s : State} (h : findRod id s = some r)
    (hloc : r.location = .string i) : readTagReady id s = record .rodMismatch id i s := by
  simp only [readTagReady, h, hloc]

/-- A registered rod that is not on the string: its status, then the string's room, then the load (R90). -/
theorem readTagReady_of_elsewhere {id : Nat} {r : Rod} {s : State} (h : findRod id s = some r)
    (hloc : ∀ i, r.location ≠ .string i) :
    readTagReady id s =
      if r.status ≠ .serviceable then record .rodNotServiceable id r.status.code s
      else if 400 ≤ s.rods.string.length then record .stringFull id s.rods.string.length s
      else loadRod r s := by
  unfold readTagReady
  rw [h]
  cases hl : r.location with
  | string i => exact absurd hl (hloc i)
  | yard | magazine k | arm => simp only [hl]; rfl

theorem loadRod_arm_of_magazine {r : Rod} {k : Nat} (h : r.location = .magazine k) (s : State) :
    (loadRod r s).joint.arm = some { rod := r.id, source := .slot k } := by simp [loadRod, h]

theorem loadRod_arm_of_yard {r : Rod} (h : r.location = .yard) (s : State) :
    (loadRod r s).joint.arm = some { rod := r.id, source := .yard } := by simp [loadRod, h]

/-- A load moves the rod to the arm, and writes nothing else of the rods (R75). -/
theorem loadRod_rods (r : Rod) (s : State) : (loadRod r s).rods = (moveRod r.id .arm s).rods := by simp [loadRod]

/-- The lines and the joint after a load (R75, R87). -/
theorem loadRod_lines (r : Rod) (s : State) :
    (loadRod r s).joint.state = .loaded ∧ (loadRod r s).flu.makeUpPermit = s.circ.state.resting ∧
      (loadRod r s).flu.breakPermit = false ∧ (loadRod r s).inc.flags.joint = true :=
  ⟨by simp [loadRod], by simp [loadRod], by simp [loadRod], enterJoint_setsFlag _ _⟩

/-- Settles O39: the checks of R90 in their order, and what the load after them writes. -/
theorem aTagReadInReadyLoadsTheRodOrRecordsWhyNot : Obligations.ATagReadInReadyLoadsTheRodOrRecordsWhyNot := by
  refine ⟨fun id s hready => ?_, fun id s => ⟨fun hun a ha => ?_, fun hstate => ?_⟩⟩
  · rw [readTag_of_ready hready]
    refine ⟨readTagReady_of_unknown, fun r hr => ⟨fun i => readTagReady_of_string hr, fun hloc => ?_⟩⟩
    rw [readTagReady_of_elsewhere hr hloc]
    refine ⟨fun hstatus => if_pos hstatus,
      fun hstatus hfull => (if_neg (not_not_intro hstatus)).trans (if_pos hfull), fun hstatus hroom => ?_⟩
    rw [if_neg (not_not_intro hstatus), if_neg (Nat.not_le_of_lt hroom)]
    obtain rfl := (findRod_mem hr).2
    obtain ⟨hloaded, hmakeUp, hbreak, hflag⟩ := loadRod_lines r s
    refine ⟨hloaded, (findRod_congr (by rw [loadRod_rods]) _).trans (findRod_moveRod .arm hr), fun k hk => ?_,
      fun hyard => loadRod_arm_of_yard hyard s, hmakeUp, hbreak, hflag, by simp [loadRod_rods], by simp [loadRod_rods]⟩
    have harm := loadRod_arm_of_magazine hk s
    refine ⟨harm, reservedSlot_eq_some.2 ⟨_, harm, rfl⟩, fun hlt => ?_⟩
    rw [loadRod_rods, moveRod_magazine hr hlt, if_neg (by simp), if_pos hk]
  · simp only [readTag, hun, ha]
    exact ⟨fun hsame => if_pos hsame, fun hother => if_neg hother⟩
  · obtain h | h | h := hstate <;> simp only [readTag, h]

/-! ## What a recording sees of the state (R167, R168) -/

theorem notify_inc (c : NoticeClass) (s : State) :
    (notify c s).inc = { s.inc with flags := s.inc.flags.set c true } := by
  rw [Incidents.ext_iff]
  simp

/-- Two states with one incident table, one clock and one hole depth record alike. -/
theorem recordIncident_congr {s t : State} (kind : IncidentKind) (a b : Nat) (hinc : t.inc = s.inc)
    (hclock : t.flu.clock = s.flu.clock) (hhole : t.rods.holeDepth = s.rods.holeDepth) :
    (recordIncident kind a b t).1.inc = (recordIncident kind a b s).1.inc ∧
      (recordIncident kind a b t).2 = (recordIncident kind a b s).2 := by
  have merged : ∀ n, (mergeIncident n t).inc = (mergeIncident n s).inc := fun n => by
    simp only [mergeIncident, hinc, hclock]
  have written : ∀ n, (writeIncident kind a b n t).inc = (writeIncident kind a b n s).inc := fun n => by
    simp only [writeIncident, notify_inc, hinc, hclock, hhole]
  have hfree : freeSlot? t = freeSlot? s := by rw [freeSlot?, freeSlot?, hinc]
  unfold recordIncident
  rw [hinc, hfree]
  split
  · exact ⟨merged _, rfl⟩
  · split
    · exact ⟨hinc, rfl⟩
    · split
      · exact ⟨written _, rfl⟩
      · refine ⟨?_, rfl⟩
        simp only [notify_inc]

/-! ## The end of an episode (R92) -/

/-- An episode that has ended with its outcome, before what the outcome does. -/
def ended (e : Episode) (o : EpisodeOutcome) (s : State) : State :=
  { s with joint.episode := none, joint.last := some { peak := e.peak, outcome := o } }

theorem endEpisode_of_judged {e : Episode} {o : EpisodeOutcome} {s : State} (h : judgeEpisode e s = o) :
    endEpisode e s = applyOutcome o e.peak (ended e o s) := by
  subst h
  rfl

section
variable {e : Episode} {s : State}

theorem judge_bypass (h : s.joint.state = .loaded) (hlow : e.permitLow = true) : judgeEpisode e s = .bypass := by
  simp only [judgeEpisode, h, hlow, if_true]

/-- An episode that ends in LOADED with the permit high is judged by its peak (R93, R94, R95). -/
theorem judge_loaded (h : s.joint.state = .loaded) (hhigh : e.permitLow = false) :
    judgeEpisode e s =
      if s.joint.limits.maximum < e.peak then .overtorque
      else if e.peak < s.joint.limits.target - s.joint.limits.tolerance then .short
      else .made := by
  simp only [judgeEpisode, h, hhigh, Bool.false_eq_true, if_false]
  rfl

theorem judge_stray (h : s.joint.state = .ready) : judgeEpisode e s = .stray := by simp only [judgeEpisode, h]

theorem judge_breakPermit (h : s.joint.state = .breakPermit) :
    judgeEpisode e s = if s.joint.limits.detect ≤ e.peak then .broken else .ignored := by
  simp only [judgeEpisode, h]

theorem judge_ignored
    (h : s.joint.state = .unloaded ∨ s.joint.state = .held ∨
      (s.joint.state = .breakPermit ∧ e.peak < s.joint.limits.detect)) : judgeEpisode e s = .ignored := by
  obtain h | h | ⟨h, hlow⟩ := h
  · simp only [judgeEpisode, h]
  · simp only [judgeEpisode, h]
  · rw [judge_breakPermit h, if_neg (Nat.not_le_of_lt hlow)]

end

/-! ## A joint accounted as made (R72, R93, R94, R96) -/

theorem pushArm_of_arm {a : Arm} {s : State} (h : s.joint.arm = some a) (peak : Nat) :
    pushArm peak s = pushRod a.rod peak s := by simp only [pushArm, h]

theorem inspectArm_of_arm {a : Arm} {s : State} (h : s.joint.arm = some a) :
    inspectArm s = updateRod a.rod (fun r => { r with status := .inspect }) s := by simp only [inspectArm, h]

theorem handJointMade_tripTimer (s : State) : (handJointMade s).bill.tripTimer = 300 := rfl

theorem handJointMade_slots {s : State} (h : s.price.stage ≠ .armed .nextConnection) :
    (handJointMade s).inc.slots = s.inc.slots := by
  rw [handJointMade, takeTrigger_of_not_armed h]
  rfl

/-- HELD on a slot, with the arm empty and the joint handed on (R94, R96, R103). -/
theorem handHeld_joint (ref : Option Nat) (s : State) :
    (handJointMade (clearArmToHeld ref s)).joint.state = .held ∧
      (handJointMade (clearArmToHeld ref s)).joint.arm = none ∧
      (handJointMade (clearArmToHeld ref s)).joint.heldRef = ref ∧
      (handJointMade (clearArmToHeld ref s)).joint.last = s.joint.last := by
  simp [clearArmToHeld]

theorem handHeld_slots (ref : Option Nat) {s : State} (h : s.price.stage ≠ .armed .nextConnection) :
    (handJointMade (clearArmToHeld ref s)).inc.slots = s.inc.slots := by
  rw [handJointMade_slots (by simpa using h)]
  simp [clearArmToHeld, enterJoint]

/-- What a push makes of a rod's record (R72). -/
def Rod.pushed (index footage peak : Nat) (r : Rod) : Rod :=
  { r with location := .string index, makeUps := min (r.makeUps + 1) 65535, entryFootage := some footage,
           makeUpPeak := some peak }

/-- What a push writes: the rod's record, the string and its length (R72). -/
theorem pushRod_rods (id peak : Nat) (s : State) :
    (pushRod id peak s).rods =
      { s.rods with
        registry := s.rods.registry.map fun r =>
          if r.id = id then r.pushed s.rods.string.length s.rods.footage peak else r,
        string := s.rods.string ++ [id],
        stringLength := s.rods.stringLength + ((findRod id s).map (·.length)).getD 0 } := rfl

/-- Two changes of one rod's record, one after the other. -/
theorem map_record_twice (id : Nat) {f : Rod → Rod} (g : Rod → Rod) (hf : ∀ r, (f r).id = r.id) (l : List Rod) :
    (l.map fun r => if r.id = id then f r else r).map (fun r => if r.id = id then g r else r) =
      l.map fun r => if r.id = id then g (f r) else r := by
  rw [List.map_map]
  refine List.map_congr_left fun r _ => ?_
  dsimp only [Function.comp]
  by_cases h : r.id = id <;> simp [h, hf]

/-- A pushed rod set to INSPECT, as one change of its record (R94, R96). -/
theorem inspected_registry (id peak : Nat) (s : State) :
    (updateRod id (fun r => { r with status := .inspect }) (pushRod id peak s)).rods.registry =
      s.rods.registry.map fun r =>
        if r.id = id then { r.pushed s.rods.string.length s.rods.footage peak with status := .inspect } else r :=
  map_record_twice id (f := Rod.pushed s.rods.string.length s.rods.footage peak) (fun r => { r with status := .inspect })
    (fun _ => rfl) _

/-- The outcome MADE of the rod in the arm (R93). -/
theorem jointMade_of_arm {a : Arm} {s : State} (h : s.joint.arm = some a) (peak : Nat) :
    jointMade peak s = handJointMade (clearArmToReady (pushRod a.rod peak s)) := by
  rw [jointMade, pushArm_of_arm h]

/-- The rod in the arm pushed and set to INSPECT (R94, R96). -/
def pushedForInspection (id peak : Nat) (s : State) : State :=
  updateRod id (fun r => { r with status := .inspect }) (pushRod id peak s)

@[simp] theorem pushedForInspection_frame (id peak : Nat) (s : State) :
    (pushedForInspection id peak s).flu = s.flu ∧ (pushedForInspection id peak s).inc = s.inc ∧
      (pushedForInspection id peak s).price = s.price ∧
      (pushedForInspection id peak s).rods.holeDepth = s.rods.holeDepth := ⟨rfl, rfl, rfl, rfl⟩

theorem inspectArm_pushArm {a : Arm} {s : State} (h : s.joint.arm = some a) (peak : Nat) :
    inspectArm (pushArm peak s) = pushedForInspection a.rod peak s := by
  rw [pushArm_of_arm h, inspectArm_of_arm (a := a) (by simpa using h), pushedForInspection]

theorem jointOvertorque_of_arm {a : Arm} {s : State} (h : s.joint.arm = some a) (peak : Nat) :
    jointOvertorque peak s =
      let r := recordIncident .overtorque peak s.joint.limits.maximum (pushedForInspection a.rod peak s)
      handJointMade (clearArmToHeld r.2 r.1) := by
  rw [jointOvertorque, inspectArm_pushArm h]

/-- The state on which an INTERLOCK_BYPASS is recorded: the rod is pushed, and above the maximum set to INSPECT and
OVERTORQUE recorded (R96). -/
def bypassed (id peak : Nat) (s : State) : State :=
  if s.joint.limits.maximum < peak then
    record .overtorque peak s.joint.limits.maximum (pushedForInspection id peak s)
  else pushRod id peak s

theorem jointBypass_of_arm {a : Arm} {s : State} (h : s.joint.arm = some a) (peak : Nat) :
    jointBypass peak s =
      let r := recordIncident .interlockBypass peak s.circ.state.code (bypassed a.rod peak s)
      handJointMade (clearArmToHeld r.2 r.1) := by
  rw [jointBypass, inspectArm_pushArm h, pushArm_of_arm h]
  rfl

/-! ## A break (R73, R98) -/

theorem meetsLimit_iff {rotatingLimit makeUpLimit : Nat} {r : Rod} :
    meetsLimit rotatingLimit makeUpLimit r = true ↔
      (rotatingLimit ≠ 0 ∧ rotatingLimit ≤ r.rotating) ∨ (makeUpLimit ≠ 0 ∧ makeUpLimit ≤ r.makeUps) := by
  simp [meetsLimit]

/-- What a pop makes of a rod's record: the rotation credited, and retired where a limit is reached (R73). -/
theorem Rod.popped_eq (peak footage rotatingLimit makeUpLimit : Nat) (r : Rod) :
    r.popped peak footage rotatingLimit makeUpLimit =
      let rotating := min (r.rotating + (footage - r.entryFootage.getD footage) / 100) 65535
      let spent := (rotatingLimit ≠ 0 ∧ rotatingLimit ≤ rotating) ∨ (makeUpLimit ≠ 0 ∧ makeUpLimit ≤ r.makeUps)
      { r with location := .arm, breakPeak := some peak, rotating := rotating, entryFootage := none,
               status := if spent then .retired else r.status } := by
  simp only [Rod.popped, meetsLimit_iff, satAdd, Config.wordMax]
  split <;> rfl

theorem jointBroken_of_top {id : Nat} {s : State} (h : s.rods.string.getLast? = some id) (peak : Nat) :
    jointBroken peak s =
      jointActivity (enterJoint .unloaded
        { popRod id peak s with joint.arm := some { rod := id, source := .string }, joint.timer := 0 }) := by
  simp only [jointBroken, h]

/-! ## What every outcome leaves of the episode (R92) -/

/-- No outcome begins an episode or forgets the last one. -/
theorem applyOutcome_joint (o : EpisodeOutcome) (peak : Nat) {s : State} (h : s.joint.episode = none) :
    (applyOutcome o peak s).joint.episode = none ∧ (applyOutcome o peak s).joint.last = s.joint.last := by
  have held : ∀ (ref : Option Nat) (u : State), u.joint = s.joint →
      (handJointMade (clearArmToHeld ref u)).joint.episode = none ∧
        (handJointMade (clearArmToHeld ref u)).joint.last = s.joint.last := by
    intro ref u hu
    have hepisode : (clearArmToHeld ref u).joint.episode = none := enterJoint_episode _ (by simp [hu, h])
    exact ⟨by simpa using hepisode, by simp [clearArmToHeld, hu]⟩
  cases o with
  | made =>
    have hepisode : (clearArmToReady (pushArm peak s)).joint.episode = none := enterReady_episode (by simpa using h)
    simp [applyOutcome, jointMade, hepisode]
  | overtorque => exact held _ _ (by simp)
  | bypass =>
    refine held _ _ ?_
    simp only [recordIncident_frame]
    split <;> simp
  | broken =>
    have broken : (jointBroken peak s).joint.episode = none ∧ (jointBroken peak s).joint.last = s.joint.last := by
      unfold jointBroken
      split
      · simp [enterJoint_episode, h]
      · exact ⟨h, rfl⟩
    exact broken
  | short | stray => simp [applyOutcome, h]
  | ignored => exact ⟨h, rfl⟩

/-! ## The outcomes by what they write -/

theorem pushRod_stringLength {id : Nat} {r : Rod} {s : State} (h : findRod id s = some r) (peak : Nat) :
    (pushRod id peak s).rods.stringLength = s.rods.stringLength + r.length := by
  rw [pushRod_rods, h]
  rfl

/-- What a joint accounted as made and READY reads as (R93). -/
theorem fields_of_made {u v : State} (hu : u = handJointMade (clearArmToReady v)) :
    u.joint.state = .ready ∧ u.joint.arm = none ∧ u.flu.makeUpPermit = false ∧ u.bill.tripTimer = 300 ∧
      u.rods.registry = v.rods.registry ∧ u.rods.magazine = v.rods.magazine ∧ u.rods.string = v.rods.string ∧
      u.rods.stringLength = v.rods.stringLength := by
  subst hu
  simp [clearArmToReady_flu, handJointMade_tripTimer]

/-- What a joint accounted as made and HELD on a recording reads as; the recording is as on any state with the same incident
table, clock and hole depth (R94, R96, R103). -/
theorem fields_of_held {s w u : State} {kind : IncidentKind} {a b : Nat} (hinc : w.inc = s.inc)
    (hclock : w.flu.clock = s.flu.clock) (hhole : w.rods.holeDepth = s.rods.holeDepth)
    (hu : u = handJointMade (clearArmToHeld (recordIncident kind a b w).2 (recordIncident kind a b w).1)) :
    u.joint.state = .held ∧ u.joint.arm = none ∧ u.joint.heldRef = (recordIncident kind a b s).2 ∧
      u.bill.tripTimer = 300 ∧ u.rods = w.rods ∧
      (w.price.stage ≠ .armed .nextConnection → u.inc.slots = (recordIncident kind a b s).1.inc.slots) := by
  subst hu
  obtain ⟨htable, href⟩ := recordIncident_congr kind a b hinc hclock hhole
  obtain ⟨hstate, harm, hheld, -⟩ := handHeld_joint (recordIncident kind a b w).2 (recordIncident kind a b w).1
  exact ⟨hstate, harm, hheld.trans href, rfl, by simp, fun hstage =>
    (handHeld_slots _ (by simpa using hstage)).trans (congrArg Incidents.slots htable)⟩

/-- The record of a rod connected with the permit low: pushed, and above the maximum set to INSPECT (R96). -/
theorem bypassed_registry (id peak : Nat) (s : State) :
    (bypassed id peak s).rods.registry =
      s.rods.registry.map fun r =>
        if r.id = id then
          if s.joint.limits.maximum < peak then
            { r.pushed s.rods.string.length s.rods.footage peak with status := .inspect }
          else r.pushed s.rods.string.length s.rods.footage peak
        else r := by
  unfold bypassed
  split
  · simp only [record_frame]
    exact inspected_registry id peak s
  · rw [pushRod_rods]

/-- An INTERLOCK_BYPASS is recorded on the incident table as OVERTORQUE, above the maximum, has left it (R96). -/
theorem bypassed_inc {s t : State} (id peak : Nat) (hinc : s.inc = t.inc) (hflu : s.flu = t.flu) (hrods : s.rods = t.rods) :
    (bypassed id peak s).inc =
      (if s.joint.limits.maximum < peak then record .overtorque peak s.joint.limits.maximum t else t).inc := by
  unfold bypassed
  split
  · exact (recordIncident_congr _ _ _ (by simp [hinc]) (by simp [hflu]) (by simp [hrods])).1
  · exact hinc

theorem bypassed_frame (id peak : Nat) (s : State) :
    (bypassed id peak s).flu = s.flu ∧ (bypassed id peak s).price = s.price ∧
      (bypassed id peak s).rods.holeDepth = s.rods.holeDepth ∧
      (bypassed id peak s).rods.magazine = s.rods.magazine ∧
      (bypassed id peak s).rods.string = s.rods.string ++ [id] ∧
      (bypassed id peak s).rods.stringLength = (pushRod id peak s).rods.stringLength := by
  unfold bypassed
  split <;> simp [pushedForInspection, updateRod]

/-- What a pop writes: the rod's record, the string and its length (R73). -/
theorem popRod_rods (id peak : Nat) (s : State) :
    (popRod id peak s).rods =
      { s.rods with
        registry := s.rods.registry.map fun r =>
          if r.id = id then r.popped peak s.rods.footage s.rods.rotatingLimit s.rods.makeUpLimit else r,
        string := s.rods.string.dropLast,
        stringLength := s.rods.stringLength - ((findRod id s).map (·.length)).getD 0 } := rfl

/-- What a broken joint reads as (R98). -/
theorem fields_of_broken {top peak : Nat} {u v : State}
    (hu : u = jointActivity (enterJoint .unloaded
      { popRod top peak v with joint.arm := some { rod := top, source := .string }, joint.timer := 0 })) :
    u.joint.state = .unloaded ∧ u.joint.arm = some { rod := top, source := .string } ∧ u.joint.timer = 0 ∧
      u.bill.tripTimer = 300 ∧ u.flu.breakPermit = false ∧ u.rods = (popRod top peak v).rods := by
  subst hu
  exact ⟨by simp, by simp, by simp, rfl, by simp, by simp⟩

/-- Settles O40: the outcome is judged once, and the fields of each outcome's operation are read off it. -/
theorem theEndOfATorqueEpisodeJudgesTheJoint : Obligations.TheEndOfATorqueEpisodeJudgesTheJoint := by
  intro e s _ u l judged pushed inspected
  obtain ⟨hepisode, hlast⟩ : u.joint.episode = none ∧
      u.joint.last = some { peak := e.peak, outcome := judgeEpisode e s } :=
    applyOutcome_joint (judgeEpisode e s) e.peak (s := ended e (judgeEpisode e s) s) rfl
  have outcome {o : EpisodeOutcome} (h : judgeEpisode e s = o) : u.joint.last.map (·.outcome) = some o := by
    rw [hlast, h]
    rfl
  have applied {o : EpisodeOutcome} (h : judgeEpisode e s = o) : u = applyOutcome o e.peak (ended e o s) :=
    endEpisode_of_judged h
  clear_value u
  refine ⟨hepisode, by rw [hlast]; rfl, fun hloaded a ha => ?loaded, fun hready => applied (judge_stray hready),
    fun hquiet => applied (judge_ignored hquiet), fun hbreak hdetect below top htop => ?broken⟩
  case loaded =>
    intro made onString changed
    have byPeak := judge_loaded (e := e) hloaded
    refine ⟨fun hhigh hlow hmax => ?made, fun hhigh hmax => ?overtorque, fun hhigh hshort hmax => ?short,
      fun hlow => ?bypass⟩
    case made =>
      have hjudge := (byPeak hhigh).trans
        ((if_neg (Nat.not_lt_of_le hmax)).trans (if_neg (Nat.not_lt_of_le hlow)))
      have hu := (applied hjudge).trans (jointMade_of_arm (s := ended e .made s) ha e.peak)
      obtain ⟨hstate, harm, hmakeUp, htrip, hregistry, hmagazine, hstring, hlength⟩ := fields_of_made hu
      exact ⟨outcome hjudge, hstate, ⟨harm, hstring, htrip, hmagazine, fun r hr =>
        hlength.trans (pushRod_stringLength (s := ended e .made s) hr _)⟩, hregistry, hmakeUp, hu⟩
    case overtorque =>
      have hjudge := (byPeak hhigh).trans (if_pos hmax)
      have hu := (applied hjudge).trans (jointOvertorque_of_arm (s := ended e .overtorque s) ha e.peak)
      obtain ⟨hstate, harm, href, htrip, hrods, hslots⟩ := fields_of_held (s := s)
        (w := pushedForInspection a.rod e.peak (ended e .overtorque s)) rfl rfl rfl hu
      refine ⟨hu, outcome hjudge, hstate, ⟨harm, by rw [hrods]; rfl, htrip, by rw [hrods]; rfl,
        fun r hr => by rw [hrods]; exact pushRod_stringLength (s := ended e .overtorque s) hr e.peak⟩,
        (congrArg Rods.registry hrods).trans (inspected_registry _ _ _), href, hslots⟩
    case short => exact applied ((byPeak hhigh).trans ((if_neg (Nat.not_lt_of_le hmax)).trans (if_pos hshort)))
    case bypass =>
      have hjudge := judge_bypass hloaded hlow
      have hu := (applied hjudge).trans (jointBypass_of_arm (s := ended e .bypass s) ha e.peak)
      obtain ⟨hflu, hprice, hhole, hmagazine, hstring, hlength⟩ := bypassed_frame a.rod e.peak (ended e .bypass s)
      intro before recorded
      have hbefore : before.flu = s.flu ∧ before.rods = s.rods := by
        unfold before
        split <;> simp
      have hinc : (bypassed a.rod e.peak (ended e .bypass s)).inc = before.inc :=
        bypassed_inc (t := s) a.rod e.peak rfl rfl rfl
      obtain ⟨hstate, harm, href, htrip, hrods, hslots⟩ := fields_of_held (s := before)
        (w := bypassed a.rod e.peak (ended e .bypass s)) hinc (by rw [hflu, hbefore.1]; rfl)
        (by rw [hhole, hbefore.2]; rfl) hu
      refine ⟨hu, outcome hjudge, hstate, ⟨harm, by rw [hrods, hstring]; rfl, htrip, by rw [hrods, hmagazine]; rfl,
        fun r hr => by rw [hrods, hlength, pushRod_stringLength (s := ended e .bypass s) hr]; rfl⟩,
        (congrArg Rods.registry hrods).trans (bypassed_registry _ _ _), href,
        fun hstage => hslots (by rw [hprice]; exact hstage)⟩
  case broken =>
    have hjudge := (judge_breakPermit (e := e) hbreak).trans (if_pos hdetect)
    have hu := (applied hjudge).trans
      (jointBroken_of_top (id := top) (s := ended e .broken s) (by simp [ended, htop]) e.peak)
    obtain ⟨hstate, harm, htimer, htrip, hpermit, hrods⟩ := fields_of_broken hu
    refine ⟨outcome hjudge, hstate, harm, htimer, htrip, hpermit, ?_, ?_, fun r hr => ?_⟩
    · rw [hrods, popRod_rods]
      simp [ended, htop]
    · rw [hrods, popRod_rods]
      simp only [Rod.popped_eq]
      rfl
    · have hfind : findRod top (ended e .broken s) = some r := hr
      rw [hrods, popRod_rods, hfind]
      rfl

end Sys2Proof.Machine
end

