-- ==== Sys2Proof/Proofs/PendingSlots.lean ====
section
/-! PROOFS. A pending slot of the incident table stays pending through whatever a warm start does before the joint controller
settles (R166, R167, R168). -/

namespace Sys2Proof.Machine

section
variable {n : Nat} {s : State}

theorem slotPending_congr {t : State} (h : t.inc.slots = s.inc.slots) (n : Nat) : slotPending t n = slotPending s n := by
  rw [slotPending, h, slotPending]

theorem slotPending_iff : slotPending s n = true ↔ ∃ r, s.inc.slots[n]? = some (some r) ∧ r.pending = true := by
  unfold slotPending
  rcases s.inc.slots[n]? with _ | _ | r <;> simp

/-- A change of one slot that leaves it with a pending record, where it held one, leaves every slot as pending as it was. -/
theorem setAt_staysPending {t : State} {m : Nat} {f : Option Incident → Option Incident}
    (ht : t.inc.slots = setAt s.inc.slots m f)
    (hf : ∀ r, r.pending = true → ∃ r', f (some r) = some r' ∧ r'.pending = true) (h : slotPending s n = true) :
    slotPending t n = true := by
  obtain ⟨r, hr, hpending⟩ := slotPending_iff.1 h
  rw [slotPending_iff, ht, getElem?_setAt, hr]
  split
  · obtain ⟨r', hr', hpending'⟩ := hf r hpending
    exact ⟨r', by rw [Option.map_some, hr'], hpending'⟩
  · exact ⟨r, rfl, hpending⟩

/-- A recording clears no slot (R167, R168). -/
theorem record_staysPending (kind : IncidentKind) (a b : Nat) (h : slotPending s n = true) :
    slotPending (record kind a b s) n = true := by
  obtain ⟨m, -, he⟩ | ⟨-, ⟨-, he⟩ | ⟨-, -, he⟩ | ⟨m, -, -, he⟩⟩ := recordIncident_cases kind a b s <;> rw [record, he]
  · exact setAt_staysPending rfl (fun _ hr => ⟨_, rfl, hr⟩) h
  · exact h
  · rwa [slotPending_congr (s := s) (by simp)]
  · exact setAt_staysPending (by rw [writeIncident, notify_slots]) (fun _ _ => ⟨_, rfl, rfl⟩) h

/-! ## The strata log and the pricing unit -/

theorem nextInterval_staysPending (d cls : Nat) (o : Origin) (h : slotPending s n = true) :
    slotPending (nextInterval d cls o s) n = true := by
  unfold nextInterval
  split
  · exact record_staysPending .strataLogFull d cls h
  · rwa [slotPending_congr (s := s) (by simp [appendInterval])]

/-- The placement of a mark records STRATA_LOG_FULL at most (R116 to R119). -/
theorem placement_staysPending (d n : Nat) : PlacementKeeps d fun s => slotPending s n = true where
  next cls o h := nextInterval_staysPending d cls o h
  relabelled {s} cls o h := by rwa [slotPending_congr (s := s) (by simp [relabel])]
  added _ h := h
  drains h := h

theorem priceInto_staysPending (i v q : Nat) (h : slotPending s n = true) : slotPending (priceInto i v q s) n = true := by
  unfold priceInto
  dsimp only
  split
  · exact record_staysPending _ _ _ h
  · exact h

theorem priceUnder_staysPending (kind : LineKind) (key : LineKey) (v q : Nat) (h : slotPending s n = true) :
    slotPending (priceUnder kind key v q s) n = true := by
  unfold priceUnder
  split
  · exact priceInto_staysPending _ _ _ h
  · split
    · exact priceInto_staysPending _ _ _ h
    · exact record_staysPending _ _ _ (priceInto_staysPending _ _ _ h)

theorem priceMark_staysPending (m : Mark) (cls : Nat) (h : slotPending s n = true) :
    slotPending (priceMark m cls s) n = true := by
  unfold priceMark
  split
  · exact priceUnder_staysPending _ _ _ _ h
  · exact h

/-! ## The lag tracker and the swap -/

theorem retireUnchecked_staysPending (k : RetireCause) (m : Mark) (rest : List Mark) (h : slotPending s n = true) :
    slotPending (retireUnchecked k m rest s) n = true :=
  priceMark_staysPending _ _ ((placement_staysPending m.top n).placeMark (s := removeOldest m rest s) k h)

theorem forceOldest_staysPending (h : slotPending s n = true) : slotPending (forceOldest s) n = true := by
  unfold forceOldest
  split
  · exact h
  · have overrun : ∀ u : State, (markOverrunSeen u).inc.slots = u.inc.slots := fun u => by simp
    rw [slotPending_congr (overrun _)]
    exact record_staysPending _ _ _ (retireUnchecked_staysPending _ _ _ h)

theorem appendMark_staysPending (d : Nat) (h : slotPending s n = true) : slotPending (appendMark d s) n = true := by
  have clamped : slotPending (recordLagClamp d s) n = true := by
    unfold recordLagClamp
    split
    · exact record_staysPending _ _ _ h
    · exact h
  exact clamped

theorem layMark_staysPending (d : Nat) (h : slotPending s n = true) : slotPending (layMark d s) n = true := by
  unfold layMark
  split
  · refine appendMark_staysPending d ?_
    split
    · exact forceOldest_staysPending h
    · exact h
  · exact h

theorem swapCheck_staysPending (h : slotPending s n = true) : slotPending (swapCheck s) n = true := by
  unfold swapCheck
  split
  · rw [swap, slotPending_congr (s := layMark s.rods.holeDepth s) (by simp [rotateSets])]
    exact layMark_staysPending _ h
  · exact h

/-- The lag tracker clears no incident. -/
theorem lagKeeps_staysPending (n : Nat) : LagKeeps fun s => slotPending s n = true where
  retired k _ _ _ _ h := retireUnchecked_staysPending k _ _ h
  laid h := layMark_staysPending _ h
  swapped h := swapCheck_staysPending h

theorem totalLossChange_staysPending (h : slotPending s n = true) : slotPending (totalLossChange s) n = true := by
  unfold totalLossChange
  split
  · split
    · exact (lagKeeps_staysPending n).closeSpan h
    · exact h
  · exact h

/-! ## The first parts of a warm start -/

theorem enterCirc_staysPending (new : CircState) (mask : PumpMask) (h : slotPending s n = true) :
    slotPending (enterCirc new mask s) n = true := by
  have changed : slotPending (notify .circulation (commandEnables { s with circ := s.circ.entered new mask })) n =
      true := by
    rwa [slotPending_congr (s := s) (by simp)]
  unfold enterCirc
  dsimp only
  split
  · exact totalLossChange_staysPending changed
  · exact changed

theorem settleCirculation_staysPending (h : slotPending s n = true) : slotPending (settleCirculation s) n = true := by
  unfold settleCirculation
  split
  · exact h
  · exact record_staysPending _ _ _ (enterCirc_staysPending .still .empty h)

theorem fold_record_staysPending (cut : List Nat) (h : slotPending s n = true) :
    slotPending (cut.foldl (fun t k => record .tornTicket k 0 t) s) n = true := by
  induction cut generalizing s with
  | nil => exact h
  | cons k rest ih => exact ih (record_staysPending .tornTicket k 0 h)

theorem scanStore_staysPending (h : slotPending s n = true) : slotPending (scanStore s) n = true := by
  unfold scanStore reportTorn
  refine fold_record_staysPending _ ?_
  split
  · rwa [slotPending_congr (s := s) (by simp)]
  · exact h

theorem warmCirculation_staysPending (lines : StartLines) (seconds : Nat) (h : slotPending s n = true) :
    slotPending (warmCirculation lines seconds s) n = true :=
  settleCirculation_staysPending (scanStore_staysPending h)

end

end Sys2Proof.Machine
end

