-- ==== Sys2Proof/Proofs/JointStart.lean ====
section
/-! PROOFS. What a warm start makes of the joint controller and of the rod it holds (O15). -/

namespace Sys2Proof.Machine

/-! ## Settling the joint by its state (R107) -/

theorem settleJoint_of_loaded {a : Arm} {s : State} (h : s.joint.state = .loaded) (ha : s.joint.arm = some a) :
    settleJoint s =
      clearArmToReady (moveRod a.rod a.source.location { s with joint.episode := none, joint.timer := 0 }) := by
  simp only [settleJoint, h, returnRod, ha]

theorem settleJoint_of_unloaded {a : Arm} {s : State} (h : s.joint.state = .unloaded) (ha : s.joint.arm = some a) :
    settleJoint s = orphanRod a { s with joint.episode := none, joint.timer := 0 } := by
  simp only [settleJoint, h, ha]

theorem settleJoint_of_held {s : State} (h : s.joint.state = .held) :
    settleJoint s =
      if heldPending s then { s with joint.episode := none, joint.timer := 0 }
      else enterReady { s with joint.episode := none, joint.timer := 0 } := by
  simp only [settleJoint, h]
  rfl

theorem settleJoint_of_pending {s : State} (h : s.joint.state = .held) (hp : heldPending s = true) :
    settleJoint s = { s with joint.episode := none, joint.timer := 0 } :=
  (settleJoint_of_held h).trans (if_pos hp)

/-- The joint without episode and timer, with the last episode and the limits of another state. -/
structure QuietAs (s t : State) : Prop where
  episode : t.joint.episode = none
  timer : t.joint.timer = 0
  last : t.joint.last = s.joint.last
  limits : t.joint.limits = s.joint.limits

theorem QuietAs.enterReady {s t : State} (h : QuietAs s t) : QuietAs s (enterReady t) :=
  ⟨enterReady_episode h.episode, (enterReady_timer t).trans h.timer, (enterReady_last t).trans h.last,
    h.limits ▸ by simp [Machine.enterReady]⟩

theorem QuietAs.of_joint {s t u : State} (h : QuietAs s t) (hu : u.joint = t.joint) : QuietAs s u :=
  ⟨hu ▸ h.episode, hu ▸ h.timer, hu ▸ h.last, hu ▸ h.limits⟩

theorem QuietAs.clearArmToReady {s t : State} (h : QuietAs s t) : QuietAs s (clearArmToReady t) :=
  QuietAs.enterReady ⟨h.episode, h.timer, h.last, h.limits⟩

theorem settleJoint_quiet (s : State) : QuietAs s (settleJoint s) := by
  have quiet : QuietAs s { s with joint.episode := none, joint.timer := 0 } := ⟨rfl, rfl, rfl, rfl⟩
  unfold settleJoint
  dsimp only
  split
  · exact quiet
  · exact (quiet.of_joint (by simp)).clearArmToReady
  · exact quiet.enterReady
  · split
    · next a _ =>
      have moved := quiet.of_joint
        (u := moveRod a.rod .yard { s with joint.episode := none, joint.timer := 0 }) (by simp)
      exact moved.clearArmToReady.of_joint (by simp [orphanRod])
    · exact quiet.enterReady
  · split
    · exact quiet
    · exact quiet.enterReady

/-- Unless HELD stands on a pending slot the joint settles in READY, without a reference (R103, R107). -/
theorem settleJoint_ready {s : State} (hlaw : jointLawful s) (h : s.joint.state ≠ .held ∨ s.joint.heldRef = none) :
    (settleJoint s).joint.state = .ready ∧ (settleJoint s).joint.heldRef = none := by
  obtain ⟨-, href, -⟩ := hlaw
  cases hstate : s.joint.state with
  | ready => simp [settleJoint, hstate, href]
  | loaded => simp [settleJoint, hstate]
  | breakPermit => simp [settleJoint, hstate]
  | unloaded =>
    simp only [settleJoint, hstate]
    split <;> simp [orphanRod]
  | held =>
    have hnone : s.joint.heldRef = none := h.resolve_left (not_not_intro hstate)
    rw [settleJoint_of_held hstate, if_neg (by simp [heldPending, hnone])]
    exact ⟨enterReady_state _, enterReady_heldRef _⟩

/-- The arm is empty after the joint has settled (R86, R107). -/
theorem settleJoint_arm {s : State} (hlaw : jointLawful s) : (settleJoint s).joint.arm = none := by
  have armless := hlaw.arm_none
  cases hstate : s.joint.state with
  | ready | breakPermit => simp [settleJoint, hstate, armless]
  | loaded => simp [settleJoint, hstate]
  | unloaded =>
    obtain ⟨a, ha⟩ := hlaw.arm_some (.inr hstate)
    rw [settleJoint_of_unloaded hstate ha]
    simp [orphanRod]
  | held =>
    rw [settleJoint_of_held hstate]
    split <;> simp [hstate, armless]

/-- Where no rod is in the arm, no rod moves. -/
theorem settleJoint_of_armless {s : State} (h : s.joint.arm = none) :
    (settleJoint s).rods.registry = s.rods.registry ∧ (settleJoint s).rods.magazine = s.rods.magazine := by
  cases hstate : s.joint.state with
  | ready | breakPermit => simp [settleJoint, hstate]
  | loaded | unloaded => simp [settleJoint, hstate, h, returnRod]
  | held =>
    rw [settleJoint_of_held hstate]
    split <;> simp

/-- The rod in the arm goes to its source out of LOADED, to the yard out of UNLOADED (R75, R107). -/
theorem settleJoint_moves {a : Arm} {r : Rod} {loc : RodLocation} {s : State}
    (h : (s.joint.state = .loaded ∧ loc = a.source.location) ∨ (s.joint.state = .unloaded ∧ loc = .yard))
    (ha : s.joint.arm = some a) (hr : findRod a.rod s = some r) :
    (settleJoint s).rods.registry =
        s.rods.registry.map (fun q => if q.id = a.rod then { q with location := loc } else q) ∧
      (settleJoint s).rods.magazine = setSlot loc (some a.rod) (setSlot r.location none s.rods.magazine) := by
  have moved := moveRod_rods (s := { s with joint.episode := none, joint.timer := 0 }) loc hr
  obtain ⟨hstate, rfl⟩ | ⟨hstate, rfl⟩ := h
  · rw [settleJoint_of_loaded hstate ha]
    simp [moved]
  · rw [settleJoint_of_unloaded hstate ha, orphanRod]
    simp [moved]

/-! ## The joint at a warm start -/

theorem warmCirculation_joint (lines : StartLines) (seconds : Nat) (s : State) :
    (warmCirculation lines seconds s).joint.state = s.joint.state ∧
      (warmCirculation lines seconds s).joint.arm = s.joint.arm ∧
      (warmCirculation lines seconds s).joint.timer = s.joint.timer ∧
      (warmCirculation lines seconds s).joint.heldRef = s.joint.heldRef ∧
      (warmCirculation lines seconds s).joint.last = s.joint.last ∧
      (warmCirculation lines seconds s).joint.limits = s.joint.limits := by
  unfold warmCirculation settleCirculation
  split <;> simp

/-- What the joint controller finds at a warm start of `s`. -/
def jointFinds (lines : StartLines) (seconds : Nat) (s : State) : State :=
  { warmCirculation lines seconds s with rods.overpull := false }

theorem jointFinds_rods (lines : StartLines) (seconds : Nat) (s : State) :
    (jointFinds lines seconds s).rods = { s.rods with overpull := false } := by
  simp [jointFinds, warmCirculation]

theorem jointFinds_lawful (lines : StartLines) (seconds : Nat) {s : State} (h : jointLawful s) :
    jointLawful (jointFinds lines seconds s) := by
  obtain ⟨hstate, harm, htimer, href, -, -⟩ := warmCirculation_joint lines seconds s
  exact jointLawful_congr (by simp [jointFinds, hstate, harm, htimer, href]) h

theorem jointFinds_heldPending (lines : StartLines) (seconds : Nat) {s : State} (h : heldPending s = true) :
    heldPending (jointFinds lines seconds s) = true := by
  obtain ⟨-, -, -, href, -, -⟩ := warmCirculation_joint lines seconds s
  obtain ⟨n, hn, hpending⟩ := heldPending_eq_true.1 h
  exact heldPending_eq_true.2 ⟨n, href.trans hn, warmCirculation_staysPending lines seconds hpending⟩

/-- What follows the joint controller's part of a warm start touches neither the joint nor the rods. -/
theorem warmStart_settled (lines : StartLines) (seconds : Nat) (s : State) :
    (warmStart lines seconds s).joint = (settleJoint (jointFinds lines seconds s)).joint ∧
      (warmStart lines seconds s).rods = (settleJoint (jointFinds lines seconds s)).rods := by
  rw [warmStart_eq]
  simp [warmJoint, jointFinds]

section
variable {s : State} (lines : StartLines) (seconds : Nat)

theorem warmStart_quiet : QuietAs s (warmStart lines seconds s) := by
  obtain ⟨hjoint, -⟩ := warmStart_settled lines seconds s
  obtain ⟨-, -, -, -, hlast, hlimits⟩ := warmCirculation_joint lines seconds s
  obtain ⟨episode, timer, last, limits⟩ := settleJoint_quiet (jointFinds lines seconds s)
  exact ⟨by rw [hjoint, episode], by rw [hjoint, timer], by rw [hjoint, last]; exact hlast,
    by rw [hjoint, limits]; exact hlimits⟩

/-- HELD stands where its slot is still pending (R107). -/
theorem warmStart_held (h : s.joint.state = .held) (hp : heldPending s = true) :
    (warmStart lines seconds s).joint.state = .held ∧
      (warmStart lines seconds s).joint.heldRef = s.joint.heldRef := by
  obtain ⟨hjoint, -⟩ := warmStart_settled lines seconds s
  obtain ⟨hstate, -, -, href, -, -⟩ := warmCirculation_joint lines seconds s
  rw [hjoint, settleJoint_of_pending (s := jointFinds lines seconds s) (hstate.trans h)
    (jointFinds_heldPending lines seconds hp)]
  exact ⟨hstate.trans h, href⟩

theorem warmStart_ready (hlaw : jointLawful s) (h : s.joint.state ≠ .held ∨ s.joint.heldRef = none) :
    (warmStart lines seconds s).joint.state = .ready ∧ (warmStart lines seconds s).joint.heldRef = none := by
  obtain ⟨hjoint, -⟩ := warmStart_settled lines seconds s
  obtain ⟨hstate, -, -, href, -, -⟩ := warmCirculation_joint lines seconds s
  rw [hjoint]
  refine settleJoint_ready (jointFinds_lawful lines seconds hlaw) ?_
  rwa [show (jointFinds lines seconds s).joint.state = s.joint.state from hstate,
    show (jointFinds lines seconds s).joint.heldRef = s.joint.heldRef from href]

theorem warmStart_arm (hlaw : jointLawful s) : (warmStart lines seconds s).joint.arm = none := by
  rw [(warmStart_settled lines seconds s).1, settleJoint_arm (jointFinds_lawful lines seconds hlaw)]

/-- The depths, the footage and the string are kept, the overpull flag is cleared (R85). -/
theorem warmStart_readings :
    (warmStart lines seconds s).rods.string = s.rods.string ∧ (warmStart lines seconds s).rods.footage = s.rods.footage ∧
      (warmStart lines seconds s).rods.bitDepth = s.rods.bitDepth ∧
      (warmStart lines seconds s).rods.holeDepth = s.rods.holeDepth ∧
      (warmStart lines seconds s).rods.overpull = false := by
  rw [warmStart_rods]
  exact ⟨rfl, rfl, rfl, rfl, rfl⟩

theorem warmStart_of_armless (h : s.joint.arm = none) :
    (warmStart lines seconds s).rods.registry = s.rods.registry ∧
      (warmStart lines seconds s).rods.magazine = s.rods.magazine := by
  obtain ⟨-, harm, -⟩ := warmCirculation_joint lines seconds s
  obtain ⟨hregistry, hmagazine⟩ := settleJoint_of_armless (s := jointFinds lines seconds s) (harm.trans h)
  rw [(warmStart_settled lines seconds s).2, hregistry, hmagazine, jointFinds_rods]
  exact ⟨rfl, rfl⟩

/-- The rod in the arm goes to its source out of LOADED, to the yard out of UNLOADED, and no other moves (R75, R107). -/
theorem warmStart_moves {a : Arm} {r : Rod} {loc : RodLocation}
    (h : (s.joint.state = .loaded ∧ loc = a.source.location) ∨ (s.joint.state = .unloaded ∧ loc = .yard))
    (ha : s.joint.arm = some a) (hr : findRod a.rod s = some r) :
    (warmStart lines seconds s).rods.registry =
        s.rods.registry.map (fun q => if q.id = a.rod then { q with location := loc } else q) ∧
      (warmStart lines seconds s).rods.magazine = setSlot loc (some a.rod) (setSlot r.location none s.rods.magazine) := by
  obtain ⟨hstate, harm, -⟩ := warmCirculation_joint lines seconds s
  have hrods := jointFinds_rods lines seconds s
  obtain ⟨hregistry, hmagazine⟩ := settleJoint_moves (s := jointFinds lines seconds s)
    (h.imp (And.imp_left hstate.trans) (And.imp_left hstate.trans)) (harm.trans ha)
    ((findRod_congr (by rw [hrods]) a.rod).trans hr)
  rw [(warmStart_settled lines seconds s).2, hregistry, hmagazine, hrods]
  exact ⟨rfl, rfl⟩

end

/-- Settles O15: the joint controller finds the joint and the rods of the state before the start, and settles them by its
state. -/
theorem aWarmStartSettlesTheJoint : Obligations.AWarmStartSettlesTheJoint := by
  refine ⟨fun c lines seconds s hc hlaw => ?start, fun a r s hstate ha hr => ?orphan⟩
  case start =>
    obtain ⟨intact, sending, reply, notices, hexec⟩ := warmStarts_exec hc
    let v : State := { s with power := startPower c s, flu.backupIntact := intact }
    obtain ⟨hstring, hfootage, hbit, hhole, hoverpull⟩ := warmStart_readings (s := v) lines seconds
    have hquiet : QuietAs v _ := warmStart_quiet lines seconds
    refine ⟨_, hexec, warmStart_arm (s := v) lines seconds hlaw, hquiet.episode, hquiet.timer, hquiet.last, hquiet.limits,
      hstring, hfootage, hbit, hhole, hoverpull, warmStart_held (s := v) lines seconds,
      warmStart_ready (s := v) lines seconds hlaw, warmStart_of_armless (s := v) lines seconds, fun a r ha hr => ?_⟩
    have moves (loc : RodLocation) := warmStart_moves (s := v) (a := a) (r := r) (loc := loc) lines seconds
    refine ⟨fun hloaded => ?_, fun hunloaded => ?_, fun harm => ⟨fun hloaded => ?_, fun hunloaded => ?_⟩⟩
    · exact findRod_of_located hr (moves _ (.inl ⟨hloaded, rfl⟩) ha hr).1
    · exact findRod_of_located hr (moves _ (.inr ⟨hunloaded, rfl⟩) ha hr).1
    · obtain ⟨hregistry, hmagazine⟩ := moves _ (.inl ⟨hloaded, rfl⟩) ha hr
      rw [harm] at hmagazine
      exact ⟨hregistry, fun k hk => by rw [hk] at hmagazine; exact hmagazine,
        fun hyard => by rw [hyard] at hmagazine; exact hmagazine⟩
    · obtain ⟨hregistry, hmagazine⟩ := moves _ (.inr ⟨hunloaded, rfl⟩) ha hr
      rw [harm] at hmagazine
      exact ⟨hregistry, hmagazine⟩
  case orphan =>
    have hfind : findRod a.rod { s with joint.episode := none, joint.timer := 0 } = some r := hr
    rw [settleJoint_of_unloaded hstate ha, orphanRod, hfind]
    rfl

end Sys2Proof.Machine
end

