-- ==== Sys2Proof/Proofs/RackRod.lean ====
section
/-! PROOFS. RACK ROD (O42): the checks of R101 in their order, and what racking the popped rod writes. -/

namespace Sys2Proof.Machine

/-- RACK ROD in UNLOADED to a destination: the popped rod's status and the slot are left to check (R101). -/
theorem takeRackRod_of_unloaded {d : Nat} {loc : RodLocation} {a : Arm} {r : Rod} {s : State}
    (hstate : s.joint.state = .unloaded) (hdest : destinationOf d = some loc) (ha : s.joint.arm = some a)
    (hr : findRod a.rod s = some r) :
    takeRackRod d s =
      if loc ≠ .yard ∧ r.status = .retired then (s, .badArgument)
      else if slotBlocked a.rod loc s then (s, .full)
      else (clearArmToReady (moveRod a.rod loc s), .ok) := by
  rw [takeRackRod, if_neg (not_not_intro hstate)]
  simp only [hdest, ha, hr, Option.any_some, decide_eq_true_eq]

theorem takeRackRod_of_noDestination {d : Nat} {s : State} (hstate : s.joint.state = .unloaded)
    (hdest : destinationOf d = none) : takeRackRod d s = (s, .badArgument) := by
  rw [takeRackRod, if_neg (not_not_intro hstate), hdest]

/-- A slot is blocked to a rod where another rod holds it or it is reserved (R66). -/
theorem slotBlocked_slot {id d : Nat} {s : State} (hd : d < 96) :
    slotBlocked id (.magazine d) s = true ↔
      (s.rods.magazine[d]?).getD none ≠ some id ∧
        ((s.rods.magazine[d]?).getD none ≠ none ∨ reservedSlot s = some d) := by
  have hblocked := slotBlocked_destination (id := id) (s := s) (.inl hd)
  rw [if_neg (show d ≠ 255 by omega)] at hblocked
  exact hblocked.trans (and_iff_right hd)

/-- The popped rod is put away: its record names the place, the arm is empty in READY, and the string is as it was (R101). -/
theorem racked_fields {a : Arm} {r : Rod} {s : State} (loc : RodLocation) (hr : findRod a.rod s = some r) :
    let u := clearArmToReady (moveRod a.rod loc s)
    u.joint.state = .ready ∧ u.joint.arm = none ∧ findRod a.rod u = some { r with location := loc } ∧
      u.rods.string = s.rods.string :=
  ⟨by simp, by simp, (findRod_clearArmToReady _ _).trans (findRod_moveRod loc hr), by simp⟩

/-- The slot a rod is racked in holds it (R66, R101). -/
theorem racked_slot {a : Arm} {r : Rod} {d : Nat} {s : State} (hr : findRod a.rod s = some r)
    (hd : d < s.rods.magazine.length) :
    (clearArmToReady (moveRod a.rod (.magazine d) s)).rods.magazine[d]? = some (some a.rod) := by
  obtain ⟨-, hmagazine, -⟩ := clearArmToReady_rods (moveRod a.rod (.magazine d) s)
  rw [hmagazine, moveRod_magazine hr hd, if_pos rfl]

/-- Settles O42: RACK ROD is its checks in their order, then the rod's move and the change into READY. -/
theorem rackRodPutsThePoppedRodAway : Obligations.RackRodPutsThePoppedRodAway := by
  intro who d s h
  refine ⟨fun hstate => isAnswered_of_take h rfl rfl (if_pos hstate), fun hstate => ⟨fun hd hd' => ?nowhere,
    fun a r ha hr => ⟨fun hd => ?slot, fun hd => ?yard⟩⟩⟩
  case nowhere =>
    exact isAnswered_of_take h rfl rfl (takeRackRod_of_noDestination hstate (destinationOf_eq_none hd hd'))
  case slot =>
    have take := takeRackRod_of_unloaded (d := d) (loc := .magazine d) (s := taking (.rackRod who d) s) hstate
      (if_pos hd) ha hr
    have hblocked := slotBlocked_slot (id := a.rod) (s := taking (.rackRod who d) s) hd
    refine ⟨fun hretired => isAnswered_of_take h rfl rfl (take.trans (if_pos ⟨nofun, hretired⟩)),
      fun hsound haway => ?sound⟩
    have takeSound := take.trans (if_neg fun hbad => hsound hbad.2)
    refine ⟨fun htaken => ?full, fun hempty hfree => ?taken⟩
    case full =>
      exact isAnswered_of_take h rfl rfl (takeSound.trans (if_pos (hblocked.2 ⟨haway, htaken⟩)))
    case taken =>
      have hopen : ¬ slotBlocked a.rod (.magazine d) (taking (.rackRod who d) s) = true := by
        rintro hno
        obtain ⟨-, hfull | hreserved⟩ := hblocked.1 hno
        · exact hfull hempty
        · exact hfree hreserved
      obtain ⟨hready, harm, hfound, hstring⟩ := racked_fields (s := taking (.rackRod who d) s) (.magazine d) hr
      have hslot := racked_slot (d := d) (s := taking (.rackRod who d) s) hr
      exact ⟨_, isAnswered_of_take (f := fun _ => _) h rfl rfl (takeSound.trans (if_neg hopen)), hready, harm, hfound,
        hslot, hstring⟩
  case yard =>
    subst hd
    have take := takeRackRod_of_unloaded (d := 255) (loc := .yard) (s := taking (.rackRod who 255) s) hstate rfl ha hr
    exact ⟨_, isAnswered_of_take (f := fun _ => _) h rfl rfl
      ((take.trans (if_neg fun hbad => hbad.1 rfl)).trans (if_neg Bool.false_ne_true)), racked_fields .yard hr⟩

end Sys2Proof.Machine
end

