-- ==== Sys2Proof/Proofs/StageTriggers.lean ====
section
/-! PROOFS. The staging state (O34): a trigger, a joint made and a day boundary, COMMIT STAGE and CANCEL STAGE (spec 07). -/

namespace Sys2Proof.Machine

/-! ## COMMIT STAGE (R137) -/

theorem triggerOf_eq_none {code : Nat} (h : 2 < code) : triggerOf code = none := by
  unfold triggerOf
  split
  case h_4 => rfl
  all_goals omega

theorem triggerOf_isSome {code : Nat} (h : code ≤ 2) : ∃ t, triggerOf code = some t := by
  match code, h with
  | 0, _ => exact ⟨_, rfl⟩
  | 1, _ => exact ⟨_, rfl⟩
  | 2, _ => exact ⟨_, rfl⟩

theorem takeCommitStage_of_bad {code : Nat} (h : 2 < code) (s : State) : takeCommitStage code s = (s, .badArgument) := by
  simp only [takeCommitStage, triggerOf_eq_none h]

/-- COMMIT STAGE of a trigger: the tests of the staging state, the job and the set in R137's order, then the commit. -/
theorem takeCommitStage_of_trigger {code : Nat} {t : Trigger} (h : triggerOf code = some t) (s : State) :
    takeCommitStage code s =
      if s.price.stage ≠ .editing then (s, .wrongState)
      else if s.jobs.state ≠ .opened then (s, .noJob)
      else if !s.price.staging.valid then (s, .badArgument)
      else (commit t s, .ok (oct1 (commit t s).price.stage.code ++ oct2 (activeGeneration (commit t s)))) := by
  simp only [takeCommitStage, h]

/-- COMMIT STAGE of a valid set edited in an OPEN job commits it (R137). -/
theorem takeCommitStage_of_good {code : Nat} {t : Trigger} {s : State} (h : triggerOf code = some t)
    (hstage : s.price.stage = .editing) (hjob : s.jobs.state = .opened) (hvalid : s.price.staging.valid = true) :
    takeCommitStage code s =
      (commit t s, .ok (oct1 (commit t s).price.stage.code ++ oct2 (activeGeneration (commit t s)))) :=
  (takeCommitStage_of_trigger h s).trans ((if_neg (not_not_intro hstage)).trans ((if_neg (not_not_intro hjob)).trans
    (if_neg (ne_true_of_eq_false (congrArg not hvalid)))))

/-- IMMEDIATE becomes DUE at once and makes the swap check (R137). -/
theorem commit_immediate (s : State) : commit .immediate s = swapCheck { s with price.stage := .due .immediate } :=
  if_pos rfl

/-- Another trigger is armed, and nothing else changes (R137). -/
theorem commit_of_deferred {t : Trigger} (h : t ≠ .immediate) (s : State) :
    commit t s = { s with price.stage := .armed t } :=
  if_neg h

/-- COMMIT STAGE of another trigger answers ARMED and the active generation (R137). -/
theorem takeCommitStage_of_deferred {code : Nat} {t : Trigger} {s : State} (h : triggerOf code = some t)
    (ht : t ≠ .immediate) (hstage : s.price.stage = .editing) (hjob : s.jobs.state = .opened)
    (hvalid : s.price.staging.valid = true) :
    takeCommitStage code s =
      ({ s with price.stage := .armed t }, .ok (oct1 1 ++ oct2 (activeGeneration s))) := by
  rw [takeCommitStage_of_good h hstage hjob hvalid, commit_of_deferred ht]
  rfl

/-- Settles O34: a trigger is the two cases of the state ARMED with it, and each request is its tests in the order of its rule
and then the commit or the fall to EDITING. -/
theorem commitArmsAndCancelDisarms : Obligations.CommitArmsAndCancelDisarms := by
  refine ⟨fun t s => ⟨fun harmed => if_pos harmed, takeTrigger_of_not_armed⟩, fun s => ⟨rfl, rfl⟩,
    fun who s h => ⟨fun code => ⟨fun hbad => ?bad, fun hgood => ?tests⟩, fun hstage => ?refused,
      fun hstage => ?disarmed⟩⟩
  case bad => exact isAnswered_of_take h rfl rfl (takeCommitStage_of_bad hbad _)
  case tests =>
    obtain ⟨t, ht⟩ := triggerOf_isSome hgood
    have take := takeCommitStage_of_trigger ht (taking (.commitStage who code) s)
    refine ⟨fun hstage => isAnswered_of_take h rfl rfl (take.trans (if_pos hstage)), fun hstage hjob => ?noJob,
      fun hstage hjob hinvalid => ?invalid, fun hstage hjob hvalid => ⟨?immediate, ?nextConnection, ?nextDay⟩⟩
    case noJob =>
      exact isAnswered_of_take h rfl rfl (take.trans ((if_neg (not_not_intro hstage)).trans (if_pos hjob)))
    case invalid =>
      exact isAnswered_of_take h rfl rfl (take.trans ((if_neg (not_not_intro hstage)).trans
        ((if_neg (not_not_intro hjob)).trans (if_pos (congrArg not hinvalid)))))
    case immediate =>
      intro _
      have committed := takeCommitStage_of_good (code := 0) (s := taking (.commitStage who 0) s) rfl hstage hjob hvalid
      rw [commit_immediate] at committed
      exact ⟨_, rfl, isAnswered_of_take (f := fun _ => _) h rfl rfl committed⟩
    case nextConnection =>
      have committed := takeCommitStage_of_deferred (code := 1) (t := .nextConnection)
        (s := taking (.commitStage who 1) s) rfl (by decide) hstage hjob hvalid
      exact fun _ => isAnswered_of_take h rfl rfl committed
    case nextDay =>
      have committed := takeCommitStage_of_deferred (code := 2) (t := .nextDay)
        (s := taking (.commitStage who 2) s) rfl (by decide) hstage hjob hvalid
      exact fun _ => isAnswered_of_take h rfl rfl committed
  case refused => exact isAnswered_of_take h rfl rfl (if_pos hstage)
  case disarmed => exact isAnswered_of_take h rfl rfl (if_neg hstage)

end Sys2Proof.Machine
end

