-- ==== Sys2Proof/Proofs/StrataLog.lean ====
section
/-! PROOFS. What the operations of the strata log make of its list (spec 06): an interval ended and one opened, a new class at a
depth, and a retired mark placed. -/

namespace Sys2Proof.Machine

/-! ## An interval as it is opened and as it is ended (R110, R111, R112) -/

/-- A record as it joins the list (R111). -/
def Interval.opening (depth cls : Nat) (origin : Origin) (clock : Nat) : Interval :=
  { top := depth, bottom := none, cls := cls, origin := origin, opened := clock, seconds := 0, loss := 0, marks := 0,
    rate := none, waterBearing := false, forced := false, note := 0 }

/-- A record closed at a depth inside the job: its rate, and the strikes from its top to above its bottom (R110, R112). -/
def Interval.ended (depth : Nat) (strikes : List Strike) (v : Interval) : Interval :=
  { v with
    bottom := some depth,
    rate := if v.seconds = 0 then none else some (min ((depth - v.top) * 3600 / v.seconds) 65535),
    waterBearing := v.waterBearing || strikes.any fun k => decide (v.top ≤ k.depth ∧ k.depth < depth) }

theorem strikeWithin_inside (top bottom : Nat) (k : Strike) :
    strikeWithin false top bottom k = decide (top ≤ k.depth ∧ k.depth < bottom) := by
  simp [strikeWithin]

theorem closedAt_inside (depth : Nat) (strikes : List Strike) (v : Interval) :
    v.closedAt depth false strikes = v.ended depth strikes := by
  have hstrikes : strikeWithin false v.top depth = fun k => decide (v.top ≤ k.depth ∧ k.depth < depth) :=
    funext (strikeWithin_inside v.top depth)
  rw [Interval.closedAt, hstrikes]
  rfl

theorem appendInterval_intervals (depth cls : Nat) (origin : Origin) (s : State) :
    (appendInterval depth cls origin s).strata.intervals =
      s.strata.intervals ++ [.opening depth cls origin s.flu.clock] := by
  simp [appendInterval, Interval.opening]

/-! ## The next interval and the full log (R111) -/

theorem nextInterval_of_room {s : State} (hroom : s.strata.intervals.length < 320) (depth cls : Nat) (origin : Origin) :
    nextInterval depth cls origin s = appendInterval depth cls origin (closeInterval depth false s) :=
  if_neg (ne_true_of_eq_false (decide_eq_false (Nat.not_le_of_lt hroom)))

theorem nextInterval_of_full {s : State} (hfull : 320 ≤ s.strata.intervals.length) (depth cls : Nat) (origin : Origin) :
    nextInterval depth cls origin s = { record .strataLogFull depth cls s with strata.fullSeen := true } :=
  if_pos (decide_eq_true hfull)

@[simp] theorem nextInterval_drain (depth cls : Nat) (origin : Origin) (s : State) :
    (nextInterval depth cls origin s).strata.drain = s.strata.drain := by
  unfold nextInterval appendInterval
  split <;> simp [closeInterval]

@[simp] theorem relabel_drain (cls : Nat) (origin : Origin) (s : State) :
    (relabel cls origin s).strata.drain = s.strata.drain := by
  simp [relabel]

theorem relabel_setsFlag (cls : Nat) (origin : Origin) (s : State) : (relabel cls origin s).inc.flags.strata = true :=
  notify_setsFlag .strata _

/-- Nothing that placing a mark does writes the strikes or the resume class (R115). -/
theorem placement_keeps_strikes_and_resume (depth : Nat) (strikes : List Strike) (cls : Nat) :
    PlacementKeeps depth fun s => s.strata.strikes = strikes ∧ s.strata.resumeClass = cls where
  next k o hs := by
    unfold nextInterval appendInterval
    split <;> simpa [closeInterval, onLastInterval] using hs
  relabelled k o hs := by simpa [relabel, onLastInterval] using hs
  added m hs := hs
  drains hs := hs

section
variable {s : State} {closed : List Interval} {v : Interval}

theorem openInterval_of_last (hlog : s.strata.intervals = closed ++ [v]) (hopen : v.bottom = none) :
    openInterval s = some v := by
  simp [openInterval_eq, hlog, hopen]

theorem openIndex_of_last (hlog : s.strata.intervals = closed ++ [v]) (hopen : v.bottom = none) :
    openIndex s = some closed.length := by
  simp [openIndex_eq, openInterval_of_last hlog hopen, hlog]

theorem openIsBlind_of_last (hlog : s.strata.intervals = closed ++ [v]) (hopen : v.bottom = none) :
    openIsBlind s = decide (v.origin = .blind) := by
  simp [openIsBlind, openInterval_of_last hlog hopen]

/-- With room the open interval is ended and a new one stands after it (R110, R111). -/
theorem nextInterval_ends_last (hlog : s.strata.intervals = closed ++ [v]) (hroom : s.strata.intervals.length < 320)
    (depth cls : Nat) (origin : Origin) :
    (nextInterval depth cls origin s).strata.intervals =
        closed ++ [v.ended depth s.strata.strikes, .opening depth cls origin s.flu.clock] ∧
      (nextInterval depth cls origin s).inc.flags.strata = true := by
  rw [nextInterval_of_room hroom]
  refine ⟨?_, notify_setsFlag .strata _⟩
  simp [appendInterval_intervals, closeInterval, hlog, closedAt_inside]

theorem relabel_last (hlog : s.strata.intervals = closed ++ [v]) (cls : Nat) (origin : Origin) :
    (relabel cls origin s).strata.intervals = closed ++ [{ v with cls := cls, origin := origin }] := by
  rw [relabel_intervals, hlog, updateLast_concat]

theorem addMark_last (hlog : s.strata.intervals = closed ++ [v]) (m : Mark) :
    (addMark m s).strata.intervals = closed ++ [v.plusMark m] := by
  rw [addMark_intervals, hlog, updateLast_concat]

/-! ## A new class at a depth (R113, R116, R119) -/

theorem classAt_of_extent (hlog : s.strata.intervals = closed ++ [v]) (hopen : v.bottom = none) {depth : Nat}
    (hextent : v.top < depth) (cls : Nat) (origin : Origin) :
    classAt depth cls origin s = nextInterval depth cls origin s := by
  simp only [classAt, openInterval_of_last hlog hopen, if_pos hextent]

theorem classAt_of_no_extent (hlog : s.strata.intervals = closed ++ [v]) (hopen : v.bottom = none) {depth : Nat}
    (hlevel : depth ≤ v.top) (cls : Nat) (origin : Origin) : classAt depth cls origin s = relabel cls origin s := by
  simp only [classAt, openInterval_of_last hlog hopen, if_neg (Nat.not_lt_of_le hlevel)]

end

/-- A new class writes no drain flag (R119). -/
@[simp] theorem classAt_drain (depth cls : Nat) (origin : Origin) (s : State) :
    (classAt depth cls origin s).strata.drain = s.strata.drain := by
  unfold classAt
  split
  · split
    · exact nextInterval_drain _ _ _ _
    · exact relabel_drain _ _ _
  · rfl

/-! ## The ways a retired mark is placed (R116 to R119) -/

section
variable {s : State} {cause : RetireCause} {m : Mark}

/-- Once the drain has begun, a mark only joins the open interval (R119). -/
theorem placeMark_of_drain (hdrain : s.strata.drain = true) : placeMark cause m s = addMark m s := by
  cases cause with
  | close => simp only [placeMark, drainBegin, hdrain, if_true]
  | arrived | overrun => exact if_pos hdrain

/-- The first mark of a drain (R119). -/
theorem placeMark_close (hdrain : s.strata.drain = false) :
    placeMark .close m s = addMark m (classAt m.top 15 .unobserved { s with strata.drain := true }) := by
  simp only [placeMark, drainBegin, hdrain, Bool.false_eq_true, if_false]

/-- Before a drain, an arrived or overrun mark passes the two blind tests and joins (R116, R117, R118). -/
theorem placeMark_of_not_close (hcause : cause ≠ .close) (hdrain : s.strata.drain = false) :
    placeMark cause m s = addMark m (blindRunEnd m (blindRunBegin m s)) := by
  cases cause with
  | close => exact absurd rfl hcause
  | arrived | overrun => exact if_neg (ne_true_of_eq_false hdrain)

/-- A mark that meets an open interval of its own kind begins and ends no blind run (R116, R117). -/
theorem blindRuns_of_same (h : m.blind = openIsBlind s) : blindRunEnd m (blindRunBegin m s) = s := by
  have hbegin : blindRunBegin m s = s := if_neg (by simp [h])
  rw [hbegin]
  exact if_neg (by simp [h])

/-- A blind mark begins a blind run in sighted hole (R116). -/
theorem blindRuns_of_blind (hblind : m.blind = true) (hopen : openIsBlind s = false) :
    blindRunEnd m (blindRunBegin m s) = classAt m.top 14 .blind s := by
  have hbegin : blindRunBegin m s = classAt m.top 14 .blind s := if_pos (by simp [hblind, hopen])
  rw [hbegin]
  exact if_neg (by simp [hblind])

/-- A sighted mark ends a blind run (R117). -/
theorem blindRuns_of_sighted (hsighted : m.blind = false) (hopen : openIsBlind s = true) :
    blindRunEnd m (blindRunBegin m s) = nextInterval m.top s.strata.resumeClass .resumed s := by
  have hbegin : blindRunBegin m s = s := if_neg (by simp [hsighted])
  rw [hbegin]
  exact if_pos (by simp [hsighted, hopen])

/-- Only a close sets the drain flag (R119). -/
theorem placeMark_drain_of_not_close (hcause : cause ≠ .close) (hdrain : s.strata.drain = false) :
    (placeMark cause m s).strata.drain = false := by
  have hbegin : (blindRunBegin m s).strata.drain = false := by
    unfold blindRunBegin
    split
    · rw [classAt_drain, hdrain]
    · exact hdrain
  rw [placeMark_of_not_close hcause hdrain, addMark, onLastInterval_drain, blindRunEnd]
  split
  · rw [nextInterval_drain, hbegin]
  · exact hbegin

end

/-! ## What the log shows of a mark placed under a new interval or class -/

/-- A mark that only joins the open interval changes nothing of the incident table (R118). -/
theorem addMark_joins {s t : State} {m : Mark} {closed : List Interval} {v : Interval}
    (hlog : s.strata.intervals = closed ++ [v]) (ht : t = addMark m s) :
    t.strata.intervals = closed ++ [v.plusMark m] ∧ t.inc = s.inc := by
  rw [ht]
  exact ⟨addMark_last hlog m, rfl⟩

/-- From `s` to `t` the open interval `v` has given way to a new one that holds the mark, or the full log has taken the mark
into `v` and recorded the opening it refused (R111, R118). -/
def NextHoldsMark (m : Mark) (cls : Nat) (origin : Origin) (closed : List Interval) (v : Interval) (s t : State) : Prop :=
  (s.strata.intervals.length < 320 →
    t.strata.intervals =
        closed ++ [v.ended m.top s.strata.strikes, (Interval.opening m.top cls origin s.flu.clock).plusMark m] ∧
      t.inc.flags.strata = true) ∧
  (320 ≤ s.strata.intervals.length →
    t.strata.intervals = closed ++ [v.plusMark m] ∧ t.strata.fullSeen = true ∧
      t.inc = (record .strataLogFull m.top cls s).inc)

/-- From `s` to `t` the mark stands under a new class: in the next interval where the open one `v` has extent, in `v`
relabelled where it has none (R116, R119). -/
def ClassHoldsMark (m : Mark) (cls : Nat) (origin : Origin) (closed : List Interval) (v : Interval) (s t : State) : Prop :=
  (v.top < m.top → NextHoldsMark m cls origin closed v s t) ∧
  (m.top ≤ v.top →
    t.strata.intervals = closed ++ [{ v with cls := cls, origin := origin }.plusMark m] ∧ t.inc.flags.strata = true)

section
variable {s : State} {closed : List Interval} {v : Interval}

theorem nextHoldsMark_nextInterval (hlog : s.strata.intervals = closed ++ [v]) (m : Mark) (cls : Nat) (origin : Origin) :
    NextHoldsMark m cls origin closed v s (addMark m (nextInterval m.top cls origin s)) := by
  refine ⟨fun hroom => ?room, fun hfull => ?full⟩
  case room =>
    obtain ⟨hintervals, hflag⟩ := nextInterval_ends_last hlog hroom m.top cls origin
    have hlast := hintervals.trans (List.append_cons _ _ _)
    exact ⟨(addMark_last hlast m).trans (List.append_cons _ _ _).symm, hflag⟩
  case full =>
    rw [nextInterval_of_full hfull]
    exact ⟨addMark_last (by simpa using hlog) m, rfl, rfl⟩

theorem classHoldsMark_classAt (hlog : s.strata.intervals = closed ++ [v]) (hopen : v.bottom = none) (m : Mark) (cls : Nat)
    (origin : Origin) : ClassHoldsMark m cls origin closed v s (addMark m (classAt m.top cls origin s)) := by
  refine ⟨fun hextent => ?_, fun hlevel => ?_⟩
  · rw [classAt_of_extent hlog hopen hextent]
    exact nextHoldsMark_nextInterval hlog m cls origin
  · rw [classAt_of_no_extent hlog hopen hlevel]
    exact ⟨addMark_last (relabel_last hlog cls origin) m, relabel_setsFlag cls origin s⟩

/-- The drain flag bears on no recording, so the mark stands alike whether it is set before or after (R119). -/
theorem classHoldsMark_drain (m : Mark) (cls : Nat) (origin : Origin) {t : State} :
    ClassHoldsMark m cls origin closed v { s with strata.drain := true } t ↔
      ClassHoldsMark m cls origin closed v s t := by
  have hrecord : (record .strataLogFull m.top cls { s with strata.drain := true }).inc =
      (record .strataLogFull m.top cls s).inc := by
    obtain ⟨hinc, -⟩ := recordIncident_congr (s := s) (t := { s with strata.drain := true }) .strataLogFull m.top cls rfl
      rfl rfl
    exact hinc
  rw [ClassHoldsMark, ClassHoldsMark, NextHoldsMark, NextHoldsMark, hrecord]

end

end Sys2Proof.Machine
end

