-- ==== Sys2Proof/Proofs/Formation.lean ====
section
/-! PROOFS. FORMATION at the frontier and the placement of retired marks (O43, spec 06). -/

namespace Sys2Proof.Machine

/-! ## FORMATION (R113) -/

section
variable {s : State} {closed : List Interval} {v : Interval} {cls : Nat}

/-- The open interval decides the case: its origin, its extent at F and the room of the log (R113). -/
theorem formationOutcome_of_last (hlog : s.strata.intervals = closed ++ [v]) (hopen : v.bottom = none) :
    formationOutcome s =
      if v.origin = .blind then .resumeOnly
      else if v.top < s.lag.frontier then (if logFull s then .logFull else .newInterval)
      else .relabelled := by
  simp only [formationOutcome, openInterval_of_last hlog hopen]

theorem applyFormation_of_resumeOnly (h : formationOutcome s = .resumeOnly) :
    applyFormation cls s = { s with strata.resumeClass := cls } := by
  rw [applyFormation, h]

theorem applyFormation_of_relabelled (h : formationOutcome s = .relabelled) :
    applyFormation cls s = { relabel cls .observed s with strata.resumeClass := cls } := by
  rw [applyFormation, h]

theorem applyFormation_of_extent (h : formationOutcome s = .newInterval ∨ formationOutcome s = .logFull) :
    applyFormation cls s = { nextInterval s.lag.frontier cls .observed s with strata.resumeClass := cls } := by
  obtain h | h := h <;> rw [applyFormation, h]

theorem takeFormation_of_bad (h : 13 < cls) (s : State) : takeFormation cls s = (s, .badArgument) := if_pos h

theorem takeFormation_of_noJob (h : cls ≤ 13) (hjob : s.jobs.state ≠ .opened) : takeFormation cls s = (s, .noJob) :=
  (if_neg (Nat.not_lt_of_le h)).trans (if_pos hjob)

/-- FORMATION taken: the reply gives the case, the place of the interval then open, and F (R113). -/
theorem takeFormation_of_taken {o : FormationOutcome} {u : State} {index : Nat} (h : cls ≤ 13)
    (hjob : s.jobs.state = .opened) (ho : formationOutcome s = o) (happly : applyFormation cls s = u)
    (hlog : u.strata.intervals = closed ++ [v]) (hopen : v.bottom = none) (hindex : closed.length = index) :
    takeFormation cls s = (u, .ok (oct1 o.code ++ oct2 index ++ oct4 s.lag.frontier)) := by
  have hfrontier : u.lag.frontier = s.lag.frontier := by simp [← happly]
  rw [takeFormation, if_neg (Nat.not_lt_of_le h), if_neg (not_not_intro hjob)]
  simp only [happly, ho, openIndex_of_last hlog hopen, hindex, hfrontier, Option.getD_some]

end

section
variable {s : State} {closed : List Interval} {v : Interval} {cls : Nat} (hcls : cls ≤ 13)
  (hjob : s.jobs.state = .opened) (hlog : s.strata.intervals = closed ++ [v]) (hopen : v.bottom = none)

include hlog in
/-- The closed records are all but the open one, so their number is its index (R108). -/
theorem length_closed_eq : closed.length = s.strata.intervals.length - 1 := by simp [hlog]

include hcls hjob hlog hopen

/-- In a blind run a FORMATION only sets the resume class (R113). -/
theorem takeFormation_of_blind (hblind : v.origin = .blind) :
    takeFormation cls s =
      ({ s with strata.resumeClass := cls },
        .ok (oct1 0 ++ oct2 (s.strata.intervals.length - 1) ++ oct4 s.lag.frontier)) := by
  have ho := (formationOutcome_of_last hlog hopen).trans (if_pos hblind)
  exact takeFormation_of_taken hcls hjob ho (applyFormation_of_resumeOnly ho) hlog hopen (length_closed_eq hlog)

/-- A FORMATION at an interval of zero extent relabels it (R113). -/
theorem takeFormation_of_no_extent (hsighted : v.origin ≠ .blind) (hlevel : s.lag.frontier ≤ v.top) :
    takeFormation cls s =
      ({ relabel cls .observed s with strata.resumeClass := cls },
        .ok (oct1 3 ++ oct2 (s.strata.intervals.length - 1) ++ oct4 s.lag.frontier)) := by
  have ho := (formationOutcome_of_last hlog hopen).trans ((if_neg hsighted).trans (if_neg (Nat.not_lt_of_le hlevel)))
  exact takeFormation_of_taken hcls hjob ho (applyFormation_of_relabelled ho) (relabel_last hlog cls .observed) hopen
    (length_closed_eq hlog)

/-- A FORMATION at an interval with extent opens the next one, where the log has room (R113). -/
theorem takeFormation_of_room (hsighted : v.origin ≠ .blind) (hextent : v.top < s.lag.frontier)
    (hroom : s.strata.intervals.length < 320) :
    takeFormation cls s =
      ({ nextInterval s.lag.frontier cls .observed s with strata.resumeClass := cls },
        .ok (oct1 1 ++ oct2 (s.strata.intervals.length - 1 + 1) ++ oct4 s.lag.frontier)) := by
  have hnotFull : ¬ logFull s = true := ne_true_of_eq_false (decide_eq_false (Nat.not_le_of_lt hroom))
  have ho := (formationOutcome_of_last hlog hopen).trans
    ((if_neg hsighted).trans ((if_pos hextent).trans (if_neg hnotFull)))
  obtain ⟨hintervals, -⟩ := nextInterval_ends_last hlog hroom s.lag.frontier cls .observed
  refine takeFormation_of_taken hcls hjob ho (applyFormation_of_extent (.inl ho))
    (hintervals.trans (List.append_cons _ _ _)) rfl ?_
  rw [List.length_append, length_closed_eq hlog, List.length_singleton]

/-- On a full log a FORMATION at an interval with extent is recorded and kept as the resume class (R111, R113). -/
theorem takeFormation_of_full (hsighted : v.origin ≠ .blind) (hextent : v.top < s.lag.frontier)
    (hfull : 320 ≤ s.strata.intervals.length) :
    takeFormation cls s =
      ({ record .strataLogFull s.lag.frontier cls s with strata.fullSeen := true, strata.resumeClass := cls },
        .ok (oct1 2 ++ oct2 (s.strata.intervals.length - 1) ++ oct4 s.lag.frontier)) := by
  have ho := (formationOutcome_of_last hlog hopen).trans
    ((if_neg hsighted).trans ((if_pos hextent).trans (if_pos (decide_eq_true hfull))))
  have happly := applyFormation_of_extent (cls := cls) (.inr ho)
  rw [nextInterval_of_full hfull] at happly
  exact takeFormation_of_taken hcls hjob ho happly (by simpa using hlog) hopen (length_closed_eq hlog)

end

/-! ## The placement of a retired mark (R116 to R119) -/

section
variable {s : State} {cause : RetireCause} {m : Mark} {closed : List Interval} {v : Interval}

/-- The first mark of a drain stands UNOBSERVED (R119). -/
theorem placeMark_drains (hlog : s.strata.intervals = closed ++ [v]) (hopen : v.bottom = none)
    (hdrain : s.strata.drain = false) :
    (placeMark .close m s).strata.drain = true ∧
      ClassHoldsMark m 15 .unobserved closed v s (placeMark .close m s) := by
  rw [placeMark_close hdrain]
  refine ⟨?_, (classHoldsMark_drain m 15 .unobserved).1 ?_⟩
  · rw [addMark, onLastInterval_drain, classAt_drain]
  · exact classHoldsMark_classAt (s := { s with strata.drain := true }) hlog hopen m 15 .unobserved

/-- A blind mark in sighted hole stands BLIND (R116). -/
theorem placeMark_begins_blind (hlog : s.strata.intervals = closed ++ [v]) (hopen : v.bottom = none)
    (hdrain : s.strata.drain = false) (hcause : cause ≠ .close) (hblind : m.blind = true) (hsighted : v.origin ≠ .blind) :
    ClassHoldsMark m 14 .blind closed v s (placeMark cause m s) := by
  have hrun : openIsBlind s = false := (openIsBlind_of_last hlog hopen).trans (decide_eq_false hsighted)
  rw [placeMark_of_not_close hcause hdrain, blindRuns_of_blind hblind hrun]
  exact classHoldsMark_classAt hlog hopen m 14 .blind

/-- A sighted mark after a blind run stands RESUMED (R117). -/
theorem placeMark_resumes (hlog : s.strata.intervals = closed ++ [v]) (hopen : v.bottom = none)
    (hdrain : s.strata.drain = false) (hcause : cause ≠ .close) (hsighted : m.blind = false) (hblind : v.origin = .blind) :
    NextHoldsMark m s.strata.resumeClass .resumed closed v s (placeMark cause m s) := by
  have hrun : openIsBlind s = true := (openIsBlind_of_last hlog hopen).trans (decide_eq_true hblind)
  rw [placeMark_of_not_close hcause hdrain, blindRuns_of_sighted hsighted hrun]
  exact nextHoldsMark_nextInterval hlog m _ .resumed

/-- A mark of the open interval's own kind only joins it (R118). -/
theorem placeMark_joins (hlog : s.strata.intervals = closed ++ [v]) (hopen : v.bottom = none)
    (hdrain : s.strata.drain = false) (hcause : cause ≠ .close) (hsame : m.blind = decide (v.origin = .blind)) :
    placeMark cause m s = addMark m s := by
  rw [placeMark_of_not_close hcause hdrain, blindRuns_of_same (hsame.trans (openIsBlind_of_last hlog hopen).symm)]

end

/-- Settles O43: FORMATION is its two tests and the case the open interval decides; a mark is placed in one of four ways, each a
new interval or class followed by the mark's joining. -/
theorem formationAppliesAtTheFrontier : Obligations.FormationAppliesAtTheFrontier := by
  refine ⟨fun who cls s h => ⟨fun hbad => ?bad, fun hcls hjob => ?noJob, fun hcls hjob closed v hlog hopen => ?taken⟩,
    fun cause m closed v s hlog hopen => ?placed⟩
  case bad => exact isAnswered_of_take h rfl rfl (takeFormation_of_bad hbad _)
  case noJob => exact isAnswered_of_take h rfl rfl (takeFormation_of_noJob hcls hjob)
  case taken =>
    let u : State := taking (.formation who cls) s
    refine ⟨fun hblind => ?blind, fun hsighted hlevel => ?level, fun hsighted hextent hroom => ?room,
      fun hsighted hextent hfull => ?full⟩
    case blind => exact isAnswered_of_take h rfl rfl (takeFormation_of_blind (s := u) hcls hjob hlog hopen hblind)
    case level =>
      have take := takeFormation_of_no_extent (s := u) hcls hjob hlog hopen hsighted hlevel
      have hintervals := relabel_last (s := u) hlog cls .observed
      exact ⟨_, isAnswered_of_take (f := fun _ => _) h rfl rfl take, hintervals, rfl, relabel_setsFlag cls .observed u,
        by simp [u, taking], by simp [u, taking]⟩
    case room =>
      have take := takeFormation_of_room (s := u) hcls hjob hlog hopen hsighted hextent hroom
      obtain ⟨hintervals, hflag⟩ := nextInterval_ends_last (s := u) hlog hroom s.lag.frontier cls .observed
      exact ⟨_, isAnswered_of_take (f := fun _ => _) h rfl rfl take, hintervals, rfl, hflag, by simp [u, taking],
        by simp [u, taking]⟩
    case full =>
      have take := takeFormation_of_full (s := u) hcls hjob hlog hopen hsighted hextent hfull
      exact ⟨_, isAnswered_of_take (f := fun _ => _) h rfl rfl take, rfl⟩
  case placed =>
    intro t plus ended fresh added next classed
    obtain ⟨hstrikes, hresume⟩ :=
      (placement_keeps_strikes_and_resume m.top s.strata.strikes s.strata.resumeClass).placeMark cause ⟨rfl, rfl⟩
    refine ⟨hstrikes, hresume, by simp [t], by simp [t], by simp [t], by simp [t], by simp [t],
      fun hdrain => addMark_joins hlog (placeMark_of_drain hdrain), fun hdrain => ⟨?close, fun hcause => ?_⟩⟩
    case close =>
      rintro rfl
      exact placeMark_drains hlog hopen hdrain
    exact ⟨placeMark_drain_of_not_close hcause hdrain, placeMark_begins_blind hlog hopen hdrain hcause,
      placeMark_resumes hlog hopen hdrain hcause,
      fun hsame => addMark_joins hlog (placeMark_joins hlog hopen hdrain hcause hsame)⟩

end Sys2Proof.Machine
end

