-- ==== Sys2Proof/Proofs/Strikes.lean ====
section
/-! PROOFS. WATER STRIKE, AMEND NOTE and the automatic strike (O44, spec 06). -/

namespace Sys2Proof.Machine

/-! ## WATER STRIKE (R121, R122, R124) -/

section
variable {yield : Nat} {depth level : Option Nat} {s : State} {job : JobContext}

/-- The range test of WATER STRIKE (R122). -/
theorem strikeBad_iff :
    (5000 < yield || level.any fun l => decide (200000 < l)) = true ↔
      ¬ (yield ≤ 5000 ∧ ∀ l, level = some l → l ≤ 200000) := by
  rw [Bool.or_eq_true, decide_eq_true_eq, Option.any_eq_true]
  simp only [decide_eq_true_eq, not_and_or, not_forall, Nat.not_le, exists_prop]

/-- The depth test of WATER STRIKE: a given depth lies in the hole drilled under the job (R122). -/
theorem strikeOutside_iff {start hole : Nat} :
    (depth.any fun d => decide (d < start) || decide (hole < d)) = true ↔
      ¬ ∀ d, depth = some d → start ≤ d ∧ d ≤ hole := by
  rw [Option.any_eq_true]
  simp only [Bool.or_eq_true, decide_eq_true_eq, not_forall, not_and_or, Nat.not_le, exists_prop]

theorem takeWaterStrike_of_bad (h : ¬ (yield ≤ 5000 ∧ ∀ l, level = some l → l ≤ 200000)) :
    takeWaterStrike yield depth level s = (s, .badArgument) := if_pos (strikeBad_iff.2 h)

theorem takeWaterStrike_of_noJob (h : yield ≤ 5000 ∧ ∀ l, level = some l → l ≤ 200000) (hjob : s.jobs.state ≠ .opened) :
    takeWaterStrike yield depth level s = (s, .noJob) :=
  (if_neg fun hbad => strikeBad_iff.1 hbad h).trans (if_pos hjob)

/-- WATER STRIKE with its values in range, in an OPEN job, is a matter of the depth and of the list's room (R122). -/
theorem takeWaterStrike_of_open (h : yield ≤ 5000 ∧ ∀ l, level = some l → l ≤ 200000) (hjob : s.jobs.state = .opened)
    (hcontext : s.jobs.context = some job) :
    takeWaterStrike yield depth level s =
      if depth.any fun d => decide (d < job.startDepth) || decide (s.rods.holeDepth < d) then (s, .badArgument)
      else if 32 ≤ s.strata.strikes.length then (s, .full)
      else
        (recordStrike
            { depth := depth.getD s.rods.holeDepth, yield := yield, level := level, time := s.flu.clock, auto := false } s,
          .ok (oct1 s.strata.strikes.length ++
            octOpt 2 (s.strata.intervals.findIdx? (Interval.holds (depth.getD s.rods.holeDepth))))) := by
  rw [takeWaterStrike, if_neg fun hbad => strikeBad_iff.1 hbad h, if_neg (not_not_intro hjob), hcontext]
  rfl

/-- A strike joins the list and marks the closed interval that holds it (R121, R124). -/
theorem recordStrike_joins (k : Strike) (s : State) :
    (recordStrike k s).strata.strikes = s.strata.strikes ++ [k] ∧
      (recordStrike k s).strata.intervals =
        s.strata.intervals.map (fun v => if v.holds k.depth then { v with waterBearing := true } else v) ∧
      (recordStrike k s).inc.flags.strata = true := by
  refine ⟨?_, ?_, notify_setsFlag .strata _⟩ <;> simp [recordStrike]

end

/-! ## AMEND NOTE (R125, log 46) -/

section
variable {index : Nat} {s : State}

theorem takeAmendNote_of_noJob (note : Nat) (hjob : s.jobs.state ≠ .opened) :
    takeAmendNote index note s = (s, .noJob) := if_pos hjob

theorem takeAmendNote_of_beyond (note : Nat) (hjob : s.jobs.state = .opened) (h : s.strata.intervals.length ≤ index) :
    takeAmendNote index note s = (s, .notFound) := (if_neg (not_not_intro hjob)).trans (if_pos h)

theorem takeAmendNote_of_within (note : Nat) (hjob : s.jobs.state = .opened) (h : index < s.strata.intervals.length) :
    takeAmendNote index note s =
      ({ s with strata.intervals := s.strata.intervals.modify index fun v => { v with note := note } }, .ok) :=
  (if_neg (not_not_intro hjob)).trans (if_neg (Nat.not_le_of_lt h))

end

/-- Settles O44: WATER STRIKE is its tests in R122's order and then the strike's joining, AMEND NOTE its two tests and one note;
an automatic strike is a matter of the list's room. -/
theorem strikesAndNotesJoinTheLog : Obligations.StrikesAndNotesJoinTheLog := by
  refine ⟨fun who s h => ⟨fun yield depth level => ?strike, fun index note => ?note⟩,
    fun gain s => ⟨fun hfull => if_pos hfull, fun hroom => if_neg (Nat.not_le_of_lt hroom)⟩⟩
  case strike =>
    refine ⟨fun hbad => isAnswered_of_take h rfl rfl (takeWaterStrike_of_bad hbad),
      fun hgood hjob => isAnswered_of_take h rfl rfl (takeWaterStrike_of_noJob hgood hjob),
      fun hgood hjob job hcontext => ?_⟩
    have take := takeWaterStrike_of_open (depth := depth) (s := taking (.waterStrike who yield depth level) s) hgood hjob
      hcontext
    refine ⟨fun houtside => isAnswered_of_take h rfl rfl (take.trans (if_pos (strikeOutside_iff.2 houtside))),
      fun hinside hfull => ?full, fun hinside hroom => ?room⟩
    all_goals have takeInside := take.trans (if_neg fun houtside => strikeOutside_iff.1 houtside hinside)
    case full => exact isAnswered_of_take h rfl rfl (takeInside.trans (if_pos hfull))
    have takeRoom := takeInside.trans (if_neg (Nat.not_le_of_lt hroom))
    obtain ⟨hstrikes, hintervals, hflag⟩ := recordStrike_joins
      { depth := depth.getD s.rods.holeDepth, yield := yield, level := level, time := s.flu.clock, auto := false }
      (taking (.waterStrike who yield depth level) s)
    exact ⟨_, isAnswered_of_take (f := fun _ => _) h rfl rfl takeRoom, hstrikes, hintervals, hflag, by simp [taking],
      by simp [taking]⟩
  case note =>
    exact ⟨fun hjob => isAnswered_of_take h rfl rfl (takeAmendNote_of_noJob note hjob),
      fun hjob hbeyond => isAnswered_of_take h rfl rfl (takeAmendNote_of_beyond note hjob hbeyond),
      fun hjob hwithin => isAnswered_of_take h rfl rfl (takeAmendNote_of_within note hjob hwithin)⟩

end Sys2Proof.Machine
end

