-- ==== Sys2Proof/Proofs/StagingSet.lean ====
section
/-! PROOFS. The staging requests (O33): STAGE BANDS, STAGE FOOTAGE ROW, STAGE TIME RATES and STAGE MATERIAL (spec 07). -/

namespace Sys2Proof.Machine

/-- Every request of the staging set is a test of its values, the test of the staging state, and one write (R133 to R136). -/
theorem staged_answers {who : Addressee} {i : Instr} {r : Received} {s : State} {good : Prop} {bad : Bool}
    {f : State → State} (h : ready who s) (hr : receivedRequest i = some r) (hwho : r.who = who)
    (hbad : bad = true ↔ ¬ good)
    (ht : ∀ u, takeRequest i u =
      if bad then (u, .badArgument) else if u.price.stage ≠ .editing then (u, .wrongState) else (f u, .ok)) :
    (¬ good → isRefused i s .badArgument) ∧ (good → s.price.stage ≠ .editing → isRefused i s .wrongState) ∧
      (good → s.price.stage = .editing → isAnswered i s .ok f) := by
  have take := ht (taking i s)
  refine ⟨fun hno => isAnswered_of_take h hr hwho (take.trans (if_pos (hbad.2 hno))), fun hgood hstage => ?_,
    fun hgood hstage => ?_⟩
  all_goals have taken := take.trans (if_neg fun hno => hbad.1 hno hgood)
  · exact isAnswered_of_take h hr hwho (taken.trans (if_pos hstage))
  · exact isAnswered_of_take h hr hwho (taken.trans (if_neg (not_not_intro hstage)))

/-! ## The tests of values -/

/-- Ascending is each floor below the next. -/
theorem strictlyAscending_iff {floors : List Nat} :
    strictlyAscending floors = true ↔ ∀ k a b, floors[k]? = some a → floors[k + 1]? = some b → a < b := by
  induction floors with
  | nil => simp [strictlyAscending]
  | cons x rest ih =>
    cases rest with
    | nil => simp [strictlyAscending]
    | cons y rest =>
      rw [strictlyAscending, Bool.and_eq_true, decide_eq_true_iff, ih]
      constructor
      · rintro ⟨hxy, hrest⟩ k a b ha hb
        cases k with
        | zero =>
          cases ha
          cases hb
          exact hxy
        | succ k => exact hrest k a b ha hb
      · exact fun hall => ⟨hall 0 x y rfl rfl, fun k => hall (k + 1)⟩

/-- The test of a band table (R133). -/
theorem bandsGood_iff {count : Nat} {floors : List Nat} :
    bandsGood count floors = true ↔
      1 ≤ count ∧ count ≤ 6 ∧ floors.length = count ∧ floors.head? = some 0 ∧
        (∀ k a b, floors[k]? = some a → floors[k + 1]? = some b → a < b) ∧ ∀ f ∈ floors, f ≤ 200000 := by
  simp only [bandsGood, Bool.and_eq_true, inRange_eq_true, decide_eq_true_iff, strictlyAscending_iff, List.all_eq_true,
    and_assoc]

/-- The test of STAGE BANDS fails where its table is not one (R133). -/
theorem bandsBad_iff {count : Nat} {floors : List Nat} :
    (!bandsGood count floors) = true ↔
      ¬ (1 ≤ count ∧ count ≤ 6 ∧ floors.length = count ∧ floors.head? = some 0 ∧
        (∀ k a b, floors[k]? = some a → floors[k + 1]? = some b → a < b) ∧ ∀ f ∈ floors, f ≤ 200000) := by
  rw [Bool.not_eq_true', Bool.eq_false_iff, Ne, bandsGood_iff]

/-- A rate is out of range (R134, R135). -/
theorem ratesBad_iff {rates : List Nat} :
    (rates.any fun r => decide (Config.rateMax < r)) = true ↔ ¬ ∀ r ∈ rates, r ≤ 9999999 := by
  simp only [List.any_eq_true, decide_eq_true_iff, not_forall, Nat.not_le, exists_prop]
  rfl

/-- The test of a footage row (R134). -/
theorem rowBad_iff {cls : Nat} {rates : List Nat} :
    (15 < cls || rates.length ≠ 6 || rates.any fun r => decide (Config.rateMax < r)) = true ↔
      ¬ (cls ≤ 15 ∧ rates.length = 6 ∧ ∀ r ∈ rates, r ≤ 9999999) := by
  rw [Bool.or_eq_true, Bool.or_eq_true, ratesBad_iff, decide_eq_true_iff, decide_eq_true_iff, ← Nat.not_le]
  tauto

/-- The test of the time rates (R135). -/
theorem timesBad_iff {rates : List Nat} :
    (rates.length ≠ 7 || rates.any fun r => decide (Config.rateMax < r)) = true ↔
      ¬ (rates.length = 7 ∧ ∀ r ∈ rates, r ≤ 9999999) := by
  rw [Bool.or_eq_true, ratesBad_iff, decide_eq_true_iff]
  tauto

/-! ## STAGE MATERIAL (R136) -/

theorem unitOfCode_code (m : MaterialUnit) : unitOfCode m.code = some m := by cases m <;> rfl

theorem unitOfCode_eq_none {unit : Nat} (h : 5 < unit) : unitOfCode unit = none := by
  unfold unitOfCode
  split
  case h_6 => rfl
  all_goals omega

/-- A unit code of a defined item names its unit. -/
theorem exists_code {unit : Nat} (hpos : unit ≠ 0) (h : unit ≤ 5) : ∃ m : MaterialUnit, m.code = unit := by
  match unit, hpos, h with
  | 1, _, _ => exact ⟨.kg, rfl⟩
  | 2, _, _ => exact ⟨.litre, rfl⟩
  | 3, _, _ => exact ⟨.bag, rfl⟩
  | 4, _, _ => exact ⟨.piece, rfl⟩
  | 5, _, _ => exact ⟨.metre, rfl⟩

/-- A defined item is a matter of its price (R136). -/
theorem materialOf_code (m : MaterialUnit) (price : Nat) :
    materialOf m.code price = if price ≤ 9999999 then some (some { unit := m, price := price }) else none := by
  cases m <;> rfl

/-- A unit code and a price spell no item where the code is none of the five, or the price is out of range (R136). -/
theorem materialOf_isNone_iff {unit price : Nat} :
    (materialOf unit price).isNone = true ↔ ¬ (unit ≤ 5 ∧ (unit = 0 ∨ price ≤ 9999999)) := by
  rcases Nat.lt_or_ge 5 unit with hbeyond | hcode
  · have hnone : materialOf unit price = none := by
      simp only [materialOf, unitOfCode_eq_none hbeyond, if_neg (show unit ≠ 0 by omega)]
    simp only [hnone, Option.isNone_none, true_iff]
    omega
  · by_cases hzero : unit = 0
    · subst hzero
      exact iff_of_false Bool.false_ne_true (not_not_intro ⟨hcode, .inl rfl⟩)
    · obtain ⟨m, rfl⟩ := exists_code hzero hcode
      rw [materialOf_code]
      by_cases hprice : price ≤ 9999999
      · simp [hprice, hcode]
      · simp [hprice, hzero]

/-- The test of STAGE MATERIAL (R136). -/
theorem materialBad_iff {item unit price : Nat} :
    (31 < item || (materialOf unit price).isNone) = true ↔
      ¬ (item ≤ 31 ∧ unit ≤ 5 ∧ (unit = 0 ∨ price ≤ 9999999)) := by
  rw [Bool.or_eq_true, decide_eq_true_iff, materialOf_isNone_iff, ← Nat.not_le]
  tauto

/-- STAGE MATERIAL in the form of the other staging requests. -/
theorem takeStageMaterial_eq (item unit price : Nat) (s : State) :
    takeStageMaterial item unit price s =
      if 31 < item || (materialOf unit price).isNone then (s, .badArgument)
      else if s.price.stage ≠ .editing then (s, .wrongState)
      else
        ({ s with
           price.staging.materials :=
             s.price.staging.materials.modify item fun _ => (materialOf unit price).getD none }, .ok) := by
  by_cases hitem : 31 < item
  · simp only [takeStageMaterial, hitem, decide_true, Bool.true_or, if_true]
  · simp only [takeStageMaterial, hitem, decide_false, Bool.false_or, if_false]
    cases materialOf unit price <;> rfl

/-- Settles O33: each request is a test of its values, the test of the staging state and one write; what STAGE MATERIAL writes
is the item its unit code and price spell. -/
theorem stagingRequestsReplaceTheirPartAlone : Obligations.StagingRequestsReplaceTheirPartAlone := by
  intro who s h
  refine ⟨fun count floors => ?bands, fun cls rates => ?row, fun rates => ?times,
    fun item unit price => ?material⟩
  case bands => exact staged_answers h rfl rfl bandsBad_iff fun _ => rfl
  case row => exact staged_answers h rfl rfl rowBad_iff fun _ => rfl
  case times => exact staged_answers h rfl rfl timesBad_iff fun _ => rfl
  case material =>
    obtain ⟨hbad, hstate, htaken⟩ := staged_answers (i := .stageMaterial who item unit price) h rfl rfl
      materialBad_iff (takeStageMaterial_eq item unit price)
    refine ⟨hbad, hstate, fun hgood hstage => ⟨?undefined, ?defined⟩⟩
    case undefined =>
      rintro rfl
      exact htaken hgood hstage
    case defined =>
      rintro m rfl
      have ⟨_, _, hrange⟩ := hgood
      have hprice : price ≤ 9999999 := hrange.resolve_left (by cases m <;> decide)
      have taken := htaken hgood hstage
      rwa [materialOf_code, if_pos hprice] at taken

end Sys2Proof.Machine
end

