-- ==== Sys2Proof/Proofs/RateSwap.lean ====
section
/-! PROOFS. The rate swap (O35): when the swap check waits, and what a swap makes of the open span and the rate sets (spec 07). -/

namespace Sys2Proof.Machine

/-! ## The swap check (R139) -/

theorem StageState.isDue_eq_false {x : StageState} (h : ∀ trigger, x ≠ .due trigger) : x.isDue = false := by
  cases x with
  | editing => rfl
  | armed t => rfl
  | due t => exact absurd rfl (h t)

theorem previousMarks_eq_zero_iff {s : State} :
    previousMarks s = 0 ↔ ∀ m ∈ s.lag.queue, s.price.previous.map (·.generation) ≠ some m.generation := by
  rw [previousMarks_eq]
  cases s.price.previous with
  | none => simp
  | some old => simp [eq_comm (a := old.generation)]

/-- A queued mark of the previous generation holds the swap back (R139). -/
theorem swapCheck_of_waiting {s : State}
    (h : ∃ m ∈ s.lag.queue, s.price.previous.map (·.generation) = some m.generation) : swapCheck s = s := by
  obtain ⟨m, hm, hgen⟩ := h
  have hmarks : previousMarks s ≠ 0 := fun hzero => previousMarks_eq_zero_iff.1 hzero m hm hgen
  rw [swapCheck, decide_eq_false hmarks, Bool.and_false]
  rfl

/-- In DUE with no such mark the swap is made (R139). -/
theorem swapCheck_of_free {trigger : Trigger} {s : State} (hdue : s.price.stage = .due trigger)
    (h : ∀ m ∈ s.lag.queue, s.price.previous.map (·.generation) ≠ some m.generation) : swapCheck s = swap s := by
  rw [swapCheck, hdue, decide_eq_true (previousMarks_eq_zero_iff.2 h)]
  rfl

/-! ## The swap (R140) -/

theorem nextGeneration_eq (g : Nat) : nextGeneration g = if g < 65535 then g + 1 else 1 := by
  simp only [nextGeneration, ← Nat.not_lt, ite_not]

/-- A swap closes the span at the hole depth, and then rotates the rate sets (R140). -/
theorem swap_eq {old : RateSet} {s : State} (hactive : s.price.active = some old) :
    swap s =
      notify .billing
        { layMark s.rods.holeDepth s with
          price.previous := some old, price.active := some (s.price.staging.toSet (nextGeneration old.generation)),
          price.staging := .ofSet (s.price.staging.toSet (nextGeneration old.generation)), price.stage := .editing } := by
  simp only [swap, rotateSets, activeGeneration]
  rw [layMark_price]
  simp only [hactive, Option.map_some, Option.getD_some]

/-- The rate sets after a swap (R140). -/
theorem swap_sets {old : RateSet} {s : State} (hactive : s.price.active = some old) :
    (swap s).price.previous = some old ∧
      (swap s).price.active = some (s.price.staging.toSet (nextGeneration old.generation)) ∧
      (swap s).price.staging = .ofSet (s.price.staging.toSet (nextGeneration old.generation)) ∧
      (swap s).price.stage = .editing := by
  simp [swap_eq hactive]

theorem swap_lag (s : State) : (swap s).lag = (layMark s.rods.holeDepth s).lag := by simp [swap]

theorem swap_setsFlag (s : State) : (swap s).inc.flags.billing = true := notify_setsFlag .billing _

/-- No length is left on the open span after a swap (R140). -/
theorem swap_spanTop {s : State} (h : s.lag.spanTop ≤ s.rods.holeDepth) : (swap s).lag.spanTop = s.rods.holeDepth := by
  rw [swap_lag, layMark_spanTop]
  split <;> omega

/-- The newest mark after a swap is what the open span had become (R51, R140). -/
theorem swap_newestMark {s : State} (h : s.lag.spanTop < s.rods.holeDepth) :
    (swap s).lag.queue.getLast? = some (spanMark s.rods.holeDepth s) := by
  rw [swap_lag, layMark_lag h]
  exact List.getLast?_concat

/-- The mark of the open span lies under the active generation, in its band (R51). -/
theorem spanMark_of_active {old : RateSet} {s : State} (hactive : s.price.active = some old) (bottom : Nat) :
    (spanMark bottom s).generation = old.generation ∧
      (spanMark bottom s).band = bandOf old.floors s.lag.spanTop := by
  simp [spanMark, activeGeneration, activeFloors, hactive]

/-- Settles O35: the check's three cases, and the swap by its equation and its fields. -/
theorem aSwapRotatesTheRateSets : Obligations.ASwapRotatesTheRateSets := by
  refine ⟨fun s hother => swapCheck_of_not_due (StageState.isDue_eq_false hother), fun trigger s hdue =>
    ⟨swapCheck_of_waiting, fun hfree old hactive hspan => ?_⟩⟩
  rw [swapCheck_of_free hdue hfree, ← nextGeneration_eq]
  obtain ⟨hprevious, hnew, hstaging, hstage⟩ := swap_sets hactive
  refine ⟨swap_eq hactive, fun hlength => ?_, hprevious, hnew, hstaging, hstage, swap_setsFlag s, swap_spanTop hspan⟩
  exact ⟨_, swap_newestMark hlength, rfl, rfl, spanMark_of_active hactive _⟩

end Sys2Proof.Machine
end

