-- ==== Sys2Proof/Proofs/ChargeLines.lean ====
section
/-! PROOFS. Charge lines (O36): a value priced into a line, the line a value under a key goes to, and the set a retired mark is
priced at (spec 07). -/

namespace Sys2Proof.Machine

/-! ## A line and a value (R146, R147) -/

section
variable {value : Nat} {l : ChargeLine}

theorem ChargeLine.overflows_iff :
    l.overflows value = true ↔ l.saturated = false ∧ 999999999 < l.amount + (l.residue + value) / 100 := by
  rw [ChargeLine.overflows, Bool.and_eq_true, Bool.not_eq_true', decide_eq_true_iff]
  rfl

theorem ChargeLine.overflows_of_saturated (h : l.saturated = true) : l.overflows value = false := by
  rw [ChargeLine.overflows, h]
  rfl

theorem ChargeLine.overflows_of_le (h : l.amount + (l.residue + value) / 100 ≤ 999999999) : l.overflows value = false :=
  Bool.eq_false_iff.2 fun hover => Nat.not_lt.2 h (ChargeLine.overflows_iff.1 hover).2

/-- A SATURATED line takes its quantity only (R147). -/
theorem ChargeLine.priced_of_saturated (h : l.saturated = true) (quantity : Nat) :
    l.priced value quantity = { l with quantity := satAdd Config.counterMax l.quantity quantity } :=
  if_pos h

/-- A line that would pass its limit stops there, SATURATED, and keeps its residue (R147). -/
theorem ChargeLine.priced_of_overflows (h : l.overflows value = true) (quantity : Nat) :
    l.priced value quantity =
      { l with
        quantity := satAdd Config.counterMax l.quantity quantity, amount := 999999999, saturated := true } :=
  (if_neg (ne_true_of_eq_false (ChargeLine.overflows_iff.1 h).1)).trans (if_pos h)

/-- Within its limit a line takes the whole cents into its amount and the rest into its residue (R146). -/
theorem ChargeLine.priced_of_fits (hopen : l.saturated = false) (h : l.overflows value = false) (quantity : Nat) :
    l.priced value quantity =
      { l with
        quantity := satAdd Config.counterMax l.quantity quantity,
        amount := l.amount + (l.residue + value) / 100, residue := (l.residue + value) % 100 } :=
  (if_neg (ne_true_of_eq_false hopen)).trans (if_neg (ne_true_of_eq_false h))

/-- Whatever becomes of the value, the line keeps its name and takes the quantity (R146, R147). -/
theorem ChargeLine.priced_spec (value quantity : Nat) (l : ChargeLine) :
    (l.priced value quantity).kind = l.kind ∧ (l.priced value quantity).key = l.key ∧
      (l.priced value quantity).quantity = satAdd Config.counterMax l.quantity quantity := by
  unfold ChargeLine.priced
  split
  · exact ⟨rfl, rfl, rfl⟩
  · split <;> exact ⟨rfl, rfl, rfl⟩

/-- Within the limit the line gains the value to the hundredth of a cent (R146). -/
theorem ChargeLine.priced_keeps_hundredths (hopen : l.saturated = false) (h : l.overflows value = false) (quantity : Nat) :
    (l.priced value quantity).amount * 100 + (l.priced value quantity).residue = l.amount * 100 + l.residue + value ∧
      (l.priced value quantity).residue < 100 ∧ (l.priced value quantity).saturated = false := by
  rw [ChargeLine.priced_of_fits hopen h]
  refine ⟨?_, Nat.mod_lt _ (by decide), hopen⟩
  dsimp only
  omega

end

/-! ## Pricing into a line (R146, R147) -/

theorem LineKind.code_eq (kind : LineKind) :
    kind.code = if kind = .footage then 0 else if kind = .time then 1 else 2 := by
  cases kind <;> rfl

theorem priceInto_lines (index value quantity : Nat) (s : State) :
    (priceInto index value quantity s).price.lines = setAt s.price.lines index (ChargeLine.priced value quantity) := by
  rw [priceInto_price]

section
variable {index value : Nat} {s : State} {l : ChargeLine}

/-- Where the line does not saturate, pricing changes the lines alone. -/
theorem priceInto_of_fits (hl : s.price.lines[index]? = some l) (h : l.overflows value = false) (quantity : Nat) :
    priceInto index value quantity s =
      { s with price.lines := setAt s.price.lines index (ChargeLine.priced value quantity) } := by
  rw [priceInto, hl, Option.any_some, h]
  rfl

/-- Where the line saturates, CHARGE_SATURATED is recorded with the line's index and kind (R147). -/
theorem priceInto_of_overflows (hl : s.price.lines[index]? = some l) (h : l.overflows value = true) (quantity : Nat) :
    priceInto index value quantity s =
      { record .chargeSaturated index l.kind.code
          { s with price.lines := setAt s.price.lines index (ChargeLine.priced value quantity) } with
        price.saturationSeen := true } := by
  rw [priceInto, hl, Option.any_some, h]
  rfl

theorem priceInto_line (hl : s.price.lines[index]? = some l) (quantity : Nat) :
    (priceInto index value quantity s).price.lines[index]? = some (l.priced value quantity) := by
  rw [priceInto_lines, getElem?_setAt, if_pos rfl, hl]
  rfl

theorem priceInto_otherLine {k : Nat} (hk : k ≠ index) (quantity : Nat) :
    (priceInto index value quantity s).price.lines[k]? = s.price.lines[k]? := by
  rw [priceInto_lines, getElem?_setAt, if_neg hk.symm]

end

/-! ## The line of a key (R145, R148) -/

/-- The line of a kind and key. -/
abbrev ChargeLine.isUnder (kind : LineKind) (key : LineKey) (l : ChargeLine) : Prop := l.kind = kind ∧ l.key = some key

theorem keyedLimit_eq (kind : LineKind) :
    keyedLimit kind = if kind = .footage then 160 else if kind = .time then 32 else 64 := by
  cases kind <;> rfl

theorem keyedCount_eq (kind : LineKind) (s : State) :
    keyedCount kind s = s.price.lines.countP fun l => decide (l.kind = kind ∧ l.key.isSome = true) := by
  simp only [keyedCount, Bool.decide_and, Bool.decide_eq_true]

section
variable {kind : LineKind} {key : LineKey} {s : State}

theorem lineIndex?_eq_none (h : ∀ l ∈ s.price.lines, ¬ l.isUnder kind key) : lineIndex? kind key s = none :=
  List.findIdx?_eq_none_iff.2 fun l hl => by
    rw [← Bool.decide_and]
    exact decide_eq_false (h l hl)

/-- The index of the first line of a kind and key. -/
theorem lineIndex?_eq_some {i : Nat} {l : ChargeLine} (hl : s.price.lines[i]? = some l) (hunder : l.isUnder kind key)
    (hfirst : ∀ j < i, ∀ k, s.price.lines[j]? = some k → ¬ k.isUnder kind key) : lineIndex? kind key s = some i := by
  obtain ⟨hi, rfl⟩ := List.getElem?_eq_some_iff.1 hl
  refine List.findIdx?_eq_some_iff_getElem.2 ⟨hi, ?_, fun j hj => ?_⟩
  · rw [← Bool.decide_and]
    exact decide_eq_true hunder
  · rw [← Bool.decide_and, decide_eq_true_iff]
    exact hfirst j hj _ (List.getElem?_eq_getElem _)

/-- A value under a key that has its line goes to that line (R148). -/
theorem priceUnder_of_line {i : Nat} (h : lineIndex? kind key s = some i) (value quantity : Nat) :
    lineFor kind key s = i ∧ priceUnder kind key value quantity s = priceInto i value quantity s := by
  rw [lineFor, priceUnder, h]
  exact ⟨rfl, rfl⟩

/-- Without a line of its own, and with room among its kind's keyed lines, a value opens a line at the next index (R148). -/
theorem priceUnder_of_room (h : lineIndex? kind key s = none) (hroom : keyedCount kind s < keyedLimit kind)
    (value quantity : Nat) :
    lineFor kind key s = s.price.lines.length ∧
      priceUnder kind key value quantity s =
        priceInto s.price.lines.length value quantity
          { s with price.lines := s.price.lines ++ [.fresh kind (some key)] } := by
  rw [lineFor, priceUnder, h]
  exact ⟨if_pos hroom, if_pos hroom⟩

/-- Without either, it goes to the consolidated line, and CHARGE_LINES_FULL is recorded (R148, log 43). -/
theorem priceUnder_of_full (h : lineIndex? kind key s = none) (hfull : keyedLimit kind ≤ keyedCount kind s)
    (value quantity : Nat) :
    lineFor kind key s = kind.code ∧
      priceUnder kind key value quantity s =
        record .chargeLinesFull kind.code key.generation (priceInto kind.code value quantity s) := by
  rw [lineFor, priceUnder, h]
  exact ⟨if_neg (Nat.not_lt.2 hfull), if_neg (Nat.not_lt.2 hfull)⟩

end

/-! ## A retired mark (R149) -/

/-- A generation names the active set where that carries it, else the previous set. -/
theorem setOfGeneration_eq_some {g : Nat} {r : RateSet} {s : State} (hr : r.generation = g)
    (h : s.price.active = some r ∨ (s.price.active.map (·.generation) ≠ some g ∧ s.price.previous = some r)) :
    setOfGeneration g s = some r := by
  unfold setOfGeneration
  obtain hactive | ⟨hother, hprevious⟩ := h
  · rw [if_pos (by simp [hactive, hr]), hactive]
  · have hany : s.price.active.any (fun a => decide (a.generation = g)) = false := by
      cases ha : s.price.active with
      | none => rfl
      | some a => exact decide_eq_false fun hgen => hother (by rw [ha, Option.map_some, hgen])
    rw [hany, if_neg Bool.false_ne_true, hprevious]

theorem RateSet.footageRate_eq {r : RateSet} {cls band rate : Nat} {row : List Nat} (hrow : r.rows[cls]? = some row)
    (hrate : row[band]? = some rate) : r.footageRate cls band = rate := by
  rw [RateSet.footageRate, hrow, Option.getD_some, hrate, Option.getD_some]

/-- A retired mark's length is priced under its generation, class and band, at the rate of the set it names. -/
theorem priceMark_of_set {m : Mark} {r : RateSet} {s : State} (h : setOfGeneration m.generation s = some r) (cls : Nat) :
    priceMark m cls s =
      priceUnder .footage { generation := m.generation, a := cls, b := m.band }
        ((m.bottom - m.top) * r.footageRate cls m.band) (m.bottom - m.top) s := by
  rw [priceMark, h]

/-- Settles O36: pricing into a line is the line's three cases, a value under a key goes one of three ways, and a mark's set is
the one its generation names. -/
theorem pricingKeepsEveryHundredthOfACent : Obligations.PricingKeepsEveryHundredthOfACent := by
  refine ⟨fun index value quantity s l hl => ?line, fun kind key value quantity s => ?key,
    fun m cls rate r row s hr hset hrow hrate => ?mark⟩
  case line =>
    obtain ⟨hkind, hkey, hquantity⟩ := ChargeLine.priced_spec value quantity l
    refine ⟨l.priced value quantity, priceInto_line hl quantity, hkind, hkey, hquantity,
      fun k hk => priceInto_otherLine hk quantity, fun hsat => ?saturated, fun hopen hle => ?fits,
      fun hopen hlt => ?overflows⟩
    case saturated =>
      have hfits := ChargeLine.overflows_of_saturated (value := value) hsat
      rw [ChargeLine.priced_of_saturated hsat, priceInto_of_fits hl hfits]
      exact ⟨rfl, rfl, hsat, rfl⟩
    case fits =>
      have hfits := ChargeLine.overflows_of_le hle
      obtain ⟨hsum, hresidue, hstill⟩ := ChargeLine.priced_keeps_hundredths hopen hfits quantity
      rw [priceInto_of_fits hl hfits]
      exact ⟨hsum, hresidue, hstill, rfl⟩
    case overflows =>
      have hover := ChargeLine.overflows_iff.2 ⟨hopen, hlt⟩
      rw [ChargeLine.priced_of_overflows hover, priceInto_lines, ← LineKind.code_eq]
      exact ⟨rfl, rfl, rfl, _, rfl, priceInto_of_overflows hl hover quantity⟩
  case key =>
    refine ⟨fun i l hl hunder hfirst => priceUnder_of_line (lineIndex?_eq_some hl hunder hfirst) value quantity,
      fun hnew => ?_⟩
    have hnone := lineIndex?_eq_none hnew
    rw [← keyedLimit_eq, ← keyedCount_eq, ← LineKind.code_eq]
    exact ⟨fun hroom => priceUnder_of_room hnone hroom value quantity,
      fun hfull => priceUnder_of_full hnone hfull value quantity⟩
  case mark =>
    rw [priceMark_of_set (setOfGeneration_eq_some hr hset), RateSet.footageRate_eq hrow hrate]

end Sys2Proof.Machine
end

