-- ==== Sys2Proof/Proofs/BillingRequests.lean ====
section
/-! PROOFS. SET CATEGORY, DRAW MATERIAL and the billing unit as a command of its own (O46, spec 08). -/

namespace Sys2Proof.Machine

/-! ## SET CATEGORY (R158) -/

theorem overrideOf_code (o : Override) : overrideOf o.code = some o := by cases o <;> rfl

theorem overrideOf_eq_none {code : Nat} (h : 2 < code) : overrideOf code = none := by
  unfold overrideOf
  split
  case h_4 => rfl
  all_goals omega

theorem takeSetCategory_code (o : Override) (s : State) :
    takeSetCategory o.code s = ({ s with bill.override := o }, .ok) := by
  rw [takeSetCategory, overrideOf_code]

theorem takeSetCategory_of_bad {code : Nat} (h : 2 < code) (s : State) :
    takeSetCategory code s = (s, .badArgument) := by
  rw [takeSetCategory, overrideOf_eq_none h]

/-! ## DRAW MATERIAL (R159, R160) -/

theorem activeGeneration_of_active {r : RateSet} {s : State} (h : s.price.active = some r) :
    activeGeneration s = r.generation := by
  rw [activeGeneration, h, Option.map_some, Option.getD_some]

theorem activeMaterial_of_active {item : Nat} {r : RateSet} {m : Material} {s : State} (h : s.price.active = some r)
    (hm : r.materials[item]? = some (some m)) : activeMaterial item s = some m := by
  rw [activeMaterial, h, Option.bind_some, hm, Option.getD_some]

theorem priceUnder_active (kind : LineKind) (key : LineKey) (value quantity : Nat) (s : State) :
    (priceUnder kind key value quantity s).price.active = s.price.active := by
  rw [priceUnder_price]

/-- The first test of DRAW MATERIAL, on its operands alone (R159). -/
theorem drawBad_iff {item quantity : Nat} :
    (!(inRange 0 31 item && inRange 1 99999 quantity)) = true ↔
      ¬ (item ≤ 31 ∧ 1 ≤ quantity ∧ quantity ≤ 99999) := by
  rw [Bool.not_eq_true', Bool.eq_false_iff, Ne, Bool.and_eq_true, inRange_eq_true, inRange_eq_true]
  simp only [Nat.zero_le, true_and]

theorem takeDrawMaterial_of_bad {item quantity : Nat} (h : ¬ (item ≤ 31 ∧ 1 ≤ quantity ∧ quantity ≤ 99999))
    (s : State) : takeDrawMaterial item quantity s = (s, .badArgument) :=
  if_pos (drawBad_iff.2 h)

section
variable {item quantity : Nat} {s : State} (h : item ≤ 31 ∧ 1 ≤ quantity ∧ quantity ≤ 99999)
include h

theorem takeDrawMaterial_of_noJob (hjob : s.jobs.state ≠ .opened) :
    takeDrawMaterial item quantity s = (s, .noJob) :=
  (if_neg fun hbad => drawBad_iff.1 hbad h).trans (if_pos hjob)

/-- In an OPEN job a draw in range is a matter of its item (R159). -/
theorem takeDrawMaterial_of_opened (hjob : s.jobs.state = .opened) :
    takeDrawMaterial item quantity s =
      match activeMaterial item s with
      | none => (s, .notFound)
      | some m => (priceDraw item quantity m.price s, drawReply (drawLine item s) (priceDraw item quantity m.price s)) :=
  (if_neg fun hbad => drawBad_iff.1 hbad h).trans (if_neg (not_not_intro hjob))

theorem takeDrawMaterial_of_undefined (hjob : s.jobs.state = .opened) (hitem : activeMaterial item s = none) :
    takeDrawMaterial item quantity s = (s, .notFound) := by
  rw [takeDrawMaterial_of_opened h hjob, hitem]

/-- A draw taken is priced under its key, and its reply names the line, what the line then holds, and the generation, which
the pricing leaves as it was (R160). -/
theorem takeDrawMaterial_of_defined {r : RateSet} {m : Material} (hjob : s.jobs.state = .opened)
    (hr : s.price.active = some r) (hm : r.materials[item]? = some (some m)) :
    let key : LineKey := { generation := r.generation, a := item, b := 0 }
    let line := lineFor .material key s
    let u := priceUnder .material key (quantity * m.price * 10) quantity s
    takeDrawMaterial item quantity s =
      (u, .ok (oct2 line ++ oct4 (((u.price.lines[line]?).map (·.amount)).getD 0) ++
        oct1 (((u.price.lines[line]?).map (·.residue)).getD 0) ++ oct2 r.generation)) := by
  intro key line u
  have hgen := activeGeneration_of_active hr
  have hdraw : priceDraw item quantity m.price s = u := by rw [priceDraw, hgen]
  have hline : drawLine item s = line := by rw [drawLine, hgen]
  have hkept : activeGeneration u = r.generation :=
    activeGeneration_of_active ((priceUnder_active _ _ _ _ s).trans hr)
  rw [takeDrawMaterial_of_opened h hjob, activeMaterial_of_active hr hm]
  dsimp only
  rw [hdraw, hline, drawReply, hkept]

end

/-! ## The billing unit (R154, log 5) -/

section
variable {c : Category} {s : State} {n : Nat} (h : s.bill.residues[categoryCode c]? = some n)
include h

theorem residueOf_of_residue : residueOf c s = n := by rw [residueOf, h, Option.getD_some]

theorem billUnit_of_residue_lt (hn : n < 36) : billUnit c s = s := by
  refine if_neg ?_
  rw [residueOf_of_residue h]
  exact Nat.not_le.2 hn

/-- A residue that stands at 36 or more gives one unit, at the time rate of the active set (R154). -/
theorem billUnit_of_residue_le {r : RateSet} (hn : 36 ≤ n) (hr : s.price.active = some r) :
    billUnit c s =
      priceUnder .time { generation := r.generation, a := categoryCode c, b := 0 }
        (r.times[categoryCode c]?.getD 0) 1
        { s with bill.residues := s.bill.residues.modify (categoryCode c) fun k => k - 36 } := by
  have hreached : Config.unitSeconds ≤ residueOf c s := by
    rw [residueOf_of_residue h]
    exact hn
  rw [billUnit, if_pos hreached, priceUnit, hr]
  rfl

end

/-- Settles O46: each request is its tests in the order of its rule and then its one change; the unit is the two cases of its
residue. -/
theorem categoriesDrawsAndUnits : Obligations.CategoriesDrawsAndUnits := by
  refine ⟨fun who s h => ⟨fun o => ?category, fun code hbad => ?noCategory, fun item quantity => ?draw⟩,
    fun c s n hrun hn => ?unit⟩
  case category => exact isAnswered_of_take h rfl rfl (takeSetCategory_code o _)
  case noCategory => exact isAnswered_of_take h rfl rfl (takeSetCategory_of_bad hbad _)
  case draw =>
    intro good
    refine ⟨fun hbad => isAnswered_of_take h rfl rfl (takeDrawMaterial_of_bad hbad _),
      fun hgood hjob => isAnswered_of_take h rfl rfl (takeDrawMaterial_of_noJob hgood hjob),
      fun hgood hjob hitem => isAnswered_of_take h rfl rfl (takeDrawMaterial_of_undefined hgood hjob hitem),
      fun hgood hjob r m hr hm => ?_⟩
    have taken := takeDrawMaterial_of_defined (s := taking (.drawMaterial who item quantity) s) hgood hjob hr hm
    exact ⟨_, rfl, isAnswered_of_take (f := fun _ => _) h rfl rfl taken⟩
  case unit =>
    have comes : comesTo (.billingUnit c) s (billUnit c s) := comesTo_event rfl hrun
    refine ⟨fun hlt => ?_, fun hle r hr => ?_⟩
    · rwa [billUnit_of_residue_lt hn hlt] at comes
    · rwa [billUnit_of_residue_le hn hle hr] at comes

end Sys2Proof.Machine
end

