-- ==== Sys2Proof/Proofs/IncidentTable.lean ====
section
/-! PROOFS. The incident table by the kinds that are pending (R166, R167): what a recording makes of a lawful table (O47), and
that a merge, a writing and a clearing leave it lawful. -/

namespace Sys2Proof.Machine

/-! ## The pending slots as a list of kinds (R166, R167) -/

section
variable {s t : State} {n : Nat}

theorem isSome_pendingKind (s : State) (n : Nat) : (pendingKind s n).isSome = slotPending s n := by
  unfold pendingKind slotPending
  rcases s.inc.slots[n]? with _ | _ | r
  · rfl
  · rfl
  · cases h : r.pending <;> simp [Option.filter, h]

theorem pendingKind_eq_some {k : IncidentKind} :
    pendingKind s n = some k ↔ ∃ r, s.inc.slots[n]? = some (some r) ∧ r.pending = true ∧ r.kind = k := by
  unfold pendingKind
  rcases s.inc.slots[n]? with _ | _ | r
  · simp
  · simp
  · cases h : r.pending <;> simp [Option.filter, h]

theorem pendingOfKind_iff {k : IncidentKind} {slot : Option Incident} :
    pendingOfKind k slot = true ↔ ∃ r, slot = some r ∧ r.pending = true ∧ r.kind = k := by
  cases slot <;> simp [pendingOfKind]

/-- A recording finds no slot to merge into exactly where no pending slot is of its kind (R167). -/
theorem findIdx?_pendingOfKind_eq_none {k : IncidentKind} :
    s.inc.slots.findIdx? (pendingOfKind k) = none ↔ ∀ n, pendingKind s n ≠ some k := by
  rw [List.findIdx?_eq_none_iff]
  constructor
  · intro hnone n hn
    obtain ⟨r, hr, hpending, hkind⟩ := pendingKind_eq_some.1 hn
    have hfound := pendingOfKind_iff.2 ⟨r, rfl, hpending, hkind⟩
    simp [hnone _ (List.mem_of_getElem? hr)] at hfound
  · intro hno slot hslot
    obtain ⟨n, hn⟩ := List.mem_iff_getElem?.1 hslot
    refine Bool.eq_false_iff.2 fun hfound => ?_
    obtain ⟨r, rfl, hpending, hkind⟩ := pendingOfKind_iff.1 hfound
    exact hno n (pendingKind_eq_some.2 ⟨r, hn, hpending, hkind⟩)

/-- The slot a recording merges into is pending and of its kind (R167). -/
theorem pendingKind_of_findIdx? {k : IncidentKind} (h : s.inc.slots.findIdx? (pendingOfKind k) = some n) :
    pendingKind s n = some k := by
  obtain ⟨hlt, hfound, -⟩ := List.findIdx?_eq_some_iff_getElem.1 h
  obtain ⟨r, hr, hpending, hkind⟩ := pendingOfKind_iff.1 hfound
  exact pendingKind_eq_some.2 ⟨r, by rw [List.getElem?_eq_getElem hlt, hr], hpending, hkind⟩

theorem pendingKind_lt {k : IncidentKind} (h : pendingKind s n = some k) : n < s.inc.slots.length := by
  obtain ⟨r, hr, -⟩ := pendingKind_eq_some.1 h
  exact (List.getElem?_eq_some_iff.1 hr).1

/-- A change of one slot changes that slot's pending kind alone. -/
theorem pendingKind_setAt {f : Option Incident → Option Incident} (ht : t.inc.slots = setAt s.inc.slots n f)
    (hn : n < s.inc.slots.length) (m : Nat) :
    pendingKind t m =
      if n = m then ((f s.inc.slots[n]).filter fun r => r.pending).map (·.kind) else pendingKind s m := by
  unfold pendingKind
  rw [ht, getElem?_setAt]
  split
  · next h => subst h; simp [hn]
  · rfl

/-! ## The search for a free slot (R168) -/

/-- The slot at a place of the circular order. -/
theorem freeSlot?_eq (s : State) :
    freeSlot? s = ((List.range 16).find? fun j => !slotPending s ((s.inc.lastWritten + 1 + j) % 16)).map
      fun j => (s.inc.lastWritten + 1 + j) % 16 := by
  unfold freeSlot? searchOrder
  rw [List.find?_map]
  rfl

theorem freeSlot?_eq_some {n : Nat} (h : freeSlot? s = some n) : n < 16 ∧ slotPending s n = false := by
  rw [freeSlot?_eq, Option.map_eq_some_iff] at h
  obtain ⟨j, hj, rfl⟩ := h
  exact ⟨Nat.mod_lt _ (by decide), by simpa using List.find?_some hj⟩

/-- The first free place of the circular order is the one written to. -/
theorem freeSlot?_of_first {j : Nat} (hj : j < 16)
    (hfree : slotPending s ((s.inc.lastWritten + 1 + j) % 16) = false)
    (hbefore : ∀ k < j, slotPending s ((s.inc.lastWritten + 1 + k) % 16) = true) :
    freeSlot? s = some ((s.inc.lastWritten + 1 + j) % 16) := by
  have hfirst : (List.range 16).find? (fun j => !slotPending s ((s.inc.lastWritten + 1 + j) % 16)) = some j :=
    List.find?_range_eq_some.2 ⟨by simpa using hfree, List.mem_range.2 hj, fun k hk => by simpa using hbefore k hk⟩
  rw [freeSlot?_eq, hfirst, Option.map_some]

theorem freeSlot?_of_full (h : ∀ n < 16, slotPending s n = true) : freeSlot? s = none := by
  have hnone : (List.range 16).find? (fun j => !slotPending s ((s.inc.lastWritten + 1 + j) % 16)) = none :=
    List.find?_eq_none.2 fun j _ => by simp [h _ (Nat.mod_lt (s.inc.lastWritten + 1 + j) (by decide : 16 > 0))]
  rw [freeSlot?_eq, hnone, Option.map_none]

end

/-! ## The law of the table in the pending kinds -/

/-- A change that leaves the list, the last written slot and each slot's pending kind keeps the law. -/
theorem incidentsLawful_of_kinds {s t : State} (hlen : t.inc.slots.length = s.inc.slots.length)
    (hlast : t.inc.lastWritten = s.inc.lastWritten) (horder : t.inc.order = s.inc.order)
    (hkind : ∀ n, pendingKind t n = pendingKind s n) (hs : incidentsLawful s) : incidentsLawful t := by
  unfold incidentsLawful at *
  simpa only [← isSome_pendingKind, hlen, hlast, horder, hkind] using hs

/-- A merge changes no pending kind (R167). -/
theorem mergeIncident_lawful {n : Nat} {s : State} (hn : n < s.inc.slots.length) (hs : incidentsLawful s) :
    incidentsLawful (mergeIncident n s) := by
  refine incidentsLawful_of_kinds (s := s) (by simp [mergeIncident]) rfl rfl (fun m => ?_) hs
  rw [pendingKind_setAt rfl hn]
  split
  · next h =>
    subst h
    rw [pendingKind, List.getElem?_eq_getElem hn, Option.getD_some]
    cases s.inc.slots[n] with
    | none => rfl
    | some r => cases hr : r.pending <;> simp [Option.filter, hr]
  · rfl

theorem writeIncident_slots (kind : IncidentKind) (a b n : Nat) (s : State) :
    (writeIncident kind a b n s).inc.slots = setAt s.inc.slots n fun _ =>
      some { kind := kind, first := s.flu.clock, last := s.flu.clock, hole := s.rods.holeDepth, detail1 := a,
             detail2 := b, repeats := 1, pending := true } := notify_slots .incident _

theorem writeIncident_order (kind : IncidentKind) (a b n : Nat) (s : State) :
    (writeIncident kind a b n s).inc.order = s.inc.order ++ [n] := notify_order .incident _

theorem writeIncident_lastWritten (kind : IncidentKind) (a b n : Nat) (s : State) :
    (writeIncident kind a b n s).inc.lastWritten = n := notify_lastWritten .incident _

/-- A record of a kind not pending, written into a free slot, joins the pending list (R168). -/
theorem writeIncident_lawful {kind : IncidentKind} {a b n : Nat} {s : State} (hn : n < 16)
    (hfree : slotPending s n = false) (hkind : ∀ m, pendingKind s m ≠ some kind) (hs : incidentsLawful s) :
    incidentsLawful (writeIncident kind a b n s) := by
  obtain ⟨hlen, -, hnodup, hlt, hmem, hinj⟩ := hs
  have kinds : ∀ m, pendingKind (writeIncident kind a b n s) m = if n = m then some kind else pendingKind s m :=
    fun m => pendingKind_setAt (writeIncident_slots kind a b n s) (hlen ▸ hn) m
  have hnew : n ∉ s.inc.order := fun h => by simp [(hmem n hn).1 h] at hfree
  have horder := writeIncident_order kind a b n s
  refine ⟨by simpa [writeIncident_slots] using hlen, by rwa [writeIncident_lastWritten], ?_, ?_, fun m hm => ?_,
    fun m hm k hk heq hsome => ?_⟩
  · rw [horder]
    exact hnodup.append (List.nodup_singleton n) (by simpa using hnew)
  · rw [horder]
    intro m hm
    obtain hm | hm := List.mem_append.1 hm
    · exact hlt m hm
    · exact List.mem_singleton.1 hm ▸ hn
  · rw [horder, ← isSome_pendingKind, kinds, List.mem_append, hmem m hm, List.mem_singleton, ← isSome_pendingKind]
    split
    · next h => simp [h]
    · next h => simp [Ne.symm h]
  · rw [kinds, kinds] at heq
    rw [kinds] at hsome
    split at heq
    · split at heq
      · next h h' => exact h.symm.trans h'
      · exact absurd heq.symm (hkind k)
    · next h =>
      rw [if_neg h] at hsome
      split at heq
      · exact absurd heq (hkind m)
      · exact hinj m hm k hk heq hsome

/-- The state whose slot is no longer pending, before the joint controller is told (R170). -/
def withoutPending (n : Nat) (s : State) : State :=
  { s with inc.slots := setAt s.inc.slots n fun slot => slot.map fun r => { r with pending := false },
           inc.order := s.inc.order.filter fun m => decide (m ≠ n) }

theorem clearSlot_eq (n : Nat) (s : State) : clearSlot n s = heldSlotCleared n (withoutPending n s) := rfl

/-- A slot no longer pending has left the pending list (R170). -/
theorem withoutPending_lawful {n : Nat} {s : State} (hn : n < 16) (hs : incidentsLawful s) :
    incidentsLawful (withoutPending n s) := by
  obtain ⟨hlen, hlastlt, hnodup, hlt, hmem, hinj⟩ := hs
  have kinds : ∀ m, pendingKind (withoutPending n s) m = if n = m then none else pendingKind s m := fun m => by
    have hchange := pendingKind_setAt (t := withoutPending n s) rfl (hlen ▸ hn) m
    rw [hchange]
    cases s.inc.slots[n] <;> rfl
  have horder : (withoutPending n s).inc.order = s.inc.order.filter fun m => decide (m ≠ n) := rfl
  refine ⟨by simpa [withoutPending] using hlen, hlastlt, hnodup.filter _, fun m hm => hlt m (List.mem_of_mem_filter hm),
    fun m hm => ?_, fun m hm k hk heq hsome => ?_⟩
  · rw [horder, ← isSome_pendingKind, kinds, List.mem_filter, hmem m hm, ← isSome_pendingKind]
    split
    · next h => simp [h]
    · next h => simp [Ne.symm h]
  · rw [kinds, kinds] at heq
    rw [kinds] at hsome
    split at heq
    · next h => simp [h] at hsome
    · next h =>
      rw [if_neg h] at hsome
      split at heq
      · simp [heq] at hsome
      · exact hinj m hm k hk heq hsome

/-! ## A recording (O47) -/

/-- What a lawful table makes of a recording of a pending kind (R167). -/
theorem recordIncident_of_pending {kind : IncidentKind} {n : Nat} {s : State} (hs : incidentsLawful s)
    (hn : pendingKind s n = some kind) (a b : Nat) : recordIncident kind a b s = (mergeIncident n s, some n) := by
  obtain ⟨hlen, -, -, -, -, hinj⟩ := hs
  cases hfind : s.inc.slots.findIdx? (pendingOfKind kind) with
  | none => exact absurd hn (findIdx?_pendingOfKind_eq_none.1 hfind n)
  | some m =>
    have hm := pendingKind_of_findIdx? hfind
    obtain rfl : m = n := hinj m (hlen ▸ pendingKind_lt hm) n (hlen ▸ pendingKind_lt hn) (hm.trans hn.symm)
      (by simp [hm])
    simp [recordIncident, hfind]

/-! A recording of a kind not pending, by the overflow flag and the search (R168). -/

section
variable {kind : IncidentKind} {s : State} (h : ∀ n, pendingKind s n ≠ some kind) (a b : Nat)
include h

theorem recordIncident_lost (hover : s.inc.overflow = true) : recordIncident kind a b s = (s, none) := by
  simp [recordIncident, findIdx?_pendingOfKind_eq_none.2 h, hover]

theorem recordIncident_overflows (hover : s.inc.overflow = false) (hfull : freeSlot? s = none) :
    recordIncident kind a b s = (notify .incident { s with inc.overflow := true }, none) := by
  simp [recordIncident, findIdx?_pendingOfKind_eq_none.2 h, hover, hfull]

theorem recordIncident_written {n : Nat} (hover : s.inc.overflow = false) (hfree : freeSlot? s = some n) :
    recordIncident kind a b s = (writeIncident kind a b n s, some n) := by
  simp [recordIncident, findIdx?_pendingOfKind_eq_none.2 h, hover, hfree]

end

/-- The merged slot written out. -/
theorem mergeIncident_of_slot {n : Nat} {r : Incident} {s : State} (hr : s.inc.slots[n]? = some (some r)) :
    mergeIncident n s =
      { s with
        inc.slots := s.inc.slots.modify n fun _ =>
          some { r with repeats := min (r.repeats + 1) 255, last := s.flu.clock } } := by
  have hslots : setAt s.inc.slots n (fun slot => slot.map fun r =>
      { r with repeats := min (r.repeats + 1) 255, last := s.flu.clock }) =
      s.inc.slots.modify n fun _ => some { r with repeats := min (r.repeats + 1) 255, last := s.flu.clock } := by
    refine List.ext_getElem? fun m => ?_
    rw [setAt, List.getElem?_modify, List.getElem?_modify]
    split
    · next h => subst h; rw [hr]; rfl
    · rfl
  rw [mergeIncident, hslots]

/-- Settles O47: the three ends of a recording, each in its own equation. -/
theorem aRecordingMergesIsWrittenOrOverflows : Obligations.ARecordingMergesIsWrittenOrOverflows := by
  intro kind d1 d2 s hs
  refine ⟨fun n r hr hpending hkind => ?merged, fun hno => ?_⟩
  case merged =>
    rw [recordIncident_of_pending hs (pendingKind_eq_some.2 ⟨r, hr, hpending, hkind⟩) d1 d2]
    exact ⟨rfl, mergeIncident_of_slot hr⟩
  have hnone : ∀ n, pendingKind s n ≠ some kind := fun n hn => by
    obtain ⟨r, hr, hpending, hkind⟩ := pendingKind_eq_some.1 hn
    exact hno n r hr hpending hkind
  refine ⟨fun hover => ?lost, fun hover => ⟨fun hfull => ?overflow, fun j hj hfree hbefore => ?written⟩⟩
  case lost =>
    rw [recordIncident_lost hnone d1 d2 hover]
    exact ⟨rfl, rfl⟩
  case overflow =>
    rw [recordIncident_overflows hnone d1 d2 hover (freeSlot?_of_full hfull)]
    exact ⟨rfl, by simp, by simp, by simp, notify_setsFlag .incident _⟩
  case written =>
    rw [recordIncident_written hnone d1 d2 hover (freeSlot?_of_first hj hfree hbefore)]
    exact ⟨rfl, writeIncident_lastWritten _ _ _ _ s, writeIncident_order _ _ _ _ s,
      (notify_overflow .incident _).trans hover, writeIncident_slots _ _ _ _ s, notify_setsFlag .incident _⟩

end Sys2Proof.Machine
end

