-- ==== Sys2Proof/Proofs/IncidentKeeps.lean ====
section
/-! PROOFS. The relation KeepsTable: the second of two incident tables is lawful if the first is. A recording keeps the law, and every
event is made of recordings and of changes that the law does not see. -/

namespace Sys2Proof.Machine

/-! ## The law from one state to another -/

/-- What the law of the incident table sees. -/
@[simp] def tableView (s : State) : List (Option Incident) × Nat × List Nat :=
  (s.inc.slots, s.inc.lastWritten, s.inc.order)

theorem incidentsLawful_congr {s t : State} (h : tableView t = tableView s) (hs : incidentsLawful s) :
    incidentsLawful t := by
  simp only [tableView, Prod.mk.injEq] at h
  obtain ⟨hslots, hlast, horder⟩ := h
  exact incidentsLawful_of_kinds (by rw [hslots]) hlast horder (fun n => by rw [pendingKind, hslots, pendingKind]) hs

/-- The second table is lawful if the first is. -/
def KeepsTable (s t : State) : Prop := incidentsLawful s → incidentsLawful t

theorem KeepsTable.refl (s : State) : KeepsTable s s := id

theorem KeepsTable.trans {s t u : State} (h : KeepsTable s t) (k : KeepsTable t u) : KeepsTable s u := fun hs => k (h hs)

/-- A change that the law does not see. -/
theorem KeepsTable.unseen {s t : State} (h : tableView t = tableView s) : KeepsTable s t := incidentsLawful_congr h

/-- A change that the law does not see, and then one that keeps it. -/
theorem KeepsTable.after_unseen {s t u : State} (k : KeepsTable t u) (h : tableView t = tableView s) : KeepsTable s u :=
  (KeepsTable.unseen h).trans k

theorem KeepsTable.repeatTimes {f : State → State} (hf : ∀ s, KeepsTable s (f s)) (n : Nat) (s : State) :
    KeepsTable s (repeatTimes f n s) := by
  induction n generalizing s with
  | zero => exact .refl s
  | succ n ih => exact (hf s).trans (ih (f s))

/-! ## Events and recordings (R167, R168, R174) -/

theorem notify_keepsTable (c : NoticeClass) (s : State) : KeepsTable s (notify c s) := .unseen (by simp)

/-- A recording keeps the law: it merges into the one pending slot of its kind, or is written into a slot that is free. -/
theorem recordIncident_keepsTable (kind : IncidentKind) (a b : Nat) (s : State) :
    KeepsTable s (recordIncident kind a b s).1 := by
  obtain ⟨n, hfind, h⟩ | ⟨hfind, ⟨-, h⟩ | ⟨-, -, h⟩ | ⟨n, -, hfree, h⟩⟩ := recordIncident_cases kind a b s <;> rw [h]
  · exact mergeIncident_lawful (pendingKind_lt (pendingKind_of_findIdx? hfind))
  · exact .refl s
  · exact .after_unseen (notify_keepsTable .incident _) rfl
  · obtain ⟨hlt, hclear⟩ := freeSlot?_eq_some hfree
    exact writeIncident_lawful hlt hclear (findIdx?_pendingOfKind_eq_none.1 hfind)

theorem record_keepsTable (kind : IncidentKind) (a b : Nat) (s : State) : KeepsTable s (record kind a b s) :=
  recordIncident_keepsTable kind a b s

theorem recordSaturation_keepsTable (counter before after : Nat) (s : State) :
    KeepsTable s (recordSaturation counter before after s) := by
  unfold recordSaturation
  split
  · exact record_keepsTable _ _ _ s
  · exact .refl s

/-! ## The strata log and the pricing unit -/

theorem nextInterval_keepsTable (d cls : Nat) (o : Origin) (s : State) : KeepsTable s (nextInterval d cls o s) := by
  unfold nextInterval
  split
  · exact (record_keepsTable .strataLogFull d cls s).trans (.unseen rfl)
  · exact .unseen (by simp [appendInterval])

theorem relabel_keepsTable (cls : Nat) (o : Origin) (s : State) : KeepsTable s (relabel cls o s) :=
  .unseen (by simp [relabel])

/-- The placement of a mark records STRATA_LOG_FULL at most (R116 to R119). -/
theorem placement_keepsTable (d : Nat) : PlacementKeeps d incidentsLawful where
  next cls o := nextInterval_keepsTable d cls o _
  relabelled cls o := relabel_keepsTable cls o _
  added _ hs := hs
  drains hs := hs

theorem applyFormation_keepsTable (cls : Nat) (s : State) : KeepsTable s (applyFormation cls s) := by
  unfold applyFormation
  split
  · exact .unseen rfl
  · exact (nextInterval_keepsTable _ _ _ s).trans (.unseen rfl)
  · exact (nextInterval_keepsTable _ _ _ s).trans (.unseen rfl)
  · exact (relabel_keepsTable _ _ s).trans (.unseen rfl)

theorem autoStrike_keepsTable (gain : Nat) (s : State) : KeepsTable s (autoStrike gain s) := by
  unfold autoStrike
  split
  · exact record_keepsTable _ _ _ s
  · exact .unseen (by simp [recordStrike])

theorem priceInto_keepsTable (i v q : Nat) (s : State) : KeepsTable s (priceInto i v q s) := by
  unfold priceInto
  dsimp only
  split
  · exact .after_unseen ((record_keepsTable _ _ _ _).trans (.unseen rfl)) rfl
  · exact .unseen rfl

theorem priceUnder_keepsTable (k : LineKind) (key : LineKey) (v q : Nat) (s : State) :
    KeepsTable s (priceUnder k key v q s) := by
  unfold priceUnder
  split
  · exact priceInto_keepsTable _ _ _ s
  · split
    · exact .after_unseen (priceInto_keepsTable _ _ _ _) rfl
    · exact (priceInto_keepsTable _ _ _ s).trans (record_keepsTable _ _ _ _)

theorem priceMark_keepsTable (m : Mark) (cls : Nat) (s : State) : KeepsTable s (priceMark m cls s) := by
  unfold priceMark
  split
  · exact priceUnder_keepsTable _ _ _ _ s
  · exact .refl s

theorem billUnit_keepsTable (c : Category) (s : State) : KeepsTable s (billUnit c s) := by
  unfold billUnit priceUnit
  split
  · split
    · exact .after_unseen (priceUnder_keepsTable _ _ _ _ _) rfl
    · exact .unseen rfl
  · exact .refl s

/-! ## The lag tracker and the swap -/

theorem retireUnchecked_keepsTable (k : RetireCause) (m : Mark) (rest : List Mark) (s : State) :
    KeepsTable s (retireUnchecked k m rest s) := by
  have placed : KeepsTable (removeOldest m rest s) (placeMark k m (removeOldest m rest s)) :=
    (placement_keepsTable m.top).placeMark k
  exact .after_unseen (placed.trans (priceMark_keepsTable _ _ _)) rfl

theorem forceOldest_keepsTable (s : State) : KeepsTable s (forceOldest s) := by
  have marked : ∀ u : State, KeepsTable u (markOverrunSeen u) := fun u => .unseen (by simp)
  unfold forceOldest
  split
  · exact .refl s
  · exact (retireUnchecked_keepsTable _ _ _ s).trans ((record_keepsTable _ _ _ _).trans (marked _))

theorem recordLagClamp_keepsTable (d : Nat) (s : State) : KeepsTable s (recordLagClamp d s) := by
  unfold recordLagClamp
  split
  · exact record_keepsTable _ _ _ s
  · exact .refl s

theorem appendMark_keepsTable (d : Nat) (s : State) : KeepsTable s (appendMark d s) :=
  (recordLagClamp_keepsTable d s).trans (.unseen rfl)

theorem layMark_keepsTable (d : Nat) (s : State) : KeepsTable s (layMark d s) := by
  unfold layMark
  split
  · split
    · exact (forceOldest_keepsTable s).trans (appendMark_keepsTable d _)
    · exact appendMark_keepsTable d s
  · exact .refl s

theorem swapCheck_keepsTable (s : State) : KeepsTable s (swapCheck s) := by
  have rotated : ∀ u : State, KeepsTable u (rotateSets u) := fun u => .after_unseen (notify_keepsTable _ _) rfl
  unfold swapCheck
  split
  · exact (layMark_keepsTable _ s).trans (rotated _)
  · exact .refl s

/-- The lag tracker keeps the law. -/
theorem lagKeeps_table : LagKeeps incidentsLawful where
  retired k _ _ _ _ := retireUnchecked_keepsTable k _ _ _
  laid := layMark_keepsTable _ _
  swapped := swapCheck_keepsTable _

theorem closeSpan_keepsTable (s : State) : KeepsTable s (closeSpan s) := lagKeeps_table.closeSpan

theorem totalLossChange_keepsTable (s : State) : KeepsTable s (totalLossChange s) := by
  unfold totalLossChange
  split
  · split
    · exact closeSpan_keepsTable s
    · exact .unseen rfl
  · exact .refl s

theorem layBoundaries_keepsTable (fuel d : Nat) (s : State) : KeepsTable s (layBoundaries fuel d s).1 := by
  induction fuel generalizing s with
  | zero => exact .refl s
  | succ fuel ih =>
    unfold layBoundaries
    dsimp only
    split
    · exact (layMark_keepsTable _ s).trans (ih _)
    · exact .refl s

theorem lagAdvance_keepsTable (d : Nat) (s : State) : KeepsTable s (lagAdvance d s) := by
  have laid := layBoundaries_keepsTable (d - s.lag.spanTop) d s
  unfold lagAdvance
  dsimp only
  split
  · exact laid.trans (swapCheck_keepsTable _)
  · exact laid

theorem retireArrived_keepsTable (fuel : Nat) (s : State) : KeepsTable s (retireArrived fuel s) := by
  induction fuel generalizing s with
  | zero => exact .refl s
  | succ fuel ih =>
    unfold retireArrived
    split
    · exact .refl s
    · split
      · exact (retireUnchecked_keepsTable _ _ _ s).trans ((swapCheck_keepsTable _).trans (ih _))
      · exact .refl s

theorem takeTrigger_keepsTable (t : Trigger) (s : State) : KeepsTable s (takeTrigger t s) := by
  unfold takeTrigger
  split
  · exact .after_unseen (swapCheck_keepsTable _) rfl
  · exact .refl s

theorem commit_keepsTable (t : Trigger) (s : State) : KeepsTable s (commit t s) := by
  unfold commit
  split
  · exact .after_unseen (swapCheck_keepsTable _) rfl
  · exact .unseen rfl

theorem dayBoundary_keepsTable (s : State) : KeepsTable s (dayBoundary s) :=
  (takeTrigger_keepsTable _ s).trans (notify_keepsTable _ _)

/-! ## Depth and the joint controller -/

theorem holeAdvance_keepsTable (s : State) : KeepsTable s (holeAdvance s) := by
  have handed : ∀ u : State, KeepsTable u (handAdvance u) := fun u => by
    unfold handAdvance
    split
    · exact (lagAdvance_keepsTable _ u).trans (.unseen rfl)
    · exact .refl u
  have footage : ∀ (n : Nat) (u : State), KeepsTable u (addFootage n u) := fun n u =>
    .after_unseen (recordSaturation_keepsTable _ _ _ _) rfl
  unfold holeAdvance
  split
  · exact .after_unseen ((footage _ _).trans (handed _)) rfl
  · exact .refl s

theorem recompute_keepsTable (head : Nat) (s : State) : KeepsTable s (recompute head s) :=
  .after_unseen (holeAdvance_keepsTable _) rfl

theorem enterJoint_keepsTable (j : JointState) (s : State) : KeepsTable s (enterJoint j s) :=
  .after_unseen (notify_keepsTable _ _) rfl

theorem enterReady_keepsTable (s : State) : KeepsTable s (enterReady s) := by
  have recomputed : ∀ u : State, KeepsTable u (recomputeAtReady u) := fun u => by
    unfold recomputeAtReady
    split
    · exact .refl u
    · exact recompute_keepsTable _ u
  exact (enterJoint_keepsTable _ s).trans (recomputed _)

theorem clearArmToReady_keepsTable (s : State) : KeepsTable s (clearArmToReady s) :=
  .after_unseen (enterReady_keepsTable _) rfl

theorem endBreakPermit_keepsTable (s : State) : KeepsTable s (endBreakPermit s) :=
  .after_unseen (enterReady_keepsTable _) rfl

theorem readTag_keepsTable (id : Nat) (s : State) : KeepsTable s (readTag id s) := by
  have ready : KeepsTable s (readTagReady id s) := by
    unfold readTagReady
    split
    · exact record_keepsTable _ _ _ s
    · split
      · exact record_keepsTable _ _ _ s
      all_goals
        split
        · exact record_keepsTable _ _ _ s
        · split
          · exact record_keepsTable _ _ _ s
          · exact .unseen (by simp [loadRod, enterJoint])
  unfold readTag
  split
  · exact ready
  · split
    · split
      · exact .refl s
      · exact record_keepsTable _ _ _ s
    · exact .refl s
  all_goals exact .refl s

theorem handJointMade_keepsTable (s : State) : KeepsTable s (handJointMade s) :=
  (takeTrigger_keepsTable _ s).trans (.unseen rfl)

/-- An incident recorded for a joint that is then HELD and accounted as made (R94, R96). -/
theorem heldJoint_keepsTable (kind : IncidentKind) (a b : Nat) (s : State) :
    KeepsTable s (handJointMade (clearArmToHeld (recordIncident kind a b s).2 (recordIncident kind a b s).1)) := by
  have held : ∀ (ref : Option Nat) (u : State), KeepsTable u (clearArmToHeld ref u) := fun ref u =>
    .after_unseen (enterJoint_keepsTable _ _) rfl
  exact (recordIncident_keepsTable kind a b s).trans ((held _ _).trans (handJointMade_keepsTable _))

theorem jointBypass_keepsTable (peak : Nat) (s : State) : KeepsTable s (jointBypass peak s) := by
  unfold jointBypass
  dsimp only
  split
  · exact .after_unseen ((record_keepsTable _ _ _ _).trans (heldJoint_keepsTable _ _ _ _)) (by simp)
  · exact .after_unseen (heldJoint_keepsTable _ _ _ _) (by simp)

theorem jointBroken_keepsTable (peak : Nat) (s : State) : KeepsTable s (jointBroken peak s) := by
  unfold jointBroken
  split
  · exact .unseen (by simp [enterJoint])
  · exact .refl s

theorem endEpisode_keepsTable (e : Episode) (s : State) : KeepsTable s (endEpisode e s) := by
  have applied : ∀ (o : EpisodeOutcome) (u : State), KeepsTable u (applyOutcome o e.peak u) := by
    intro o u
    cases o with
    | made =>
      exact .after_unseen ((clearArmToReady_keepsTable _).trans (handJointMade_keepsTable _)) (by simp)
    | overtorque => exact .after_unseen (heldJoint_keepsTable _ _ _ _) (by simp)
    | short => exact record_keepsTable _ _ _ u
    | bypass => exact jointBypass_keepsTable _ u
    | stray => exact record_keepsTable _ _ _ u
    | broken => exact jointBroken_keepsTable _ u
    | ignored => exact .refl u
  exact .after_unseen (applied _ _) rfl

theorem expireBreakPermit_keepsTable (s : State) : KeepsTable s (expireBreakPermit s) := by
  unfold expireBreakPermit
  split
  · exact endBreakPermit_keepsTable s
  · exact .refl s

theorem jointTick_keepsTable (s : State) : KeepsTable s (jointTick s) := by
  unfold jointTick
  split
  · exact .after_unseen (expireBreakPermit_keepsTable _) rfl
  · exact .refl s

/-! ## The circulation monitor -/

theorem enterCirc_keepsTable (new : CircState) (mask : PumpMask) (s : State) : KeepsTable s (enterCirc new mask s) := by
  have changed : KeepsTable s (notify .circulation (commandEnables { s with circ := s.circ.entered new mask })) :=
    .after_unseen (notify_keepsTable _ _) rfl
  unfold enterCirc
  dsimp only
  split
  · exact changed.trans ((totalLossChange_keepsTable _).trans (.unseen rfl))
  · exact changed.trans (.unseen rfl)

theorem completePrime_keepsTable (s : State) : KeepsTable s (completePrime s) := by
  unfold completePrime
  split
  · exact enterCirc_keepsTable _ _ s
  · exact .refl s

theorem checkStaticFlow_keepsTable (s : State) : KeepsTable s (checkStaticFlow s) := by
  unfold checkStaticFlow
  split
  · exact (record_keepsTable _ _ _ s).trans (.unseen rfl)
  · exact .refl s

theorem pumpedLitre_keepsTable (s : State) : KeepsTable s (pumpedLitre s) := by
  have lag : ∀ u : State, KeepsTable u (lagLitre u) := fun u =>
    .after_unseen ((recordSaturation_keepsTable _ _ _ _).trans (retireArrived_keepsTable _ _)) rfl
  have counted : KeepsTable s
      (recordSaturation 0 s.circ.vp (litre s.circ.vp) { s with circ.vp := litre s.circ.vp }) :=
    .after_unseen (recordSaturation_keepsTable _ _ _ _) rfl
  have binned : ∀ u : State, KeepsTable u (if u.circ.state.binsRun then
      { u with circ.openBin.pumped := satAdd Config.binMax u.circ.openBin.pumped 1 } else u) := fun u => by
    split
    · exact .unseen rfl
    · exact .refl u
  have carried : ∀ u : State, KeepsTable u (if u.circ.state.lagCarrying then lagLitre u else u) := fun u => by
    split
    · exact lag u
    · exact .refl u
  exact counted.trans ((binned _).trans (carried _))

theorem returnedLitre_keepsTable (s : State) : KeepsTable s (returnedLitre s) := by
  have effects : ∀ u : State, KeepsTable u (returnedEffects u) := fun u => by
    unfold returnedEffects
    split
    · exact .after_unseen (completePrime_keepsTable _) rfl
    · split
      · exact .after_unseen (checkStaticFlow_keepsTable _) rfl
      · exact .refl u
  have counted : KeepsTable s
      (recordSaturation 1 s.circ.vr (litre s.circ.vr) { s with circ.vr := litre s.circ.vr }) :=
    .after_unseen (recordSaturation_keepsTable _ _ _ _) rfl
  unfold returnedLitre
  refine counted.trans ?_
  dsimp only
  split
  · exact .after_unseen (effects _) rfl
  · exact effects _

theorem acceptPulse_keepsTable (i : PulseInput) (s : State) : KeepsTable s (acceptPulse i s) := by
  have struck : ∀ p : Pump, KeepsTable s (stroke p s) := fun p => by
    have enabled : KeepsTable s (checkEnable p s) := by
      unfold checkEnable
      split
      · exact .refl s
      · exact record_keepsTable _ _ _ s
    exact enabled.trans (.after_unseen (.repeatTimes pumpedLitre_keepsTable _ _) rfl)
  cases i with
  | a => exact struck .a
  | b => exact struck .b
  | r => exact .after_unseen (.repeatTimes returnedLitre_keepsTable _ _) rfl

theorem pulseActivity_keepsTable (i : PulseInput) (spans : List LineSpan) (s : State) :
    KeepsTable s (pulseActivity i spans s) :=
  .after_unseen (.repeatTimes (acceptPulse_keepsTable i) _ _) (by simp)

theorem checkGain_keepsTable (p r : Nat) (s : State) : KeepsTable s (checkGain p r s) := by
  have gained : KeepsTable s (notify .circulation (record .flowGain (r - p) p { s with circ.gainEpisode := true })) :=
    .after_unseen ((record_keepsTable _ _ _ _).trans (notify_keepsTable _ _)) rfl
  unfold checkGain
  split
  · split
    · exact .refl s
    · dsimp only
      split
      · exact gained.trans (autoStrike_keepsTable _ _)
      · exact gained
  · split
    · exact .unseen rfl
    · exact .refl s

theorem testRuns_keepsTable (p r : Nat) (s : State) : KeepsTable s (testRuns p r s) := by
  have lost : KeepsTable s (enterTotalLoss p r s) := (enterCirc_keepsTable _ _ s).trans (record_keepsTable _ _ _ _)
  have entered : ∀ new, KeepsTable s (enterCircKept new s) := fun new => enterCirc_keepsTable _ _ s
  unfold testRuns
  split
  · split
    · exact lost
    · split
      · exact (entered _).trans (record_keepsTable _ _ _ _)
      · exact .refl s
  · split
    · exact lost
    · split
      · exact entered _
      · exact .refl s
  · split
    · split
      · exact entered _
      · exact entered _
    · exact .refl s
  all_goals exact .refl s

theorem evaluate_keepsTable (s : State) : KeepsTable s (evaluate s) := by
  unfold evaluate
  dsimp only
  split
  · exact .after_unseen ((checkGain_keepsTable _ _ _).trans (testRuns_keepsTable _ _ _)) rfl
  · exact .unseen rfl

theorem takeBinTick_keepsTable (s : State) : KeepsTable s (takeBinTick s) := by
  have joined : ∀ (n : Nat) (u : State), KeepsTable u (spanLossLitres n u) := fun n u => .unseen (by simp)
  have loss : KeepsTable s (handLoss s.circ.openBin (closeBin s)) := by
    unfold handLoss
    split
    · exact .after_unseen ((recordSaturation_keepsTable _ _ _ _).trans (joined _ _)) rfl
    · exact .unseen rfl
  unfold takeBinTick
  split
  · dsimp only
    split
    · exact loss.trans (evaluate_keepsTable _)
    · exact loss
  · exact .refl s

theorem confirmBleed_keepsTable (s : State) : KeepsTable s (confirmBleed s) := by
  unfold confirmBleed
  split
  · exact enterCirc_keepsTable _ _ s
  · exact .refl s

theorem expireStop_keepsTable (s : State) : KeepsTable s (expireStop s) := by
  unfold expireStop
  split
  · exact (enterCirc_keepsTable _ _ s).trans (record_keepsTable _ _ _ _)
  · exact .refl s

theorem expirePrime_keepsTable (s : State) : KeepsTable s (expirePrime s) := by
  unfold expirePrime
  split
  · exact (enterCirc_keepsTable _ _ s).trans (record_keepsTable _ _ _ _)
  · exact .refl s

theorem circulationTick_keepsTable (s : State) : KeepsTable s (circulationTick s) := by
  unfold circulationTick
  split
  · exact .after_unseen (expirePrime_keepsTable _) rfl
  · exact .after_unseen ((confirmBleed_keepsTable _).trans (expireStop_keepsTable _)) rfl
  all_goals exact .refl s

/-! ## Events -/

theorem clockTick_keepsTable (s : State) : KeepsTable s (clockTick s) := by
  unfold clockTick
  dsimp only
  split
  · split
    · exact .unseen rfl
    · exact .after_unseen (dayBoundary_keepsTable _) rfl
  · exact .unseen rfl

theorem billingTick_keepsTable (s : State) : KeepsTable s (billingTick s) := by
  have counted : ∀ c, KeepsTable s (countSecond c s) := fun c => by
    have billed : KeepsTable s (billUnit c (countCategory c s)) := .after_unseen (billUnit_keepsTable _ _) rfl
    unfold countSecond
    dsimp only
    split
    · exact billed.trans (.unseen (by simp))
    · exact billed.trans (.unseen rfl)
  unfold billingTick
  dsimp only
  split
  · exact (counted _).trans (.unseen rfl)
  · exact .unseen rfl

theorem secondTick_keepsTable (s : State) : KeepsTable s (secondTick s) := by
  have phase : ∀ u : State, KeepsTable u (phaseTick u) := fun u => by
    unfold phaseTick
    split
    · dsimp only
      split
      · exact .unseen rfl
      · exact .after_unseen (takeBinTick_keepsTable _) rfl
    · exact .unseen rfl
  exact (clockTick_keepsTable s).trans ((circulationTick_keepsTable _).trans ((jointTick_keepsTable _).trans
    ((billingTick_keepsTable _).trans (phase _))))

theorem earlyBinTick_keepsTable (s : State) : KeepsTable s (earlyBinTick s) := by
  unfold earlyBinTick
  split
  · exact .after_unseen (takeBinTick_keepsTable _) rfl
  · exact .refl s

theorem loadSample_keepsTable (good : Option Nat) (s : State) : KeepsTable s (loadSample good s) := by
  unfold loadSample
  split
  · exact .refl s
  · split
    · split
      · split
        · exact .refl s
        · exact .after_unseen (record_keepsTable _ _ _ _) rfl
      · exact .unseen rfl
    · exact .unseen rfl

theorem heightSample_keepsTable (good : Option Nat) (s : State) : KeepsTable s (heightSample good s) := by
  unfold heightSample
  split
  · split
    · exact recompute_keepsTable _ s
    · exact .refl s
  · exact .refl s

theorem torqueSample_keepsTable (good : Option Nat) (s : State) : KeepsTable s (torqueSample good s) := by
  unfold torqueSample
  split
  · exact .refl s
  · split
    · split
      · exact .unseen rfl
      · exact .refl s
    · split
      · exact .unseen rfl
      · split
        · exact endEpisode_keepsTable _ s
        · exact .refl s

theorem jointPressure_keepsTable (good : Option Nat) (s : State) : KeepsTable s (jointPressure good s) := by
  unfold jointPressure
  split
  · split
    · split
      · exact endBreakPermit_keepsTable s
      · exact .refl s
    · exact endBreakPermit_keepsTable s
  · exact .refl s

theorem sample_keepsTable (ch : Channel) (current : Nat) (s : State) : KeepsTable s (sample ch current s) := by
  have faulted : ∀ (was : ChannelState) (u : State), KeepsTable u (recordFault ch current was u) := fun was u => by
    unfold recordFault
    split
    · exact record_keepsTable _ _ _ u
    · exact .refl u
  have delivered : ∀ (good : Option Nat) (u : State), KeepsTable u (deliverSample ch good u) := fun good u => by
    cases ch with
    | pressure => exact .after_unseen (jointPressure_keepsTable _ _) (by simp)
    | load => exact loadSample_keepsTable _ u
    | height => exact heightSample_keepsTable _ u
    | torque => exact torqueSample_keepsTable _ u
  exact .after_unseen ((faulted _ _).trans (delivered _ _)) (by simp)

theorem readerChars_keepsTable (chars : List ReaderChar) (s : State) : KeepsTable s (readerChars chars s) := by
  have one : ∀ (c : ReaderChar) (u : State), KeepsTable u (readerChar c u) := fun c u => by
    unfold readerChar
    split
    · split
      · exact .unseen rfl
      · exact .refl u
    · split
      · exact .unseen rfl
      · dsimp only
        split
        · exact .after_unseen (readTag_keepsTable _ _) rfl
        · exact .unseen rfl
  induction chars generalizing s with
  | nil => exact .refl s
  | cons c rest ih => exact (one c s).trans (ih _)

/-! ## The job controller and the store -/

theorem enterJob_keepsTable (j : JobState) (s : State) : KeepsTable s (enterJob j s) :=
  .after_unseen (notify_keepsTable _ _) rfl

theorem endOperation_keepsTable (n : Nat) (k : StoreSlot) (s : State) : KeepsTable s (endOperation n k s) :=
  .after_unseen (notify_keepsTable _ _) rfl

theorem leaveUnfiled_keepsTable (o : FilingOutcome) (s : State) : KeepsTable s (leaveUnfiled o s) :=
  .after_unseen (enterJob_keepsTable _ _) rfl

theorem failOperation_keepsTable (n : Nat) (s : State) : KeepsTable s (failOperation n s) :=
  .after_unseen (endOperation_keepsTable _ _ _) rfl

theorem writeSucceeds_keepsTable (s : State) : KeepsTable s (writeSucceeds s) := by
  unfold writeSucceeds
  split
  · exact (endOperation_keepsTable _ _ s).trans (.after_unseen (enterJob_keepsTable _ _) rfl)
  · exact .refl s

theorem writeFailure_keepsTable (s : State) : KeepsTable s (writeFailure s) := by
  unfold writeFailure
  split
  · exact (failOperation_keepsTable _ s).trans ((leaveUnfiled_keepsTable _ _).trans (record_keepsTable _ _ _ _))
  all_goals exact .refl s

theorem eraseCompletion_keepsTable (success : Bool) (s : State) : KeepsTable s (eraseCompletion success s) := by
  unfold eraseCompletion
  split
  · split
    · exact endOperation_keepsTable _ _ s
    · exact (failOperation_keepsTable _ s).trans (record_keepsTable _ _ _ _)
  all_goals exact .refl s

/-- Every event keeps the law. -/
theorem eventOp_keepsTable {c : Instr} {f : State → State} (h : eventOp c = some f) (s : State) :
    KeepsTable s (f s) := by
  cases c <;> simp only [eventOp, Option.some.injEq, reduceCtorEq] at h <;> subst h
  case analogSample ch current => exact sample_keepsTable ch current s
  case pulseAccepted input spans => exact pulseActivity_keepsTable input spans s
  case primeComplete => exact completePrime_keepsTable s
  case flowWhileStill => exact checkStaticFlow_keepsTable s
  case tagRead chars => exact readerChars_keepsTable chars s
  case tagFrameTimeout => exact .unseen rfl
  case secondTick => exact secondTick_keepsTable s
  case billingUnit c => exact billUnit_keepsTable c s
  case binTick => exact earlyBinTick_keepsTable s
  case primeTimeout => exact expirePrime_keepsTable s
  case bleedConfirmed => exact confirmBleed_keepsTable s
  case stopTimeout => exact expireStop_keepsTable s
  case breakPermitTimeout => exact expireBreakPermit_keepsTable s
  case writeSucceeds => exact writeSucceeds_keepsTable s
  case writeProgramFailure => exact writeFailure_keepsTable s
  case eraseCompletion success => exact eraseCompletion_keepsTable success s

end Sys2Proof.Machine
end

