-- ==== Sys2Proof/Proofs/IncidentTableLaw.lean ====
section
/-! PROOFS. The incident table law over a step (O59): the requests and the starts, of which CLEAR INCIDENT and a cold start alone change the
table otherwise than by recordings. -/

namespace Sys2Proof.Machine

/-! ## Requests -/

theorem applySetClock_keepsTable (time : Nat) (s : State) : KeepsTable s (applySetClock time s) := by
  unfold applySetClock
  dsimp only
  split
  · exact (dayBoundary_keepsTable s).trans (.unseen rfl)
  · exact .unseen rfl

theorem takeSetClock_keepsTable (time : Nat) (s : State) : KeepsTable s (takeSetClock time s).1 := by
  unfold takeSetClock
  split
  · exact applySetClock_keepsTable time s
  · exact .refl s

theorem takeSetCirculationLimits_keepsTable (a b c d e : Nat) (s : State) :
    KeepsTable s (takeSetCirculationLimits a b c d e s).1 := by
  have checked : ∀ u : State, KeepsTable u (checkBleedLimit u) := fun u => by
    unfold checkBleedLimit
    split
    · exact endBreakPermit_keepsTable u
    · exact .refl u
  unfold takeSetCirculationLimits
  split
  · exact .after_unseen (checked _) rfl
  · exact .refl s

theorem takeStartCirculation_keepsTable (mask : Nat) (s : State) : KeepsTable s (takeStartCirculation mask s).1 := by
  unfold takeStartCirculation
  iterate 3 (split; exact .refl s)
  exact .after_unseen (enterCirc_keepsTable _ _ _) rfl

theorem takeStopCirculation_keepsTable (s : State) : KeepsTable s (takeStopCirculation s).1 := by
  unfold takeStopCirculation
  split
  · exact .after_unseen (enterCirc_keepsTable _ _ _) rfl
  · exact .refl s

theorem takeConfirmStop_keepsTable (s : State) : KeepsTable s (takeConfirmStop s).1 := by
  unfold takeConfirmStop
  split
  · exact enterCirc_keepsTable _ _ s
  · exact .refl s

theorem takeResetCirculation_keepsTable (s : State) : KeepsTable s (takeResetCirculation s).1 := by
  unfold takeResetCirculation
  dsimp only
  split
  · exact .after_unseen (enterCirc_keepsTable _ _ _) rfl
  · exact .after_unseen ((enterCirc_keepsTable _ _ _).trans (record_keepsTable _ _ _ _)) rfl

theorem takePumpTest_keepsTable (pump : Nat) (s : State) : KeepsTable s (takePumpTest pump s).1 := by
  unfold takePumpTest
  iterate 4 (split; exact .refl s)
  exact .after_unseen (enterCirc_keepsTable _ _ _) rfl

theorem takeRequestBreak_keepsTable (s : State) : KeepsTable s (takeRequestBreak s).1 := by
  unfold takeRequestBreak
  iterate 3 (split; exact .refl s)
  exact .after_unseen (enterJoint_keepsTable _ _) rfl

theorem takeRackRod_keepsTable (destination : Nat) (s : State) : KeepsTable s (takeRackRod destination s).1 := by
  unfold takeRackRod
  iterate 5 (split; exact .refl s)
  exact .after_unseen (clearArmToReady_keepsTable _) (by simp)

theorem takeCancelJoint_keepsTable (s : State) : KeepsTable s (takeCancelJoint s).1 := by
  unfold takeCancelJoint
  split
  · exact .after_unseen (clearArmToReady_keepsTable _) (by simp)
  · exact endBreakPermit_keepsTable s
  all_goals exact .refl s

theorem takeReleaseJoint_keepsTable (s : State) : KeepsTable s (takeReleaseJoint s).1 := by
  unfold takeReleaseJoint
  iterate 2 (split; exact .refl s)
  exact enterReady_keepsTable s

theorem takeFormation_keepsTable (cls : Nat) (s : State) : KeepsTable s (takeFormation cls s).1 := by
  unfold takeFormation
  iterate 2 (split; exact .refl s)
  exact applyFormation_keepsTable cls s

theorem takeWaterStrike_keepsTable (yield : Nat) (depth level : Option Nat) (s : State) :
    KeepsTable s (takeWaterStrike yield depth level s).1 := by
  have struck : ∀ k : Strike, KeepsTable s (recordStrike k s) := fun k => .after_unseen (notify_keepsTable _ _) rfl
  unfold takeWaterStrike
  iterate 2 (split; exact .refl s)
  dsimp only
  split
  · exact .refl s
  · split
    · exact .refl s
    · exact struck _

theorem takeCommitStage_keepsTable (code : Nat) (s : State) : KeepsTable s (takeCommitStage code s).1 := by
  unfold takeCommitStage
  iterate 4 (split; exact .refl s)
  exact commit_keepsTable _ s

theorem takeDrawMaterial_keepsTable (item quantity : Nat) (s : State) :
    KeepsTable s (takeDrawMaterial item quantity s).1 := by
  unfold takeDrawMaterial
  iterate 3 (split; exact .refl s)
  exact priceUnder_keepsTable _ _ _ _ s

theorem takeReadStatus_keepsTable (selector : Nat) (s : State) : KeepsTable s (takeReadStatus selector s).1 := by
  unfold takeReadStatus
  split
  · exact .unseen rfl
  · split
    · exact recordLagClamp_keepsTable _ s
    · split
      · exact .refl s
      · exact .refl s

/-- A pending slot cleared leaves the pending list (R170). -/
theorem takeClearIncident_keepsTable (n : Nat) (s : State) : KeepsTable s (takeClearIncident n s).1 := by
  have freed : ∀ u : State, KeepsTable u (heldSlotCleared n u) := fun u => by
    unfold heldSlotCleared
    split
    · exact enterReady_keepsTable u
    · exact .refl u
  unfold takeClearIncident
  split
  · exact .refl s
  · next hn =>
    dsimp only
    split
    · have cleared : KeepsTable s (withoutPending n s) := withoutPending_lawful (Nat.lt_succ_of_le (Nat.not_lt.1 hn))
      rw [clearSlot_eq]
      exact cleared.trans (freed _)
    · exact .refl s

theorem takeSetNoticeMask_keepsTable (mask : Nat) (s : State) : KeepsTable s (takeSetNoticeMask mask s).1 := by
  unfold takeSetNoticeMask
  split
  · exact .refl s
  · exact .unseen (by simp)

theorem takeOpenJob_keepsTable (number client : Nat) (well : List Byte) (s : State) :
    KeepsTable s (takeOpenJob number client well s).1 := by
  have applied : KeepsTable s (applyOpenJob number client well s) :=
    .unseen (by simp [applyOpenJob, enterJob, openStrata, appendInterval])
  unfold takeOpenJob
  iterate 6 (split; exact .refl s)
  exact applied

theorem startWrite_keepsTable (n : Nat) (s : State) : KeepsTable s (startWrite n s) :=
  .after_unseen (enterJob_keepsTable _ _) rfl

theorem applyCloseJob_keepsTable (s : State) : KeepsTable s (applyCloseJob s) := by
  have filed : ∀ u : State, KeepsTable u (beginFiling u) := fun u => by
    unfold beginFiling
    split
    · exact leaveUnfiled_keepsTable _ u
    · split
      · exact leaveUnfiled_keepsTable _ u
      · exact startWrite_keepsTable _ u
  have drained : KeepsTable s (drainQueue s.lag.queue.length s) := lagKeeps_table.drainQueue
  have closed : ∀ u : State, KeepsTable u (endPricing (finalClosure (handResidual u))) := fun u =>
    .unseen (by simp [finalClosure])
  have ended : KeepsTable s (endJob s) :=
    drained.trans ((closed _).trans (.after_unseen (enterJob_keepsTable _ _) rfl))
  exact ended.trans (.after_unseen (filed _) rfl)

theorem takeCloseJob_keepsTable (force : Bool) (s : State) : KeepsTable s (takeCloseJob force s).1 := by
  unfold takeCloseJob
  iterate 3 (split; exact .refl s)
  dsimp only
  split
  · exact closeSpan_keepsTable s
  · exact (closeSpan_keepsTable s).trans (applyCloseJob_keepsTable _)

theorem takeRetryFiling_keepsTable (s : State) : KeepsTable s (takeRetryFiling s).1 := by
  unfold takeRetryFiling
  iterate 3 (split; exact .refl s)
  split
  · exact .refl s
  · exact startWrite_keepsTable _ s

theorem takeEraseTicket_keepsTable (n : Nat) (s : State) : KeepsTable s (takeEraseTicket n s).1 := by
  unfold takeEraseTicket
  iterate 4 (split; exact .refl s)
  exact .after_unseen (notify_keepsTable _ _) rfl

theorem takeDiscardTicket_keepsTable (s : State) : KeepsTable s (takeDiscardTicket s).1 := by
  unfold takeDiscardTicket
  split
  · exact .after_unseen (enterJob_keepsTable _ _) rfl
  · exact .refl s

theorem takeReleaseStore_keepsTable (s : State) : KeepsTable s (takeReleaseStore s).1 := by
  unfold takeReleaseStore
  dsimp only
  split
  · exact .after_unseen (notify_keepsTable _ _) rfl
  · exact .refl s

/-- Every request keeps the law; those not named change nothing that the law sees. -/
theorem takeRequest_keepsTable (i : Instr) (s : State) : KeepsTable s (takeRequest i s).1 := by
  cases i
  case readStatus w a => exact takeReadStatus_keepsTable a s
  case setClock w a => exact takeSetClock_keepsTable a s
  case setCirculationLimits w a b c d e => exact takeSetCirculationLimits_keepsTable a b c d e s
  case startCirculation w a => exact takeStartCirculation_keepsTable a s
  case stopCirculation w => exact takeStopCirculation_keepsTable s
  case confirmStop w => exact takeConfirmStop_keepsTable s
  case resetCirculation w => exact takeResetCirculation_keepsTable s
  case pumpTest w a => exact takePumpTest_keepsTable a s
  case requestBreak w => exact takeRequestBreak_keepsTable s
  case rackRod w a => exact takeRackRod_keepsTable a s
  case cancelJoint w => exact takeCancelJoint_keepsTable s
  case releaseJoint w => exact takeReleaseJoint_keepsTable s
  case formation w a => exact takeFormation_keepsTable a s
  case waterStrike w a b c => exact takeWaterStrike_keepsTable a b c s
  case commitStage w a => exact takeCommitStage_keepsTable a s
  case drawMaterial w a b => exact takeDrawMaterial_keepsTable a b s
  case clearIncident w a => exact takeClearIncident_keepsTable a s
  case clearOverflow w => exact .unseen rfl
  case setNoticeMask w a => exact takeSetNoticeMask_keepsTable a s
  case openJob w a b c => exact takeOpenJob_keepsTable a b c s
  case closeJob w a => exact takeCloseJob_keepsTable a s
  case retryFiling w => exact takeRetryFiling_keepsTable s
  case eraseTicket w a => exact takeEraseTicket_keepsTable a s
  case discardTicket w => exact takeDiscardTicket_keepsTable s
  case releaseStore w => exact takeReleaseStore_keepsTable s
  all_goals
    dsimp only [takeRequest]
    exact .unseen (by simp)

/-! ## The starts (R46, R107, R196) -/

theorem reportTorn_keepsTable (cut : List Nat) (changed : Bool) (s : State) :
    KeepsTable s (reportTorn cut changed s) := by
  have told : KeepsTable s (if changed then notify .store s else s) := by
    split
    · exact notify_keepsTable _ s
    · exact .refl s
  unfold reportTorn
  refine told.trans ?_
  generalize (if changed then notify .store s else s) = u
  induction cut generalizing u with
  | nil => exact .refl u
  | cons n rest ih => exact (record_keepsTable .tornTicket n 0 u).trans (ih _)

theorem settleCirculation_keepsTable (s : State) : KeepsTable s (settleCirculation s) := by
  unfold settleCirculation
  split
  · exact .unseen rfl
  · exact (enterCirc_keepsTable _ _ s).trans (.after_unseen (record_keepsTable _ _ _ _) rfl)

theorem settleJoint_keepsTable (s : State) : KeepsTable s (settleJoint s) := by
  have quiet : KeepsTable s { s with joint.episode := none, joint.timer := 0 } := .unseen rfl
  unfold settleJoint
  refine quiet.trans ?_
  split
  · exact .refl _
  · exact .after_unseen (clearArmToReady_keepsTable _) (by simp)
  · exact enterReady_keepsTable _
  · split
    · exact .after_unseen ((clearArmToReady_keepsTable _).trans (record_keepsTable _ _ _ _)) (by simp)
    · exact enterReady_keepsTable _
  · dsimp only
    split
    · exact .refl _
    · exact enterReady_keepsTable _

theorem warmStart_keepsTable (lines : StartLines) (seconds : Nat) (s : State) :
    KeepsTable s (warmStart lines seconds s) := by
  have scanned : ∀ u : State, KeepsTable u (scanStore u) := fun u => .after_unseen (reportTorn_keepsTable _ _ _) rfl
  have job : ∀ u : State, KeepsTable u (settleJob u) := fun u => by
    unfold settleJob
    split
    · exact leaveUnfiled_keepsTable _ u
    · exact .refl u
  have day : ∀ u : State, KeepsTable u (startDayBoundary u) := fun u => by
    unfold startDayBoundary
    split
    · exact .after_unseen (dayBoundary_keepsTable _) rfl
    · exact .refl u
  have circulation : KeepsTable s (warmCirculation lines seconds s) :=
    .after_unseen ((scanned _).trans (settleCirculation_keepsTable _)) rfl
  have joint : KeepsTable s (warmJoint lines seconds s) :=
    circulation.trans (.after_unseen (settleJoint_keepsTable _) rfl)
  rw [warmStart_eq]
  exact joint.trans (.after_unseen ((job _).trans (day _)) rfl)

/-- The empty table is lawful, so that of a cold start is. -/
theorem coldStart_lawful (lines : StartLines) (s : State) : incidentsLawful (coldStart lines s) := by
  have empty : incidentsLawful (.cold s.power lines (scannedSlots s) (s.free + 1) s.pending) := by
    obtain ⟨-, -, -, -, -, hreset, -⟩ := everyLawHoldsAtReset
    exact incidentsLawful_congr (s := .reset) rfl hreset
  exact reportTorn_keepsTable _ _ _ empty

/-- The law is kept through every command. -/
theorem keptThrough_incidentsLawful : KeptThrough incidentsLawful where
  line _ _ hs := hs
  request i hs := takeRequest_keepsTable i _ hs
  warm lines n hs := warmStart_keepsTable lines n _ hs
  event he hs := eventOp_keepsTable he _ hs
  silence _ hs := hs
  powered _ _ hs := hs
  cold lines _ := coldStart_lawful lines _

/-- Settles O59: recordings and clearings keep the law, and nothing else changes the table. -/
theorem everyStepKeepsTheIncidentTableLaw : Obligations.EveryStepKeepsTheIncidentTableLaw :=
  fun _ _ hs he => keptThrough_incidentsLawful.step hs he

end Sys2Proof.Machine
end

