-- ==== Sys2Proof/Proofs/NoticeRequests.lean ====
section
/-! PROOFS. An event and its notice, and the requests CLEAR INCIDENT, CLEAR OVERFLOW and SET NOTICE MASK (O48). -/

namespace Sys2Proof.Machine

/-! ## An event of a class (R174, R175, R199, R202) -/

theorem ClassFlags.get_set_eq (f : ClassFlags) (c d : NoticeClass) (b : Bool) :
    (f.set c b).get d = if d = c then b else f.get d := by
  split
  · next h => rw [h, ClassFlags.get_set]
  · next h => exact ClassFlags.get_set_ne f d c b h

/-! ## CLEAR INCIDENT (R104, R170) -/

theorem takeClearIncident_of_clear {n : Nat} {s : State} (hn : n ≤ 15) (h : slotPending s n = false) :
    takeClearIncident n s = (s, .ok (oct1 0)) := by
  simp [takeClearIncident, Nat.not_lt.2 hn, h, octFlag, flagCode]

theorem takeClearIncident_of_pending {n : Nat} {s : State} (hn : n ≤ 15) (h : slotPending s n = true) :
    takeClearIncident n s = (clearSlot n s, .ok (oct1 1)) := by
  simp [takeClearIncident, Nat.not_lt.2 hn, h, octFlag, flagCode]

/-- HELD ends where the slot it stands on is cleared (R104). -/
theorem clearSlot_of_ref {n : Nat} {s : State} (hstate : s.joint.state = .held) (href : s.joint.heldRef = some n) :
    clearSlot n s = enterReady (withoutPending n s) := (clearSlot_eq n s).trans (if_pos ⟨hstate, href⟩)

theorem clearSlot_of_other {n : Nat} {s : State} (h : ¬ (s.joint.state = .held ∧ s.joint.heldRef = some n)) :
    clearSlot n s = withoutPending n s := (clearSlot_eq n s).trans (if_neg h)

/-! ## CLEAR OVERFLOW (R171) -/

theorem takeClearOverflow_eq (s : State) :
    takeClearOverflow s =
      ({ s with inc.overflow := false }, .ok (oct1 (if s.inc.overflow = true then 1 else 0))) := rfl

/-! ## SET NOTICE MASK (R177, log 36) -/

theorem ClassFlags.bits_ofBits_of_le {mask : Nat} (h : mask ≤ 63) : (ClassFlags.ofBits mask).bits = mask :=
  ClassFlags.bits_ofBits ⟨mask, Nat.lt_succ_of_le h⟩

/-- Where the part has an own address, a class handed on waits, once, and no other class does for it (R202). -/
theorem mem_handNotice {c d : NoticeClass} {s : State} (h : ownAddress s ≠ none) :
    d ∈ (handNotice c s).link.notices ↔ d ∈ s.link.notices ∨ d = c := by
  have haddress : (ownAddress s).isNone = false := by
    rwa [Option.isNone_eq_false_iff, Option.isSome_iff_ne_none]
  rw [handNotice_link, haddress, Bool.false_or]
  dsimp only
  split
  · next hwaits =>
    have hmem : c ∈ s.link.notices := List.contains_iff_mem.1 hwaits
    exact ⟨.inl, fun hd => hd.elim id fun heq => heq ▸ hmem⟩
  · rw [List.mem_append, List.mem_singleton]

/-- The class is one that the new masks unmask while it is pending (R177). -/
def unmasks (old : ClassFlags) (s : State) (c : NoticeClass) : Prop :=
  old.get c = true ∧ s.inc.masks.get c = false ∧ s.inc.flags.get c = true

theorem mem_handUnmasked {old : ClassFlags} {c d : NoticeClass} {s : State} (h : ownAddress s ≠ none) :
    d ∈ (handUnmasked old s c).link.notices ↔ d ∈ s.link.notices ∨ (d = c ∧ unmasks old s d) := by
  have hiff : (old.get c && !s.inc.masks.get c && s.inc.flags.get c) = true ↔ unmasks old s c := by
    simp [unmasks, and_assoc]
  unfold handUnmasked
  split
  · next hc =>
    rw [mem_handNotice h]
    exact or_congr_right ⟨fun heq => ⟨heq, heq ▸ hiff.1 hc⟩, And.left⟩
  · next hc => exact ⟨.inl, fun hd => hd.elim id fun ⟨heq, hun⟩ => absurd (hiff.2 (heq ▸ hun)) hc⟩

/-- Of a list of classes, those unmasked while pending join the waiting notices (R177). -/
theorem mem_foldl_handUnmasked {old : ClassFlags} {d : NoticeClass} (cs : List NoticeClass) {s : State}
    (h : ownAddress s ≠ none) :
    d ∈ (cs.foldl (handUnmasked old) s).link.notices ↔ d ∈ s.link.notices ∨ (d ∈ cs ∧ unmasks old s d) := by
  induction cs generalizing s with
  | nil => simp
  | cons c rest ih =>
    have haddress : ownAddress (handUnmasked old s c) ≠ none := by simpa [ownAddress] using h
    have hsame : unmasks old (handUnmasked old s c) d ↔ unmasks old s d := by simp [unmasks]
    rw [List.foldl_cons, ih haddress, mem_handUnmasked h, hsame, List.mem_cons]
    tauto

theorem mem_noticeClasses (c : NoticeClass) : c ∈ noticeClasses := by cases c <;> decide

/-- The state after the masks are replaced and the classes they unmask are handed on (R177). -/
def remasked (mask : Nat) (s : State) : State :=
  noticeClasses.foldl (handUnmasked s.inc.masks) { s with inc.masks := .ofBits mask }

theorem takeSetNoticeMask_of_le {mask : Nat} {s : State} (h : mask ≤ 63) :
    takeSetNoticeMask mask s = (remasked mask s, .ok) := if_neg (Nat.not_lt.2 h)

theorem remasked_inc (mask : Nat) (s : State) :
    (remasked mask s).inc = { s.inc with masks := .ofBits mask } := by simp [remasked]

theorem mem_remasked {mask : Nat} {s : State} (h : ownAddress s ≠ none) (c : NoticeClass) :
    c ∈ (remasked mask s).link.notices ↔
      c ∈ s.link.notices ∨
        (s.inc.masks.get c = true ∧ (remasked mask s).inc.masks.get c = false ∧ s.inc.flags.get c = true) := by
  rw [remasked_inc]
  exact (mem_foldl_handUnmasked (s := { s with inc.masks := .ofBits mask }) noticeClasses h).trans
    (or_congr_right (and_iff_right (mem_noticeClasses c)))

/-- Settles O48: an event by its flag and then by what stands in its notice's way; each request is its test and then its one
change. -/
theorem incidentRequestsClearAndMask : Obligations.IncidentRequestsClearAndMask := by
  refine ⟨fun c s => ⟨notify_of_set, fun hclear => ⟨notify_quiet hclear, notify_hands hclear⟩⟩,
    fun c d f b => ClassFlags.get_set_eq f c d b,
    fun who s h => ⟨fun n => ⟨?noSlot, ?idle, ?cleared⟩, ?overflow, fun mask => ⟨?noClass, ?masks⟩⟩⟩
  case noSlot => exact fun hn => isAnswered_of_take h rfl rfl (if_pos hn)
  case idle => exact fun hn hclear => isAnswered_of_take h rfl rfl (takeClearIncident_of_clear hn hclear)
  case cleared =>
    intro hn hpending
    have take := takeClearIncident_of_pending (s := taking (.clearIncident who n) s) hn hpending
    refine ⟨_, isAnswered_of_take (f := clearSlot n) h rfl rfl take,
      clearSlot_of_other (s := taking (.clearIncident who n) s), fun hstate href => ?_⟩
    have freed := clearSlot_of_ref (s := taking (.clearIncident who n) s) hstate href
    exact ⟨freed, by rw [freed, enterReady_state], by rw [freed, enterReady_heldRef]⟩
  case overflow => exact isAnswered_of_take h rfl rfl (takeClearOverflow_eq _)
  case noClass => exact fun hmask => isAnswered_of_take h rfl rfl (if_pos hmask)
  case masks =>
    intro hmask
    have take := takeSetNoticeMask_of_le (s := taking (.setNoticeMask who mask) s) hmask
    have hinc := remasked_inc mask (taking (.setNoticeMask who mask) s)
    exact ⟨_, isAnswered_of_take (f := remasked mask) h rfl rfl take,
      by rw [hinc]; exact ClassFlags.bits_ofBits_of_le hmask, by rw [hinc]; rfl, by rw [hinc]; rfl,
      fun haddress => mem_remasked (s := taking (.setNoticeMask who mask) s) haddress⟩

end Sys2Proof.Machine
end

