-- ==== Sys2Proof/Proofs/StoredJobs.lean ====
section
/-! PROOFS. What every operation outside spec 10 leaves of the job controller: all but the overrun-seen flag, which a forced
retirement sets (R53, R180). -/

namespace Sys2Proof.Machine

/-- The job controller but for its overrun-seen flag. -/
def Jobs.stored (j : Jobs) : Jobs := { j with context := j.context.map fun c => { c with overrunSeen := true } }

theorem JobGoesOn.stored {s t : State} (h : JobGoesOn s t) : t.jobs.stored = s.jobs.stored :=
  h.reads Jobs.stored fun j => by simp [Jobs.stored, Function.comp_def]

/-! ## The lag tracker and the swap -/

@[simp] theorem layMark_stored (d : Nat) (s : State) : (layMark d s).jobs.stored = s.jobs.stored :=
  (JobGoesOn.layMark d s).stored

@[simp] theorem swapCheck_stored (s : State) : (swapCheck s).jobs.stored = s.jobs.stored := (JobGoesOn.swapCheck s).stored

@[simp] theorem retire_stored (k : RetireCause) (m : Mark) (rest : List Mark) (s : State) :
    (retire k m rest s).jobs.stored = s.jobs.stored := by simp [retire]

@[simp] theorem closeSpan_stored (s : State) : (closeSpan s).jobs.stored = s.jobs.stored :=
  ((lagKeeps_jobGoesOn s).closeSpan (.refl s)).stored

@[simp] theorem totalLossChange_stored (s : State) : (totalLossChange s).jobs.stored = s.jobs.stored := by
  unfold totalLossChange
  split
  · split <;> simp
  · rfl

@[simp] theorem layBoundaries_stored (fuel d : Nat) (s : State) : (layBoundaries fuel d s).1.jobs.stored = s.jobs.stored := by
  induction fuel generalizing s with
  | zero => rfl
  | succ fuel ih =>
    unfold layBoundaries
    dsimp only
    split
    · simp [ih]
    · rfl

@[simp] theorem lagAdvance_stored (d : Nat) (s : State) : (lagAdvance d s).jobs.stored = s.jobs.stored := by
  unfold lagAdvance
  dsimp only
  split <;> simp

@[simp] theorem retireArrived_stored (fuel : Nat) (s : State) : (retireArrived fuel s).jobs.stored = s.jobs.stored := by
  induction fuel generalizing s with
  | zero => rfl
  | succ fuel ih =>
    unfold retireArrived
    split
    · rfl
    · split
      · simp [ih]
      · rfl

@[simp] theorem takeTrigger_stored (k : Trigger) (s : State) : (takeTrigger k s).jobs.stored = s.jobs.stored := by
  unfold takeTrigger
  split <;> simp

@[simp] theorem commit_stored (k : Trigger) (s : State) : (commit k s).jobs.stored = s.jobs.stored := by
  unfold commit
  split <;> simp

@[simp] theorem dayBoundary_stored (s : State) : (dayBoundary s).jobs.stored = s.jobs.stored := by simp [dayBoundary]

/-! ## Depth and the joint controller -/

@[simp] theorem handAdvance_stored (s : State) : (handAdvance s).jobs.stored = s.jobs.stored := by
  unfold handAdvance
  split <;> simp

@[simp] theorem holeAdvance_stored (s : State) : (holeAdvance s).jobs.stored = s.jobs.stored := by
  unfold holeAdvance
  split <;> simp

@[simp] theorem recompute_stored (head : Nat) (s : State) : (recompute head s).jobs.stored = s.jobs.stored := by
  simp [recompute]

@[simp] theorem heightSample_stored (good : Option Nat) (s : State) :
    (heightSample good s).jobs.stored = s.jobs.stored := by
  unfold heightSample
  split
  · split <;> simp
  · rfl

@[simp] theorem enterReady_stored (s : State) : (enterReady s).jobs.stored = s.jobs.stored := by
  unfold enterReady recomputeAtReady
  split <;> simp

@[simp] theorem clearArmToReady_stored (s : State) : (clearArmToReady s).jobs.stored = s.jobs.stored := by
  simp [clearArmToReady]

@[simp] theorem endBreakPermit_stored (s : State) : (endBreakPermit s).jobs.stored = s.jobs.stored := by
  simp [endBreakPermit]

@[simp] theorem handJointMade_stored (s : State) : (handJointMade s).jobs.stored = s.jobs.stored := by
  simp [handJointMade]

@[simp] theorem jointBypass_stored (peak : Nat) (s : State) : (jointBypass peak s).jobs.stored = s.jobs.stored := by
  unfold jointBypass
  dsimp only
  split <;> simp

@[simp] theorem jointBroken_stored (peak : Nat) (s : State) : (jointBroken peak s).jobs.stored = s.jobs.stored := by
  unfold jointBroken
  split <;> simp

@[simp] theorem applyOutcome_stored (o : EpisodeOutcome) (peak : Nat) (s : State) :
    (applyOutcome o peak s).jobs.stored = s.jobs.stored := by
  cases o with
  | made => simp [applyOutcome, jointMade]
  | overtorque => simp [applyOutcome, jointOvertorque]
  | short | bypass | stray | broken | ignored => simp [applyOutcome]

@[simp] theorem endEpisode_stored (e : Episode) (s : State) : (endEpisode e s).jobs.stored = s.jobs.stored := by
  simp [endEpisode]

@[simp] theorem torqueSample_stored (good : Option Nat) (s : State) :
    (torqueSample good s).jobs.stored = s.jobs.stored := by
  unfold torqueSample
  split
  · rfl
  · split
    · split <;> rfl
    · split
      · rfl
      · split <;> simp

@[simp] theorem jointPressure_stored (good : Option Nat) (s : State) :
    (jointPressure good s).jobs.stored = s.jobs.stored := by
  unfold jointPressure
  split
  · split
    · split <;> simp
    · simp
  · rfl

@[simp] theorem expireBreakPermit_stored (s : State) : (expireBreakPermit s).jobs.stored = s.jobs.stored := by
  unfold expireBreakPermit
  split <;> simp

@[simp] theorem jointTick_stored (s : State) : (jointTick s).jobs.stored = s.jobs.stored := by
  unfold jointTick
  split <;> simp

@[simp] theorem clearSlot_stored (n : Nat) (s : State) : (clearSlot n s).jobs.stored = s.jobs.stored := by
  unfold clearSlot heldSlotCleared
  split <;> simp

/-! ## The circulation monitor -/

@[simp] theorem enterCirc_stored (new : CircState) (mask : PumpMask) (s : State) :
    (enterCirc new mask s).jobs.stored = s.jobs.stored := by
  unfold enterCirc
  dsimp only
  split <;> simp

@[simp] theorem enterCircKept_stored (new : CircState) (s : State) :
    (enterCircKept new s).jobs.stored = s.jobs.stored := enterCirc_stored _ _ s

@[simp] theorem pumpedLitre_stored (s : State) : (pumpedLitre s).jobs.stored = s.jobs.stored := by
  have binned : ∀ u : State,
      (if u.circ.state.binsRun then { u with circ.openBin.pumped := satAdd Config.binMax u.circ.openBin.pumped 1 }
        else u).jobs.stored = u.jobs.stored := fun u => by split <;> rfl
  have carried : ∀ u : State, (if u.circ.state.lagCarrying then lagLitre u else u).jobs.stored = u.jobs.stored :=
    fun u => by split <;> simp [lagLitre, lagClockAdvance]
  exact (carried _).trans ((binned _).trans (by simp))

@[simp] theorem completePrime_stored (s : State) : (completePrime s).jobs.stored = s.jobs.stored := by
  unfold completePrime
  split <;> simp

@[simp] theorem returnedLitre_stored (s : State) : (returnedLitre s).jobs.stored = s.jobs.stored := by
  have effects : ∀ u : State, (returnedEffects u).jobs.stored = u.jobs.stored := fun u => by
    unfold returnedEffects
    split
    · simp
    · split <;> simp
  unfold returnedLitre
  rw [effects]
  dsimp only
  split <;> simp

theorem repeatTimes_stored {f : State → State} (hf : ∀ s, (f s).jobs.stored = s.jobs.stored) (n : Nat) (s : State) :
    (repeatTimes f n s).jobs.stored = s.jobs.stored := by
  induction n generalizing s with
  | zero => rfl
  | succ n ih => exact (ih (f s)).trans (hf s)

@[simp] theorem acceptPulse_stored (i : PulseInput) (s : State) : (acceptPulse i s).jobs.stored = s.jobs.stored := by
  have pumped : ∀ p : Pump, (stroke p s).jobs.stored = s.jobs.stored := fun p =>
    (repeatTimes_stored pumpedLitre_stored _ _).trans (by simp)
  cases i with
  | a => exact pumped .a
  | b => exact pumped .b
  | r => exact repeatTimes_stored returnedLitre_stored _ _

@[simp] theorem testRuns_stored (p r : Nat) (s : State) : (testRuns p r s).jobs.stored = s.jobs.stored := by
  have lost : (enterTotalLoss p r s).jobs.stored = s.jobs.stored := by simp [enterTotalLoss]
  unfold testRuns
  split
  · split
    · exact lost
    · split <;> simp
  · split
    · exact lost
    · split <;> simp
  · split
    · split <;> simp
    · rfl
  all_goals rfl

@[simp] theorem takeBinTick_stored (s : State) : (takeBinTick s).jobs.stored = s.jobs.stored := by
  have evaluated : ∀ u : State, (evaluate u).jobs.stored = u.jobs.stored := fun u => by
    unfold evaluate
    dsimp only
    split <;> simp
  unfold takeBinTick
  dsimp only
  split
  · split
    · rw [evaluated]
      simp
    · simp
  · rfl

@[simp] theorem confirmBleed_stored (s : State) : (confirmBleed s).jobs.stored = s.jobs.stored := by
  unfold confirmBleed
  split <;> simp

@[simp] theorem expireStop_stored (s : State) : (expireStop s).jobs.stored = s.jobs.stored := by
  unfold expireStop
  split <;> simp

@[simp] theorem expirePrime_stored (s : State) : (expirePrime s).jobs.stored = s.jobs.stored := by
  unfold expirePrime
  split <;> simp

@[simp] theorem circulationTick_stored (s : State) : (circulationTick s).jobs.stored = s.jobs.stored := by
  unfold circulationTick
  split
  · simp
  · simp [stoppingTick]
  all_goals rfl

/-! ## Events -/

theorem sample_stored (ch : Channel) (current : Nat) (s : State) : (sample ch current s).jobs.stored = s.jobs.stored := by
  have delivered : ∀ (good : Option Nat) (u : State), (deliverSample ch good u).jobs.stored = u.jobs.stored :=
    fun good u => by cases ch <;> simp [deliverSample]
  exact (delivered _ _).trans (by simp)

theorem clockTick_stored (s : State) : (clockTick s).jobs.stored = s.jobs.stored := by
  unfold clockTick
  dsimp only
  split
  · split <;> simp
  · rfl

theorem phaseTick_stored (s : State) : (phaseTick s).jobs.stored = s.jobs.stored := by
  unfold phaseTick
  dsimp only
  split
  · split <;> simp
  · rfl

theorem secondTick_stored (s : State) : (secondTick s).jobs.stored = s.jobs.stored := by
  simp [secondTick, phaseTick_stored, clockTick_stored]

theorem earlyBinTick_stored (s : State) : (earlyBinTick s).jobs.stored = s.jobs.stored := by
  unfold earlyBinTick
  split <;> simp

/-- A completion of a store operation (R188, R189, R190). -/
def isCompletion : Instr → Bool
  | .writeSucceeds | .writeProgramFailure | .eraseCompletion _ => true
  | _ => false

/-- No event but the completions touches the job controller otherwise. -/
theorem eventOp_stored {c : Instr} {f : State → State} (h : eventOp c = some f) (hc : isCompletion c = false) (s : State) :
    (f s).jobs.stored = s.jobs.stored := by
  cases c <;> simp only [eventOp, Option.some.injEq, reduceCtorEq] at h <;> subst h
  case analogSample ch current => exact sample_stored ch current s
  case pulseAccepted input spans => exact (repeatTimes_stored (acceptPulse_stored input) _ _).trans (by simp)
  case primeComplete => exact completePrime_stored s
  case flowWhileStill => simp
  case tagRead chars => simp
  case tagFrameTimeout => rfl
  case secondTick => exact secondTick_stored s
  case billingUnit c => simp
  case binTick => exact earlyBinTick_stored s
  case primeTimeout => exact expirePrime_stored s
  case bleedConfirmed => exact confirmBleed_stored s
  case stopTimeout => exact expireStop_stored s
  case breakPermitTimeout => exact expireBreakPermit_stored s
  all_goals cases hc

/-! ## Requests -/

theorem takeSetClock_stored (time : Nat) (s : State) : (takeSetClock time s).1.jobs.stored = s.jobs.stored := by
  unfold takeSetClock applySetClock
  split
  · dsimp only
    split <;> simp
  · rfl

theorem takeSetCirculationLimits_stored (a b c d e : Nat) (s : State) :
    (takeSetCirculationLimits a b c d e s).1.jobs.stored = s.jobs.stored := by
  unfold takeSetCirculationLimits checkBleedLimit
  split
  · dsimp only
    split <;> simp
  · rfl

theorem takeStartCirculation_stored (mask : Nat) (s : State) :
    (takeStartCirculation mask s).1.jobs.stored = s.jobs.stored := by
  unfold takeStartCirculation
  iterate 3 (split; rfl)
  simp

theorem takeStopCirculation_stored (s : State) : (takeStopCirculation s).1.jobs.stored = s.jobs.stored := by
  unfold takeStopCirculation
  split <;> simp

theorem takeConfirmStop_stored (s : State) : (takeConfirmStop s).1.jobs.stored = s.jobs.stored := by
  unfold takeConfirmStop
  split <;> simp

theorem takeResetCirculation_stored (s : State) : (takeResetCirculation s).1.jobs.stored = s.jobs.stored := by
  unfold takeResetCirculation
  dsimp only
  split <;> simp

theorem takePumpTest_stored (pump : Nat) (s : State) : (takePumpTest pump s).1.jobs.stored = s.jobs.stored := by
  unfold takePumpTest
  iterate 4 (split; rfl)
  simp

theorem takeRackRod_stored (destination : Nat) (s : State) :
    (takeRackRod destination s).1.jobs.stored = s.jobs.stored := by
  unfold takeRackRod
  iterate 5 (split; rfl)
  simp

theorem takeCancelJoint_stored (s : State) : (takeCancelJoint s).1.jobs.stored = s.jobs.stored := by
  unfold takeCancelJoint
  split <;> simp

theorem takeReleaseJoint_stored (s : State) : (takeReleaseJoint s).1.jobs.stored = s.jobs.stored := by
  unfold takeReleaseJoint
  iterate 2 (split; rfl)
  simp

theorem takeCommitStage_stored (code : Nat) (s : State) : (takeCommitStage code s).1.jobs.stored = s.jobs.stored := by
  unfold takeCommitStage
  iterate 4 (split; rfl)
  simp

theorem takeClearIncident_stored (n : Nat) (s : State) : (takeClearIncident n s).1.jobs.stored = s.jobs.stored := by
  unfold takeClearIncident
  split
  · rfl
  · dsimp only
    split <;> simp

/-- A request of the job controller or the ticket store (spec 10). -/
def isStoreRequest : Instr → Bool
  | .openJob _ _ _ _ | .closeJob _ _ | .retryFiling _ | .eraseTicket _ _ | .discardTicket _ | .releaseStore _ => true
  | _ => false

/-- No request but those of spec 10 touches the job controller otherwise. -/
theorem takeRequest_stored {i : Instr} (hi : isStoreRequest i = false) (s : State) :
    (takeRequest i s).1.jobs.stored = s.jobs.stored := by
  cases i
  case setClock w a => exact takeSetClock_stored a s
  case setCirculationLimits w a b c d e => exact takeSetCirculationLimits_stored a b c d e s
  case startCirculation w a => exact takeStartCirculation_stored a s
  case stopCirculation w => exact takeStopCirculation_stored s
  case confirmStop w => exact takeConfirmStop_stored s
  case resetCirculation w => exact takeResetCirculation_stored s
  case pumpTest w a => exact takePumpTest_stored a s
  case rackRod w a => exact takeRackRod_stored a s
  case cancelJoint w => exact takeCancelJoint_stored s
  case releaseJoint w => exact takeReleaseJoint_stored s
  case commitStage w a => exact takeCommitStage_stored a s
  case clearIncident w a => exact takeClearIncident_stored a s
  case openJob | closeJob | retryFiling | eraseTicket | discardTicket | releaseStore => cases hi
  all_goals simp [takeRequest]

/-! ## The warm start -/

theorem settleCirculation_stored (s : State) : (settleCirculation s).jobs.stored = s.jobs.stored := by
  unfold settleCirculation
  split <;> simp

theorem startDayBoundary_stored (s : State) : (startDayBoundary s).jobs.stored = s.jobs.stored := by
  unfold startDayBoundary
  split <;> simp

/-- What the store's scan leaves of the job controller (R196). -/
theorem scanStore_jobs (s : State) : (scanStore s).jobs = { s.jobs with slots := scannedSlots s, op := none } := by
  simp [scanStore]

/-- The job controller before a warm start settles the job. -/
theorem warmJoint_stored (lines : StartLines) (seconds : Nat) (s : State) :
    (warmJoint lines seconds s).jobs.stored = { s.jobs with slots := scannedSlots s, op := none }.stored := by
  have settled : (warmJoint lines seconds s).jobs = (warmCirculation lines seconds s).jobs :=
    (warmJoint_settles lines seconds s).jobs
  rw [settled, warmCirculation, settleCirculation_stored, scanStore_jobs]
  rfl

end Sys2Proof.Machine
end

