-- ==== Sys2Proof/Proofs/StoreOperations.lean ====
section
/-! PROOFS. The store's operations (spec 10): each is one change of the job controller that sets STORE pending. The completions
(O52), and RETRY FILING, ERASE TICKET, DISCARD TICKET and RELEASE STORE (O53). -/

namespace Sys2Proof.Machine

/-! ## A change of the job controller (R180, R187) -/

theorem notify_storeChange (j : Jobs) (s : State) : storeChange j s (notify .store { s with jobs := j }) :=
  ⟨State.ext (by simp) (by simp) (by simp) (by simp) (by simp) (by simp) (by simp) (by simp) (by simp) rfl (by simp) rfl
    (by simp) (by simp), notify_inc _ _⟩

theorem storeChange.jobs {j : Jobs} {s u : State} (h : storeChange j s u) : u.jobs = j := by rw [h.1]

theorem storeChange.trans {j k : Jobs} {s u v : State} (h : storeChange j s u) (g : storeChange k u v) :
    storeChange k s v := by
  obtain ⟨hu, huinc⟩ := h
  obtain ⟨hv, hvinc⟩ := g
  exact ⟨hv.trans (by rw [hu]), by rw [hvinc, huinc]⟩

/-- A change of the job controller and then one more. -/
theorem storeChange.andThen {j : Jobs} {s u : State} (h : storeChange j s u) (f : Jobs → Jobs) :
    storeChange (f j) s (notify .store { u with jobs := f u.jobs }) := by
  obtain rfl := h.jobs
  exact h.trans (notify_storeChange _ u)

/-! ## What each operation changes -/

section
variable (n : Nat) (s : State)

theorem startWrite_change :
    storeChange
      { s.jobs with state := .closing, op := some (.write n), slots := s.jobs.slots.modify n fun _ => .writing } s
      (startWrite n s) := notify_storeChange _ s

theorem endOperation_change (k : StoreSlot) :
    storeChange { s.jobs with slots := s.jobs.slots.modify n fun _ => k, op := none } s (endOperation n k s) :=
  notify_storeChange _ s

theorem failOperation_change :
    storeChange
      { s.jobs with slots := s.jobs.slots.modify n fun _ => .defective, op := none, isProtected := true } s
      (failOperation n s) := notify_storeChange _ s

end

/-! ## Completions (R188, R189, R190) -/

section
variable {n : Nat} {t : Ticket} {s : State}

theorem writeSucceeds_change (hop : s.jobs.op = some (.write n)) (hbuffer : s.jobs.buffer = some t) :
    storeChange
      { s.jobs with
        slots := s.jobs.slots.modify n fun _ => .filed t, op := none, buffer := none, state := .noJob,
        context := s.jobs.context.map fun c => { c with filing := some .filed } } s (writeSucceeds s) := by
  simp only [writeSucceeds, hop, hbuffer]
  exact (endOperation_change n s (.filed t)).andThen fun j =>
    { j with buffer := none, state := .noJob, context := j.context.map fun c => { c with filing := some .filed } }

/-- What a program failure writes before it is recorded (R189). -/
theorem leaveUnfiled_failOperation_change (n : Nat) (s : State) :
    storeChange
      { s.jobs with
        slots := s.jobs.slots.modify n fun _ => .defective, op := none, isProtected := true, state := .unfiled,
        context := s.jobs.context.map fun c => { c with filing := some .programFailed } } s
      (leaveUnfiled .programFailed (failOperation n s)) :=
  (failOperation_change n s).andThen fun j =>
    { j with state := .unfiled, context := j.context.map fun c => { c with filing := some .programFailed } }

theorem writeFailure_of_write (hop : s.jobs.op = some (.write n)) :
    writeFailure s = record .storeFault n 0 (leaveUnfiled .programFailed (failOperation n s)) := by
  simp only [writeFailure, hop]

theorem eraseCompletion_succeeds (hop : s.jobs.op = some (.erase n)) :
    eraseCompletion true s = endOperation n .erased s := by
  simp only [eraseCompletion, hop, if_true]

theorem eraseCompletion_fails (hop : s.jobs.op = some (.erase n)) :
    eraseCompletion false s = record .storeFault n 1 (failOperation n s) := by
  simp only [eraseCompletion, hop, Bool.false_eq_true, if_false]

theorem writeSucceeds_of_no_write (h : ∀ n, s.jobs.op ≠ some (.write n)) : writeSucceeds s = s := by
  unfold writeSucceeds
  split
  · next hop _ => exact absurd hop (h _)
  · rfl

theorem writeFailure_of_no_write (h : ∀ n, s.jobs.op ≠ some (.write n)) : writeFailure s = s := by
  unfold writeFailure
  split
  · next hop => exact absurd hop (h _)
  all_goals rfl

theorem eraseCompletion_of_no_erase (h : ∀ n, s.jobs.op ≠ some (.erase n)) (success : Bool) :
    eraseCompletion success s = s := by
  unfold eraseCompletion
  split
  · next hop => exact absurd hop (h _)
  all_goals rfl

end

/-- Settles O52: each completion comes to its operation, which acts where its own operation is in flight and is nothing
otherwise. -/
theorem completionsEndTheirOwnOperation : Obligations.CompletionsEndTheirOwnOperation := by
  intro s hrun
  have succeeds : comesTo .writeSucceeds s (writeSucceeds s) := comesTo_event rfl hrun
  have fails : comesTo .writeProgramFailure s (writeFailure s) := comesTo_event rfl hrun
  have erased : ∀ b, comesTo (.eraseCompletion b) s (eraseCompletion b s) := fun b => comesTo_event rfl hrun
  refine ⟨fun n t hop hbuffer => ⟨?success, ?failure⟩, fun n hop => ⟨?erasure, ?fault⟩, fun hno => ⟨?noSuccess, ?noFailure⟩,
    fun hno b => ?noErasure⟩
  case success => exact ⟨_, succeeds, writeSucceeds_change hop hbuffer⟩
  case failure => exact ⟨_, writeFailure_of_write hop ▸ fails, leaveUnfiled_failOperation_change n s⟩
  case erasure => exact ⟨_, eraseCompletion_succeeds hop ▸ erased true, endOperation_change n s .erased⟩
  case fault => exact ⟨_, eraseCompletion_fails hop ▸ erased false, failOperation_change n s⟩
  case noSuccess => rwa [writeSucceeds_of_no_write hno] at succeeds
  case noFailure => rwa [writeFailure_of_no_write hno] at fails
  case noErasure =>
    have := erased b
    rwa [eraseCompletion_of_no_erase hno b] at this

/-! ## Requests (R190 to R193) -/

/-- A request that a ready part takes with one change of the job controller. -/
theorem taken_with_storeChange {who : Addressee} {i : Instr} {r : Received} {s u : State} {rep : Reply} {j : Jobs}
    (h : ready who s) (hr : receivedRequest i = some r) (hwho : r.who = who)
    (ht : takeRequest i (taking i s) = (u, rep)) (hu : storeChange j (taking i s) u) :
    ∃ u, exec i s = answered i rep u ∧ storeChange j (taking i s) u :=
  ⟨u, isAnswered_of_take (f := fun _ => u) h hr hwho ht, hu⟩

section
variable {n : Nat} {s : State}

theorem lowestErased_eq_none (h : ∀ k ∈ s.jobs.slots, k ≠ .erased) : lowestErased s = none :=
  List.findIdx?_eq_none_iff.2 fun k hk => decide_eq_false (h k hk)

theorem takeRetryFiling_of_full (hstate : s.jobs.state = .unfiled) (hop : s.jobs.op = none)
    (hprotected : s.jobs.isProtected = false) (hfull : lowestErased s = none) :
    takeRetryFiling s = (s, .storeFull) := by
  simp [takeRetryFiling, hstate, hop, hprotected, hfull]

theorem takeRetryFiling_of_erased (hstate : s.jobs.state = .unfiled) (hop : s.jobs.op = none)
    (hprotected : s.jobs.isProtected = false) (hn : lowestErased s = some n) :
    takeRetryFiling s = (startWrite n s, .ok (oct1 n)) := by
  simp [takeRetryFiling, hstate, hop, hprotected, hn]

/-- ERASE TICKET on an idle, unprotected store is a matter of the slot's state (R190). -/
theorem takeEraseTicket_of_idle (hn : n ≤ 15) (hop : s.jobs.op = none) (hprotected : s.jobs.isProtected = false) :
    takeEraseTicket n s =
      if (s.jobs.slots[n]?).any StoreSlot.erasable then (notify .store { s with jobs.op := some (.erase n) }, .ok)
      else (s, .wrongState) := by
  simp only [takeEraseTicket, if_neg (Nat.not_lt.2 hn), hop, hprotected, ne_eq, not_true_eq_false, if_false,
    Bool.false_eq_true]
  cases (s.jobs.slots[n]?).any StoreSlot.erasable <;> rfl

end

/-- Settles O53: each request by its checks in order, and then by its one change of the job controller. -/
theorem storeRequestsFollowTheirChecks : Obligations.StoreRequestsFollowTheirChecks := by
  intro who s h
  refine ⟨⟨?retryState, ?retryBusy, ?retryProtected, ?retry⟩,
    fun n => ⟨?eraseSlot, ?eraseBusy, ?eraseProtected, fun hn hop hprotected => ⟨?eraseState, ?erase⟩⟩,
    ⟨?discard, ?discardState⟩, ?release, ?released⟩
  case retryState => exact fun hstate => isAnswered_of_take h rfl rfl (if_pos hstate)
  case retryBusy =>
    exact fun hstate hop => isAnswered_of_take h rfl rfl ((if_neg (not_not_intro hstate)).trans (if_pos hop))
  case retryProtected =>
    exact fun hstate hop hprotected => isAnswered_of_take h rfl rfl
      ((if_neg (not_not_intro hstate)).trans ((if_neg (not_not_intro hop)).trans (if_pos hprotected)))
  case retry =>
    exact fun hstate hop hprotected =>
      ⟨fun hfull => isAnswered_of_take h rfl rfl
          (takeRetryFiling_of_full (s := taking _ s) hstate hop hprotected (lowestErased_eq_none hfull)),
        fun n hn hlow => taken_with_storeChange h rfl rfl
          (takeRetryFiling_of_erased (s := taking _ s) hstate hop hprotected (lowestErased_eq hn hlow))
          (startWrite_change n _)⟩
  case eraseSlot => exact fun hn => isAnswered_of_take h rfl rfl (if_pos hn)
  case eraseBusy =>
    exact fun hn hop => isAnswered_of_take h rfl rfl ((if_neg (Nat.not_lt.2 hn)).trans (if_pos hop))
  case eraseProtected =>
    exact fun hn hop hprotected => isAnswered_of_take h rfl rfl
      ((if_neg (Nat.not_lt.2 hn)).trans ((if_neg (not_not_intro hop)).trans (if_pos hprotected)))
  case eraseState =>
    intro hslot
    have hnot : ¬ ((s.jobs.slots[n]?).any StoreSlot.erasable = true) := by
      obtain hk | hk := hslot <;> rw [hk] <;> decide
    exact isAnswered_of_take h rfl rfl
      ((takeEraseTicket_of_idle (s := taking _ s) hn hop hprotected).trans (if_neg hnot))
  case erase =>
    intro hslot
    have herasable : (s.jobs.slots[n]?).any StoreSlot.erasable = true := by
      obtain hk | hk | ⟨t, hk⟩ := hslot <;> rw [hk] <;> rfl
    exact taken_with_storeChange h rfl rfl
      ((takeEraseTicket_of_idle (s := taking _ s) hn hop hprotected).trans (if_pos herasable)) (notify_storeChange _ _)
  case discard =>
    exact fun hstate => taken_with_storeChange h rfl rfl (if_pos hstate) (notify_storeChange _ _)
  case discardState => exact fun hstate => isAnswered_of_take h rfl rfl (if_neg hstate)
  case release =>
    intro hprotected
    have take : takeReleaseStore (taking (.releaseStore who) s) =
        (notify .store { taking (.releaseStore who) s with jobs.isProtected := false }, .ok (oct1 1)) := by
      simp only [takeReleaseStore, taking, hprotected, if_true]
      rfl
    exact taken_with_storeChange h rfl rfl take (notify_storeChange _ _)
  case released =>
    intro hprotected
    have take : takeReleaseStore (taking (.releaseStore who) s) = (taking (.releaseStore who) s, .ok (oct1 0)) := by
      simp only [takeReleaseStore, taking, hprotected, Bool.false_eq_true, if_false]
      rfl
    exact isAnswered_of_take (f := fun u => u) h rfl rfl take

end Sys2Proof.Machine
end

