-- ==== Sys2Proof/Proofs/JobOpening.lean ====
section
/-! PROOFS. OPEN JOB (O50): the checks of R181 in their order, and what each block becomes as the job opens (R182). -/

namespace Sys2Proof.Machine

/-! ## The checks (R181) -/

theorem jobGood_iff {number client : Nat} {well : List Byte} :
    jobGood number client well = true ↔
      (1 ≤ number ∧ number ≤ 999999) ∧ (1 ≤ client ∧ client ≤ 65535) ∧ well.length = 12 ∧
        ∀ c ∈ well, 0x20 ≤ c.toNat ∧ c.toNat ≤ 0x7E := by
  simp only [jobGood, Bool.and_eq_true, inRange_eq_true, decide_eq_true_eq, List.all_eq_true, and_assoc]

section
variable {number client : Nat} {well : List Byte} {s : State}

theorem takeOpenJob_of_bad (h : ¬ jobGood number client well = true) :
    takeOpenJob number client well s = (s, .badArgument) := by
  simp only [takeOpenJob, Bool.eq_false_iff.2 h, Bool.not_false, if_true]

/-- OPEN JOB with good operands outside a job is a matter of the clock, the string and the staging set. -/
theorem takeOpenJob_of_good (hgood : jobGood number client well = true) (hstate : s.jobs.state = .noJob) :
    takeOpenJob number client well s =
      if s.flu.clockUnset then (s, .clockUnset)
      else if s.rods.string ≠ [] then (s, .stringInHole)
      else if !s.price.staging.valid then (s, .noRates)
      else
        (applyOpenJob number client well s,
          .ok (oct4 (applyOpenJob number client well s).rods.holeDepth ++
            oct2 (activeGeneration (applyOpenJob number client well s)))) := by
  simp only [takeOpenJob, hgood, hstate, Bool.not_true, Bool.false_eq_true, if_false, reduceCtorEq, ne_eq, not_true_eq_false]

theorem takeOpenJob_of_unfiled (hgood : jobGood number client well = true) (hstate : s.jobs.state = .unfiled) :
    takeOpenJob number client well s = (s, .unfiledTicket) := by
  simp only [takeOpenJob, hgood, hstate, Bool.not_true, Bool.false_eq_true, if_false, if_true]

theorem takeOpenJob_of_job (hgood : jobGood number client well = true)
    (hstate : s.jobs.state = .opened ∨ s.jobs.state = .closing) :
    takeOpenJob number client well s = (s, .jobOpen) := by
  obtain h | h := hstate <;> simp [takeOpenJob, hgood, h]

end

/-! ## What each block becomes (R182) -/

section
variable (number client : Nat) (well : List Byte) (s : State)

/-- The depth of step 1 (R80, R182). -/
theorem applyOpenJob_rods :
    (applyOpenJob number client well s).rods = { s.rods with holeDepth := s.rods.bitDepth } := by
  simp [applyOpenJob, openDepth]

theorem applyOpenJob_circ :
    (applyOpenJob number client well s).circ =
      { s.circ with
        vp := 0, vr := 0, vl := 0, pumpedResidue := 0, returnResidue := 0, jobLoss := 0, lastEval := none } := by
  simp [applyOpenJob, openCirculation, openDepth]

theorem applyOpenJob_lag :
    (applyOpenJob number client well s).lag =
      { s.lag with
        queue := [], head := 0, frontier := s.rods.bitDepth, spanTop := s.rods.bitDepth, spanSeconds := 0, spanLoss := 0,
        spanBlind := decide (s.circ.state = .totalLoss) } := by
  have opened : (applyOpenJob number client well s).lag =
      (openLag s.rods.bitDepth (openCirculation (openDepth s))).lag := by simp [applyOpenJob, openDepth]
  exact opened

/-- Interval 0 opens at the job start depth (R109). -/
theorem applyOpenJob_strata :
    (applyOpenJob number client well s).strata =
      { intervals := [.opening s.rods.bitDepth 15 .unobserved s.flu.clock], strikes := [], resumeClass := 15,
        drain := false, fullSeen := false } := by
  simp [applyOpenJob, openStrata, appendInterval, Interval.opening, openDepth]

theorem applyOpenJob_price :
    (applyOpenJob number client well s).price =
      { active := some (s.price.staging.toSet 1), previous := none, staging := .ofSet (s.price.staging.toSet 1),
        stage := .editing, lines := consolidatedLines, saturationSeen := false } := by
  simp [applyOpenJob, openPricing, openDepth]

theorem applyOpenJob_bill :
    (applyOpenJob number client well s).bill =
      { override := s.bill.override, drillTimer := 0, tripTimer := 0, totals := List.replicate 7 0,
        residues := List.replicate 7 0, running := 0, last := none } := by
  simp [applyOpenJob, openBilling, openDepth]

theorem applyOpenJob_jobs :
    (applyOpenJob number client well s).jobs =
      { s.jobs with
        state := .opened, context := some (newContext number client well s.flu.clock s.rods.bitDepth) } := by
  simp [applyOpenJob, openDepth]

/-- The new interval and the new job state set STRATA and STORE pending (R126, R180). -/
theorem applyOpenJob_flags :
    (applyOpenJob number client well s).inc.flags.strata = true ∧
      (applyOpenJob number client well s).inc.flags.store = true :=
  ⟨enterJob_keepsFlag (c := .strata) .opened (notify_setsFlag .strata _), notify_setsFlag .store _⟩

/-- The first active set is of generation 1 (R143). -/
theorem applyOpenJob_generation : activeGeneration (applyOpenJob number client well s) = 1 := by
  rw [activeGeneration, applyOpenJob_price]
  rfl

end

/-- Settles O50: the refusals by the checks in their order; taken, each block by its own part of R182. -/
theorem openJobFixesWhereTheWellIsAccountedFrom : Obligations.OpenJobFixesWhereTheWellIsAccountedFrom := by
  intro who n client well s h i good
  refine ⟨fun hbad => isAnswered_of_take h rfl rfl (takeOpenJob_of_bad (mt jobGood_iff.1 hbad)), fun hgood => ?_⟩
  have hjob := jobGood_iff.2 hgood
  refine ⟨fun hstate => isAnswered_of_take h rfl rfl (takeOpenJob_of_unfiled (s := taking i s) hjob hstate),
    fun hstate => isAnswered_of_take h rfl rfl (takeOpenJob_of_job (s := taking i s) hjob hstate), fun hstate => ?_⟩
  have take := takeOpenJob_of_good (s := taking i s) hjob hstate
  refine ⟨fun hclock => isAnswered_of_take h rfl rfl (take.trans (if_pos hclock)), fun hclock hstring => ?inHole,
    fun hclock hstring hrates => ?noRates, fun hclock hstring hrates => ?taken⟩
  case inHole => exact isAnswered_of_take h rfl rfl (take.trans ((if_neg (ne_true_of_eq_false hclock)).trans (if_pos hstring)))
  case noRates =>
    exact isAnswered_of_take h rfl rfl (take.trans ((if_neg (ne_true_of_eq_false hclock)).trans
      ((if_neg (not_not_intro hstring)).trans (if_pos (congrArg not hrates)))))
  case taken =>
    intro depth r
    have applied := take.trans ((if_neg (ne_true_of_eq_false hclock)).trans
      ((if_neg (not_not_intro hstring)).trans (if_neg (ne_true_of_eq_false (congrArg not hrates)))))
    rw [applyOpenJob_rods, applyOpenJob_generation] at applied
    obtain ⟨hstrata, hstore⟩ := applyOpenJob_flags n client well (taking i s)
    obtain ⟨-, hflu, hjoint, -⟩ := applyOpenJob_frame n client well (taking i s)
    exact ⟨_, isAnswered_of_take (f := fun _ => applyOpenJob n client well (taking i s)) h rfl rfl applied,
      applyOpenJob_rods _ _ _ _, applyOpenJob_circ _ _ _ _, applyOpenJob_lag _ _ _ _, applyOpenJob_strata _ _ _ _,
      applyOpenJob_price _ _ _ _, applyOpenJob_bill _ _ _ _, applyOpenJob_jobs _ _ _ _, hjoint, hflu, hstrata, hstore⟩

end Sys2Proof.Machine
end

