-- ==== Sys2Proof/Proofs/StoreLaw.lean ====
section
/-! PROOFS. Every step keeps the store law (O56): the law read on the job controller alone, what each operation of spec 10 makes
of it, and that nothing else touches what it sees. -/

namespace Sys2Proof.Machine

/-! ## The law in its parts (R180, R187, R193) -/

/-- Of the sixteen slots the target of the WRITE in flight, and no other, is WRITING (R187). -/
structure SlotsLaw (slots : List StoreSlot) (op : Option StoreOp) : Prop where
  length : slots.length = 16
  target : ∀ o ∈ op, o.slot < 16
  writing : ∀ n < 16, slots[n]? = some .writing ↔ op = some (.write n)

/-- The store law, which bears on the job controller alone. -/
structure StoreLaw (j : Jobs) : Prop where
  slots : SlotsLaw j.slots j.op
  closing : j.op.any StoreOp.isWrite = decide (j.state = .closing)
  buffer : j.buffer.isSome = j.state.buffers
  context : j.state ≠ .noJob → j.context.isSome = true
  guarded : j.isProtected = true → j.op = none

theorem storeLawful_iff {s : State} : storeLawful s ↔ StoreLaw s.jobs := by
  constructor
  · rintro ⟨hlength, htarget, hwriting, hclosing, hbuffer, hcontext, hguarded⟩
    exact ⟨⟨hlength, htarget, hwriting⟩, hclosing, hbuffer, hcontext, hguarded⟩
  · rintro ⟨⟨hlength, htarget, hwriting⟩, hclosing, hbuffer, hcontext, hguarded⟩
    exact ⟨hlength, htarget, hwriting, hclosing, hbuffer, hcontext, hguarded⟩

/-- The law does not see the overrun-seen flag. -/
theorem StoreLaw.of_stored {j k : Jobs} (h : StoreLaw j) (hk : k.stored = j.stored) : StoreLaw k := by
  simp only [Jobs.stored, Jobs.mk.injEq] at hk
  obtain ⟨hstate, hcontext, hbuffer, hslots, hprotected, hop⟩ := hk
  have hsome : k.context.isSome = j.context.isSome := by simpa using congrArg Option.isSome hcontext
  exact ⟨by rw [hslots, hop]; exact h.slots, by rw [hop, hstate]; exact h.closing,
    by rw [hbuffer, hstate]; exact h.buffer, by rw [hstate, hsome]; exact h.context,
    by rw [hprotected, hop]; exact h.guarded⟩

/-! ## The slots at the ends of an operation -/

section
variable {slots : List StoreSlot} {op : Option StoreOp}

/-- Slots of which none is WRITING, with nothing in flight. -/
theorem SlotsLaw.of_no_writing (hlength : slots.length = 16) (h : ∀ n : Nat, slots[n]? ≠ some .writing) :
    SlotsLaw slots none :=
  ⟨hlength, fun _ ho => (by cases ho), fun n _ => iff_of_false (h n) (by simp)⟩

/-- A slot WRITING is the target of the WRITE in flight. -/
theorem SlotsLaw.op_of_writing (h : SlotsLaw slots op) {n : Nat} (hn : slots[n]? = some .writing) : op = some (.write n) :=
  (h.writing n (h.length ▸ (List.getElem?_eq_some_iff.1 hn).1)).1 hn

/-- The slot of an operation that ends takes a state other than WRITING. -/
theorem SlotsLaw.ended {o : StoreOp} (h : SlotsLaw slots (some o)) {k : StoreSlot} (hk : k ≠ .writing) :
    SlotsLaw (slots.modify o.slot fun _ => k) none := by
  refine .of_no_writing (by simp [h.length]) fun m hm => ?_
  rw [List.getElem?_modify] at hm
  obtain rfl | hne := eq_or_ne o.slot m
  · obtain ⟨old, -, hold⟩ : ∃ old, slots[o.slot]? = some old ∧ k = .writing := by simpa using hm
    exact hk hold
  · have hold : slots[m]? = some .writing := by simpa [hne] using hm
    obtain rfl : o = .write m := Option.some.inj (h.op_of_writing hold)
    exact hne rfl

theorem SlotsLaw.startWrite (h : SlotsLaw slots none) {n : Nat} (hn : n < 16) :
    SlotsLaw (slots.modify n fun _ => .writing) (some (.write n)) where
  length := by simp [h.length]
  target o ho := Option.some.inj ho ▸ hn
  writing m hm := by
    rw [List.getElem?_modify]
    obtain rfl | hne := eq_or_ne n m
    · simp [h.length, hn]
    · have hold : slots[m]? ≠ some .writing := fun hold => by cases h.op_of_writing hold
      simp [hne, hold]

theorem SlotsLaw.startErase (h : SlotsLaw slots none) {n : Nat} (hn : n < 16) : SlotsLaw slots (some (.erase n)) where
  length := h.length
  target o ho := Option.some.inj ho ▸ hn
  writing m hm := by simpa using (h.writing m hm).not.2 (by simp)

/-- A start finds every WRITING slot and leaves it TORN (R196). -/
theorem scannedSlots_law {s : State} (hlength : s.jobs.slots.length = 16) : SlotsLaw (scannedSlots s) none := by
  refine .of_no_writing (by simp [scannedSlots, hlength]) fun n hn => ?_
  obtain ⟨k, -, hk⟩ : ∃ k, s.jobs.slots[n]? = some k ∧ (if cutShort s n k then StoreSlot.torn else k) = .writing := by
    simpa [scannedSlots] using hn
  cases k with
  | writing => cases hk
  | filed t => split at hk <;> cases hk
  | erased | defective | torn => cases hk

end

/-! ## A ticket that waits to be filed (R184, R189, R191, R197) -/

/-- No operation is in flight, and the closing buffer and the context are held. -/
structure TicketWaits (j : Jobs) : Prop where
  slots : SlotsLaw j.slots none
  idle : j.op = none
  buffer : j.buffer.isSome = true
  context : j.context.isSome = true

section
variable {j : Jobs} {s : State}

/-- The ticket stays UNFILED. -/
theorem TicketWaits.unfiled (h : TicketWaits j) (o : FilingOutcome) :
    StoreLaw { j with state := .unfiled, context := j.context.map fun c => { c with filing := some o } } where
  slots := h.idle ▸ h.slots
  closing := by rw [h.idle]; rfl
  buffer := h.buffer
  context _ := by simpa using h.context
  guarded _ := h.idle

/-- Its WRITE starts on a slot of a store that is not protected (R188, R193). -/
theorem TicketWaits.closing (h : TicketWaits j) (hprotected : j.isProtected = false) {n : Nat} (hn : n < 16) :
    StoreLaw { j with state := .closing, op := some (.write n), slots := j.slots.modify n fun _ => .writing } where
  slots := h.slots.startWrite hn
  closing := rfl
  buffer := h.buffer
  context _ := h.context
  guarded ht := by cases hprotected.symm.trans ht

/-- The ticket of an UNFILED job waits, unless an ERASE is in flight. -/
theorem StoreLaw.ticketWaits (h : StoreLaw j) (hstate : j.state = .unfiled) (hop : j.op = none) : TicketWaits j where
  slots := hop ▸ h.slots
  idle := hop
  buffer := by rw [h.buffer, hstate]; rfl
  context := h.context (by rw [hstate]; decide)

theorem lowestErased_lt (hlength : s.jobs.slots.length = 16) {n : Nat} (h : lowestErased s = some n) : n < 16 :=
  hlength ▸ (List.findIdx?_eq_some_iff_getElem.1 h).1

theorem leaveUnfiled_lawful (o : FilingOutcome) (h : TicketWaits s.jobs) : StoreLaw (leaveUnfiled o s).jobs := by
  rw [leaveUnfiled_jobs]
  exact h.unfiled o

theorem startWrite_lawful {n : Nat} (h : TicketWaits s.jobs) (hprotected : s.jobs.isProtected = false)
    (hn : lowestErased s = some n) : StoreLaw (startWrite n s).jobs := by
  rw [(startWrite_change n s).jobs]
  exact h.closing hprotected (lowestErased_lt h.slots.length hn)

/-- Filing begins, or the ticket stays UNFILED (R184 step 6). -/
theorem beginFiling_lawful (h : TicketWaits s.jobs) : StoreLaw (beginFiling s).jobs := by
  unfold beginFiling
  split
  · exact leaveUnfiled_lawful _ h
  · next hprotected =>
    split
    · exact leaveUnfiled_lawful _ h
    · next hn => exact startWrite_lawful h (Bool.eq_false_iff.2 hprotected) hn

end

/-! ## Completions (R188, R189, R190) -/

section
variable {s : State} {n : Nat}

/-- The operation in flight ends with its slot in a state other than WRITING. -/
theorem StoreLaw.ended {o : StoreOp} (h : StoreLaw s.jobs) (hop : s.jobs.op = some o) {k : StoreSlot} (hk : k ≠ .writing) :
    SlotsLaw (s.jobs.slots.modify o.slot fun _ => k) none := SlotsLaw.ended (hop ▸ h.slots) hk

/-- An ERASE is in flight outside CLOSING only. -/
theorem StoreLaw.not_closing_of_erase (h : StoreLaw s.jobs) (hop : s.jobs.op = some (.erase n)) :
    s.jobs.state ≠ .closing := by
  have := h.closing
  rw [hop] at this
  exact of_decide_eq_false this.symm

/-- A WRITE is in flight in CLOSING only. -/
theorem StoreLaw.closing_of_write (h : StoreLaw s.jobs) (hop : s.jobs.op = some (.write n)) : s.jobs.state = .closing := by
  have := h.closing
  rw [hop] at this
  exact of_decide_eq_true this.symm

theorem writeSucceeds_lawful (h : StoreLaw s.jobs) : StoreLaw (writeSucceeds s).jobs := by
  by_cases hwrite : ∃ n t, s.jobs.op = some (.write n) ∧ s.jobs.buffer = some t
  · obtain ⟨n, t, hop, hbuffer⟩ := hwrite
    rw [(writeSucceeds_change hop hbuffer).jobs]
    exact ⟨h.ended hop (by simp), rfl, rfl, fun hne => absurd rfl hne, fun _ => rfl⟩
  · have hsame : writeSucceeds s = s := by
      unfold writeSucceeds
      split
      · next hop hbuffer => exact absurd ⟨_, _, hop, hbuffer⟩ hwrite
      · rfl
    rwa [hsame]

theorem writeFailure_lawful (h : StoreLaw s.jobs) : StoreLaw (writeFailure s).jobs := by
  by_cases hwrite : ∃ n, s.jobs.op = some (.write n)
  · obtain ⟨n, hop⟩ := hwrite
    have hstate := h.closing_of_write hop
    have hwaits : TicketWaits (failOperation n s).jobs := by
      rw [(failOperation_change n s).jobs]
      exact ⟨h.ended hop (by simp), rfl, by rw [h.buffer, hstate]; rfl, h.context (by rw [hstate]; decide)⟩
    have hunfiled := leaveUnfiled_lawful .programFailed hwaits
    rw [writeFailure_of_write hop]
    simpa using hunfiled
  · rwa [writeFailure_of_no_write (not_exists.1 hwrite)]

theorem eraseCompletion_lawful (success : Bool) (h : StoreLaw s.jobs) : StoreLaw (eraseCompletion success s).jobs := by
  by_cases herase : ∃ n, s.jobs.op = some (.erase n)
  · obtain ⟨n, hop⟩ := herase
    have hclosing : (none : Option StoreOp).any StoreOp.isWrite = decide (s.jobs.state = .closing) :=
      (decide_eq_false (h.not_closing_of_erase hop)).symm
    cases success with
    | true =>
      rw [eraseCompletion_succeeds hop, (endOperation_change n s .erased).jobs]
      exact ⟨h.ended hop (by simp), hclosing, h.buffer, h.context, fun _ => rfl⟩
    | false =>
      have hfailed : StoreLaw (failOperation n s).jobs := by
        rw [(failOperation_change n s).jobs]
        exact ⟨h.ended hop (by simp), hclosing, h.buffer, h.context, fun _ => rfl⟩
      rw [eraseCompletion_fails hop]
      simpa using hfailed
  · rwa [eraseCompletion_of_no_erase (not_exists.1 herase)]

/-- Every event keeps the law. -/
theorem eventOp_keepsStore {c : Instr} {f : State → State} (hf : eventOp c = some f) (h : StoreLaw s.jobs) :
    StoreLaw (f s).jobs := by
  cases hc : isCompletion c with
  | false => exact h.of_stored (eventOp_stored hf hc s)
  | true =>
    cases c <;> simp only [isCompletion, Bool.false_eq_true] at hc <;> obtain rfl := Option.some.inj hf
    case writeSucceeds => exact writeSucceeds_lawful h
    case writeProgramFailure => exact writeFailure_lawful h
    case eraseCompletion success => exact eraseCompletion_lawful success h

end

/-! ## Requests (R181 to R184, R190 to R193) -/

section
variable {s : State}

theorem takeOpenJob_lawful (number client : Nat) (well : List Byte) (h : StoreLaw s.jobs) :
    StoreLaw (takeOpenJob number client well s).1.jobs := by
  unfold takeOpenJob
  split
  · exact h
  split
  · exact h
  split
  · exact h
  next hstate =>
  have hnone : s.jobs.state = .noJob := not_not.1 hstate
  iterate 3 (split; exact h)
  dsimp only
  rw [applyOpenJob_jobs]
  exact ⟨h.slots, by rw [h.closing, hnone]; rfl, by rw [h.buffer, hnone]; rfl, fun _ => rfl, h.guarded⟩

/-- The ticket that CLOSE JOB assembles waits to be filed. -/
theorem ticketAssembled_waits {v : State} (hgoes : JobGoesOn s v) (h : StoreLaw s.jobs) (hstate : s.jobs.state = .opened)
    (hop : s.jobs.op = none) : TicketWaits (ticketAssembled v).jobs := by
  obtain ⟨hslots, hopEnd, -, htime⟩ := endJob_jobs_of_goesOn hgoes
  have hcontext : (endJob v).jobs.context.isSome = true := by
    have hsome := congrArg Option.isSome htime
    rw [Option.isSome_map, Option.isSome_map] at hsome
    exact hsome.trans (h.context (by rw [hstate]; decide))
  exact ⟨show SlotsLaw (endJob v).jobs.slots none by rw [hslots]; exact hop ▸ h.slots, hopEnd.trans hop,
    by simpa [ticketAssembled] using hcontext, hcontext⟩

theorem takeCloseJob_lawful (force : Bool) (h : StoreLaw s.jobs) : StoreLaw (takeCloseJob force s).1.jobs := by
  by_cases htaken : s.jobs.state = .opened ∧ s.jobs.op = none
  · obtain ⟨hstate, hop⟩ := htaken
    rw [takeCloseJob_of_open hstate hop]
    split
    · exact h.of_stored (closeSpan_stored s)
    · rw [applyCloseJob_eq]
      exact beginFiling_lawful
        (ticketAssembled_waits ((lagKeeps_jobGoesOn s).closeSpan (.refl s)) h hstate hop)
  · have hrefused : (takeCloseJob force s).1 = s := by
      unfold takeCloseJob
      split
      · rfl
      split
      · rfl
      next hstate =>
      rw [if_pos fun hop => htaken ⟨not_not.1 hstate, hop⟩]
    rwa [hrefused]

theorem takeRetryFiling_lawful (h : StoreLaw s.jobs) : StoreLaw (takeRetryFiling s).1.jobs := by
  unfold takeRetryFiling
  split
  · exact h
  next hstate =>
  split
  · exact h
  next hop =>
  split
  · exact h
  next hprotected =>
  split
  · exact h
  · next hn =>
    exact startWrite_lawful (h.ticketWaits (not_not.1 hstate) (not_not.1 hop)) (Bool.eq_false_iff.2 hprotected) hn

theorem takeEraseTicket_lawful (n : Nat) (h : StoreLaw s.jobs) : StoreLaw (takeEraseTicket n s).1.jobs := by
  unfold takeEraseTicket
  split
  · exact h
  next hn =>
  split
  · exact h
  next hop =>
  split
  · exact h
  next hprotected =>
  split
  · exact h
  have hidle : s.jobs.op = none := not_not.1 hop
  rw [(notify_storeChange { s.jobs with op := some (.erase n) } s).jobs]
  exact ⟨(hidle ▸ h.slots).startErase (Nat.lt_succ_of_le (Nat.not_lt.1 hn)), by rw [← h.closing, hidle]; rfl, h.buffer,
    h.context, fun ht => absurd ht hprotected⟩

theorem takeDiscardTicket_lawful (h : StoreLaw s.jobs) : StoreLaw (takeDiscardTicket s).1.jobs := by
  unfold takeDiscardTicket
  split
  · next hstate =>
    dsimp only
    rw [enterJob_jobs]
    exact ⟨h.slots, by rw [h.closing, hstate]; rfl, rfl, fun hne => absurd rfl hne, h.guarded⟩
  · exact h

theorem takeReleaseStore_lawful (h : StoreLaw s.jobs) : StoreLaw (takeReleaseStore s).1.jobs := by
  unfold takeReleaseStore
  dsimp only
  split
  · rw [(notify_storeChange { s.jobs with isProtected := false } s).jobs]
    exact ⟨h.slots, h.closing, h.buffer, h.context, fun ht => by cases ht⟩
  · exact h

/-- Every request keeps the law. -/
theorem takeRequest_keepsStore (i : Instr) (h : StoreLaw s.jobs) : StoreLaw (takeRequest i s).1.jobs := by
  cases hi : isStoreRequest i with
  | false => exact h.of_stored (takeRequest_stored hi s)
  | true =>
    cases i <;> simp only [isStoreRequest, Bool.false_eq_true] at hi
    case openJob who number client well => exact takeOpenJob_lawful number client well h
    case closeJob who force => exact takeCloseJob_lawful force h
    case retryFiling who => exact takeRetryFiling_lawful h
    case eraseTicket who n => exact takeEraseTicket_lawful n h
    case discardTicket who => exact takeDiscardTicket_lawful h
    case releaseStore who => exact takeReleaseStore_lawful h

end

/-! ## The starts (R178, R196, R197) -/

/-- The job controller as a warm start leaves it, but for the overrun-seen flag (R196, R197). -/
def restartedJobs (s : State) : Jobs :=
  if s.jobs.state = .closing then
    { s.jobs with
      slots := scannedSlots s, op := none, state := .unfiled,
      context := s.jobs.context.map fun c => { c with filing := some .interrupted } }
  else { s.jobs with slots := scannedSlots s, op := none }

theorem warmStart_stored (lines : StartLines) (seconds : Nat) (s : State) :
    (warmStart lines seconds s).jobs.stored = (restartedJobs s).stored := by
  have hjoint := warmJoint_stored lines seconds s
  have hstate : (warmJoint lines seconds s).jobs.state = s.jobs.state := (congrArg Jobs.state hjoint :)
  rw [warmStart_eq, startDayBoundary_stored, settleJob, restartedJobs]
  simp only [hstate]
  split
  · rw [leaveUnfiled_jobs]
    simp only [Jobs.stored, Jobs.mk.injEq] at hjoint ⊢
    obtain ⟨-, hcontext, hbuffer, hslots, hprotected, hop⟩ := hjoint
    refine ⟨trivial, ?_, hbuffer, hslots, hprotected, hop⟩
    simpa [Function.comp_def] using
      congrArg (Option.map fun c : JobContext => { c with filing := some .interrupted }) hcontext
  · exact hjoint

theorem warmStart_keepsStore (lines : StartLines) (seconds : Nat) {s : State} (h : StoreLaw s.jobs) :
    StoreLaw (warmStart lines seconds s).jobs := by
  have hslots := scannedSlots_law h.slots.length
  refine StoreLaw.of_stored ?_ (warmStart_stored lines seconds s)
  unfold restartedJobs
  split
  · next hstate =>
    have hwaits : TicketWaits { s.jobs with slots := scannedSlots s, op := none } :=
      ⟨hslots, rfl, by rw [h.buffer, hstate]; rfl, h.context (by rw [hstate]; decide)⟩
    exact hwaits.unfiled .interrupted
  · next hstate => exact ⟨hslots, (decide_eq_false hstate).symm, h.buffer, h.context, fun _ => rfl⟩

theorem coldStart_jobs (lines : StartLines) (s : State) : (coldStart lines s).jobs = .cold (scannedSlots s) := by
  simp [coldStart, State.cold]

theorem coldStart_keepsStore (lines : StartLines) {s : State} (h : StoreLaw s.jobs) :
    StoreLaw (coldStart lines s).jobs := by
  rw [coldStart_jobs]
  exact ⟨scannedSlots_law h.slots.length, rfl, rfl, fun hne => absurd rfl hne, fun _ => rfl⟩

/-! ## Every step -/

/-- The law is kept through every command. -/
theorem keptThrough_storeLaw : KeptThrough fun s => StoreLaw s.jobs where
  line _ _ hs := hs
  request i hs := takeRequest_keepsStore i hs
  warm lines n hs := warmStart_keepsStore lines n hs
  event he hs := eventOp_keepsStore he hs
  silence _ hs := hs
  powered _ _ hs := hs
  cold lines hs := coldStart_keepsStore lines hs

/-- Settles O56: the operations of spec 10 keep the law, and nothing else touches what it sees. -/
theorem everyStepKeepsTheStoreLaw : Obligations.EveryStepKeepsTheStoreLaw :=
  fun _ _ hs he => storeLawful_iff.2 (keptThrough_storeLaw.step (storeLawful_iff.1 hs) he)

end Sys2Proof.Machine
end

