-- ==== Sys2Proof/Proofs/StoreStart.lean ====
section
/-! PROOFS. What a warm start makes of the ticket store and of a job it finds CLOSING (O16). -/

namespace Sys2Proof.Machine

/-- A reading of the job controller that the overrun-seen flag does not bear on. -/
theorem Jobs.reads_stored {j k : Jobs} {α : Type} (h : k.stored = j.stored) (f : Jobs → α)
    (hf : ∀ i : Jobs, f i.stored = f i) : f k = f j :=
  (hf k).symm.trans ((congrArg f h).trans (hf j))

section
variable (lines : StartLines) (seconds : Nat) (s : State)

/-- The store after a warm start (R196). -/
theorem warmStart_store :
    (warmStart lines seconds s).jobs.op = none ∧ (warmStart lines seconds s).jobs.buffer = s.jobs.buffer ∧
      (warmStart lines seconds s).jobs.isProtected = s.jobs.isProtected ∧
      (warmStart lines seconds s).jobs.slots = scannedSlots s := by
  have hstored := warmStart_stored lines seconds s
  have hrestarted : (restartedJobs s).op = none ∧ (restartedJobs s).buffer = s.jobs.buffer ∧
      (restartedJobs s).isProtected = s.jobs.isProtected ∧ (restartedJobs s).slots = scannedSlots s := by
    unfold restartedJobs
    split <;> exact ⟨rfl, rfl, rfl, rfl⟩
  obtain ⟨hop, hbuffer, hprotected, hslots⟩ := hrestarted
  exact ⟨(Jobs.reads_stored hstored (·.op) fun _ => rfl).trans hop,
    (Jobs.reads_stored hstored (·.buffer) fun _ => rfl).trans hbuffer,
    (Jobs.reads_stored hstored (·.isProtected) fun _ => rfl).trans hprotected,
    (Jobs.reads_stored hstored (·.slots) fun _ => rfl).trans hslots⟩

/-- The job state and the filing outcome after a warm start are those of the restarted job controller. -/
theorem warmStart_job :
    (warmStart lines seconds s).jobs.state = (restartedJobs s).state ∧
      (warmStart lines seconds s).jobs.context.map (·.filing) = (restartedJobs s).context.map (·.filing) :=
  ⟨Jobs.reads_stored (warmStart_stored lines seconds s) (·.state) fun _ => rfl,
    Jobs.reads_stored (warmStart_stored lines seconds s) (·.context.map (·.filing)) fun i => by
      simp [Jobs.stored, Function.comp_def]⟩

variable {lines seconds s}

theorem warmStart_job_of_closing (h : s.jobs.state = .closing) :
    (warmStart lines seconds s).jobs.state = .unfiled ∧
      (warmStart lines seconds s).jobs.context.map (·.filing) = s.jobs.context.map fun _ => some .interrupted := by
  obtain ⟨hstate, hfiling⟩ := warmStart_job lines seconds s
  rw [hstate, hfiling, restartedJobs, if_pos h]
  exact ⟨rfl, by simp [Function.comp_def]⟩

theorem warmStart_job_of_not_closing (h : s.jobs.state ≠ .closing) :
    (warmStart lines seconds s).jobs.state = s.jobs.state ∧
      (warmStart lines seconds s).jobs.context.map (·.filing) = s.jobs.context.map (·.filing) := by
  obtain ⟨hstate, hfiling⟩ := warmStart_job lines seconds s
  rw [hstate, hfiling, restartedJobs, if_neg h]
  exact ⟨rfl, rfl⟩

/-! ## STORE pending (R187, R197) -/

theorem scanStore_setsFlag (h : cutSlots s ≠ [] ∨ s.jobs.op.isSome = true) :
    (scanStore s).inc.flags.get .store = true := by
  unfold scanStore reportTorn
  rw [if_pos (by simpa using h)]
  exact (fold_record_sustains _ _).flags .store (notify_setsFlag .store _)

/-- A pending class of the scanned part is pending after the start. -/
theorem warmStart_flag_of_scan {c : NoticeClass}
    (h : (scanStore { s with link := .atStart, flu := s.flu.warmed lines seconds }).inc.flags.get c = true) :
    (warmStart lines seconds s).inc.flags.get c = true :=
  startDayBoundary_keepsFlag (settleJob_keepsFlag (settleJoint_keepsFlag (settleCirculation_keepsFlag h)))

theorem warmStart_flag_of_closing (h : s.jobs.state = .closing) :
    (warmStart lines seconds s).inc.flags.get .store = true := by
  have hstate : (warmJoint lines seconds s).jobs.state = s.jobs.state :=
    Jobs.reads_stored (warmJoint_stored lines seconds s) (·.state) fun _ => rfl
  rw [warmStart_eq, settleJob, if_pos (hstate.trans h)]
  exact startDayBoundary_keepsFlag (notify_setsFlag .store _)

/-- A change in the store or in the job state sets STORE pending (R187). -/
theorem warmStart_setsStore (h : cutSlots s ≠ [] ∨ s.jobs.op ≠ none ∨ s.jobs.state = .closing) :
    (warmStart lines seconds s).inc.flags.store = true := by
  obtain hcut | hop | hclosing := h
  · exact warmStart_flag_of_scan (c := .store) (scanStore_setsFlag (.inl hcut))
  · exact warmStart_flag_of_scan (c := .store) (scanStore_setsFlag (.inr (Option.isSome_iff_ne_none.2 hop)))
  · exact warmStart_flag_of_closing hclosing

end

/-- Settles O16: the slots cut short are those the scan finds; what follows the scan leaves the store and settles the job. -/
theorem aWarmStartSettlesTheStore : Obligations.AWarmStartSettlesTheStore := by
  refine ⟨fun c lines seconds s hc => ?start, fun s => ?scan⟩
  case start =>
    obtain ⟨intact, sending, reply, notices, hexec⟩ := warmStarts_exec hc
    let v : State := { s with power := startPower c s, flu.backupIntact := intact }
    obtain ⟨hop, hbuffer, hprotected, hslots⟩ := warmStart_store lines seconds v
    have hclosing := warmStart_job_of_closing (lines := lines) (seconds := seconds) (s := v)
    have hother := warmStart_job_of_not_closing (lines := lines) (seconds := seconds) (s := v)
    have hflag := warmStart_setsStore (lines := lines) (seconds := seconds) (s := v)
    generalize warmStart lines seconds v = t at *
    refine ⟨_, cutSlots s, hexec, isCut_cutSlots s, hop, hbuffer, hprotected, hclosing, hother, hflag, fun n k hk => ?_⟩
    exact (congrArg (·[n]?) hslots).trans (getElem?_scannedSlots hk)
  case scan =>
    refine ⟨cutSlots s, { s with jobs.slots := scannedSlots s, jobs.op := none, free := s.free + 1 }, isCut_cutSlots s, rfl,
      by simp [scannedSlots], fun n k hk => getElem?_scannedSlots hk, ?_⟩
    simp only [scanStore, reportTorn, Bool.or_eq_true, decide_eq_true_eq]

end Sys2Proof.Machine
end

