-- ==== Sys2Proof/Proofs/Link.lean ====
section
/-! PROOFS. The queue, the holding place, replies and the end of a frame (O1, O3, O4, O6), and the state by which the link law of
O58 fails. -/

namespace Sys2Proof.Machine

/-! ## The queue (O1) -/

/-- Settles O1. -/
theorem stepRunsTheFrontCommandOnTheRestOfTheQueue : Obligations.StepRunsTheFrontCommandOnTheRestOfTheQueue := by
  refine ⟨fun _ _ _ => rfl, fun s h => ?_⟩
  rw [step, h]

/-! ## The holding place (O3) -/

section
variable {i : Instr} {r : Received} {s : State}

/-- A request comes to what its arrival makes of the part. -/
theorem request_comesTo (hr : receivedRequest i = some r) (hrun : s.power = .running) : comesTo i s (arrive r s) := by
  have harrive : arriveRequest i s = arrive r s := by rw [arriveRequest, hr]
  rw [← harrive]
  exact (exec_request hr s).trans (whileRunning_of_running _ hrun)

theorem arrive_of_answers (h : answers r.who s = true) : arrive r s = holdRequest r s := if_pos h

theorem arrive_of_not_answers (h : answers r.who s = false) : arrive r s = s := if_neg (by simp [h])

theorem holdRequest_of_empty (h : s.link.holding = []) :
    holdRequest r s = takeInProgress r { s with link.holding := [r] } := by rw [holdRequest, h]

theorem holdRequest_of_one {first : Received} (h : s.link.holding = [first]) :
    holdRequest r s = { s with link.holding := [first, r] } := by rw [holdRequest, h]

theorem holdRequest_of_two {first second : Received} {rest : List Received}
    (h : s.link.holding = first :: second :: rest) : holdRequest r s = { s with link.rxOverrun := true } := by
  rw [holdRequest, h]

end

/-- Settles O3: the request arrives, and its arrival splits on who it names and on what is held. -/
theorem theHoldingPlaceTakesHoldsOrDiscards : Obligations.TheHoldingPlaceTakesHoldsOrDiscards := by
  intro i r s hr hrun
  have harrives := request_comesTo hr hrun
  refine ⟨fun hanswers => ⟨fun hempty => ?taken, fun first hone => ?held, fun first second rest htwo => ?discarded⟩,
    fun hother => ?other⟩
  case taken => exact isAnswered_of_take (f := fun u => (takeRequest i u).1) ⟨hrun, hempty, hanswers⟩ hr rfl rfl
  case held => rwa [arrive_of_answers hanswers, holdRequest_of_one hone] at harrives
  case discarded => rwa [arrive_of_answers hanswers, holdRequest_of_two htwo] at harrives
  case other => rwa [arrive_of_not_answers hother] at harrives

/-! ## Replies (O4) -/

section
variable {i : Instr} {r : Received}

/-- The summary, octet by octet (R201). -/
theorem summary_octets (s : State) :
    (summaryCodes s).flatMap oct1 =
      oct1 s.circ.state.code ++ oct1 s.joint.state.code ++ oct1 s.jobs.state.code ++
        oct1 (s.inc.flags.bits + 64 * flagCode s.link.rxOverrun + 128 * flagCode s.flu.clockUnset) := by
  simp [summaryCodes]

theorem answered_of_received (hr : receivedRequest i = some r) (rep : Reply) (u : State) :
    answered i rep u = .next (transmit (conclude r (u, rep))) := by rw [answered, hr]

theorem conclude_own (h : r.who = .own) (taken : State × Reply) :
    conclude r taken = formReply r.kind taken.2 taken.1 := by rw [conclude, h]

theorem conclude_group (h : r.who = .group) (hform : r.form.isRestart = false) (taken : State × Reply) :
    conclude r taken = dropFront taken.1 := by
  rw [conclude, h]
  exact if_neg (by simp [hform])

/-- A RESTART to the group is the one group request that is a RESTART. -/
theorem isRestart_of_group (hr : receivedRequest i = some r) (h : r.who = .group) (hi : i ≠ .restart .group) :
    r.form.isRestart = false := by
  rw [form_of_receivedRequest hr]
  cases i with
  | restart who =>
    obtain rfl := Option.some.inj hr
    exact absurd (congrArg Instr.restart h) hi
  | _ => rfl

end

/-- Settles O4: an own request ends in its reply, a group request in its leaving the holding place; the codes stand by
evaluation. -/
theorem aReplyCarriesTheSummaryTheResultAndTheData : Obligations.AReplyCarriesTheSummaryTheResultAndTheData := by
  intro i r rep u hr
  have hans := answered_of_received hr rep u
  refine ⟨fun hown => ?own, fun hgroup hi => ?group, ?codes⟩
  case own => rw [hans, conclude_own hown, formReply, replyPayload, summary_octets]
  case group => rw [hans, conclude_group hgroup (isRestart_of_group hr hgroup hi), dropFront]
  case codes => exact ⟨rfl, rfl, rfl, by decide, fun _ => rfl⟩

/-! ## The end of a frame (O6) -/

section
variable {f : Frame} {s : State}

theorem Frame.isReply_iff : f.isReply = true ↔ 0x80 ≤ f.kind := decide_eq_true_iff

theorem transmitComplete_of_notice (h : s.link.sending = some f) (hf : f.isReply = false) :
    transmitComplete s = { s with link.sending := none } := by
  simp [transmitComplete, h, hf]

theorem transmitComplete_of_reply (h : s.link.sending = some f) (hf : f.isReply = true)
    (hform : restartInProgress s = false) :
    transmitComplete s = endInProgress { s with link.sending := none } := by
  simp [transmitComplete, h, hf, hform]

theorem transmitComplete_of_restart (h : s.link.sending = some f) (hf : f.isReply = true)
    (hform : restartInProgress s = true) :
    transmitComplete s = warmStart (presentLines s) 0 { s with link.sending := none } := by
  simp [transmitComplete, h, hf, hform]

theorem restartInProgress_of_holding {r : Received} {rest : List Received} (h : s.link.holding = r :: rest) :
    restartInProgress s = r.form.isRestart := by
  simp [restartInProgress, h]

theorem endInProgress_of_one {r : Received} (h : s.link.holding = [r]) :
    endInProgress s = { s with link.holding := [] } := by
  simp [endInProgress, dropFront, h]

theorem endInProgress_of_two {r held : Received} (h : s.link.holding = [r, held]) :
    endInProgress s = conclude held (takeForm held.form { s with link.holding := [held] }) := by
  simp [endInProgress, dropFront, takeInProgress, h]

end

/-- Settles O6: a frame of kind 0x7F is a notice, one of 0x80 or above a reply, whose request leaves the holding place. -/
theorem transmitCompleteEndsTheFrameBeingSent : Obligations.TransmitCompleteEndsTheFrameBeingSent := by
  intro f s hrun hsending
  have hcomes : comesTo .transmitComplete s (transmitComplete s) := whileRunning_of_running _ hrun
  refine ⟨fun hnotice => ?notice, fun hkind => ?reply⟩
  case notice =>
    rwa [transmitComplete_of_notice hsending (by simp [Frame.isReply, hnotice])] at hcomes
  case reply =>
    have hreply : f.isReply = true := Frame.isReply_iff.2 hkind
    refine ⟨fun r hone hform => ?last, fun r held htwo hform => ?next, fun r rest hfirst hform => ?restart⟩
    case last =>
      rwa [transmitComplete_of_reply hsending hreply ((restartInProgress_of_holding hone).trans hform),
        endInProgress_of_one (s := { s with link.sending := none }) hone] at hcomes
    case next =>
      rwa [transmitComplete_of_reply hsending hreply ((restartInProgress_of_holding htwo).trans hform),
        endInProgress_of_two (s := { s with link.sending := none }) htwo] at hcomes
    case restart =>
      rwa [transmitComplete_of_restart hsending hreply ((restartInProgress_of_holding hfirst).trans hform)] at hcomes

/-! ## The link law (O58) -/

/-- A lawful running part with a request in progress whose waiting reply carries a kind below 0x80, and one command queued.
The law asks a reply to wait, and not that its kind is one of a reply. -/
def replyOfRequestKind : State :=
  { State.reset with
    link.holding := [{ who := .own, kind := 0x01, form := .request (.readStatus .own 0) }]
    link.reply := some { address := 7, kind := 0x01, payload := [] }
    pending := [.rxFrameTimeout] }

theorem replyOfRequestKind_lawful : linkLawful replyOfRequestKind := by decide

theorem step_replyOfRequestKind :
    step replyOfRequestKind =
      .next { replyOfRequestKind with
        link.reply := none
        link.sending := replyOfRequestKind.link.reply
        pending := [] } := rfl

/-- Refutes O58: the free line begins the waiting frame, whose kind is no reply's, and the request in progress is left with
no reply waiting or being sent. -/
theorem not_everyStepKeepsTheLinkLaw : ¬ Obligations.EveryStepKeepsTheLinkLaw := fun h =>
  absurd (h _ _ replyOfRequestKind_lawful step_replyOfRequestKind) (by decide)

end Sys2Proof.Machine
end

