-- ==== Sys2Proof/Proofs/Codec.lean ====
section
/-! PROOFS. Requests as octets: every request is read back from its payload (O8), and a wrong form is answered and has no other
effect (O9). -/

namespace Sys2Proof.Machine

/-! ## Fields in order -/

/-- A number that fits an octet is read back from it. -/
theorem toNat_octet {n : Nat} (h : n < 256) : (BitVec.ofNat 8 n).toNat = n := by
  rw [BitVec.toNat_ofNat, Nat.mod_eq_of_lt h]

/-- The octets of some fields, each a width and a value. -/
def fieldOctets (fields : List (Nat × Nat)) : List Byte := fields.flatMap fun f => octets f.1 f.2

/-- Every field is read back from its octets, at any value they hold. -/
theorem splitFields_fieldOctets {fields : List (Nat × Nat)} (h : ∀ f ∈ fields, f.2 < 256 ^ f.1) :
    splitFields (fields.map Prod.fst) (fieldOctets fields) = some (fields.map Prod.snd) := by
  induction fields with
  | nil => rfl
  | cons f fields ih =>
    rw [List.map_cons, fieldOctets, List.flatMap_cons, splitFields_octets _ _ (h f List.mem_cons_self)]
    exact congrArg _ (ih fun g hg => h g (List.mem_cons_of_mem f hg))

/-- Octets of another length than the widths give are not cut (R201 step 2). -/
theorem splitFields_of_length {widths : List Nat} {bs : List Byte} (h : bs.length ≠ widths.sum) :
    splitFields widths bs = none := by
  induction widths generalizing bs with
  | nil =>
    cases bs with
    | nil => exact absurd rfl h
    | cons b bs => rfl
  | cons w widths ih =>
    rw [splitFields]
    split
    · rfl
    · next hlen =>
      have hrest : (bs.drop w).length ≠ widths.sum := by
        rw [List.length_drop]
        rw [List.sum_cons] at h
        omega
      rw [ih hrest, Option.map_none]

theorem judgeFields_of_length {widths : List Nat} {payload : List Byte} (build : List Nat → RequestForm)
    (h : payload.length ≠ widths.sum) : judgeFields widths payload build = .badLength := by
  rw [judgeFields, splitFields_of_length h]

theorem judgeFields_of_split {widths fields : List Nat} {payload : List Byte} (build : List Nat → RequestForm)
    (h : splitFields widths payload = some fields) : judgeFields widths payload build = build fields := by
  rw [judgeFields, h]

theorem judgeFields_fieldOctets {fields : List (Nat × Nat)} (build : List Nat → RequestForm)
    (h : ∀ f ∈ fields, f.2 < 256 ^ f.1) :
    judgeFields (fields.map Prod.fst) (fieldOctets fields) build = build (fields.map Prod.snd) :=
  judgeFields_of_split build (splitFields_fieldOctets h)

/-! ## Requests of one to five fields -/

/-- The value fits `w` octets. -/
abbrev fitsIn (w n : Nat) : Bool := decide (n < 256 ^ w)

section
variable {w₁ w₂ w₃ w₄ w₅ a b c d e : Nat}

theorem judgeOne_octets (f : Nat → Instr) (h : fitsIn w₁ a = true) :
    judgeOne w₁ f (octets w₁ a) = .request (f a) := by
  simpa [fieldOctets, judgeOne] using judgeFields_fieldOctets (fields := [(w₁, a)]) _ (by simpa using h)

theorem judgeTwo_octets (f : Nat → Nat → Instr) (h : (fitsIn w₁ a && fitsIn w₂ b) = true) :
    judgeTwo w₁ w₂ f (octets w₁ a ++ octets w₂ b) = .request (f a b) := by
  simpa [fieldOctets, judgeTwo] using
    judgeFields_fieldOctets (fields := [(w₁, a), (w₂, b)]) _ (by simpa using h)

theorem judgeThree_octets (f : Nat → Nat → Nat → Instr) (h : (fitsIn w₁ a && fitsIn w₂ b && fitsIn w₃ c) = true) :
    judgeThree w₁ w₂ w₃ f (octets w₁ a ++ octets w₂ b ++ octets w₃ c) = .request (f a b c) := by
  simpa [fieldOctets, judgeThree] using
    judgeFields_fieldOctets (fields := [(w₁, a), (w₂, b), (w₃, c)]) _ (by simpa [and_assoc] using h)

theorem judgeFour_octets (f : Nat → Nat → Nat → Nat → Instr)
    (h : (fitsIn w₁ a && fitsIn w₂ b && fitsIn w₃ c && fitsIn w₄ d) = true) :
    judgeFour w₁ w₂ w₃ w₄ f (octets w₁ a ++ octets w₂ b ++ octets w₃ c ++ octets w₄ d) = .request (f a b c d) := by
  simpa [fieldOctets, judgeFour] using
    judgeFields_fieldOctets (fields := [(w₁, a), (w₂, b), (w₃, c), (w₄, d)]) _ (by simpa [and_assoc] using h)

theorem judgeFive_octets (f : Nat → Nat → Nat → Nat → Nat → Instr)
    (h : (fitsIn w₁ a && fitsIn w₂ b && fitsIn w₃ c && fitsIn w₄ d && fitsIn w₅ e) = true) :
    judgeFive w₁ w₂ w₃ w₄ w₅ f (octets w₁ a ++ octets w₂ b ++ octets w₃ c ++ octets w₄ d ++ octets w₅ e) =
      .request (f a b c d e) := by
  simpa [fieldOctets, judgeFive] using
    judgeFields_fieldOctets (fields := [(w₁, a), (w₂, b), (w₃, c), (w₄, d), (w₅, e)]) _ (by simpa [and_assoc] using h)

end

/-! ## Requests with a list or a field that may be absent -/

theorem judgeReadRecords_octets (who : Addressee) {collection sel1 sel2 start count direction : Nat}
    (h : (fits1 collection && fits1 sel1 && fits1 sel2 && fits2 start && fits1 count && fits1 direction) = true) :
    judgeReadRecords who
        (oct1 collection ++ oct1 sel1 ++ oct1 sel2 ++ oct2 start ++ oct1 count ++ oct1 direction) =
      .request (.readRecords who collection sel1 sel2 start count direction) := by
  simpa [fieldOctets, judgeReadRecords, oct1, oct2] using
    judgeFields_fieldOctets
      (fields := [(1, collection), (1, sel1), (1, sel2), (2, start), (1, count), (1, direction)]) _
      (by simpa [fits1, fits2, and_assoc] using h)

/-- The presence octet of a field that may be absent. -/
def presence (o : Option Nat) : Nat := if o.isSome then 1 else 0

theorem octMaybe_eq (o : Option Nat) : octMaybe o = octets 1 (presence o) ++ octets 4 (o.getD 0) := by cases o <;> rfl

theorem presence_le (o : Option Nat) : presence o ≤ 1 := by cases o <;> simp [presence]

theorem present_presence (o : Option Nat) : present (presence o) (o.getD 0) = o := by cases o <;> rfl

theorem judgeWaterStrike_octets (who : Addressee) {yield : Nat} {depth level : Option Nat}
    (h : (fits2 yield && fits4 (depth.getD 0) && fits4 (level.getD 0)) = true) :
    judgeWaterStrike who (oct2 yield ++ octMaybe depth ++ octMaybe level) =
      .request (.waterStrike who yield depth level) := by
  have hdepth := presence_le depth
  have hlevel := presence_le level
  have hfits : ∀ f ∈ [(2, yield), (1, presence depth), (4, depth.getD 0), (1, presence level), (4, level.getD 0)],
      f.2 < 256 ^ f.1 := by
    simp only [fits2, fits4, Bool.and_eq_true, decide_eq_true_eq] at h
    simp
    omega
  have hread := splitFields_fieldOctets hfits
  simp only [fieldOctets, List.flatMap_cons, List.flatMap_nil, List.map_cons, List.map_nil, List.append_nil] at hread
  rw [octMaybe_eq, octMaybe_eq, oct2, List.append_assoc, List.append_assoc]
  refine (judgeFields_of_split _ hread).trans ?_
  dsimp only
  rw [if_neg (by omega), present_presence, present_presence]

/-- Fields of four octets are read back. -/
theorem splitFields_fours {xs : List Nat} (h : xs.all fits4 = true) :
    splitFields (List.replicate xs.length 4) (xs.flatMap oct4) = some xs := by
  have hlist := splitFields_flatMap (w := 4) (xs := xs) (by simpa [fits4] using h) [] []
  rw [List.append_nil, List.append_nil] at hlist
  exact hlist.trans (by simp [splitFields])

/-- Fields of four octets are read back after one of one octet. -/
theorem splitFields_one_fours {n : Nat} {xs : List Nat} (hn : n < 256) (h : xs.all fits4 = true) :
    splitFields (1 :: List.replicate xs.length 4) (oct1 n ++ xs.flatMap oct4) = some (n :: xs) := by
  rw [oct1, splitFields_octets _ _ (by simpa using hn), splitFields_fours h, Option.map_some]

theorem judgeStageBands_octets (who : Addressee) {count : Nat} {floors : List Nat}
    (h : (decide (count = floors.length) && decide (floors.length ≤ 59) && floors.all fits4) = true) :
    judgeStageBands who (oct1 count ++ floors.flatMap oct4) = .request (.stageBands who count floors) := by
  simp only [Bool.and_eq_true, decide_eq_true_eq] at h
  obtain ⟨⟨hcount, hlen⟩, hfits⟩ := h
  subst hcount
  have hoctet : (BitVec.ofNat 8 floors.length).toNat = floors.length := toNat_octet (by omega)
  have hread := splitFields_one_fours (n := floors.length) (by omega) hfits
  rw [oct1_eq, List.singleton_append] at hread ⊢
  rw [judgeStageBands, hoctet]
  exact judgeFields_of_split _ hread

theorem judgeFootageRow_octets (who : Addressee) {cls : Nat} {rates : List Nat}
    (h : (fits1 cls && decide (rates.length = 6) && rates.all fits4) = true) :
    judgeFootageRow who (oct1 cls ++ rates.flatMap oct4) = .request (.stageFootageRow who cls rates) := by
  simp only [Bool.and_eq_true, fits1, decide_eq_true_eq] at h
  obtain ⟨⟨hcls, hlen⟩, hfits⟩ := h
  have hread := splitFields_one_fours hcls hfits
  rw [hlen] at hread
  exact judgeFields_of_split _ hread

theorem judgeTimeRates_octets (who : Addressee) {rates : List Nat}
    (h : (decide (rates.length = 7) && rates.all fits4) = true) :
    judgeTimeRates who (rates.flatMap oct4) = .request (.stageTimeRates who rates) := by
  simp only [Bool.and_eq_true, decide_eq_true_eq] at h
  obtain ⟨hlen, hfits⟩ := h
  have hread := splitFields_fours hfits
  rw [hlen] at hread
  exact judgeFields_of_split _ hread

theorem judgeOpenJob_octets (who : Addressee) {number client : Nat} {well : List Byte}
    (h : (fits4 number && fits2 client && decide (well.length = 12)) = true) :
    judgeOpenJob who (oct4 number ++ oct2 client ++ well) = .request (.openJob who number client well) := by
  simp only [Bool.and_eq_true, fits4, fits2, decide_eq_true_eq] at h
  obtain ⟨⟨hnumber, hclient⟩, hlen⟩ := h
  have hwell := splitFields_bytes well
  rw [hlen] at hwell
  have hread : splitFields (4 :: 2 :: List.replicate 12 1) (oct4 number ++ oct2 client ++ well) =
      some (number :: client :: well.map BitVec.toNat) := by
    rw [oct4, oct2, List.append_assoc, splitFields_octets _ _ (by simpa using hnumber),
      splitFields_octets _ _ (by simpa using hclient), hwell]
    rfl
  refine (judgeFields_of_split _ hread).trans ?_
  simp [Function.comp_def]

theorem judgeCloseJob_octets (who : Addressee) (force : Bool) :
    judgeCloseJob who (octFlag force) = .request (.closeJob who force) := by cases force <;> rfl

/-! ## Every request -/

/-- Settles O8: each request's payload is its fields, read back at the widths of its kind. -/
theorem everyRequestIsReadBackFromItsOctets : Obligations.EveryRequestIsReadBackFromItsOctets := by
  intro i w h hw
  cases i <;> cases hw
  case readRecords who _ _ _ _ _ _ => exact judgeReadRecords_octets who h
  case waterStrike who _ _ _ => exact judgeWaterStrike_octets who h
  case stageBands who _ _ => exact judgeStageBands_octets who h
  case stageFootageRow who _ _ => exact judgeFootageRow_octets who h
  case stageTimeRates who _ => exact judgeTimeRates_octets who h
  case openJob who _ _ _ => exact judgeOpenJob_octets who h
  case closeJob who force => exact judgeCloseJob_octets who force
  case readStatus | setClock | setReturnMeter | startCirculation | pumpTest | delistRod | setOverpullLimit |
      rackRod | formation | commitStage | setCategory | clearIncident | setNoticeMask | eraseTicket =>
    exact judgeOne_octets _ h
  case setChannel | placeRod | setRodStatus | setRodLimits | setDepthReference | amendNote | drawMaterial =>
    exact judgeTwo_octets _ h
  case setPump | setLagGeometry | stageMaterial => exact judgeThree_octets _ h
  case setSection => exact judgeFour_octets _ h
  case setFlowBalance | setCirculationLimits | registerRod | setJointLimits => exact judgeFive_octets _ h
  all_goals rfl

/-! ## Wrong forms (O9) -/

/-- A kind other than that of STAGE BANDS fixes the widths of its payload, or is no request's. -/
theorem judgeForm_widths (who : Addressee) {kind : Nat} (h : kind ≠ 0x40) :
    (∃ widths build, ∀ payload, judgeForm who kind payload = judgeFields widths payload build) ∨
      ∀ payload, judgeForm who kind payload = .unknownKind := by
  unfold judgeForm
  split
  case h_33 => exact absurd rfl h
  case h_50 => exact .inr fun _ => rfl
  all_goals exact .inl ⟨_, _, fun _ => rfl⟩

theorem judgeForm_of_unknown (who : Addressee) {kind : Nat} (payload : List Byte)
    (h : requestKinds.contains kind = false) : judgeForm who kind payload = .unknownKind := by
  unfold judgeForm
  split
  case h_50 => rfl
  all_goals exact absurd h (by decide)

/-- A payload of another length than the request's own is answered LENGTH: the kind alone fixes the length. -/
theorem judgeForm_of_length {i : Instr} {w : Wire} {payload : List Byte} (h : i.wellFormed = true)
    (hw : requestWire i = some w) (hkind : w.kind ≠ 0x40) (hlen : payload.length ≠ w.payload.length) :
    judgeForm w.who w.kind payload = .badLength := by
  have hback := everyRequestIsReadBackFromItsOctets i w h hw
  obtain ⟨widths, build, hfixed⟩ | hunknown := judgeForm_widths w.who hkind
  · have hown : w.payload.length = widths.sum := by
      by_contra hne
      rw [hfixed, judgeFields_of_length build hne] at hback
      cases hback
    rw [hfixed, judgeFields_of_length build (hown ▸ hlen)]
  · rw [hunknown] at hback
    cases hback

/-- A ready part takes any kind below 0x80 as R201 judges it. -/
theorem unknownKind_comesTo {who : Addressee} {kind : Nat} {payload : List Byte} {s : State} (hkind : kind < 0x80)
    (h : ready who s) :
    comesTo (.unknownKind who kind payload) s
      (takeInProgress (receivedFrame who kind payload)
        { s with link.holding := [receivedFrame who kind payload] }) := by
  obtain ⟨hrun, hempty, hanswers⟩ := h
  have hcomes : comesTo (.unknownKind who kind payload) s (arriveKind who kind payload s) :=
    whileRunning_of_running _ hrun
  rwa [arriveKind, if_pos hkind, arrive_of_answers (r := receivedFrame who kind payload) hanswers,
    holdRequest_of_empty hempty] at hcomes

/-- Settles O9: such a form has no owner, so that nothing but its answer is left of it. -/
theorem aWrongFormIsAnsweredAndChangesNothingElse : Obligations.AWrongFormIsAnsweredAndChangesNothingElse := by
  refine ⟨fun who kind payload s hkind hready => ⟨fun hunknown => ?unknown, fun hbad => ?length⟩,
    fun i w payload h hw hkind hlen => judgeForm_of_length h hw hkind hlen⟩
  case unknown =>
    have hcomes := unknownKind_comesTo (payload := payload) hkind hready
    rwa [receivedFrame, judgeForm_of_unknown who payload hunknown] at hcomes
  case length =>
    have hcomes := unknownKind_comesTo (payload := payload) hkind hready
    rwa [receivedFrame, hbad] at hcomes

end Sys2Proof.Machine
end

