-- ==== Sys2Proof/Proofs/Receiver.lean ====
section
/-! PROOFS. The receiver: a whole frame at a hunting receiver is the request it spells or is discarded, and a broken frame is
discarded (O7, O10). -/

namespace Sys2Proof.Machine

/-! ## A frame of octets -/

/-- A frame on the line: sync, address, kind, length, and what follows (spec 11, Frames). -/
def frameOctets (a k n : Byte) (rest : List Byte) : List Byte := [0xC3#8, a, k, n] ++ rest

section
variable {a k n : Byte} {rest : List Byte}

/-- From the fourth octet on the length octet stands. -/
theorem lengthOctet_take (rest : List Byte) {j : Nat} (hj : 4 ≤ j) :
    lengthOctet ((frameOctets a k n rest).take j) = n.toNat := by
  rw [lengthOctet, List.getElem?_take, if_pos (by omega)]
  rfl

theorem lengthTooLarge_take (hn : n.toNat ≤ 240) (j : Nat) :
    lengthTooLarge ((frameOctets a k n rest).take j) = false := by
  by_cases hj : 4 ≤ j
  · simp [lengthTooLarge, lengthOctet_take rest hj, Config.payloadMax, hn]
  · have hshort : ((frameOctets a k n rest).take j).length ≠ 4 := by rw [List.length_take]; omega
    rw [lengthTooLarge, decide_eq_false hshort, Bool.false_and]

theorem frameComplete_take (hlen : rest.length = n.toNat + 2) {j : Nat} (hj : j < 6 + n.toNat) :
    frameComplete ((frameOctets a k n rest).take j) = false := by
  have hshort : ((frameOctets a k n rest).take j).length = j := by
    rw [List.length_take, frameOctets, List.length_append, hlen]
    simp
    omega
  by_cases h4 : 4 ≤ j
  · simp [frameComplete, lengthOctet_take rest h4, hshort]
    omega
  · simp [frameComplete, hshort, h4]

theorem frameOctets_complete (hlen : rest.length = n.toNat + 2) :
    frameComplete (frameOctets a k n rest) = true := by
  simp [frameComplete, frameOctets, lengthOctet, hlen]
  omega

theorem frameOctets_lengthTooLarge (hn : n.toNat ≤ 240) : lengthTooLarge (frameOctets a k n rest) = false := by
  simpa using lengthTooLarge_take (a := a) (k := k) (rest := rest) hn (frameOctets a k n rest).length

theorem crcGood_frameOctets (a k n : Byte) (rest : List Byte) :
    crcGood (frameOctets a k n rest) =
      decide (number (rest.drop n.toNat) = (crc ([a, k, n] ++ rest.take n.toNat)).toNat) := by
  have hlength : lengthOctet (frameOctets a k n rest) = n.toNat := rfl
  have hdrop : (frameOctets a k n rest).drop (1 + (3 + n.toNat)) = rest.drop n.toNat := by
    rw [← Nat.add_assoc, ← List.drop_drop]
    rfl
  have htake : ((frameOctets a k n rest).drop 1).take (3 + n.toNat) = [a, k, n] ++ rest.take n.toNat := by
    rw [Nat.add_comm]
    rfl
  rw [crcGood, hlength, hdrop, htake]

theorem judgeFrame_of_bad_crc (s : State)
    (hcrc : number (rest.drop n.toNat) ≠ (crc ([a, k, n] ++ rest.take n.toNat)).toNat) :
    judgeFrame (frameOctets a k n rest) s = none := by
  have hbad : crcGood (frameOctets a k n rest) = false := by
    rw [crcGood_frameOctets]
    exact decide_eq_false hcrc
  simp [judgeFrame, hbad]

theorem judgeFrame_of_good {w : Addressee} {s : State}
    (hcrc : number (rest.drop n.toNat) = (crc ([a, k, n] ++ rest.take n.toNat)).toNat)
    (hwho : addresseeOf a.toNat s = some w) (hkind : k.toNat < 0x80) :
    judgeFrame (frameOctets a k n rest) s = some (receivedFrame w k.toNat (rest.take n.toNat)) := by
  have hgood : crcGood (frameOctets a k n rest) = true := by
    rw [crcGood_frameOctets]
    exact decide_eq_true hcrc
  have haddress : number (((frameOctets a k n rest).drop 1).take 1) = a.toNat := by simp [frameOctets, number]
  have hk : number (((frameOctets a k n rest).drop 2).take 1) = k.toNat := by simp [frameOctets, number]
  have hpayload : ((frameOctets a k n rest).drop 4).take (lengthOctet (frameOctets a k n rest)) = rest.take n.toNat :=
    rfl
  simp only [judgeFrame, hgood, haddress, hk, hpayload, hwho, hkind, if_true]

end

/-! ## The receiver, octet by octet (R198) -/

section
variable {b : Byte} {s : State}

theorem receiveOctet_hunting (hrx : s.link.rx = []) (hb : b ≠ 0xC3#8) : receiveOctet b s = s := if_pos ⟨hrx, hb⟩

theorem receiveOctet_sync (hrx : s.link.rx = []) :
    receiveOctet 0xC3#8 s = { s with link.rx := [0xC3#8] } := by
  simp [receiveOctet, hrx, lengthTooLarge, frameComplete]

theorem receiveOctet_tooLong {x y z : Byte} (hrx : s.link.rx = [x, y, z]) (h : 240 < b.toNat) :
    receiveOctet b s = { s with link.rx := [] } := by
  simp [receiveOctet, hrx, lengthTooLarge, lengthOctet, Config.payloadMax, h]

theorem receiveOctet_of_good {r : Received} (hne : s.link.rx ≠ [])
    (hlong : lengthTooLarge (s.link.rx ++ [b]) = false) (hdone : frameComplete (s.link.rx ++ [b]) = true)
    (hjudge : judgeFrame (s.link.rx ++ [b]) s = some r) :
    receiveOctet b s = transmit (arrive r { s with link.rx := [] }) := by
  simp [receiveOctet, hne, hlong, hdone, hjudge]

theorem receiveOctet_of_bad (hne : s.link.rx ≠ [])
    (hlong : lengthTooLarge (s.link.rx ++ [b]) = false) (hdone : frameComplete (s.link.rx ++ [b]) = true)
    (hjudge : judgeFrame (s.link.rx ++ [b]) s = none) : receiveOctet b s = { s with link.rx := [] } := by
  simp [receiveOctet, hne, hlong, hdone, hjudge]

end

/-! ## A whole frame at a hunting receiver -/

/-- The part with these octets of a frame received. -/
def assembling (octs : List Byte) (s : State) : State := { s with link.rx := octs }

section
variable {a k n : Byte} {rest : List Byte} {s : State}

theorem assembling_nil (hrx : s.link.rx = []) : assembling [] s = s := by
  rw [assembling, ← hrx]

/-- All octets of a frame but its last join the partial frame. -/
theorem receiveOctets_frameOctets (hrx : s.link.rx = []) (hn : n.toNat ≤ 240) (hlen : rest.length = n.toNat + 2) :
    ∃ octs b, frameOctets a k n rest = octs ++ [b] ∧ octs ≠ [] ∧
      receiveOctets (frameOctets a k n rest) s = receiveOctet b (assembling octs s) := by
  obtain ⟨init, b, rfl⟩ : ∃ init b, rest = init ++ [b] := by
    have hne : rest ≠ [] := List.ne_nil_of_length_pos (by omega)
    exact ⟨_, _, (List.dropLast_append_getLast hne).symm⟩
  have hinit : init.length = n.toNat + 1 := by simpa using hlen
  refine ⟨0xC3#8 :: ([a, k, n] ++ init), b, by simp [frameOctets], List.cons_ne_nil _ _, ?_⟩
  have hcut : frameOctets a k n (init ++ [b]) = 0xC3#8 :: (([a, k, n] ++ init) ++ [b]) := by simp [frameOctets]
  have hjoin : receiveOctets ([a, k, n] ++ init) { s with link.rx := [0xC3#8] } =
      assembling (0xC3#8 :: ([a, k, n] ++ init)) s := by
    refine receiveOctets_join (p := [0xC3#8]) (List.cons_ne_nil _ _) rfl fun j _ hj => ?_
    have hj' : j ≤ n.toNat + 5 := by simp [hinit] at hj; omega
    have htake : ([0xC3#8] ++ ([a, k, n] ++ init)).take j = (frameOctets a k n (init ++ [b])).take j := by
      rw [hcut, ← List.cons_append, List.take_append_of_le_length (l₁ := 0xC3#8 :: ([a, k, n] ++ init))
        (by simp [hinit]; omega)]
      rfl
    rw [htake]
    exact ⟨lengthTooLarge_take hn j, frameComplete_take hlen (by omega)⟩
  rw [hcut, receiveOctets, receiveOctet_sync hrx, receiveOctets_append, hjoin]
  rfl

/-- A complete frame that passes the receiver's tests arrives as the request it spells. -/
theorem receiveOctets_of_good {r : Received} (hrx : s.link.rx = []) (hn : n.toNat ≤ 240)
    (hlen : rest.length = n.toNat + 2) (hjudge : judgeFrame (frameOctets a k n rest) s = some r) :
    receiveOctets (frameOctets a k n rest) s = transmit (arrive r s) := by
  obtain ⟨octs, b, hocts, hne, hreceive⟩ := receiveOctets_frameOctets (a := a) (k := k) hrx hn hlen
  have hlong := frameOctets_lengthTooLarge (a := a) (k := k) (rest := rest) hn
  have hdone := frameOctets_complete (a := a) (k := k) hlen
  rw [hocts] at hlong hdone hjudge
  rw [hreceive, receiveOctet_of_good (s := assembling octs s) hne hlong hdone hjudge]
  exact congrArg (fun u => transmit (arrive r u)) (assembling_nil hrx)

/-- A complete frame that fails a test of the receiver is discarded. -/
theorem receiveOctets_of_bad (hrx : s.link.rx = []) (hn : n.toNat ≤ 240) (hlen : rest.length = n.toNat + 2)
    (hjudge : judgeFrame (frameOctets a k n rest) s = none) : receiveOctets (frameOctets a k n rest) s = s := by
  obtain ⟨octs, b, hocts, hne, hreceive⟩ := receiveOctets_frameOctets (a := a) (k := k) hrx hn hlen
  have hlong := frameOctets_lengthTooLarge (a := a) (k := k) (rest := rest) hn
  have hdone := frameOctets_complete (a := a) (k := k) hlen
  rw [hocts] at hlong hdone hjudge
  rw [hreceive, receiveOctet_of_bad (s := assembling octs s) hne hlong hdone hjudge]
  exact assembling_nil hrx

end

/-! ## Broken frames (O10) -/

theorem transmit_rx (s : State) : (transmit s).link.rx = s.link.rx := by
  obtain ⟨sending, reply, notices, h⟩ := transmit_eq s
  rw [h]

/-- Settles O10. -/
theorem theReceiverDiscardsABrokenFrame : Obligations.TheReceiverDiscardsABrokenFrame := by
  intro s hrun
  have hcomes : ∀ octs, comesTo (.frameReceived octs) s (receiveOctets octs s) := fun octs =>
    whileRunning_of_running _ hrun
  refine ⟨whileRunning_of_running receiverHunts hrun, whileRunning_of_running receiverHunts hrun,
    fun octs => ⟨_, whileRunning_of_running (fun t => receiverHunts (receiveOctets octs t)) hrun, transmit_rx _⟩,
    fun a b c length hrx hlong => ?tooLong, fun hrx => ⟨fun b hb => ?hunting, fun a k n rest hn hlen hcrc => ?crc⟩⟩
  case tooLong =>
    rw [← receiveOctet_tooLong hrx hlong]
    exact whileRunning_of_running _ hrun
  case hunting =>
    have hone := hcomes [b]
    rwa [receiveOctets, receiveOctets, receiveOctet_hunting hrx hb] at hone
  case crc =>
    have hframe := hcomes (frameOctets a k n rest)
    rwa [receiveOctets_of_bad hrx hn hlen (judgeFrame_of_bad_crc s hcrc)] at hframe

/-! ## Good frames (O7) -/

/-- The address octet of a request to the addressee. -/
def addressOf (who : Addressee) (s : State) : Nat :=
  match who with
  | .own => (ownAddress s).getD 0
  | .group => 31

theorem ownAddress_lt {s : State} {address : Nat} (h : ownAddress s = some address) : address < 31 := by
  unfold ownAddress at h
  split at h
  · next hstraps =>
    obtain rfl := Option.some.inj h
    omega
  · cases h

theorem addressOf_lt {who : Addressee} {s : State} (h : answers who s = true) : addressOf who s < 256 := by
  cases who with
  | own =>
    obtain ⟨address, haddress⟩ := Option.isSome_iff_exists.1 h
    have hlt := ownAddress_lt haddress
    simp only [addressOf, haddress, Option.getD_some]
    omega
  | group => simp [addressOf]

theorem addresseeOf_addressOf {who : Addressee} {s : State} (h : answers who s = true) :
    addresseeOf (addressOf who s) s = some who := by
  cases who with
  | own =>
    obtain ⟨address, haddress⟩ := Option.isSome_iff_exists.1 h
    have hlt := ownAddress_lt haddress
    simp [addressOf, addresseeOf, haddress]
    omega
  | group => rfl

/-- Every request's kind is below 0x80, and a frame holds its payload (R198). -/
theorem requestWire_bounds {i : Instr} {w : Wire} (h : i.wellFormed = true) (hw : requestWire i = some w) :
    w.kind < 0x80 ∧ w.payload.length ≤ 240 := by
  cases i <;> cases hw
  case stageBands | stageFootageRow | stageTimeRates | openJob =>
    simp only [Instr.wellFormed, Bool.and_eq_true, decide_eq_true_eq] at h
    simp [oct1, oct2, oct4]
    omega
  all_goals simp [oct1, oct2, oct4, octFlag, octMaybe_eq]

/-- The line of a request, cut into the octets the receiver judges. -/
theorem requestLine_eq (w : Wire) (s : State) :
    requestLine w s =
      frameOctets (BitVec.ofNat 8 (addressOf w.who s)) (BitVec.ofNat 8 w.kind) (BitVec.ofNat 8 w.payload.length)
        (w.payload ++ oct2 (crc ([BitVec.ofNat 8 (addressOf w.who s), BitVec.ofNat 8 w.kind,
          BitVec.ofNat 8 w.payload.length] ++ w.payload)).toNat) := by
  have hline : requestLine w s =
      Frame.line { address := addressOf w.who s, kind := w.kind, payload := w.payload } := rfl
  simp [hline, Frame.line, Frame.body, frameOctets, oct1_eq]

/-- The frame of a request passes the receiver's tests (R198). -/
theorem judgeFrame_requestLine {i : Instr} {w : Wire} {s : State} (h : i.wellFormed = true)
    (hw : requestWire i = some w) (hanswers : answers w.who s = true) :
    judgeFrame (requestLine w s) s = some { who := w.who, kind := w.kind, form := .request i } := by
  obtain ⟨hkind, hlen⟩ := requestWire_bounds h hw
  have haddress := toNat_octet (addressOf_lt hanswers)
  have hk : (BitVec.ofNat 8 w.kind).toNat = w.kind := toNat_octet (by omega)
  have hn : (BitVec.ofNat 8 w.payload.length).toNat = w.payload.length := toNat_octet (by omega)
  rw [requestLine_eq, judgeFrame_of_good (w := w.who)]
  · rw [hk, hn, List.take_left, receivedFrame, everyRequestIsReadBackFromItsOctets i w h hw]
  · rw [hn, List.drop_left, List.take_left]
    exact number_octets (BitVec.isLt _)
  · rw [haddress, addresseeOf_addressOf hanswers]
  · rwa [hk]

theorem receivedRequest_of_wire {i : Instr} {w : Wire} (hw : requestWire i = some w) :
    receivedRequest i = some { who := w.who, kind := w.kind, form := .request i } := by
  rw [receivedRequest, hw, Option.map_some]

/-- Settles O7: the frame arrives as the request itself, and the free line finds nothing more to begin. -/
theorem aGoodFrameIsTheRequestItSpells : Obligations.AGoodFrameIsTheRequestItSpells := by
  intro i w s h hw hrun hrx hanswers
  have hr := receivedRequest_of_wire hw
  obtain ⟨-, hlen⟩ := requestWire_bounds h hw
  have hsame : exec (.frameReceived (requestLine w s)) s = exec i s := by
    have hn : (BitVec.ofNat 8 w.payload.length).toNat = w.payload.length := toNat_octet (by omega)
    have hjudge := judgeFrame_requestLine h hw hanswers
    have hframe : comesTo (.frameReceived (requestLine w s)) s (receiveOctets (requestLine w s) s) :=
      whileRunning_of_running _ hrun
    rw [requestLine_eq] at hjudge hframe ⊢
    rw [receiveOctets_of_good hrx (by omega) (by simp [hn, oct2]) hjudge, comesTo, transmit_transmit] at hframe
    exact hframe.trans (request_comesTo hr hrun).symm
  refine ⟨hsame, fun hempty => hsame.trans ?_⟩
  exact isAnswered_of_take (f := fun u => (takeRequest i u).1) ⟨hrun, hempty, hanswers⟩ hr rfl rfl

end Sys2Proof.Machine
end
